-- ==== Sys2Proof/Word.lean ====
section
/-! DEFINITION. The word types of the machine (spec/00_scope.md R6) and the operand width (R6, R110). -/

namespace Sys2Proof

/-- An 8-bit value: a memory byte, an instruction byte, a byte alias. R6. -/
abbrev Byte := BitVec 8

/-- A 16-bit value: a register, IP, FLAGS, an effective-address offset. R6. -/
abbrev Word := BitVec 16

/-- The operand width of an instruction, its `W` flag: 8 or 16 bits. R6, R85. -/
inductive Width where
  | byte
  | word
  deriving DecidableEq, Repr, Inhabited

end Sys2Proof
end

