-- ==== Sys2Proof/Syntax/Operand.lean ====
section
/-! DEFINITION. The operands of an instruction as its encoding shapes them: the registers by name
(spec/10_state.md R21, R22, R26), the effective-address forms (spec/30_encoding.md R88, R89), and the operand
pairs of the decoder's shared forms (R91, R94). The width of an operand pair decides which register table names
its registers, so no pair mixes two widths (spec/40_engine_and_flags.md R152). -/

namespace Sys2Proof

/-- The eight 16-bit general registers, in the order of their numbers 000 to 111. R21. -/
inductive Reg16 where
  | ax | cx | dx | bx | sp | bp | si | di
  deriving DecidableEq, Repr

/-- The eight byte aliases, in the order of their numbers 000 to 111. R22. -/
inductive Reg8 where
  | al | cl | dl | bl | ah | ch | dh | bh
  deriving DecidableEq, Repr

/-- The four segment registers, in the order of their numbers 00 to 11. R26. -/
inductive SReg where
  | es | cs | ss | ds
  deriving DecidableEq, Repr

/-- The segment registers an instruction may name as a destination: CS is refused. R87, R114. -/
inductive SRegDst where
  | es | ss | ds
  deriving DecidableEq, Repr

/-- The eight register combinations of an effective address, in the order of rm 000 to 111. R88. -/
inductive EaBase where
  | bxSi | bxDi | bpSi | bpDi | si | di | bp | bx
  deriving DecidableEq, Repr

/-- A memory operand's ModRM form: the ninth kind, Direct, and the eight register combinations with no
displacement (mod 00), a displacement byte (mod 01) or a displacement word (mod 10). R88, R89. -/
inductive Ea where
  | direct (addr : Word)
  | base (k : EaBase)
  | disp8 (k : EaBase) (d : Byte)
  | disp16 (k : EaBase) (d : Word)
  deriving DecidableEq, Repr

/-- An r/m operand whose register form (mod 11) is named in the table `ρ`. R86, R90. -/
inductive Rm (ρ : Type) where
  | reg (r : ρ)
  | mem (m : Ea)
  deriving DecidableEq, Repr

/-- The direction bit `d`: which operand of a register/memory-with-register form is the destination.
`toRm` is d = 0, `toReg` is d = 1. R85, R94. -/
inductive Dir where
  | toRm
  | toReg
  deriving DecidableEq, Repr

/-- An r/m operand with a register operand of the same width. R94. -/
inductive RmReg where
  | byte (rm : Rm Reg8) (reg : Reg8)
  | word (rm : Rm Reg16) (reg : Reg16)
  deriving DecidableEq, Repr

/-- A lone r/m operand. R118, R119. -/
inductive RmOnly where
  | byte (rm : Rm Reg8)
  | word (rm : Rm Reg16)
  deriving DecidableEq, Repr

/-- The operands of the immediate group `100000sw`: with w = 0 a byte immediate (`s` is kept: 80 is s = 0, 82 is
s = 1), with w = 1 a word immediate (81) or a sign-extended byte (83). R91, R103, D35. -/
inductive GrpImm where
  | byte (s : Bool) (rm : Rm Reg8) (v : Byte)
  | word (rm : Rm Reg16) (v : Word)
  | wordSx (rm : Rm Reg16) (v : Byte)
  deriving DecidableEq, Repr

/-- An r/m operand with an immediate of the explicit width. R91, R105, R118. -/
inductive RmImm where
  | byte (rm : Rm Reg8) (v : Byte)
  | word (rm : Rm Reg16) (v : Word)
  deriving DecidableEq, Repr

/-- An immediate for the accumulator, AL or AX. R102, R109. -/
inductive AccImm where
  | byte (v : Byte)
  | word (v : Word)
  deriving DecidableEq, Repr

/-- A register with an immediate of its width. R106. -/
inductive RegImm where
  | byte (r : Reg8) (v : Byte)
  | word (r : Reg16) (v : Word)
  deriving DecidableEq, Repr

/-- The direction of the A0-A3 forms: bit 1 = 0 loads the accumulator, bit 1 = 1 stores it. R85, R107. -/
inductive AccDir where
  | load
  | store
  deriving DecidableEq, Repr

/-- The admitted values of the arithmetic selector `sss`; 010 (ADC) and 011 (SBB) are not admitted. R100, D2. -/
inductive AluOp where
  | add | or | and | sub | xor | cmp
  deriving DecidableEq, Repr

/-- The sixteen conditions `cccc` of the conditional jumps, in the order of their numbers. R115, R262. -/
inductive Cond where
  | o | no | b | nb | e | ne | be | nbe | s | ns | p | np | l | nl | le | nle
  deriving DecidableEq, Repr

/-- The four forms `cc` of the loop family, in the order of their numbers. R116. -/
inductive LoopKind where
  | nz | z | always | cxz
  deriving DecidableEq, Repr

/-- A repeat byte: F3 is REP, F2 is REPNE. R82. -/
inductive Rep where
  | rep
  | repne
  deriving DecidableEq, Repr

end Sys2Proof
end

