-- ==== Sys2Proof/Syntax.lean ====
section
/-! DEFINITION. The instructions: one constructor per row of spec/opcode_table.json, in the table's order. A
constructor's arguments are the fields of its encoding. A row of the table that is a prefix byte is a constructor
too: it holds the instruction the byte stands before (notes/assumptions/8.md). -/

namespace Sys2Proof

/-- One constructor per row of spec/opcode_table.json (81 rows). -/
inductive Instr where
  /-- ADD r/m,reg `00sss0dw`, R200, R101. -/
  | addRmReg (d : Dir) (o : RmReg)
  /-- ADD acc,imm `00sss10w`, R200, R102. -/
  | addAccImm (o : AccImm)
  /-- OR r/m,reg, R241, R101. -/
  | orRmReg (d : Dir) (o : RmReg)
  /-- OR acc,imm, R241, R102. -/
  | orAccImm (o : AccImm)
  /-- AND r/m,reg, R240, R101. -/
  | andRmReg (d : Dir) (o : RmReg)
  /-- AND acc,imm, R240, R102. -/
  | andAccImm (o : AccImm)
  /-- SUB r/m,reg, R201, R101. -/
  | subRmReg (d : Dir) (o : RmReg)
  /-- SUB acc,imm, R201, R102. -/
  | subAccImm (o : AccImm)
  /-- XOR r/m,reg, R242, R101. -/
  | xorRmReg (d : Dir) (o : RmReg)
  /-- XOR acc,imm, R242, R102. -/
  | xorAccImm (o : AccImm)
  /-- CMP r/m,reg, R202, R101. -/
  | cmpRmReg (d : Dir) (o : RmReg)
  /-- CMP acc,imm, R202, R102. -/
  | cmpAccImm (o : AccImm)
  /-- ADD r/m,imm `100000sw /0`, R200, R103. -/
  | addRmImm (o : GrpImm)
  /-- OR r/m,imm `100000sw /1`, R241, R103. -/
  | orRmImm (o : GrpImm)
  /-- AND r/m,imm `100000sw /4`, R240, R103. -/
  | andRmImm (o : GrpImm)
  /-- SUB r/m,imm `100000sw /5`, R201, R103. -/
  | subRmImm (o : GrpImm)
  /-- XOR r/m,imm `100000sw /6`, R242, R103. -/
  | xorRmImm (o : GrpImm)
  /-- CMP r/m,imm `100000sw /7`, R202, R103. -/
  | cmpRmImm (o : GrpImm)
  /-- INC r16 `01000rrr`, R203, R112. -/
  | incReg (r : Reg16)
  /-- DEC r16 `01001rrr`, R204, R112. -/
  | decReg (r : Reg16)
  /-- PUSH r16 `01010rrr`, R292, R113. -/
  | pushReg (r : Reg16)
  /-- POP r16 `01011rrr`, R296, R113. -/
  | popReg (r : Reg16)
  /-- PUSH sreg `000ss110` (tier X), R294, R114. -/
  | pushSreg (r : SReg)
  /-- POP ES `07` (tier X), R295, R114. -/
  | popEs
  /-- POP SS `17` (tier X), R295, R114. -/
  | popSs
  /-- POP DS `1F` (tier X), R295, R114. -/
  | popDs
  /-- JO `70 d8`, R263, R115. -/
  | jo (d : Byte)
  /-- JNO `71 d8`, R264, R115. -/
  | jno (d : Byte)
  /-- JB `72 d8`, R265, R115. -/
  | jb (d : Byte)
  /-- JNB `73 d8`, R266, R115. -/
  | jnb (d : Byte)
  /-- JE `74 d8`, R267, R115. -/
  | je (d : Byte)
  /-- JNE `75 d8`, R268, R115. -/
  | jne (d : Byte)
  /-- JBE `76 d8`, R269, R115. -/
  | jbe (d : Byte)
  /-- JNBE `77 d8`, R270, R115. -/
  | jnbe (d : Byte)
  /-- JS `78 d8`, R271, R115. -/
  | js (d : Byte)
  /-- JNS `79 d8`, R272, R115. -/
  | jns (d : Byte)
  /-- JP `7A d8`, R273, R115. -/
  | jp (d : Byte)
  /-- JNP `7B d8`, R274, R115. -/
  | jnp (d : Byte)
  /-- JL `7C d8`, R275, R115. -/
  | jl (d : Byte)
  /-- JNL `7D d8`, R276, R115. -/
  | jnl (d : Byte)
  /-- JLE `7E d8`, R277, R115. -/
  | jle (d : Byte)
  /-- JNLE `7F d8`, R278, R115. -/
  | jnle (d : Byte)
  /-- TEST r/m,reg `1000010w`, R243, R109. -/
  | testRmReg (o : RmReg)
  /-- MOV r/m,reg `1000100w`, R181, R104. -/
  | movRmReg (o : RmReg)
  /-- MOV reg,r/m `1000101w`, R182, R104. -/
  | movRegRm (o : RmReg)
  /-- MOV r/m16,sreg `8C` (tier X), R187, R108. -/
  | movRmSreg (rm : Rm Reg16) (r : SReg)
  /-- MOV sreg,r/m16 `8E` (tier X), R186, R108. -/
  | movSregRm (r : SRegDst) (rm : Rm Reg16)
  /-- POP r/m16 `8F /0`, R297, R119. -/
  | popRm (rm : Rm Reg16)
  /-- PUSHF `9C`, R298, R121. -/
  | pushf
  /-- POPF `9D`, R299, R121. -/
  | popf
  /-- MOV acc,[addr] / [addr],acc `101000xw`, R185, R107. -/
  | movAccMem (x : AccDir) (w : Width) (addr : Word)
  /-- TEST acc,imm `1010100w`, R243, R109. -/
  | testAccImm (o : AccImm)
  /-- STOSB `AA`, R332, R121. -/
  | stosb
  /-- STOSW `AB`, R333, R121. -/
  | stosw
  /-- MOV reg,imm `1011wrrr`, R184, R106. -/
  | movRegImm (o : RegImm)
  /-- MOV r/m,imm `1100011w /0`, R183, R105. -/
  | movRmImm (o : RmImm)
  /-- INT 3 `CC`, R312, R121. -/
  | int3
  /-- INT imm8 `CD n`, R311, R121. -/
  | intImm (n : Byte)
  /-- INTO `CE`, R313, R121. -/
  | into
  /-- IRET `CF`, R314, R121. -/
  | iret
  /-- LOOPNZ `E0 d8`, R280, R116. -/
  | loopnz (d : Byte)
  /-- LOOPZ `E1 d8`, R281, R116. -/
  | loopz (d : Byte)
  /-- LOOP `E2 d8`, R282, R116. -/
  | loop (d : Byte)
  /-- JCXZ `E3 d8`, R283, R116. -/
  | jcxz (d : Byte)
  /-- JMP near rel16 `E9 lo hi` (tier X), R284, R117. -/
  | jmpNear (d : Word)
  /-- JMP far ptr16:16 `EA`, R285, R93, R117. -/
  | jmpFar (off seg : Word)
  /-- JMP short rel8 `EB d8` (tier X), R284, R117. -/
  | jmpShort (d : Byte)
  /-- TEST r/m,imm `1111011w /0`, R243, R118. -/
  | testRmImm (o : RmImm)
  /-- NOT r/m `1111011w /2`, R244, R118. -/
  | notRm (o : RmOnly)
  /-- MUL r/m `1111011w /4`, R207, R118. -/
  | mulRm (o : RmOnly)
  /-- DIV r/m `1111011w /6`, R209, R118. -/
  | divRm (o : RmOnly)
  /-- INC r/m `1111111w /0`, R203, R119. -/
  | incRm (o : RmOnly)
  /-- DEC r/m `1111111w /1`, R204, R119. -/
  | decRm (o : RmOnly)
  /-- JMP far m16:16 `FF /5`, mod ≠ 11, R285, R93, R119. -/
  | jmpFarMem (m : Ea)
  /-- PUSH r/m16 `FF /6`, R293, R119. -/
  | pushRm (rm : Rm Reg16)
  /-- Segment override ES, `26` before `i`, R82, R84. -/
  | prefixEs (i : Instr)
  /-- Segment override CS, `2E` before `i`, R82, R84. -/
  | prefixCs (i : Instr)
  /-- Segment override SS, `36` before `i`, R82, R84. -/
  | prefixSs (i : Instr)
  /-- Segment override DS, `3E` before `i`, R82, R84. -/
  | prefixDs (i : Instr)
  /-- REP, `F3` before `i`, R82, R84, R331. -/
  | prefixRep (i : Instr)
  /-- REPNE, `F2` before `i`, R82, R84, R334. -/
  | prefixRepne (i : Instr)
  deriving DecidableEq, Repr

end Sys2Proof
end

