-- ==== Sys2Proof/WellFormed.lean ====
section
/-! DEFINITION. Which terms of Instr an encoding can carry: the checks the types of Syntax leave open.
(1) no effective address without displacement on BP alone (spec/30_encoding.md R88); (2) at most one segment
override (R83); (3) at most one repeat prefix (R83); (4) a repeat prefix only before STOSB or STOSW (R84). -/

namespace Sys2Proof

/-- mod 00 with rm 110 is the Direct kind, so the kind BP never occurs without a displacement. R88. -/
def Ea.wellFormed : Ea → Bool
  | .base .bp => false
  | .base _ | .direct _ | .disp8 _ _ | .disp16 _ _ => true

/-- The memory operand of an r/m operand, if it is one. -/
def Rm.ea {ρ : Type} : Rm ρ → Option Ea
  | .reg _ => none
  | .mem m => some m

/-- The memory operand of an operand pair, if it has one. -/
def RmReg.ea : RmReg → Option Ea
  | .byte rm _ => rm.ea
  | .word rm _ => rm.ea

/-- The memory operand of a lone r/m operand, if it is one. -/
def RmOnly.ea : RmOnly → Option Ea
  | .byte rm => rm.ea
  | .word rm => rm.ea

/-- The memory operand of an immediate-group operand pair, if it has one. -/
def GrpImm.ea : GrpImm → Option Ea
  | .byte _ rm _ => rm.ea
  | .word rm _ => rm.ea
  | .wordSx rm _ => rm.ea

/-- The memory operand of an r/m operand with an immediate, if it has one. -/
def RmImm.ea : RmImm → Option Ea
  | .byte rm _ => rm.ea
  | .word rm _ => rm.ea

/-- The memory operand an instruction takes from a ModRM byte or, in the A0-A3 forms, from its address word. R84. -/
def Instr.ea : Instr → Option Ea
  | .addRmReg _ o | .orRmReg _ o | .andRmReg _ o | .subRmReg _ o | .xorRmReg _ o | .cmpRmReg _ o => o.ea
  | .testRmReg o | .movRmReg o | .movRegRm o => o.ea
  | .addRmImm o | .orRmImm o | .andRmImm o | .subRmImm o | .xorRmImm o | .cmpRmImm o => o.ea
  | .movRmImm o | .testRmImm o => o.ea
  | .notRm o | .mulRm o | .divRm o | .incRm o | .decRm o => o.ea
  | .movRmSreg rm _ | .movSregRm _ rm | .popRm rm | .pushRm rm => rm.ea
  | .jmpFarMem m => some m
  | .movAccMem _ _ a => some (.direct a)
  | .addAccImm _ | .orAccImm _ | .andAccImm _ | .subAccImm _ | .xorAccImm _ | .cmpAccImm _ | .testAccImm _ => none
  | .incReg _ | .decReg _ | .pushReg _ | .popReg _ | .pushSreg _ | .popEs | .popSs | .popDs => none
  | .jo _ | .jno _ | .jb _ | .jnb _ | .je _ | .jne _ | .jbe _ | .jnbe _ => none
  | .js _ | .jns _ | .jp _ | .jnp _ | .jl _ | .jnl _ | .jle _ | .jnle _ => none
  | .loopnz _ | .loopz _ | .loop _ | .jcxz _ | .jmpNear _ | .jmpFar _ _ | .jmpShort _ => none
  | .pushf | .popf | .stosb | .stosw | .movRegImm _ | .int3 | .intImm _ | .into | .iret => none
  | .prefixEs i | .prefixCs i | .prefixSs i | .prefixDs i | .prefixRep i | .prefixRepne i => i.ea

/-- The checks on an instruction when a segment override (`seg`) or a repeat prefix (`rep`) stands before it. -/
def Instr.wellFormedAfter (seg rep : Bool) : Instr → Bool
  | .prefixEs i | .prefixCs i | .prefixSs i | .prefixDs i => !seg && i.wellFormedAfter true rep
  | .prefixRep i | .prefixRepne i => !rep && i.wellFormedAfter seg true
  | .stosb | .stosw => true
  | .addRmReg _ o | .orRmReg _ o | .andRmReg _ o | .subRmReg _ o | .xorRmReg _ o | .cmpRmReg _ o =>
    !rep && o.ea.all Ea.wellFormed
  | .testRmReg o | .movRmReg o | .movRegRm o => !rep && o.ea.all Ea.wellFormed
  | .addRmImm o | .orRmImm o | .andRmImm o | .subRmImm o | .xorRmImm o | .cmpRmImm o => !rep && o.ea.all Ea.wellFormed
  | .movRmImm o | .testRmImm o => !rep && o.ea.all Ea.wellFormed
  | .notRm o | .mulRm o | .divRm o | .incRm o | .decRm o => !rep && o.ea.all Ea.wellFormed
  | .movRmSreg rm _ | .movSregRm _ rm | .popRm rm | .pushRm rm => !rep && rm.ea.all Ea.wellFormed
  | .jmpFarMem m => !rep && m.wellFormed
  | .movAccMem _ _ _ => !rep
  | .addAccImm _ | .orAccImm _ | .andAccImm _ | .subAccImm _ | .xorAccImm _ | .cmpAccImm _ | .testAccImm _ => !rep
  | .incReg _ | .decReg _ | .pushReg _ | .popReg _ | .pushSreg _ | .popEs | .popSs | .popDs => !rep
  | .jo _ | .jno _ | .jb _ | .jnb _ | .je _ | .jne _ | .jbe _ | .jnbe _ => !rep
  | .js _ | .jns _ | .jp _ | .jnp _ | .jl _ | .jnl _ | .jle _ | .jnle _ => !rep
  | .loopnz _ | .loopz _ | .loop _ | .jcxz _ | .jmpNear _ | .jmpFar _ _ | .jmpShort _ => !rep
  | .pushf | .popf | .movRegImm _ | .int3 | .intImm _ | .into | .iret => !rep

/-- An instruction that some bytes decode to. R83, R84, R88. -/
def Instr.wellFormed (i : Instr) : Bool := i.wellFormedAfter false false

end Sys2Proof
end

