-- ==== Sys2Proof/Decode.lean ====
section
/-! DEFINITION. The instruction decoder and the encoder (spec/30_encoding.md): the numbers of the registers and
selectors, the ModRM byte (R86 to R90), the classification of the opcode byte (R120), the decode algorithm (R122),
the encoding of an instruction and its size (R95). The decoder is a function of the bytes it may read and of
ADMIT_TIER_X alone (R110); it is total and answers every rejection by name. -/

namespace Sys2Proof

/-! ## Bytes and words -/

/-- The word `hi*256 + lo`. R7, R91. -/
def wordOf (lo hi : Byte) : Word := hi ++ lo

/-- Bits 7:0 of a word. -/
def loByte (v : Word) : Byte := v.extractLsb' 0 8

/-- Bits 15:8 of a word. -/
def hiByte (v : Word) : Byte := v.extractLsb' 8 8

/-! ## Numbers of registers, selectors and conditions -/

/-- R21. -/
def Reg16.num : Reg16 → BitVec 3
  | .ax => 0 | .cx => 1 | .dx => 2 | .bx => 3 | .sp => 4 | .bp => 5 | .si => 6 | .di => 7

/-- R21. -/
def Reg16.ofNum (n : BitVec 3) : Reg16 :=
  match n.toNat with
  | 0 => .ax | 1 => .cx | 2 => .dx | 3 => .bx | 4 => .sp | 5 => .bp | 6 => .si | _ => .di

/-- R22. -/
def Reg8.num : Reg8 → BitVec 3
  | .al => 0 | .cl => 1 | .dl => 2 | .bl => 3 | .ah => 4 | .ch => 5 | .dh => 6 | .bh => 7

/-- R22. -/
def Reg8.ofNum (n : BitVec 3) : Reg8 :=
  match n.toNat with
  | 0 => .al | 1 => .cl | 2 => .dl | 3 => .bl | 4 => .ah | 5 => .ch | 6 => .dh | _ => .bh

/-- R26. -/
def SReg.num : SReg → BitVec 2
  | .es => 0 | .cs => 1 | .ss => 2 | .ds => 3

/-- R26. -/
def SReg.ofNum (n : BitVec 2) : SReg :=
  match n.toNat with
  | 0 => .es | 1 => .cs | 2 => .ss | _ => .ds

/-- The segment register a destination names. R87. -/
def SRegDst.sreg : SRegDst → SReg
  | .es => .es | .ss => .ss | .ds => .ds

/-- The destination a segment-register number names; CS is refused. R87, R114. -/
def SReg.dst : SReg → Option SRegDst
  | .es => some .es | .cs => none | .ss => some .ss | .ds => some .ds

/-- R88: the `rm` value of each register combination. -/
def EaBase.num : EaBase → BitVec 3
  | .bxSi => 0 | .bxDi => 1 | .bpSi => 2 | .bpDi => 3 | .si => 4 | .di => 5 | .bp => 6 | .bx => 7

/-- R88: the register combination of each `rm` value. -/
def EaBase.ofNum (n : BitVec 3) : EaBase :=
  match n.toNat with
  | 0 => .bxSi | 1 => .bxDi | 2 => .bpSi | 3 => .bpDi | 4 => .si | 5 => .di | 6 => .bp | _ => .bx

/-- R100: the selector `sss` of each admitted operation. -/
def AluOp.sel : AluOp → BitVec 3
  | .add => 0 | .or => 1 | .and => 4 | .sub => 5 | .xor => 6 | .cmp => 7

/-- R100: the operation of a selector; none for 010 (ADC) and 011 (SBB). -/
def AluOp.ofSel (n : BitVec 3) : Option AluOp :=
  match n.toNat with
  | 0 => some .add | 1 => some .or | 4 => some .and | 5 => some .sub | 6 => some .xor | 7 => some .cmp | _ => none

/-- R115, R262: the number `cccc` of each condition. -/
def Cond.num : Cond → BitVec 4
  | .o => 0 | .no => 1 | .b => 2 | .nb => 3 | .e => 4 | .ne => 5 | .be => 6 | .nbe => 7
  | .s => 8 | .ns => 9 | .p => 10 | .np => 11 | .l => 12 | .nl => 13 | .le => 14 | .nle => 15

/-- R115, R262: the condition of each number `cccc`. -/
def Cond.ofNum (n : BitVec 4) : Cond :=
  match n.toNat with
  | 0 => .o | 1 => .no | 2 => .b | 3 => .nb | 4 => .e | 5 => .ne | 6 => .be | 7 => .nbe
  | 8 => .s | 9 => .ns | 10 => .p | 11 => .np | 12 => .l | 13 => .nl | 14 => .le | _ => .nle

/-- R116: the form of each number `cc`. -/
def LoopKind.num : LoopKind → BitVec 2
  | .nz => 0 | .z => 1 | .always => 2 | .cxz => 3

/-- R116. -/
def LoopKind.ofNum (n : BitVec 2) : LoopKind :=
  match n.toNat with
  | 0 => .nz | 1 => .z | 2 => .always | _ => .cxz

/-- R85: the width bit. -/
def Width.bit : Width → BitVec 1
  | .byte => 0 | .word => 1

/-- R85. -/
def Width.ofBit (b : Bool) : Width := if b then .word else .byte

/-- R85: the direction bit. -/
def Dir.bit : Dir → BitVec 1
  | .toRm => 0 | .toReg => 1

/-- R85. -/
def Dir.ofBit (b : Bool) : Dir := if b then .toReg else .toRm

/-- R85, R107: bit 1 of `101000xw`. -/
def AccDir.bit : AccDir → BitVec 1
  | .load => 0 | .store => 1

/-- R85, R107. -/
def AccDir.ofBit (b : Bool) : AccDir := if b then .store else .load

/-! ## The ModRM byte -/

/-- R86: bits 7:6. -/
def modOf (m : Byte) : BitVec 2 := m.extractLsb' 6 2

/-- R86: bits 5:3. -/
def regOf (m : Byte) : BitVec 3 := m.extractLsb' 3 3

/-- R86: bits 2:0. -/
def rmOf (m : Byte) : BitVec 3 := m.extractLsb' 0 3

/-- R86: a ModRM byte from its fields. -/
def mkModRm (mod : BitVec 2) (reg rm : BitVec 3) : Byte := mod ++ reg ++ rm

/-! ## What the decoder can answer -/

/-- Why the decoder gives no instruction. R97, R98, R99; the bytes are those R350 records. -/
inductive DecodeFail where
  /-- The opcode byte has no entry, or a tier-X one that is not admitted: `NoMatch`. R97. -/
  | noMatch (opcode : Byte)
  /-- Selector 010 or 011 of the arithmetic family; the ModRM byte is recorded where it holds the selector. R100 to R103. -/
  | badArithSelector (opcode : Byte) (modrm : Option Byte)
  /-- An unnamed sub-selector of a group, or FF /5 with mod 11. R93, R105, R118, R119. -/
  | badSubSelector (opcode modrm : Byte)
  /-- A refused segment-register field of 8C or 8E. R87. -/
  | badSegReg (opcode modrm : Byte)
  /-- A second prefix of a class. R83. -/
  | duplicatePrefix (b : Byte)
  /-- A repeat prefix before an opcode other than AA or AB. R84. -/
  | prefixMisuse (opcode : Byte)
  /-- A byte was needed past the last one that may be read. R80, R99. -/
  | truncated
  deriving DecidableEq, Repr

/-- The decoder's answer: a value and the bytes it has not read, or a failure. -/
abbrev Parse (α : Type) := Except DecodeFail (α × List Byte)

/-- A value computed from a parsed one. -/
def Parse.map {α β : Type} (f : α → β) : Parse α → Parse β
  | .ok (a, t) => .ok (f a, t)
  | .error e => .error e

/-- The next instruction byte. R80. -/
def takeByte : List Byte → Parse Byte
  | b :: t => .ok (b, t)
  | [] => .error .truncated

/-- The next two instruction bytes, little-endian. R89, R91. -/
def takeWord : List Byte → Parse Word
  | lo :: hi :: t => .ok (wordOf lo hi, t)
  | _ => .error .truncated

/-! ## Operand forms -/

/-- The effective address a ModRM byte with mod ≠ 11 selects, and its displacement bytes. R88, R89. -/
def parseEa (m : Byte) (t : List Byte) : Parse Ea :=
  match (modOf m).toNat with
  | 0 => if rmOf m = 6 then (takeWord t).map .direct else .ok (.base (EaBase.ofNum (rmOf m)), t)
  | 1 => (takeByte t).map (.disp8 (EaBase.ofNum (rmOf m)))
  | _ => (takeWord t).map (.disp16 (EaBase.ofNum (rmOf m)))

/-- The r/m operand of a ModRM byte, its register named in the table `ofNum`. R86, R90. -/
def parseRm {ρ : Type} (ofNum : BitVec 3 → ρ) (m : Byte) (t : List Byte) : Parse (Rm ρ) :=
  if modOf m = 3 then .ok (.reg (ofNum (rmOf m)), t) else (parseEa m t).map .mem

/-- R94: the r/m operand and the register operand of one ModRM byte. -/
def parseRmReg (w : Width) (m : Byte) (t : List Byte) : Parse RmReg :=
  match w with
  | .byte => (parseRm Reg8.ofNum m t).map (fun rm => .byte rm (Reg8.ofNum (regOf m)))
  | .word => (parseRm Reg16.ofNum m t).map (fun rm => .word rm (Reg16.ofNum (regOf m)))

/-- A lone r/m operand. R118, R119. -/
def parseRmOnly (w : Width) (m : Byte) (t : List Byte) : Parse RmOnly :=
  match w with
  | .byte => (parseRm Reg8.ofNum m t).map .byte
  | .word => (parseRm Reg16.ofNum m t).map .word

/-- An r/m operand, then an immediate of the explicit width. R91, R105, R118. -/
def parseRmImm (w : Width) (m : Byte) (t : List Byte) : Parse RmImm :=
  match w with
  | .byte =>
    match parseRm Reg8.ofNum m t with
    | .ok (rm, t) => (takeByte t).map (.byte rm)
    | .error e => .error e
  | .word =>
    match parseRm Reg16.ofNum m t with
    | .ok (rm, t) => (takeWord t).map (.word rm)
    | .error e => .error e

/-- R91, R103: an r/m operand, then an immediate of the sign-dependent width. -/
def parseGrpImm (s : Bool) (w : Width) (m : Byte) (t : List Byte) : Parse GrpImm :=
  match w with
  | .byte =>
    match parseRm Reg8.ofNum m t with
    | .ok (rm, t) => (takeByte t).map (.byte s rm)
    | .error e => .error e
  | .word =>
    match parseRm Reg16.ofNum m t with
    | .ok (rm, t) => if s then (takeByte t).map (.wordSx rm) else (takeWord t).map (.word rm)
    | .error e => .error e

/-- An immediate of the explicit width for the accumulator. R91, R102, R109. -/
def parseAccImm (w : Width) (t : List Byte) : Parse AccImm :=
  match w with
  | .byte => (takeByte t).map .byte
  | .word => (takeWord t).map .word

/-! ## The opcode byte -/

/-- What the opcode byte selects: a table entry of R120 other than `mismatch` and the prefix bytes. -/
inductive Entry where
  | aluRmReg (a : AluOp) (d : Dir) (w : Width)
  | aluAccImm (a : AluOp) (w : Width)
  | adcSbb
  | pushSreg (r : SReg)
  | popSreg (r : SRegDst)
  | incReg (r : Reg16)
  | decReg (r : Reg16)
  | pushReg (r : Reg16)
  | popReg (r : Reg16)
  | jcc (c : Cond)
  | grpAlu (s : Bool) (w : Width)
  | testRmReg (w : Width)
  | movRmReg (w : Width)
  | movRegRm (w : Width)
  | movRmSreg
  | movSregRm
  | grpPop
  | pushf
  | popf
  | movAccMem (x : AccDir) (w : Width)
  | testAccImm (w : Width)
  | stos (w : Width)
  | movReg8 (r : Reg8)
  | movReg16 (r : Reg16)
  | grpMov (w : Width)
  | int3
  | intImm
  | into
  | iret
  | loop (k : LoopKind)
  | jmpNear
  | jmpFar
  | jmpShort
  | grpUnary (w : Width)
  | grpFe
  | grpFf
  deriving DecidableEq, Repr

/-- The byte has the bits `v` under the mask `m`. -/
def hit (b m v : Byte) : Bool := b &&& m == v

/-- R120: the entry of an opcode byte; none is `mismatch`. Each line is a bit pattern of R101 to R121. -/
def Entry.of (b : Byte) : Option Entry :=
  let w := Width.ofBit (b.getLsbD 0)
  let r16 := Reg16.ofNum (b.extractLsb' 0 3)
  let sss := AluOp.ofSel (b.extractLsb' 3 3)
  let sreg := SReg.ofNum (b.extractLsb' 3 2)
  if hit b 0xC4 0x00 then some (sss.elim .adcSbb (fun a => .aluRmReg a (Dir.ofBit (b.getLsbD 1)) w))
  else if hit b 0xC6 0x04 then some (sss.elim .adcSbb (fun a => .aluAccImm a w))
  else if hit b 0xE7 0x06 then some (.pushSreg sreg)
  else if hit b 0xE7 0x07 then sreg.dst.map .popSreg
  else if hit b 0xF8 0x40 then some (.incReg r16)
  else if hit b 0xF8 0x48 then some (.decReg r16)
  else if hit b 0xF8 0x50 then some (.pushReg r16)
  else if hit b 0xF8 0x58 then some (.popReg r16)
  else if hit b 0xF0 0x70 then some (.jcc (Cond.ofNum (b.extractLsb' 0 4)))
  else if hit b 0xFC 0x80 then some (.grpAlu (b.getLsbD 1) w)
  else if hit b 0xFE 0x84 then some (.testRmReg w)
  else if hit b 0xFE 0x88 then some (.movRmReg w)
  else if hit b 0xFE 0x8A then some (.movRegRm w)
  else if hit b 0xFF 0x8C then some .movRmSreg
  else if hit b 0xFF 0x8E then some .movSregRm
  else if hit b 0xFF 0x8F then some .grpPop
  else if hit b 0xFF 0x9C then some .pushf
  else if hit b 0xFF 0x9D then some .popf
  else if hit b 0xFC 0xA0 then some (.movAccMem (AccDir.ofBit (b.getLsbD 1)) w)
  else if hit b 0xFE 0xA8 then some (.testAccImm w)
  else if hit b 0xFE 0xAA then some (.stos w)
  else if hit b 0xF8 0xB0 then some (.movReg8 (Reg8.ofNum (b.extractLsb' 0 3)))
  else if hit b 0xF8 0xB8 then some (.movReg16 r16)
  else if hit b 0xFE 0xC6 then some (.grpMov w)
  else if hit b 0xFF 0xCC then some .int3
  else if hit b 0xFF 0xCD then some .intImm
  else if hit b 0xFF 0xCE then some .into
  else if hit b 0xFF 0xCF then some .iret
  else if hit b 0xFC 0xE0 then some (.loop (LoopKind.ofNum (b.extractLsb' 0 2)))
  else if hit b 0xFF 0xE9 then some .jmpNear
  else if hit b 0xFF 0xEA then some .jmpFar
  else if hit b 0xFF 0xEB then some .jmpShort
  else if hit b 0xFE 0xF6 then some (.grpUnary w)
  else if hit b 0xFF 0xFE then some .grpFe
  else if hit b 0xFF 0xFF then some .grpFf
  else none

/-- The tier-X entries, marked (X) in R120. R11, D3. -/
def Entry.tierX : Entry → Bool
  | .pushSreg _ | .popSreg _ | .movRmSreg | .movSregRm | .jmpNear | .jmpShort => true
  | .aluRmReg _ _ _ | .aluAccImm _ _ | .adcSbb | .incReg _ | .decReg _ | .pushReg _ | .popReg _ | .jcc _ => false
  | .grpAlu _ _ | .testRmReg _ | .movRmReg _ | .movRegRm _ | .grpPop | .pushf | .popf | .movAccMem _ _ => false
  | .testAccImm _ | .stos _ | .movReg8 _ | .movReg16 _ | .grpMov _ | .int3 | .intImm | .into | .iret => false
  | .loop _ | .jmpFar | .grpUnary _ | .grpFe | .grpFf => false

/-- STOSB and STOSW, the only entries a repeat prefix may stand before. R84. -/
def Entry.isStos : Entry → Bool
  | .stos _ => true
  | .aluRmReg _ _ _ | .aluAccImm _ _ | .adcSbb | .incReg _ | .decReg _ | .pushReg _ | .popReg _ | .jcc _ => false
  | .grpAlu _ _ | .testRmReg _ | .movRmReg _ | .movRegRm _ | .grpPop | .pushf | .popf | .movAccMem _ _ => false
  | .testAccImm _ | .movReg8 _ | .movReg16 _ | .grpMov _ | .int3 | .intImm | .into | .iret => false
  | .loop _ | .jmpFar | .grpUnary _ | .grpFe | .grpFf => false
  | .pushSreg _ | .popSreg _ | .movRmSreg | .movSregRm | .jmpNear | .jmpShort => false

/-! ## Instructions from their fields -/

/-- R101: the instruction of a selector in the form `00sss0dw`. -/
def AluOp.rmReg : AluOp → Dir → RmReg → Instr
  | .add => .addRmReg | .or => .orRmReg | .and => .andRmReg | .sub => .subRmReg | .xor => .xorRmReg | .cmp => .cmpRmReg

/-- R102: the instruction of a selector in the form `00sss10w`. -/
def AluOp.accImm : AluOp → AccImm → Instr
  | .add => .addAccImm | .or => .orAccImm | .and => .andAccImm | .sub => .subAccImm | .xor => .xorAccImm
  | .cmp => .cmpAccImm

/-- R103: the instruction of a selector in the form `100000sw`. -/
def AluOp.rmImm : AluOp → GrpImm → Instr
  | .add => .addRmImm | .or => .orRmImm | .and => .andRmImm | .sub => .subRmImm | .xor => .xorRmImm | .cmp => .cmpRmImm

/-- R115: the conditional jump of a condition. -/
def Cond.jump : Cond → Byte → Instr
  | .o => .jo | .no => .jno | .b => .jb | .nb => .jnb | .e => .je | .ne => .jne | .be => .jbe | .nbe => .jnbe
  | .s => .js | .ns => .jns | .p => .jp | .np => .jnp | .l => .jl | .nl => .jnl | .le => .jle | .nle => .jnle

/-- R116: the instruction of a loop form. -/
def LoopKind.instr : LoopKind → Byte → Instr
  | .nz => .loopnz | .z => .loopz | .always => .loop | .cxz => .jcxz

/-- R114: the POP of a segment register. -/
def SRegDst.pop : SRegDst → Instr
  | .es => .popEs | .ss => .popSs | .ds => .popDs

/-- R82: a segment override before an instruction. -/
def SReg.before : SReg → Instr → Instr
  | .es => .prefixEs | .cs => .prefixCs | .ss => .prefixSs | .ds => .prefixDs

/-- R82: a repeat prefix before an instruction. -/
def Rep.before : Rep → Instr → Instr
  | .rep => .prefixRep | .repne => .prefixRepne

/-! ## The bytes after the opcode -/

/-- R118: the group F6, F7. -/
def parseUnary (op : Byte) (w : Width) (m : Byte) (t : List Byte) : Parse Instr :=
  match (regOf m).toNat with
  | 0 => (parseRmImm w m t).map .testRmImm
  | 2 => (parseRmOnly w m t).map .notRm
  | 4 => (parseRmOnly w m t).map .mulRm
  | 6 => (parseRmOnly w m t).map .divRm
  | _ => .error (.badSubSelector op m)

/-- R119: the group FE. -/
def parseFe (op m : Byte) (t : List Byte) : Parse Instr :=
  match (regOf m).toNat with
  | 0 => (parseRmOnly .byte m t).map .incRm
  | 1 => (parseRmOnly .byte m t).map .decRm
  | _ => .error (.badSubSelector op m)

/-- R93, R119: the group FF. -/
def parseFf (op m : Byte) (t : List Byte) : Parse Instr :=
  match (regOf m).toNat with
  | 0 => (parseRmOnly .word m t).map .incRm
  | 1 => (parseRmOnly .word m t).map .decRm
  | 5 => if modOf m = 3 then .error (.badSubSelector op m) else (parseEa m t).map .jmpFarMem
  | 6 => (parseRm Reg16.ofNum m t).map .pushRm
  | _ => .error (.badSubSelector op m)

/-- R87, R108: 8C. -/
def parseMovRmSreg (op m : Byte) (t : List Byte) : Parse Instr :=
  if (regOf m).getLsbD 2 then .error (.badSegReg op m)
  else (parseRm Reg16.ofNum m t).map (fun rm => .movRmSreg rm (SReg.ofNum ((regOf m).extractLsb' 0 2)))

/-- R87, R108: 8E. -/
def parseMovSregRm (op m : Byte) (t : List Byte) : Parse Instr :=
  if (regOf m).getLsbD 2 then .error (.badSegReg op m)
  else match (SReg.ofNum ((regOf m).extractLsb' 0 2)).dst with
    | some r => (parseRm Reg16.ofNum m t).map (.movSregRm r)
    | none => .error (.badSegReg op m)

/-- R103: the immediate group 80-83. -/
def parseGrpAlu (op : Byte) (s : Bool) (w : Width) (m : Byte) (t : List Byte) : Parse Instr :=
  match AluOp.ofSel (regOf m) with
  | some a => (parseGrpImm s w m t).map a.rmImm
  | none => .error (.badArithSelector op (some m))

/-- R93: the offset and the segment of a far pointer. -/
def parseFar (t : List Byte) : Parse Instr :=
  match takeWord t with
  | .ok (off, t) => (takeWord t).map (.jmpFar off)
  | .error e => .error e

/-- A form with a ModRM byte: the byte, then what the form reads after it. R122. -/
def withModRm (t : List Byte) (k : Byte → List Byte → Parse Instr) : Parse Instr :=
  match takeByte t with
  | .ok (m, t) => k m t
  | .error e => .error e

/-- The bytes after the opcode byte `op` of entry `e`. R101 to R121. -/
def Entry.parse (op : Byte) (t : List Byte) : Entry → Parse Instr
  | .aluRmReg a d w => withModRm t fun m t => (parseRmReg w m t).map (a.rmReg d)
  | .aluAccImm a w => (parseAccImm w t).map a.accImm
  | .adcSbb => .error (.badArithSelector op none)
  | .pushSreg r => .ok (.pushSreg r, t)
  | .popSreg r => .ok (r.pop, t)
  | .incReg r => .ok (.incReg r, t)
  | .decReg r => .ok (.decReg r, t)
  | .pushReg r => .ok (.pushReg r, t)
  | .popReg r => .ok (.popReg r, t)
  | .jcc c => (takeByte t).map c.jump
  | .grpAlu s w => withModRm t (parseGrpAlu op s w)
  | .testRmReg w => withModRm t fun m t => (parseRmReg w m t).map .testRmReg
  | .movRmReg w => withModRm t fun m t => (parseRmReg w m t).map .movRmReg
  | .movRegRm w => withModRm t fun m t => (parseRmReg w m t).map .movRegRm
  | .movRmSreg => withModRm t (parseMovRmSreg op)
  | .movSregRm => withModRm t (parseMovSregRm op)
  | .grpPop => withModRm t fun m t =>
      if regOf m = 0 then (parseRm Reg16.ofNum m t).map .popRm else .error (.badSubSelector op m)
  | .pushf => .ok (.pushf, t)
  | .popf => .ok (.popf, t)
  | .movAccMem x w => (takeWord t).map (.movAccMem x w)
  | .testAccImm w => (parseAccImm w t).map .testAccImm
  | .stos .byte => .ok (.stosb, t)
  | .stos .word => .ok (.stosw, t)
  | .movReg8 r => (takeByte t).map (fun v => .movRegImm (.byte r v))
  | .movReg16 r => (takeWord t).map (fun v => .movRegImm (.word r v))
  | .grpMov w => withModRm t fun m t =>
      if regOf m = 0 then (parseRmImm w m t).map .movRmImm else .error (.badSubSelector op m)
  | .int3 => .ok (.int3, t)
  | .intImm => (takeByte t).map .intImm
  | .into => .ok (.into, t)
  | .iret => .ok (.iret, t)
  | .loop k => (takeByte t).map k.instr
  | .jmpNear => (takeWord t).map .jmpNear
  | .jmpFar => parseFar t
  | .jmpShort => (takeByte t).map .jmpShort
  | .grpUnary w => withModRm t (parseUnary op w)
  | .grpFe => withModRm t (parseFe op)
  | .grpFf => withModRm t (parseFf op)

/-- From the opcode byte on: the checks of R122 in its order, then the rest of the instruction. `rep` says whether a
repeat prefix stands before the opcode. -/
def decodeOpcode (admitX rep : Bool) (op : Byte) (t : List Byte) : Parse Instr :=
  match Entry.of op with
  | none => .error (.noMatch op)
  | some e =>
    if e.tierX && !admitX then .error (.noMatch op)
    else if rep && !e.isStos then .error (.prefixMisuse op)
    else e.parse op t

/-! ## Prefixes and the whole decoder -/

/-- R82: the segment override a byte is. -/
def segOverride (b : Byte) : Option SReg :=
  if hit b 0xE7 0x26 then some (SReg.ofNum (b.extractLsb' 3 2)) else none

/-- R82: the repeat prefix a byte is. -/
def repeatByte (b : Byte) : Option Rep :=
  if b = 0xF3 then some .rep else if b = 0xF2 then some .repne else none

/-- R83, R122: prefix collection, then the opcode. `seg` and `rep` say which classes were already read. -/
def decodeAfter (admitX : Bool) : (seg rep : Bool) → List Byte → Parse Instr
  | _, _, [] => .error .truncated
  | seg, rep, b :: t =>
    match segOverride b with
    | some r => if seg then .error (.duplicatePrefix b) else (decodeAfter admitX true rep t).map r.before
    | none =>
      match repeatByte b with
      | some k => if rep then .error (.duplicatePrefix b) else (decodeAfter admitX seg true t).map k.before
      | none => decodeOpcode admitX rep b t

/-- R122: the instruction at the front of the bytes that may be read, and the bytes after it. -/
def decode (admitX : Bool) (bytes : List Byte) : Parse Instr := decodeAfter admitX false false bytes

/-! ## The encoder -/

/-- A word's bytes in their order in the instruction. R91. -/
def wordBytes (v : Word) : List Byte := [loByte v, hiByte v]

/-- The ModRM byte with field `reg`, and the displacement bytes, of a memory operand. R86, R88, R89. -/
def Ea.encode (reg : BitVec 3) : Ea → List Byte
  | .direct a => mkModRm 0 reg 6 :: wordBytes a
  | .base k => [mkModRm 0 reg k.num]
  | .disp8 k d => [mkModRm 1 reg k.num, d]
  | .disp16 k d => mkModRm 2 reg k.num :: wordBytes d

/-- The ModRM byte with field `reg`, and the displacement bytes, of an r/m operand. R86, R90. -/
def Rm.encode {ρ : Type} (num : ρ → BitVec 3) (reg : BitVec 3) : Rm ρ → List Byte
  | .reg r => [mkModRm 3 reg (num r)]
  | .mem m => m.encode reg

/-- R101: `00sss0dw`. -/
def encodeAluRmReg (a : AluOp) (d : Dir) : RmReg → List Byte
  | .byte rm r => (0#2 ++ a.sel ++ 0#1 ++ d.bit ++ 0#1) :: rm.encode Reg8.num r.num
  | .word rm r => (0#2 ++ a.sel ++ 0#1 ++ d.bit ++ 1#1) :: rm.encode Reg16.num r.num

/-- A form with opcode `op` of width bit 0 and one ModRM byte: R104, R109. -/
def encodeRmReg (op : BitVec 7) : RmReg → List Byte
  | .byte rm r => (op ++ 0#1) :: rm.encode Reg8.num r.num
  | .word rm r => (op ++ 1#1) :: rm.encode Reg16.num r.num

/-- R102, R109: an opcode of width bit 0 and an immediate of the explicit width. -/
def encodeAccImm (op : BitVec 7) : AccImm → List Byte
  | .byte v => [op ++ 0#1, v]
  | .word v => (op ++ 1#1) :: wordBytes v

/-- R103: `100000sw /sss`. -/
def encodeGrpImm (a : AluOp) : GrpImm → List Byte
  | .byte s rm v => (32#6 ++ BitVec.ofBool s ++ 0#1) :: rm.encode Reg8.num a.sel ++ [v]
  | .word rm v => 0x81 :: rm.encode Reg16.num a.sel ++ wordBytes v
  | .wordSx rm v => 0x83 :: rm.encode Reg16.num a.sel ++ [v]

/-- R105, R118: an opcode of width bit 0, ModRM /`sel`, an immediate of the explicit width. -/
def encodeRmImm (op : BitVec 7) (sel : BitVec 3) : RmImm → List Byte
  | .byte rm v => (op ++ 0#1) :: rm.encode Reg8.num sel ++ [v]
  | .word rm v => (op ++ 1#1) :: rm.encode Reg16.num sel ++ wordBytes v

/-- R118, R119: an opcode of width bit 0 and ModRM /`sel`. -/
def encodeRmOnly (op : BitVec 7) (sel : BitVec 3) : RmOnly → List Byte
  | .byte rm => (op ++ 0#1) :: rm.encode Reg8.num sel
  | .word rm => (op ++ 1#1) :: rm.encode Reg16.num sel

/-- R106: `1011wrrr`. -/
def encodeRegImm : RegImm → List Byte
  | .byte r v => [0x16#5 ++ r.num, v]
  | .word r v => (0x17#5 ++ r.num) :: wordBytes v

/-- R115: `0111cccc d8`. -/
def encodeJcc (c : Cond) (d : Byte) : List Byte := [7#4 ++ c.num, d]

/-- R116: `111000cc d8`. -/
def encodeLoop (k : LoopKind) (d : Byte) : List Byte := [0x38#6 ++ k.num, d]

/-- The bytes of an instruction, in memory order. R81, R101 to R121. -/
def encode : Instr → List Byte
  | .addRmReg d o => encodeAluRmReg .add d o
  | .addAccImm o => encodeAccImm 0x02 o
  | .orRmReg d o => encodeAluRmReg .or d o
  | .orAccImm o => encodeAccImm 0x06 o
  | .andRmReg d o => encodeAluRmReg .and d o
  | .andAccImm o => encodeAccImm 0x12 o
  | .subRmReg d o => encodeAluRmReg .sub d o
  | .subAccImm o => encodeAccImm 0x16 o
  | .xorRmReg d o => encodeAluRmReg .xor d o
  | .xorAccImm o => encodeAccImm 0x1A o
  | .cmpRmReg d o => encodeAluRmReg .cmp d o
  | .cmpAccImm o => encodeAccImm 0x1E o
  | .addRmImm o => encodeGrpImm .add o
  | .orRmImm o => encodeGrpImm .or o
  | .andRmImm o => encodeGrpImm .and o
  | .subRmImm o => encodeGrpImm .sub o
  | .xorRmImm o => encodeGrpImm .xor o
  | .cmpRmImm o => encodeGrpImm .cmp o
  | .incReg r => [8#5 ++ r.num]
  | .decReg r => [9#5 ++ r.num]
  | .pushReg r => [10#5 ++ r.num]
  | .popReg r => [11#5 ++ r.num]
  | .pushSreg r => [0#3 ++ r.num ++ 6#3]
  | .popEs => [0x07]
  | .popSs => [0x17]
  | .popDs => [0x1F]
  | .jo d => encodeJcc .o d
  | .jno d => encodeJcc .no d
  | .jb d => encodeJcc .b d
  | .jnb d => encodeJcc .nb d
  | .je d => encodeJcc .e d
  | .jne d => encodeJcc .ne d
  | .jbe d => encodeJcc .be d
  | .jnbe d => encodeJcc .nbe d
  | .js d => encodeJcc .s d
  | .jns d => encodeJcc .ns d
  | .jp d => encodeJcc .p d
  | .jnp d => encodeJcc .np d
  | .jl d => encodeJcc .l d
  | .jnl d => encodeJcc .nl d
  | .jle d => encodeJcc .le d
  | .jnle d => encodeJcc .nle d
  | .testRmReg o => encodeRmReg 0x42 o
  | .movRmReg o => encodeRmReg 0x44 o
  | .movRegRm o => encodeRmReg 0x45 o
  | .movRmSreg rm r => 0x8C :: rm.encode Reg16.num (0#1 ++ r.num)
  | .movSregRm r rm => 0x8E :: rm.encode Reg16.num (0#1 ++ r.sreg.num)
  | .popRm rm => 0x8F :: rm.encode Reg16.num 0
  | .pushf => [0x9C]
  | .popf => [0x9D]
  | .movAccMem x w a => (40#6 ++ x.bit ++ w.bit) :: wordBytes a
  | .testAccImm o => encodeAccImm 0x54 o
  | .stosb => [0xAA]
  | .stosw => [0xAB]
  | .movRegImm o => encodeRegImm o
  | .movRmImm o => encodeRmImm 0x63 0 o
  | .int3 => [0xCC]
  | .intImm n => [0xCD, n]
  | .into => [0xCE]
  | .iret => [0xCF]
  | .loopnz d => encodeLoop .nz d
  | .loopz d => encodeLoop .z d
  | .loop d => encodeLoop .always d
  | .jcxz d => encodeLoop .cxz d
  | .jmpNear d => 0xE9 :: wordBytes d
  | .jmpFar off seg => 0xEA :: wordBytes off ++ wordBytes seg
  | .jmpShort d => [0xEB, d]
  | .testRmImm o => encodeRmImm 0x7B 0 o
  | .notRm o => encodeRmOnly 0x7B 2 o
  | .mulRm o => encodeRmOnly 0x7B 4 o
  | .divRm o => encodeRmOnly 0x7B 6 o
  | .incRm o => encodeRmOnly 0x7F 0 o
  | .decRm o => encodeRmOnly 0x7F 1 o
  | .jmpFarMem m => 0xFF :: m.encode 5
  | .pushRm rm => 0xFF :: rm.encode Reg16.num 6
  | .prefixEs i => 0x26 :: encode i
  | .prefixCs i => 0x2E :: encode i
  | .prefixSs i => 0x36 :: encode i
  | .prefixDs i => 0x3E :: encode i
  | .prefixRep i => 0xF3 :: encode i
  | .prefixRepne i => 0xF2 :: encode i

/-! ## The size of an instruction -/

/-- The displacement bytes after a ModRM byte. R89. -/
def Ea.dispSize : Ea → Nat
  | .direct _ => 2
  | .base _ => 0
  | .disp8 _ _ => 1
  | .disp16 _ _ => 2

/-- The displacement bytes of an r/m operand. R89, R90. -/
def Rm.dispSize {ρ : Type} : Rm ρ → Nat
  | .reg _ => 0
  | .mem m => m.dispSize

/-- Opcode, ModRM and displacement. R101, R104, R109. -/
def RmReg.size : RmReg → Nat
  | .byte rm _ => 2 + rm.dispSize
  | .word rm _ => 2 + rm.dispSize

/-- Opcode, ModRM and displacement. R118, R119. -/
def RmOnly.size : RmOnly → Nat
  | .byte rm => 2 + rm.dispSize
  | .word rm => 2 + rm.dispSize

/-- Opcode, ModRM, displacement and immediate. R103. -/
def GrpImm.size : GrpImm → Nat
  | .byte _ rm _ => 3 + rm.dispSize
  | .word rm _ => 4 + rm.dispSize
  | .wordSx rm _ => 3 + rm.dispSize

/-- Opcode, ModRM, displacement and immediate. R105, R118. -/
def RmImm.size : RmImm → Nat
  | .byte rm _ => 3 + rm.dispSize
  | .word rm _ => 4 + rm.dispSize

/-- Opcode and immediate. R102, R109. -/
def AccImm.size : AccImm → Nat
  | .byte _ => 2
  | .word _ => 3

/-- Opcode and immediate. R106. -/
def RegImm.size : RegImm → Nat
  | .byte _ _ => 2
  | .word _ _ => 3

/-- The bytes of an instruction, its prefix bytes among them. R95. -/
def Instr.size : Instr → Nat
  | .addRmReg _ o | .orRmReg _ o | .andRmReg _ o | .subRmReg _ o | .xorRmReg _ o | .cmpRmReg _ o => o.size
  | .testRmReg o | .movRmReg o | .movRegRm o => o.size
  | .addAccImm o | .orAccImm o | .andAccImm o | .subAccImm o | .xorAccImm o | .cmpAccImm o | .testAccImm o => o.size
  | .addRmImm o | .orRmImm o | .andRmImm o | .subRmImm o | .xorRmImm o | .cmpRmImm o => o.size
  | .movRmImm o | .testRmImm o => o.size
  | .notRm o | .mulRm o | .divRm o | .incRm o | .decRm o => o.size
  | .movRmSreg rm _ | .movSregRm _ rm | .popRm rm | .pushRm rm => 2 + rm.dispSize
  | .jmpFarMem m => 2 + m.dispSize
  | .movRegImm o => o.size
  | .movAccMem _ _ _ | .jmpNear _ => 3
  | .jmpFar _ _ => 5
  | .incReg _ | .decReg _ | .pushReg _ | .popReg _ | .pushSreg _ | .popEs | .popSs | .popDs => 1
  | .pushf | .popf | .stosb | .stosw | .int3 | .into | .iret => 1
  | .intImm _ | .jmpShort _ | .loopnz _ | .loopz _ | .loop _ | .jcxz _ => 2
  | .jo _ | .jno _ | .jb _ | .jnb _ | .je _ | .jne _ | .jbe _ | .jnbe _ => 2
  | .js _ | .jns _ | .jp _ | .jnp _ | .jl _ | .jnl _ | .jle _ | .jnle _ => 2
  | .prefixEs i | .prefixCs i | .prefixSs i | .prefixDs i | .prefixRep i | .prefixRepne i => 1 + i.size

/-! ## The prefixes of an instruction -/

/-- The segment override an instruction carries: the record's `segovr`. R84, R110. -/
def Instr.segovr : Instr → Option SReg
  | .prefixEs _ => some .es
  | .prefixCs _ => some .cs
  | .prefixSs _ => some .ss
  | .prefixDs _ => some .ds
  | .prefixRep i | .prefixRepne i => i.segovr
  | .addRmReg _ _ | .orRmReg _ _ | .andRmReg _ _ | .subRmReg _ _ | .xorRmReg _ _ | .cmpRmReg _ _ => none
  | .testRmReg _ | .movRmReg _ | .movRegRm _ => none
  | .addAccImm _ | .orAccImm _ | .andAccImm _ | .subAccImm _ | .xorAccImm _ | .cmpAccImm _ | .testAccImm _ => none
  | .addRmImm _ | .orRmImm _ | .andRmImm _ | .subRmImm _ | .xorRmImm _ | .cmpRmImm _ => none
  | .movRmImm _ | .testRmImm _ | .notRm _ | .mulRm _ | .divRm _ | .incRm _ | .decRm _ => none
  | .movRmSreg _ _ | .movSregRm _ _ | .popRm _ | .pushRm _ | .jmpFarMem _ | .movRegImm _ | .movAccMem _ _ _ => none
  | .jmpNear _ | .jmpFar _ _ | .jmpShort _ | .loopnz _ | .loopz _ | .loop _ | .jcxz _ => none
  | .incReg _ | .decReg _ | .pushReg _ | .popReg _ | .pushSreg _ | .popEs | .popSs | .popDs => none
  | .pushf | .popf | .stosb | .stosw | .int3 | .into | .iret | .intImm _ => none
  | .jo _ | .jno _ | .jb _ | .jnb _ | .je _ | .jne _ | .jbe _ | .jnbe _ => none
  | .js _ | .jns _ | .jp _ | .jnp _ | .jl _ | .jnl _ | .jle _ | .jnle _ => none

/-- The repeat prefix an instruction carries: the record's `rep`. R82, R110. -/
def Instr.rep : Instr → Option Rep
  | .prefixRep _ => some .rep
  | .prefixRepne _ => some .repne
  | .prefixEs i | .prefixCs i | .prefixSs i | .prefixDs i => i.rep
  | .addRmReg _ _ | .orRmReg _ _ | .andRmReg _ _ | .subRmReg _ _ | .xorRmReg _ _ | .cmpRmReg _ _ => none
  | .testRmReg _ | .movRmReg _ | .movRegRm _ => none
  | .addAccImm _ | .orAccImm _ | .andAccImm _ | .subAccImm _ | .xorAccImm _ | .cmpAccImm _ | .testAccImm _ => none
  | .addRmImm _ | .orRmImm _ | .andRmImm _ | .subRmImm _ | .xorRmImm _ | .cmpRmImm _ => none
  | .movRmImm _ | .testRmImm _ | .notRm _ | .mulRm _ | .divRm _ | .incRm _ | .decRm _ => none
  | .movRmSreg _ _ | .movSregRm _ _ | .popRm _ | .pushRm _ | .jmpFarMem _ | .movRegImm _ | .movAccMem _ _ _ => none
  | .jmpNear _ | .jmpFar _ _ | .jmpShort _ | .loopnz _ | .loopz _ | .loop _ | .jcxz _ => none
  | .incReg _ | .decReg _ | .pushReg _ | .popReg _ | .pushSreg _ | .popEs | .popSs | .popDs => none
  | .pushf | .popf | .stosb | .stosw | .int3 | .into | .iret | .intImm _ => none
  | .jo _ | .jno _ | .jb _ | .jnb _ | .je _ | .jne _ | .jbe _ | .jnbe _ => none
  | .js _ | .jns _ | .jp _ | .jnp _ | .jl _ | .jnl _ | .jle _ | .jnle _ => none

/-- The instruction under its prefix bytes. R81. -/
def Instr.core : Instr → Instr
  | .prefixEs i | .prefixCs i | .prefixSs i | .prefixDs i | .prefixRep i | .prefixRepne i => i.core
  | i => i

/-- What the decoder answers to the prefix bytes of an instruction that is no decoder's output: a second prefix of a
class, or a repeat prefix before anything but STOS. None for every well-formed instruction. R83, R84; log 9. -/
def Instr.prefixFail (seg rep : Bool) : Instr → Option DecodeFail
  | .prefixEs i => if seg then some (.duplicatePrefix 0x26) else i.prefixFail true rep
  | .prefixCs i => if seg then some (.duplicatePrefix 0x2E) else i.prefixFail true rep
  | .prefixSs i => if seg then some (.duplicatePrefix 0x36) else i.prefixFail true rep
  | .prefixDs i => if seg then some (.duplicatePrefix 0x3E) else i.prefixFail true rep
  | .prefixRep i => if rep then some (.duplicatePrefix 0xF3) else i.prefixFail seg true
  | .prefixRepne i => if rep then some (.duplicatePrefix 0xF2) else i.prefixFail seg true
  | .stosb => none
  | .stosw => none
  | i => if rep then some (.prefixMisuse ((encode i).headD 0)) else none

/-! ## The table's words -/

/-- The bytes of a number of `n` bytes, its most significant byte first: in spec/opcode_table.json the opcode byte of
a 16-bit row is bits 15..8 and its ModRM byte bits 7..0 (0x8000 is `80 /0`). notes/assumptions/7.md. -/
def tableBytes : Nat → Nat → List Byte
  | 0, _ => []
  | n + 1, w => BitVec.ofNat 8 (w / 256 ^ n) :: tableBytes n w

/-- The bytes of a table word, then zeros up to the longest instruction (7 bytes, R95). -/
def tableImage (nbits w : Nat) : List Byte :=
  let n := (nbits + 7) / 8
  tableBytes n w ++ List.replicate (7 - n) 0

/-- The instruction the decoder reads from a table word, with every later byte zero. -/
def decodeTableWord (nbits w : Nat) : Option Instr :=
  match decode true (tableImage nbits w) with
  | .ok (i, _) => some i
  | .error _ => none

end Sys2Proof
end

