-- ==== Sys2Proof/Config.lean ====
section
/-! DEFINITION. The implementation parameters of spec/00_scope.md R5, their defaults, and the free values: the
flags MUL and DIV leave undefined (R5 `draw`, D17, D18; notes/assumptions/4.md) and the `W` flags the spec does not
state (R110; notes/assumptions/19.md). A machine's setting of the
parameters stands in its State (field `cfg`, notes/assumptions/3.md), so every statement about every state holds for
every setting. -/

namespace Sys2Proof

/-- `BP_DEFAULT_SEGMENT`: the implicit segment of a BP-based effective address. R5, R53, D8. -/
inductive BpSegment where
  | ss
  | ds
  deriving DecidableEq, Repr

/-- `STOS_SEGMENT`: the segment of the STOS destination. R5, R53, D8. -/
inductive StosSegment where
  | es
  | ds
  deriving DecidableEq, Repr

/-- `INC_DEC_CF`: what INC and DEC do to CF. R5, R206, D16. -/
inductive IncDecCf where
  | compute
  | preserve
  deriving DecidableEq, Repr

/-- `PARITY_SCOPE`: the bits PF is computed over. R5, R160, D19. -/
inductive ParityScope where
  | low8
  | full
  deriving DecidableEq, Repr

/-- `PUSH_SP_VALUE`: the value PUSH SP stores. R5, R292, D20. -/
inductive PushSpValue where
  | new
  | old
  deriving DecidableEq, Repr

/-- `DECODE_CACHE`: whether the engine re-dispatches a retained decode. R5, R145, D25. -/
inductive DecodeCache where
  | none
  | byIp
  deriving DecidableEq, Repr

/-- The parameters of R5 that select a behaviour. `LOAD_SEG`, `LOAD_OFF` and `IMAGE` are arguments of the loader;
`MEM_SIZE` and `PHYS_MASK` are fixed. -/
structure Config where
  /-- `ADMIT_TIER_X`: decode the tier-X forms. D3. -/
  admitTierX : Bool
  /-- `EA_WRAP16`: the effective-address offset wraps at 2^16 before the segment is added. D7. -/
  eaWrap16 : Bool
  bpDefaultSegment : BpSegment
  stosSegment : StosSegment
  incDecCf : IncDecCf
  parityScope : ParityScope
  pushSpValue : PushSpValue
  decodeCache : DecodeCache
  deriving DecidableEq, Repr

/-- The defaults of R5. -/
def Config.default : Config :=
  { admitTierX := true, eaWrap16 := true, bpDefaultSegment := .ss, stosSegment := .es, incDecCf := .compute,
    parityScope := .low8, pushSpValue := .new, decodeCache := .none }

/-- `MEM_SIZE`: the bytes of flat memory. R5, R50, D6. -/
def Config.memSize : Nat := 2 ^ 20

/-- FREE VALUE: the k-th flag value drawn. Nothing constrains it: it has no body, so a statement about a drawn flag
holds whatever it is. R5 `draw`, R208, R210, D17, D18; notes/assumptions/4.md. -/
opaque Config.draw : Nat → Bool

/-- FREE VALUE: the `W` of a record for whose form the spec states none, by the record's bytes (the decoder's output
depends on nothing else: R110). It has no body. R110, R152; notes/assumptions/19.md. -/
opaque Config.unstatedWidth : List Byte → Width

end Sys2Proof
end

