-- ==== Sys2Proof/Machine/Flags.lean ====
section
/-! DEFINITION. The flags register (spec/10_state.md R28, R29), the flag computation unit (spec/40_engine_and_flags.md
R160 to R167), the conditions of the conditional jumps (spec/44_control_flow.md R262) and the drawn flags (D17, D18). -/

namespace Sys2Proof.Machine

/-- The nine named flags: CF, PF, AF, ZF, SF, TF, IF (interrupt-enable), DF, OF. R28. -/
inductive Flag where
  | cf | pf | af | zf | sf | tf | ief | df | of
  deriving DecidableEq, Repr

/-- The bit of FLAGS a flag is. R29. -/
def Flag.bit : Flag → Nat
  | .cf => 0 | .pf => 2 | .af => 4 | .zf => 6 | .sf => 7 | .tf => 8 | .ief => 9 | .df => 10 | .of => 11

/-- A flag of a FLAGS word. -/
def getFlag (f : Flag) (w : Word) : Bool := w.getLsbD f.bit

/-- A FLAGS word with one flag written; every other bit, named or reserved, is kept. R167. -/
def setFlag (f : Flag) (b : Bool) (w : Word) : Word :=
  if b then w ||| (1#16 <<< f.bit) else w &&& ~~~(1#16 <<< f.bit)

/-- The number of 1 bits among the low `k` bits is even. R160. -/
def evenOnes {n : Nat} (k : Nat) (v : BitVec n) : Bool :=
  (List.range k).countP (fun i => v.getLsbD i) % 2 == 0

/-- The bits PF is computed over. R160, D19. -/
def parityBits (p : ParityScope) (n : Nat) : Nat :=
  match p with
  | .low8 => 8
  | .full => n

/-- The common routine: ZF, SF and PF of a result. R160. -/
def commonFlags {n : Nat} (p : ParityScope) (res : BitVec n) (w : Word) : Word :=
  setFlag .pf (evenOnes (parityBits p n) res) (setFlag .sf (res.getLsbD (n - 1)) (setFlag .zf (res == 0) w))

/-- The two operations of the arithmetic routine. R161. -/
inductive ArithOp where
  | add
  | sub
  deriving DecidableEq, Repr

/-- The exact integer `t`. R161. -/
def ArithOp.exact {n : Nat} (op : ArithOp) (a b : BitVec n) : Int :=
  match op with
  | .add => (a.toNat : Int) + b.toNat
  | .sub => (a.toNat : Int) - b.toNat

/-- The full-width masked result `t mod 2^w`. R161. -/
def ArithOp.result {n : Nat} (op : ArithOp) (a b : BitVec n) : BitVec n := BitVec.ofInt n (op.exact a b)

/-- CF: bit w of `t mod 2^(w+1)`. R161, R162. -/
def ArithOp.carry {n : Nat} (op : ArithOp) (a b : BitVec n) : Bool := (BitVec.ofInt (n + 1) (op.exact a b)).getLsbD n

/-- AF: bit 4 of `a XOR b XOR res`. R161, R163. -/
def ArithOp.auxCarry {n : Nat} (op : ArithOp) (a b : BitVec n) : Bool := (a ^^^ b ^^^ op.result a b).getLsbD 4

/-- OF: the sign bit of the XOR test. R161, R164. -/
def ArithOp.overflow {n : Nat} (op : ArithOp) (a b : BitVec n) : Bool :=
  match op with
  | .add => ((a ^^^ op.result a b) &&& (b ^^^ op.result a b)).getLsbD (n - 1)
  | .sub => ((a ^^^ b) &&& (a ^^^ op.result a b)).getLsbD (n - 1)

/-- The arithmetic routine's flags. R161. -/
def arithFlags {n : Nat} (p : ParityScope) (op : ArithOp) (a b : BitVec n) (w : Word) : Word :=
  setFlag .of (op.overflow a b) (setFlag .af (op.auxCarry a b) (setFlag .cf (op.carry a b)
    (commonFlags p (op.result a b) w)))

/-- The logical routine's flags. R165. -/
def logicFlags {n : Nat} (p : ParityScope) (res : BitVec n) (w : Word) : Word :=
  commonFlags p res (setFlag .af false (setFlag .of false (setFlag .cf false w)))

/-- INC and DEC: the arithmetic routine with b = 1, then CF by INC_DEC_CF. R203, R204, R206, D16. -/
def incDecFlags {n : Nat} (cfg : Config) (op : ArithOp) (a : BitVec n) (w : Word) : Word :=
  let f := arithFlags cfg.parityScope op a 1 w
  match cfg.incDecCf with
  | .compute => f
  | .preserve => setFlag .cf (getFlag .cf w) f

/-- Flags that take the draws numbered `k`, `k+1`, … in order. D17, D18; log 4. -/
def drawFlags : List Flag → Nat → Word → Word
  | [], _, w => w
  | f :: fs, k, w => drawFlags fs (k + 1) (setFlag f (Config.draw k) w)

/-- The flags MUL leaves undefined. R208, D17. -/
def mulDrawn : List Flag := [.pf, .af, .zf, .sf]

/-- The flags DIV leaves undefined. R210, D18. -/
def divDrawn : List Flag := [.cf, .pf, .af, .zf, .sf, .of]

/-- MUL: CF = OF = 1 exactly when the high half is not zero, the other four drawn. R208, D17. -/
def mulFlags (highNonZero : Bool) (k : Nat) (w : Word) : Word :=
  drawFlags mulDrawn k (setFlag .of highNonZero (setFlag .cf highNonZero w))

/-- DIV: all six status flags drawn. R210, D18. -/
def divFlags (k : Nat) (w : Word) : Word := drawFlags divDrawn k w

/-- The condition of each conditional jump. R262. -/
def condHolds (c : Cond) (w : Word) : Bool :=
  match c with
  | .o => getFlag .of w
  | .no => !getFlag .of w
  | .b => getFlag .cf w
  | .nb => !getFlag .cf w
  | .e => getFlag .zf w
  | .ne => !getFlag .zf w
  | .be => getFlag .cf w || getFlag .zf w
  | .nbe => !getFlag .cf w && !getFlag .zf w
  | .s => getFlag .sf w
  | .ns => !getFlag .sf w
  | .p => getFlag .pf w
  | .np => !getFlag .pf w
  | .l => getFlag .sf w != getFlag .of w
  | .nl => getFlag .sf w == getFlag .of w
  | .le => (getFlag .sf w != getFlag .of w) || getFlag .zf w
  | .nle => (getFlag .sf w == getFlag .of w) && !getFlag .zf w

end Sys2Proof.Machine
end

