-- ==== Sys2Proof/Machine/State.lean ====
section
/-! DEFINITION. The state of the block (spec/10_state.md R20), the terminal outcomes of a step (spec/60_exceptions.md
R350) and the state after reset (R35, R392). -/

namespace Sys2Proof.Machine

/-- Every terminal outcome of R350, with the values R350 records: `p0` is the physical address of the instruction's
first byte. A run ends there and no state after it may be read (R148, R351). All are SAFE: each is an outcome the spec
itself gives. Which class (Halt, Anomaly, Fatal) each belongs to is `Fault.kind`. -/
inductive Fault where
  /-- `Halt(EndOfImage)`: raised by the fetch when Phys(CS, IP) ≥ E. Safe. R141. -/
  | endOfImage (p0 : Nat)
  /-- `Halt(NoMatch)`: raised by the decoder at an opcode byte with no admitted entry. Safe. R97. -/
  | noMatch (p0 : Nat) (opcode : Byte)
  /-- `Anomaly(BadArithSelector)`: raised by the decoder at selector 010 or 011. Safe. R100 to R103. -/
  | badArithSelector (p0 : Nat) (opcode : Byte) (modrm : Option Byte)
  /-- `Anomaly(BadSubSelector)`: raised by the decoder at an unnamed group selector. Safe. R93, R105, R118, R119. -/
  | badSubSelector (p0 : Nat) (opcode modrm : Byte)
  /-- `Anomaly(BadSegReg)`: raised by the decoder at a refused segment-register field. Safe. R87. -/
  | badSegReg (p0 : Nat) (opcode modrm : Byte)
  /-- `Anomaly(DuplicatePrefix)`: raised by the decoder at the second prefix of a class. Safe. R83. -/
  | duplicatePrefix (p0 : Nat) (b : Byte)
  /-- `Anomaly(PrefixMisuse)`: raised by the decoder at a repeat prefix before anything but STOS. Safe. R84. -/
  | prefixMisuse (p0 : Nat) (opcode : Byte)
  /-- `Fatal(CursorOutOfBounds(p))`: raised by the decoder when it needs a byte at p ≥ E. Safe. R80, R99. -/
  | cursorOutOfBounds (p : Nat)
  /-- `Fatal(MemoryOutOfBounds(a, n))`: raised by a data access with a + n > 2^20. Safe. R57. -/
  | memoryOutOfBounds (a n : Nat)
  /-- `Fatal(DivideByZero)`: raised by DIV. Safe. R209. -/
  | divideByZero (p0 : Nat)
  /-- `Fatal(DivideOverflow)`: raised by DIV when the quotient does not fit. Safe. R209, R211. -/
  | divideOverflow (p0 : Nat)
  /-- `Fatal(RepNE)`: raised by STOSB and STOSW under REPNE. Safe. R334. -/
  | repNE (p0 : Nat)
  /-- `Fatal(FarJump)`: raised by both far jumps. Safe. R285. -/
  | farJump (p0 : Nat)
  /-- `Fatal(LoaderIO)`: raised by the loader, before the run. Safe. R390. -/
  | loaderIO
  /-- `Fatal(LoaderCapacity)`: raised by the loader, before the run. Safe. R390. -/
  | loaderCapacity
  deriving DecidableEq, Repr

/-- The one refusal the host's interface asks for. -/
inductive Refusal where
  /-- An instruction that has no meaning yet: raised by no arm of `exec` in this model. Safe. -/
  | notModelled (mnemonic : String)
  deriving DecidableEq, Repr

/-- The decoder's output record (R110): the instruction, the bytes it took (R95) and the physical address of its first
byte (R96). The record's other fields (mnemonic, operands, flags) are functions of the instruction: Machine/Record.lean. -/
structure Record where
  instr : Instr
  size : Nat
  offset : Nat
  deriving DecidableEq, Repr

/-- Memory: the bytes that are not zero, by physical address, strictly rising; an unlisted address reads as 0x00
(R35, R50; D23). -/
abbrev Memory := List Host.Cell

/-- The state of the block. R20, and two fields of the model's own: `cfg` (log 3) and `draws` (log 4). -/
structure State where
  /-- R21. -/
  ax : Word
  /-- R21. -/
  cx : Word
  /-- R21. -/
  dx : Word
  /-- R21. -/
  bx : Word
  /-- R21. -/
  sp : Word
  /-- R21. -/
  bp : Word
  /-- R21. -/
  si : Word
  /-- R21. -/
  di : Word
  /-- R26. -/
  es : Word
  /-- R26. -/
  cs : Word
  /-- R26. -/
  ss : Word
  /-- R26. -/
  ds : Word
  /-- R27. -/
  ip : Word
  /-- R28. -/
  flags : Word
  /-- R50. -/
  mem : Memory
  /-- O, the physical origin of the image. R34. -/
  imageOrigin : Nat
  /-- E, one past the image's last byte. R34, R391. -/
  imageEnd : Nat
  /-- The physical address of the next instruction byte the decoder will read. R34. -/
  cursor : Nat
  /-- The most recently decoded record. R34. -/
  last : Option Record
  /-- The retained decodes by IP value, IP strictly rising. R34, R145. -/
  dtable : List (Word × Record)
  /-- The model's own: the parameters of R5; no step changes them. log 3. -/
  cfg : Config
  /-- The model's own: how many free values have been drawn. log 4. -/
  draws : Nat
  deriving DecidableEq, Repr

/-- The state after reset: R35 and R392 for the parameters' defaults and, where R5 leaves a parameter OPEN, an empty
image at 0000:0000 (log 1). -/
def State.reset : State :=
  { ax := 0, cx := 0, dx := 0, bx := 0, sp := 0, bp := 0, si := 0, di := 0, es := 0, cs := 0, ss := 0, ds := 0,
    ip := 0, flags := 0, mem := [], imageOrigin := 0, imageEnd := 0, cursor := 0, last := none, dtable := [],
    cfg := Config.default, draws := 0 }

end Sys2Proof.Machine
end

