-- ==== Sys2Proof/Machine/Ops.lean ====
section
/-! DEFINITION. The named operations over memory and registers: physical addresses (spec/20_memory.md R52), byte and
word accesses (R55 to R57), register access (spec/10_state.md R23, R24), the stack primitives (spec/45_stack.md R290,
R291), the Advance stage (spec/40_engine_and_flags.md R143), taking an interrupt and returning from it
(spec/46_interrupts.md R310, R314), and the classes of the terminal outcomes (spec/00_scope.md R10). -/

namespace Sys2Proof.Machine

/-- What a part of a step gives: a value, or the terminal outcome it raises (R9 `raise`). -/
abbrev Exec (α : Type) := Except Fault α

/-- The answer of a meaning. -/
abbrev Out := Host.Outcome State Fault Refusal

/-- The classes of the terminal outcomes. R10, R351. -/
inductive OutcomeKind where
  | halt
  | anomaly
  | fatal
  deriving DecidableEq, Repr

/-- R10, R350, R351. -/
def Fault.kind : Fault → OutcomeKind
  | .endOfImage _ | .noMatch _ _ => .halt
  | .badArithSelector _ _ _ | .badSubSelector _ _ _ | .badSegReg _ _ _ | .duplicatePrefix _ _ | .prefixMisuse _ _ => .anomaly
  | .cursorOutOfBounds _ | .memoryOutOfBounds _ _ | .divideByZero _ | .divideOverflow _ => .fatal
  | .repNE _ | .farJump _ | .loaderIO | .loaderCapacity => .fatal

/-! ## The flags and the size of the record being executed -/

/-- What Execute uses of the decoded record besides its operands: the segment override, the repeat prefix and the
size. R110. -/
structure Ctx where
  segovr : Option SReg
  rep : Option Rep
  size : Nat
  deriving DecidableEq, Repr

/-- The record fields of an instruction. R84, R95, R110. -/
def Ctx.of (i : Instr) : Ctx := { segovr := i.segovr, rep := i.rep, size := i.size }

/-! ## Memory -/

/-- The byte at an address; 0x00 where none is listed. R55, R35. -/
def Memory.read : Memory → Nat → Byte
  | [], _ => 0
  | (k, v) :: t, a => if a = k then v else Memory.read t a

/-- Memory with address `a` unlisted. -/
def Memory.erase (m : Memory) (a : Nat) : Memory := m.filter (fun c => c.1 != a)

/-- Memory with the entry (a, v), in its place. -/
def Memory.insert : Memory → Nat → Byte → Memory
  | [], a, v => [(a, v)]
  | (k, x) :: t, a, v =>
    if a < k then (a, v) :: (k, x) :: t
    else if a = k then (a, v) :: t
    else (k, x) :: Memory.insert t a v

/-- Memory with the byte at `a` set; the value an unlisted address reads as unlists it. R56. -/
def Memory.write (m : Memory) (a : Nat) (v : Byte) : Memory := if v = 0 then m.erase a else m.insert a v

/-- The canonical form: addresses strictly rising, no entry equal to what an unlisted address reads as. -/
abbrev Memory.wf (m : Memory) : Prop := m.Pairwise (fun x y => x.1 < y.1) ∧ ∀ c ∈ m, c.2 ≠ 0

/-- Every listed address is in the address space. R50. -/
abbrev Memory.bounded (m : Memory) : Prop := ∀ c ∈ m, c.1 < Config.memSize

/-- Bytes written at consecutive addresses. R390. -/
def Memory.writeBytes (m : Memory) (a : Nat) : List Byte → Memory
  | [] => m
  | b :: t => Memory.writeBytes (m.write a b) (a + 1) t

/-- The physical address of a segment and an offset. R52. -/
def phys (seg off : Word) : Nat := (seg.toNat * 16 + off.toNat) % Config.memSize

/-- `MemRead(a, 1)`. R55, R57. -/
def State.load8 (s : State) (a : Nat) : Exec Byte :=
  if a + 1 ≤ Config.memSize then .ok (s.mem.read a) else .error (.memoryOutOfBounds a 1)

/-- `MemRead(a, 2)`: little-endian. R55, R57. -/
def State.load16 (s : State) (a : Nat) : Exec Word :=
  if a + 2 ≤ Config.memSize then .ok (wordOf (s.mem.read a) (s.mem.read (a + 1))) else .error (.memoryOutOfBounds a 2)

/-- `MemWrite(a, 1, v)`. R56, R57. -/
def State.store8 (s : State) (a : Nat) (v : Byte) : Exec State :=
  if a + 1 ≤ Config.memSize then .ok { s with mem := s.mem.write a v } else .error (.memoryOutOfBounds a 1)

/-- `MemWrite(a, 2, v)`: little-endian. R56, R57. -/
def State.store16 (s : State) (a : Nat) (v : Word) : Exec State :=
  if a + 2 ≤ Config.memSize then .ok { s with mem := (s.mem.write a (loByte v)).write (a + 1) (hiByte v) }
  else .error (.memoryOutOfBounds a 2)

/-! ## Registers -/

/-- A 16-bit general register. R21, R24. -/
def State.reg16 (s : State) : Reg16 → Word
  | .ax => s.ax | .cx => s.cx | .dx => s.dx | .bx => s.bx | .sp => s.sp | .bp => s.bp | .si => s.si | .di => s.di

/-- R23. -/
def State.setReg16 (s : State) (r : Reg16) (v : Word) : State :=
  match r with
  | .ax => { s with ax := v }
  | .cx => { s with cx := v }
  | .dx => { s with dx := v }
  | .bx => { s with bx := v }
  | .sp => { s with sp := v }
  | .bp => { s with bp := v }
  | .si => { s with si := v }
  | .di => { s with di := v }

/-- The 16-bit register a byte alias is part of. R22. -/
def parent : Reg8 → Reg16
  | .al | .ah => .ax
  | .cl | .ch => .cx
  | .dl | .dh => .dx
  | .bl | .bh => .bx

/-- Whether a byte alias is bits 15:8 of its parent. R22. -/
def isHigh : Reg8 → Bool
  | .al | .cl | .dl | .bl => false
  | .ah | .ch | .dh | .bh => true

/-- A byte alias. R22, R24. -/
def State.reg8 (s : State) (r : Reg8) : Byte :=
  if isHigh r then hiByte (s.reg16 (parent r)) else loByte (s.reg16 (parent r))

/-- Writing one alias keeps the other byte of its parent. R23. -/
def State.setReg8 (s : State) (r : Reg8) (v : Byte) : State :=
  let old := s.reg16 (parent r)
  s.setReg16 (parent r) (if isHigh r then wordOf (loByte old) v else wordOf v (hiByte old))

/-- A segment register. R26. -/
def State.sreg (s : State) : SReg → Word
  | .es => s.es | .cs => s.cs | .ss => s.ss | .ds => s.ds

/-- A segment register written by an instruction that names it; CS is never so named. R26, R87. -/
def State.setSReg (s : State) (r : SRegDst) (v : Word) : State :=
  match r with
  | .es => { s with es := v }
  | .ss => { s with ss := v }
  | .ds => { s with ds := v }

/-- FLAGS written whole. R28. -/
def State.setFlags (s : State) (w : Word) : State := { s with flags := w }

/-- IP written. R27. -/
def State.setIp (s : State) (v : Word) : State := { s with ip := v }

/-- The physical address of the current instruction's first byte. R141, R350. -/
def State.p0 (s : State) : Nat := phys s.cs s.ip

/-- The segment register `STOS_SEGMENT` names. R53, D8. -/
def State.stosSeg (s : State) : Word :=
  match s.cfg.stosSegment with
  | .es => s.es
  | .ds => s.ds

/-! ## The end of a step -/

/-- The offset of the next instruction. R27, R143. -/
def State.nextIp (s : State) (size : Nat) : Word := s.ip + BitVec.ofNat 16 size

/-- The Advance stage. R143. -/
def State.advance (s : State) (size : Nat) : State := s.setIp (s.nextIp size)

/-- An instruction that returns normally: Advance adds its size. R143. -/
def finish (c : Ctx) : Exec State → Out
  | .ok s => .next (s.advance c.size)
  | .error f => .fault f

/-- A redirect: IP is left as the instruction wrote it. R143. -/
def redirect : Exec State → Out
  | .ok s => .next s
  | .error f => .fault f

/-! ## The stack -/

/-- `Push(v)`: SP is decremented, then the word is stored at SS:SP. R290. -/
def push (v : Word) (s : State) : Exec State :=
  let s' := s.setReg16 .sp (s.sp - 2)
  s'.store16 (phys s'.ss s'.sp) v

/-- `Pop()`: the word at SS:SP is read, then SP is incremented. R291. -/
def pop (s : State) : Exec (Word × State) :=
  match s.load16 (phys s.ss s.sp) with
  | .ok v => .ok (v, s.setReg16 .sp (s.sp + 2))
  | .error f => .error f

/-! ## Taking an interrupt, and returning from it -/

/-- `Enter(n)`: FLAGS, CS and the return IP are pushed, TF and IF cleared, then IP and CS loaded from the vector at
physical 4n. R310, D13, D14, D36. -/
def enter (n : Byte) (size : Nat) (s : State) : Exec State := do
  let s1 ← push s.flags s
  let s2 ← push s.cs s1
  let s3 ← push (s.nextIp size) s2
  let s4 := s3.setFlags (setFlag .ief false (setFlag .tf false s3.flags))
  let newIp ← s4.load16 (4 * n.toNat)
  let newCs ← s4.load16 (4 * n.toNat + 2)
  .ok { s4 with ip := newIp, cs := newCs }

/-- The return from an interrupt: IP, CS and FLAGS are popped. R314, D22. -/
def interruptReturn (s : State) : Exec State := do
  let (newIp, s1) ← pop s
  let (newCs, s2) ← pop { s1 with ip := newIp }
  let (newFlags, s3) ← pop { s2 with cs := newCs }
  .ok { s3 with flags := newFlags }

end Sys2Proof.Machine
end

