-- ==== Sys2Proof/Machine/Operands.lean ====
section
/-! DEFINITION. Operands at execution time: effective addresses and their segments (spec/20_memory.md R53, R54), the
places an instruction can read and write and the operands it can read (spec/40_engine_and_flags.md R150, R151). An
operand of width n reads as a BitVec n, so no operation combines two widths (R152). -/

namespace Sys2Proof.Machine

/-- The EA kind: a register combination, or none for Direct. R88. -/
def eaKind : Ea → Option EaBase
  | .direct _ => none
  | .base k | .disp8 k _ | .disp16 k _ => some k

/-- The displacement, as 16 bits: a displacement byte is sign-extended. R89. -/
def eaDisp : Ea → Word
  | .direct a => a
  | .base _ => 0
  | .disp8 _ d => d.signExtend 16
  | .disp16 _ d => d

/-- `base(k)`: the sum of the registers a kind names, as an integer. R54, R88. -/
def baseSum (s : State) : Option EaBase → Nat
  | none => 0
  | some .bxSi => s.bx.toNat + s.si.toNat
  | some .bxDi => s.bx.toNat + s.di.toNat
  | some .bpSi => s.bp.toNat + s.si.toNat
  | some .bpDi => s.bp.toNat + s.di.toNat
  | some .si => s.si.toNat
  | some .di => s.di.toNat
  | some .bp => s.bp.toNat
  | some .bx => s.bx.toNat

/-- The implicit segment of a memory operand: `BP_DEFAULT_SEGMENT` for a BP-based kind, else DS. R53, D8. -/
def implicitSeg (cfg : Config) : Option EaBase → SReg
  | some .bpSi | some .bpDi | some .bp =>
    match cfg.bpDefaultSegment with
    | .ss => .ss
    | .ds => .ds
  | some .bxSi | some .bxDi | some .si | some .di | some .bx | none => .ds

/-- The displacement as R54 adds it when the offset does not wrap: signed, but the address itself for Direct. C10. -/
def eaDispExact (m : Ea) : Int :=
  match eaKind m with
  | none => (eaDisp m).toNat
  | some _ => (eaDisp m).toInt

/-- The physical address of a memory operand, both settings of `EA_WRAP16`. R54. -/
def eaAddr (segovr : Option SReg) (m : Ea) (s : State) : Nat :=
  let seg := s.sreg (segovr.getD (implicitSeg s.cfg (eaKind m)))
  if s.cfg.eaWrap16 then phys seg (BitVec.ofNat 16 (baseSum s (eaKind m) + (eaDisp m).toNat))
  else (((seg.toNat * 16 + baseSum s (eaKind m) : Nat) + eaDispExact m) % (Config.memSize : Int)).toNat

/-- A destination of width n: a register, or memory at a physical address. R150, R151. -/
inductive Place : Nat → Type where
  | reg8 (r : Reg8) : Place 8
  | reg16 (r : Reg16) : Place 16
  | sreg (r : SRegDst) : Place 16
  | mem8 (a : Nat) : Place 8
  | mem16 (a : Nat) : Place 16

/-- `Read(op)`. R150. -/
def Place.read : {n : Nat} → Place n → State → Exec (BitVec n)
  | _, .reg8 r, s => .ok (s.reg8 r)
  | _, .reg16 r, s => .ok (s.reg16 r)
  | _, .sreg r, s => .ok (s.sreg r.sreg)
  | _, .mem8 a, s => s.load8 a
  | _, .mem16 a, s => s.load16 a

/-- `Write(op, v)`. R151. -/
def Place.write : {n : Nat} → Place n → BitVec n → State → Exec State
  | _, .reg8 r, v, s => .ok (s.setReg8 r v)
  | _, .reg16 r, v, s => .ok (s.setReg16 r v)
  | _, .sreg r, v, s => .ok (s.setSReg r v)
  | _, .mem8 a, v, s => s.store8 a v
  | _, .mem16 a, v, s => s.store16 a v

/-- A source of width n: a place or a value the instruction carries. R150. -/
inductive Opnd (n : Nat) where
  | place (p : Place n)
  | imm (v : BitVec n)

/-- `Read(op)`. R150. -/
def Opnd.read {n : Nat} : Opnd n → State → Exec (BitVec n)
  | .place p, s => p.read s
  | .imm v, _ => .ok v

/-- An 8-bit r/m operand; its address is computed once, from the registers as they are. R90, R153. -/
def rm8 (c : Ctx) (s : State) : Rm Reg8 → Place 8
  | .reg r => .reg8 r
  | .mem m => .mem8 (eaAddr c.segovr m s)

/-- A 16-bit r/m operand; its address is computed once, from the registers as they are. R90, R153. -/
def rm16 (c : Ctx) (s : State) : Rm Reg16 → Place 16
  | .reg r => .reg16 r
  | .mem m => .mem16 (eaAddr c.segovr m s)

end Sys2Proof.Machine
end

