-- ==== Sys2Proof/Machine/Alu.lean ====
section
/-! DEFINITION. The operations the arithmetic and the logical families share: the six operations of the arithmetic
selector over two operands (spec/42_arithmetic.md R200 to R202, spec/43_logical.md R240 to R242), flags-only TEST
(R243), INC and DEC (R203 to R206). Each reads its operands, computes the full-width result and its flags, and writes
the result last. -/

namespace Sys2Proof.Machine

/-- The result of a selector's operation. CMP computes the difference it does not store. R200 to R202, R240 to R242. -/
def aluResult {n : Nat} (op : AluOp) (a b : BitVec n) : BitVec n :=
  match op with
  | .add => ArithOp.add.result a b
  | .or => a ||| b
  | .and => a &&& b
  | .sub => ArithOp.sub.result a b
  | .xor => a ^^^ b
  | .cmp => ArithOp.sub.result a b

/-- The FLAGS word a selector's operation leaves. R166. -/
def aluFlags {n : Nat} (p : ParityScope) (op : AluOp) (a b : BitVec n) (w : Word) : Word :=
  match op with
  | .add => arithFlags p .add a b w
  | .or => logicFlags p (a ||| b) w
  | .and => logicFlags p (a &&& b) w
  | .sub => arithFlags p .sub a b w
  | .xor => logicFlags p (a ^^^ b) w
  | .cmp => arithFlags p .sub a b w

/-- Whether a selector's operation stores its result. R202. -/
def aluStores : AluOp → Bool
  | .add | .or | .and | .sub | .xor => true
  | .cmp => false

/-- A two-operand operation: both operands are read, the flags and then the destination written. R200 to R202,
R240 to R242. -/
def alu {n : Nat} (op : AluOp) (dst : Place n) (src : Opnd n) (s : State) : Exec State := do
  let a ← dst.read s
  let b ← src.read s
  let s' := s.setFlags (aluFlags s.cfg.parityScope op a b s.flags)
  if aluStores op then dst.write (aluResult op a b) s' else .ok s'

/-- TEST: the flags of the bitwise and; nothing is stored. R243. -/
def testOp {n : Nat} (x : Place n) (y : Opnd n) (s : State) : Exec State := do
  let a ← x.read s
  let b ← y.read s
  .ok (s.setFlags (logicFlags s.cfg.parityScope (a &&& b) s.flags))

/-- INC and DEC. R203, R204, R206. -/
def incDec {n : Nat} (op : ArithOp) (dst : Place n) (s : State) : Exec State := do
  let a ← dst.read s
  dst.write (op.result a 1) (s.setFlags (incDecFlags s.cfg op a s.flags))

/-! ## The operand forms -/

/-- The form `00sss0dw`. R94, R101. -/
def aluRmReg (c : Ctx) (op : AluOp) (d : Dir) (o : RmReg) (s : State) : Exec State :=
  match d, o with
  | .toRm, .byte rm r => alu op (rm8 c s rm) (.place (.reg8 r)) s
  | .toReg, .byte rm r => alu op (.reg8 r) (.place (rm8 c s rm)) s
  | .toRm, .word rm r => alu op (rm16 c s rm) (.place (.reg16 r)) s
  | .toReg, .word rm r => alu op (.reg16 r) (.place (rm16 c s rm)) s

/-- The form `00sss10w`. R102. -/
def aluAccImm (op : AluOp) (o : AccImm) (s : State) : Exec State :=
  match o with
  | .byte v => alu op (.reg8 .al) (.imm v) s
  | .word v => alu op (.reg16 .ax) (.imm v) s

/-- The form `100000sw`; a sign-extended byte with s = 1 and w = 1. R91, R103. -/
def aluRmImm (c : Ctx) (op : AluOp) (o : GrpImm) (s : State) : Exec State :=
  match o with
  | .byte _ rm v => alu op (rm8 c s rm) (.imm v) s
  | .word rm v => alu op (rm16 c s rm) (.imm v) s
  | .wordSx rm v => alu op (rm16 c s rm) (.imm (v.signExtend 16)) s

/-- INC or DEC of an r/m operand. R119. -/
def incDecRm (c : Ctx) (op : ArithOp) (o : RmOnly) (s : State) : Exec State :=
  match o with
  | .byte rm => incDec op (rm8 c s rm) s
  | .word rm => incDec op (rm16 c s rm) s

end Sys2Proof.Machine
end

