-- ==== Sys2Proof/Machine/Arith.lean ====
section
/-! DEFINITION. The arithmetic family (spec/42_arithmetic.md): ADD, SUB, CMP, INC, DEC, MUL, DIV. Each instruction has
a meaning in the context of its record's prefixes and size (`…In`), and its arm of exec (`exec…`), which is that
meaning for the instruction with no prefix byte. -/

namespace Sys2Proof.Machine

/-- MUL of 8 bits: AX takes AL × m. R207, R208. -/
def mul8 (m : Byte) (s : State) : State :=
  let p := BitVec.ofNat 16 ((s.reg8 .al).toNat * m.toNat)
  { (s.setReg16 .ax p) with flags := mulFlags (hiByte p != 0) s.draws s.flags, draws := s.draws + mulDrawn.length }

/-- MUL of 16 bits: DX:AX takes AX × m. R207, R208. -/
def mul16 (m : Word) (s : State) : State :=
  let p := s.ax.toNat * m.toNat
  let hi := BitVec.ofNat 16 (p / 65536)
  { ((s.setReg16 .ax (BitVec.ofNat 16 p)).setReg16 .dx hi) with
    flags := mulFlags (hi != 0) s.draws s.flags, draws := s.draws + mulDrawn.length }

/-- The flags of a completed DIV, all drawn. R210. -/
def divDraw (s : State) : State := { s with flags := divFlags s.draws s.flags, draws := s.draws + divDrawn.length }

/-- DIV of 8 bits: AL takes the quotient of AX by v, AH the remainder. R209, R211. -/
def div8 (v : Byte) (s : State) : Exec State :=
  if v = 0 then .error (.divideByZero s.p0)
  else
    let q := s.ax.toNat / v.toNat
    let r := s.ax.toNat % v.toNat
    if 2 ^ 8 ≤ q then .error (.divideOverflow s.p0)
    else .ok (divDraw ((s.setReg8 .al (BitVec.ofNat 8 q)).setReg8 .ah (BitVec.ofNat 8 r)))

/-- DIV of 16 bits: AX takes the quotient of DX:AX by v, DX the remainder. R209, R211. -/
def div16 (v : Word) (s : State) : Exec State :=
  if v = 0 then .error (.divideByZero s.p0)
  else
    let n := s.dx.toNat * 65536 + s.ax.toNat
    let q := n / v.toNat
    let r := n % v.toNat
    if 2 ^ 16 ≤ q then .error (.divideOverflow s.p0)
    else .ok (divDraw ((s.setReg16 .ax (BitVec.ofNat 16 q)).setReg16 .dx (BitVec.ofNat 16 r)))

/-- MUL of an r/m operand. R207. -/
def mulRmOp (c : Ctx) (o : RmOnly) (s : State) : Exec State :=
  match o with
  | .byte rm => do
    let m ← (rm8 c s rm).read s
    .ok (mul8 m s)
  | .word rm => do
    let m ← (rm16 c s rm).read s
    .ok (mul16 m s)

/-- DIV by an r/m operand. R209. -/
def divRmOp (c : Ctx) (o : RmOnly) (s : State) : Exec State :=
  match o with
  | .byte rm => do
    let v ← (rm8 c s rm).read s
    div8 v s
  | .word rm => do
    let v ← (rm16 c s rm).read s
    div16 v s

/-- ADD r/m,reg, R200, R101. -/
def addRmRegIn (c : Ctx) (d : Dir) (o : RmReg) (s : State) : Out := finish c (aluRmReg c .add d o s)

/-- ADD r/m without a prefix byte. R200, R101. -/
def execAddRmReg (d : Dir) (o : RmReg) (s : State) : Out := addRmRegIn (Ctx.of (.addRmReg d o)) d o s

/-- ADD acc,imm, R200, R102. -/
def addAccImmIn (c : Ctx) (o : AccImm) (s : State) : Out := finish c (aluAccImm .add o s)

/-- ADD acc without a prefix byte. R200, R102. -/
def execAddAccImm (o : AccImm) (s : State) : Out := addAccImmIn (Ctx.of (.addAccImm o)) o s

/-- ADD r/m,imm, R200, R103. -/
def addRmImmIn (c : Ctx) (o : GrpImm) (s : State) : Out := finish c (aluRmImm c .add o s)

/-- ADD r/m without a prefix byte. R200, R103. -/
def execAddRmImm (o : GrpImm) (s : State) : Out := addRmImmIn (Ctx.of (.addRmImm o)) o s

/-- SUB r/m,reg, R201, R101. -/
def subRmRegIn (c : Ctx) (d : Dir) (o : RmReg) (s : State) : Out := finish c (aluRmReg c .sub d o s)

/-- SUB r/m without a prefix byte. R201, R101. -/
def execSubRmReg (d : Dir) (o : RmReg) (s : State) : Out := subRmRegIn (Ctx.of (.subRmReg d o)) d o s

/-- SUB acc,imm, R201, R102. -/
def subAccImmIn (c : Ctx) (o : AccImm) (s : State) : Out := finish c (aluAccImm .sub o s)

/-- SUB acc without a prefix byte. R201, R102. -/
def execSubAccImm (o : AccImm) (s : State) : Out := subAccImmIn (Ctx.of (.subAccImm o)) o s

/-- SUB r/m,imm, R201, R103. -/
def subRmImmIn (c : Ctx) (o : GrpImm) (s : State) : Out := finish c (aluRmImm c .sub o s)

/-- SUB r/m without a prefix byte. R201, R103. -/
def execSubRmImm (o : GrpImm) (s : State) : Out := subRmImmIn (Ctx.of (.subRmImm o)) o s

/-- CMP r/m,reg, R202, R101. -/
def cmpRmRegIn (c : Ctx) (d : Dir) (o : RmReg) (s : State) : Out := finish c (aluRmReg c .cmp d o s)

/-- CMP r/m without a prefix byte. R202, R101. -/
def execCmpRmReg (d : Dir) (o : RmReg) (s : State) : Out := cmpRmRegIn (Ctx.of (.cmpRmReg d o)) d o s

/-- CMP acc,imm, R202, R102. -/
def cmpAccImmIn (c : Ctx) (o : AccImm) (s : State) : Out := finish c (aluAccImm .cmp o s)

/-- CMP acc without a prefix byte. R202, R102. -/
def execCmpAccImm (o : AccImm) (s : State) : Out := cmpAccImmIn (Ctx.of (.cmpAccImm o)) o s

/-- CMP r/m,imm, R202, R103. -/
def cmpRmImmIn (c : Ctx) (o : GrpImm) (s : State) : Out := finish c (aluRmImm c .cmp o s)

/-- CMP r/m without a prefix byte. R202, R103. -/
def execCmpRmImm (o : GrpImm) (s : State) : Out := cmpRmImmIn (Ctx.of (.cmpRmImm o)) o s

/-- INC r16, R203, R112. -/
def incRegIn (c : Ctx) (r : Reg16) (s : State) : Out := finish c (incDec .add (.reg16 r) s)

/-- INC r16 without a prefix byte. R203, R112. -/
def execIncReg (r : Reg16) (s : State) : Out := incRegIn (Ctx.of (.incReg r)) r s

/-- INC r/m, R203, R119. -/
def incRmIn (c : Ctx) (o : RmOnly) (s : State) : Out := finish c (incDecRm c .add o s)

/-- INC r/m without a prefix byte. R203, R119. -/
def execIncRm (o : RmOnly) (s : State) : Out := incRmIn (Ctx.of (.incRm o)) o s

/-- DEC r16, R204, R112. -/
def decRegIn (c : Ctx) (r : Reg16) (s : State) : Out := finish c (incDec .sub (.reg16 r) s)

/-- DEC r16 without a prefix byte. R204, R112. -/
def execDecReg (r : Reg16) (s : State) : Out := decRegIn (Ctx.of (.decReg r)) r s

/-- DEC r/m, R204, R119. -/
def decRmIn (c : Ctx) (o : RmOnly) (s : State) : Out := finish c (incDecRm c .sub o s)

/-- DEC r/m without a prefix byte. R204, R119. -/
def execDecRm (o : RmOnly) (s : State) : Out := decRmIn (Ctx.of (.decRm o)) o s

/-- MUL r/m, R207, R118. -/
def mulRmIn (c : Ctx) (o : RmOnly) (s : State) : Out := finish c (mulRmOp c o s)

/-- MUL r/m without a prefix byte. R207, R118. -/
def execMulRm (o : RmOnly) (s : State) : Out := mulRmIn (Ctx.of (.mulRm o)) o s

/-- DIV r/m, R209, R118. -/
def divRmIn (c : Ctx) (o : RmOnly) (s : State) : Out := finish c (divRmOp c o s)

/-- DIV r/m without a prefix byte. R209, R118. -/
def execDivRm (o : RmOnly) (s : State) : Out := divRmIn (Ctx.of (.divRm o)) o s

end Sys2Proof.Machine
end

