-- ==== Sys2Proof/Machine/Control.lean ====
section
/-! DEFINITION. The control-flow family (spec/44_control_flow.md): the sixteen conditional jumps, the loop family and
the unconditional jumps. None writes a flag; a taken branch is a redirect. -/

namespace Sys2Proof.Machine

/-- `Target(d)`: the offset of the next instruction plus the displacement. R260, D12, C6. -/
def target (c : Ctx) (disp : Word) (s : State) : Word := s.nextIp c.size + disp

/-- A relative branch: a redirect to its target when taken, else Advance. R260, R143. -/
def branch (c : Ctx) (taken : Bool) (disp : Word) (s : State) : Out :=
  if taken then redirect (.ok (s.setIp (target c disp s))) else finish c (.ok s)

/-- A conditional jump: the condition is evaluated on FLAGS. R262, R279. -/
def jcc (c : Ctx) (k : Cond) (d : Byte) (s : State) : Out := branch c (condHolds k s.flags) (d.signExtend 16) s

/-- The decrement of CX that LOOPNZ, LOOPZ and LOOP begin with. R280 to R282. -/
def decCx (s : State) : State := s.setReg16 .cx (s.cx - 1)

/-- The loop family: JCXZ leaves CX alone, the others decrement it and test the new value. R280 to R283. -/
def loopFamily (c : Ctx) (k : LoopKind) (d : Byte) (s : State) : Out :=
  let disp := d.signExtend 16
  match k with
  | .nz => branch c ((decCx s).cx != 0 && !getFlag .zf s.flags) disp (decCx s)
  | .z => branch c ((decCx s).cx != 0 && getFlag .zf s.flags) disp (decCx s)
  | .always => branch c ((decCx s).cx != 0) disp (decCx s)
  | .cxz => branch c (s.cx == 0) disp s

/-- A far jump: fatal before any read or write. R285, D38. -/
def farJump (s : State) : Out := .fault (.farJump s.p0)

/-- JO rel8, R263, R115. -/
def joIn (c : Ctx) (d : Byte) (s : State) : Out := jcc c .o d s

/-- JO rel8 without a prefix byte. R263, R115. -/
def execJo (d : Byte) (s : State) : Out := joIn (Ctx.of (.jo d)) d s

/-- JNO rel8, R264, R115. -/
def jnoIn (c : Ctx) (d : Byte) (s : State) : Out := jcc c .no d s

/-- JNO rel8 without a prefix byte. R264, R115. -/
def execJno (d : Byte) (s : State) : Out := jnoIn (Ctx.of (.jno d)) d s

/-- JB rel8, R265, R115. -/
def jbIn (c : Ctx) (d : Byte) (s : State) : Out := jcc c .b d s

/-- JB rel8 without a prefix byte. R265, R115. -/
def execJb (d : Byte) (s : State) : Out := jbIn (Ctx.of (.jb d)) d s

/-- JNB rel8, R266, R115. -/
def jnbIn (c : Ctx) (d : Byte) (s : State) : Out := jcc c .nb d s

/-- JNB rel8 without a prefix byte. R266, R115. -/
def execJnb (d : Byte) (s : State) : Out := jnbIn (Ctx.of (.jnb d)) d s

/-- JE rel8, R267, R115. -/
def jeIn (c : Ctx) (d : Byte) (s : State) : Out := jcc c .e d s

/-- JE rel8 without a prefix byte. R267, R115. -/
def execJe (d : Byte) (s : State) : Out := jeIn (Ctx.of (.je d)) d s

/-- JNE rel8, R268, R115. -/
def jneIn (c : Ctx) (d : Byte) (s : State) : Out := jcc c .ne d s

/-- JNE rel8 without a prefix byte. R268, R115. -/
def execJne (d : Byte) (s : State) : Out := jneIn (Ctx.of (.jne d)) d s

/-- JBE rel8, R269, R115. -/
def jbeIn (c : Ctx) (d : Byte) (s : State) : Out := jcc c .be d s

/-- JBE rel8 without a prefix byte. R269, R115. -/
def execJbe (d : Byte) (s : State) : Out := jbeIn (Ctx.of (.jbe d)) d s

/-- JNBE rel8, R270, R115. -/
def jnbeIn (c : Ctx) (d : Byte) (s : State) : Out := jcc c .nbe d s

/-- JNBE rel8 without a prefix byte. R270, R115. -/
def execJnbe (d : Byte) (s : State) : Out := jnbeIn (Ctx.of (.jnbe d)) d s

/-- JS rel8, R271, R115. -/
def jsIn (c : Ctx) (d : Byte) (s : State) : Out := jcc c .s d s

/-- JS rel8 without a prefix byte. R271, R115. -/
def execJs (d : Byte) (s : State) : Out := jsIn (Ctx.of (.js d)) d s

/-- JNS rel8, R272, R115. -/
def jnsIn (c : Ctx) (d : Byte) (s : State) : Out := jcc c .ns d s

/-- JNS rel8 without a prefix byte. R272, R115. -/
def execJns (d : Byte) (s : State) : Out := jnsIn (Ctx.of (.jns d)) d s

/-- JP rel8, R273, R115. -/
def jpIn (c : Ctx) (d : Byte) (s : State) : Out := jcc c .p d s

/-- JP rel8 without a prefix byte. R273, R115. -/
def execJp (d : Byte) (s : State) : Out := jpIn (Ctx.of (.jp d)) d s

/-- JNP rel8, R274, R115. -/
def jnpIn (c : Ctx) (d : Byte) (s : State) : Out := jcc c .np d s

/-- JNP rel8 without a prefix byte. R274, R115. -/
def execJnp (d : Byte) (s : State) : Out := jnpIn (Ctx.of (.jnp d)) d s

/-- JL rel8, R275, R115. -/
def jlIn (c : Ctx) (d : Byte) (s : State) : Out := jcc c .l d s

/-- JL rel8 without a prefix byte. R275, R115. -/
def execJl (d : Byte) (s : State) : Out := jlIn (Ctx.of (.jl d)) d s

/-- JNL rel8, R276, R115. -/
def jnlIn (c : Ctx) (d : Byte) (s : State) : Out := jcc c .nl d s

/-- JNL rel8 without a prefix byte. R276, R115. -/
def execJnl (d : Byte) (s : State) : Out := jnlIn (Ctx.of (.jnl d)) d s

/-- JLE rel8, R277, R115. -/
def jleIn (c : Ctx) (d : Byte) (s : State) : Out := jcc c .le d s

/-- JLE rel8 without a prefix byte. R277, R115. -/
def execJle (d : Byte) (s : State) : Out := jleIn (Ctx.of (.jle d)) d s

/-- JNLE rel8, R278, R115. -/
def jnleIn (c : Ctx) (d : Byte) (s : State) : Out := jcc c .nle d s

/-- JNLE rel8 without a prefix byte. R278, R115. -/
def execJnle (d : Byte) (s : State) : Out := jnleIn (Ctx.of (.jnle d)) d s

/-- LOOPNZ rel8, R280, R116. -/
def loopnzIn (c : Ctx) (d : Byte) (s : State) : Out := loopFamily c .nz d s

/-- LOOPNZ rel8 without a prefix byte. R280, R116. -/
def execLoopnz (d : Byte) (s : State) : Out := loopnzIn (Ctx.of (.loopnz d)) d s

/-- LOOPZ rel8, R281, R116. -/
def loopzIn (c : Ctx) (d : Byte) (s : State) : Out := loopFamily c .z d s

/-- LOOPZ rel8 without a prefix byte. R281, R116. -/
def execLoopz (d : Byte) (s : State) : Out := loopzIn (Ctx.of (.loopz d)) d s

/-- LOOP rel8, R282, R116. -/
def loopIn (c : Ctx) (d : Byte) (s : State) : Out := loopFamily c .always d s

/-- LOOP rel8 without a prefix byte. R282, R116. -/
def execLoop (d : Byte) (s : State) : Out := loopIn (Ctx.of (.loop d)) d s

/-- JCXZ rel8, R283, R116. -/
def jcxzIn (c : Ctx) (d : Byte) (s : State) : Out := loopFamily c .cxz d s

/-- JCXZ rel8 without a prefix byte. R283, R116. -/
def execJcxz (d : Byte) (s : State) : Out := jcxzIn (Ctx.of (.jcxz d)) d s

/-- JMP short rel8, R284, R117. -/
def jmpShortIn (c : Ctx) (d : Byte) (s : State) : Out := branch c true (d.signExtend 16) s

/-- JMP short rel8 without a prefix byte. R284, R117. -/
def execJmpShort (d : Byte) (s : State) : Out := jmpShortIn (Ctx.of (.jmpShort d)) d s

/-- JMP near rel16, R284, R117. -/
def jmpNearIn (c : Ctx) (d : Word) (s : State) : Out := branch c true d s

/-- JMP near rel16 without a prefix byte. R284, R117. -/
def execJmpNear (d : Word) (s : State) : Out := jmpNearIn (Ctx.of (.jmpNear d)) d s

/-- JMP far ptr16:16: Fatal(FarJump). R285. -/
def jmpFarIn (_off _seg : Word) (s : State) : Out := farJump s

/-- JMP far ptr16:16 without a prefix byte. R285, R117. -/
def execJmpFar (off seg : Word) (s : State) : Out := jmpFarIn off seg s

/-- JMP far m16:16: Fatal(FarJump), its pointer not read. R285. -/
def jmpFarMemIn (_m : Ea) (s : State) : Out := farJump s

/-- JMP far m16:16 without a prefix byte. R285, R119. -/
def execJmpFarMem (m : Ea) (s : State) : Out := jmpFarMemIn m s

end Sys2Proof.Machine
end

