-- ==== Sys2Proof/Machine/Interrupt.lean ====
section
/-! DEFINITION. The interrupt family (spec/46_interrupts.md): INT n, INT 3, INTO, IRET over `enter` and
`interruptReturn`. All but an untaken INTO are redirects. -/

namespace Sys2Proof.Machine

/-- INT n, R311, R121. -/
def intImmIn (c : Ctx) (n : Byte) (s : State) : Out := redirect (enter n c.size s)

/-- INT n without a prefix byte. R311, R121. -/
def execIntImm (n : Byte) (s : State) : Out := intImmIn (Ctx.of (.intImm n)) n s

/-- INT 3, R312, R121. -/
def int3In (c : Ctx) (s : State) : Out := redirect (enter 3 c.size s)

/-- INT 3 without a prefix byte. R312, R121. -/
def execInt3 (s : State) : Out := int3In (Ctx.of .int3) s

/-- INTO, vector 4 only if OF = 1. R313, R121. -/
def intoIn (c : Ctx) (s : State) : Out :=
  if getFlag .of s.flags then redirect (enter 4 c.size s) else finish c (.ok s)

/-- INTO without a prefix byte. R313, R121. -/
def execInto (s : State) : Out := intoIn (Ctx.of .into) s

/-- IRET. R314. -/
def iretIn (s : State) : Out := redirect (interruptReturn s)

/-- IRET without a prefix byte. R314, R121. -/
def execIret (s : State) : Out := iretIn s

end Sys2Proof.Machine
end

