-- ==== Sys2Proof/Machine/Logic.lean ====
section
/-! DEFINITION. The logical family (spec/43_logical.md): AND, OR, XOR, TEST, NOT. -/

namespace Sys2Proof.Machine

/-- NOT: the one's complement is stored, no flag written. R244. -/
def notOp {n : Nat} (dst : Place n) (s : State) : Exec State := do
  let a ← dst.read s
  dst.write (~~~a) s

/-- NOT of an r/m operand. R118, R244. -/
def notRmOp (c : Ctx) (o : RmOnly) (s : State) : Exec State :=
  match o with
  | .byte rm => notOp (rm8 c s rm) s
  | .word rm => notOp (rm16 c s rm) s

/-- TEST of an r/m operand with a register. R94, R109. -/
def testRmRegOp (c : Ctx) (o : RmReg) (s : State) : Exec State :=
  match o with
  | .byte rm r => testOp (rm8 c s rm) (.place (.reg8 r)) s
  | .word rm r => testOp (rm16 c s rm) (.place (.reg16 r)) s

/-- TEST of the accumulator with an immediate. R109. -/
def testAccImmOp (o : AccImm) (s : State) : Exec State :=
  match o with
  | .byte v => testOp (.reg8 .al) (.imm v) s
  | .word v => testOp (.reg16 .ax) (.imm v) s

/-- TEST of an r/m operand with an immediate. R118. -/
def testRmImmOp (c : Ctx) (o : RmImm) (s : State) : Exec State :=
  match o with
  | .byte rm v => testOp (rm8 c s rm) (.imm v) s
  | .word rm v => testOp (rm16 c s rm) (.imm v) s

/-- AND r/m,reg, R240, R101. -/
def andRmRegIn (c : Ctx) (d : Dir) (o : RmReg) (s : State) : Out := finish c (aluRmReg c .and d o s)

/-- AND r/m without a prefix byte. R240, R101. -/
def execAndRmReg (d : Dir) (o : RmReg) (s : State) : Out := andRmRegIn (Ctx.of (.andRmReg d o)) d o s

/-- AND acc,imm, R240, R102. -/
def andAccImmIn (c : Ctx) (o : AccImm) (s : State) : Out := finish c (aluAccImm .and o s)

/-- AND acc without a prefix byte. R240, R102. -/
def execAndAccImm (o : AccImm) (s : State) : Out := andAccImmIn (Ctx.of (.andAccImm o)) o s

/-- AND r/m,imm, R240, R103. -/
def andRmImmIn (c : Ctx) (o : GrpImm) (s : State) : Out := finish c (aluRmImm c .and o s)

/-- AND r/m without a prefix byte. R240, R103. -/
def execAndRmImm (o : GrpImm) (s : State) : Out := andRmImmIn (Ctx.of (.andRmImm o)) o s

/-- OR r/m,reg, R241, R101. -/
def orRmRegIn (c : Ctx) (d : Dir) (o : RmReg) (s : State) : Out := finish c (aluRmReg c .or d o s)

/-- OR r/m without a prefix byte. R241, R101. -/
def execOrRmReg (d : Dir) (o : RmReg) (s : State) : Out := orRmRegIn (Ctx.of (.orRmReg d o)) d o s

/-- OR acc,imm, R241, R102. -/
def orAccImmIn (c : Ctx) (o : AccImm) (s : State) : Out := finish c (aluAccImm .or o s)

/-- OR acc without a prefix byte. R241, R102. -/
def execOrAccImm (o : AccImm) (s : State) : Out := orAccImmIn (Ctx.of (.orAccImm o)) o s

/-- OR r/m,imm, R241, R103. -/
def orRmImmIn (c : Ctx) (o : GrpImm) (s : State) : Out := finish c (aluRmImm c .or o s)

/-- OR r/m without a prefix byte. R241, R103. -/
def execOrRmImm (o : GrpImm) (s : State) : Out := orRmImmIn (Ctx.of (.orRmImm o)) o s

/-- XOR r/m,reg, R242, R101. -/
def xorRmRegIn (c : Ctx) (d : Dir) (o : RmReg) (s : State) : Out := finish c (aluRmReg c .xor d o s)

/-- XOR r/m without a prefix byte. R242, R101. -/
def execXorRmReg (d : Dir) (o : RmReg) (s : State) : Out := xorRmRegIn (Ctx.of (.xorRmReg d o)) d o s

/-- XOR acc,imm, R242, R102. -/
def xorAccImmIn (c : Ctx) (o : AccImm) (s : State) : Out := finish c (aluAccImm .xor o s)

/-- XOR acc without a prefix byte. R242, R102. -/
def execXorAccImm (o : AccImm) (s : State) : Out := xorAccImmIn (Ctx.of (.xorAccImm o)) o s

/-- XOR r/m,imm, R242, R103. -/
def xorRmImmIn (c : Ctx) (o : GrpImm) (s : State) : Out := finish c (aluRmImm c .xor o s)

/-- XOR r/m without a prefix byte. R242, R103. -/
def execXorRmImm (o : GrpImm) (s : State) : Out := xorRmImmIn (Ctx.of (.xorRmImm o)) o s

/-- TEST r/m,reg, R243, R109. -/
def testRmRegIn (c : Ctx) (o : RmReg) (s : State) : Out := finish c (testRmRegOp c o s)

/-- TEST r/m without a prefix byte. R243, R109. -/
def execTestRmReg (o : RmReg) (s : State) : Out := testRmRegIn (Ctx.of (.testRmReg o)) o s

/-- TEST acc,imm, R243, R109. -/
def testAccImmIn (c : Ctx) (o : AccImm) (s : State) : Out := finish c (testAccImmOp o s)

/-- TEST acc without a prefix byte. R243, R109. -/
def execTestAccImm (o : AccImm) (s : State) : Out := testAccImmIn (Ctx.of (.testAccImm o)) o s

/-- TEST r/m,imm, R243, R118. -/
def testRmImmIn (c : Ctx) (o : RmImm) (s : State) : Out := finish c (testRmImmOp c o s)

/-- TEST r/m without a prefix byte. R243, R118. -/
def execTestRmImm (o : RmImm) (s : State) : Out := testRmImmIn (Ctx.of (.testRmImm o)) o s

/-- NOT r/m, R244, R118. -/
def notRmIn (c : Ctx) (o : RmOnly) (s : State) : Out := finish c (notRmOp c o s)

/-- NOT r/m without a prefix byte. R244, R118. -/
def execNotRm (o : RmOnly) (s : State) : Out := notRmIn (Ctx.of (.notRm o)) o s

end Sys2Proof.Machine
end

