-- ==== Sys2Proof/Machine/Move.lean ====
section
/-! DEFINITION. The move family (spec/41_move.md): the seven forms of MOV. No form writes a flag. -/

namespace Sys2Proof.Machine

/-- `Write(op0, Read(op1))`. R180. -/
def mov {n : Nat} (dst : Place n) (src : Opnd n) (s : State) : Exec State := do
  let v ← src.read s
  dst.write v s

/-- R181. -/
def movRmRegOp (c : Ctx) (o : RmReg) (s : State) : Exec State :=
  match o with
  | .byte rm r => mov (rm8 c s rm) (.place (.reg8 r)) s
  | .word rm r => mov (rm16 c s rm) (.place (.reg16 r)) s

/-- R182. -/
def movRegRmOp (c : Ctx) (o : RmReg) (s : State) : Exec State :=
  match o with
  | .byte rm r => mov (.reg8 r) (.place (rm8 c s rm)) s
  | .word rm r => mov (.reg16 r) (.place (rm16 c s rm)) s

/-- R183. -/
def movRmImmOp (c : Ctx) (o : RmImm) (s : State) : Exec State :=
  match o with
  | .byte rm v => mov (rm8 c s rm) (.imm v) s
  | .word rm v => mov (rm16 c s rm) (.imm v) s

/-- R184. -/
def movRegImmOp (o : RegImm) (s : State) : Exec State :=
  match o with
  | .byte r v => mov (.reg8 r) (.imm v) s
  | .word r v => mov (.reg16 r) (.imm v) s

/-- The accumulator and the direct memory operand, in the direction `x`. R107, R185. -/
def movAccMemOp (c : Ctx) (x : AccDir) (w : Width) (addr : Word) (s : State) : Exec State :=
  let a := eaAddr c.segovr (.direct addr) s
  match x, w with
  | .load, .byte => mov (.reg8 .al) (.place (.mem8 a)) s
  | .load, .word => mov (.reg16 .ax) (.place (.mem16 a)) s
  | .store, .byte => mov (.mem8 a) (.place (.reg8 .al)) s
  | .store, .word => mov (.mem16 a) (.place (.reg16 .ax)) s

/-- R187: any segment register is a source, CS too. -/
def movRmSregOp (c : Ctx) (rm : Rm Reg16) (r : SReg) (s : State) : Exec State := mov (rm16 c s rm) (.imm (s.sreg r)) s

/-- R186. -/
def movSregRmOp (c : Ctx) (r : SRegDst) (rm : Rm Reg16) (s : State) : Exec State := mov (.sreg r) (.place (rm16 c s rm)) s

/-- MOV r/m,reg, R181, R104. -/
def movRmRegIn (c : Ctx) (o : RmReg) (s : State) : Out := finish c (movRmRegOp c o s)

/-- MOV r/m without a prefix byte. R181, R104. -/
def execMovRmReg (o : RmReg) (s : State) : Out := movRmRegIn (Ctx.of (.movRmReg o)) o s

/-- MOV reg,r/m, R182, R104. -/
def movRegRmIn (c : Ctx) (o : RmReg) (s : State) : Out := finish c (movRegRmOp c o s)

/-- MOV reg without a prefix byte. R182, R104. -/
def execMovRegRm (o : RmReg) (s : State) : Out := movRegRmIn (Ctx.of (.movRegRm o)) o s

/-- MOV r/m,imm, R183, R105. -/
def movRmImmIn (c : Ctx) (o : RmImm) (s : State) : Out := finish c (movRmImmOp c o s)

/-- MOV r/m without a prefix byte. R183, R105. -/
def execMovRmImm (o : RmImm) (s : State) : Out := movRmImmIn (Ctx.of (.movRmImm o)) o s

/-- MOV reg,imm, R184, R106. -/
def movRegImmIn (c : Ctx) (o : RegImm) (s : State) : Out := finish c (movRegImmOp o s)

/-- MOV reg without a prefix byte. R184, R106. -/
def execMovRegImm (o : RegImm) (s : State) : Out := movRegImmIn (Ctx.of (.movRegImm o)) o s

/-- MOV between the accumulator and direct memory, R185, R107. -/
def movAccMemIn (c : Ctx) (x : AccDir) (w : Width) (addr : Word) (s : State) : Out := finish c (movAccMemOp c x w addr s)

/-- MOV between the accumulator and direct memory without a prefix byte. R185, R107. -/
def execMovAccMem (x : AccDir) (w : Width) (addr : Word) (s : State) : Out := movAccMemIn (Ctx.of (.movAccMem x w addr)) x w addr s

/-- MOV r/m16,sreg, R187, R108. -/
def movRmSregIn (c : Ctx) (rm : Rm Reg16) (r : SReg) (s : State) : Out := finish c (movRmSregOp c rm r s)

/-- MOV r/m16 without a prefix byte. R187, R108. -/
def execMovRmSreg (rm : Rm Reg16) (r : SReg) (s : State) : Out := movRmSregIn (Ctx.of (.movRmSreg rm r)) rm r s

/-- MOV sreg,r/m16, R186, R108. -/
def movSregRmIn (c : Ctx) (r : SRegDst) (rm : Rm Reg16) (s : State) : Out := finish c (movSregRmOp c r rm s)

/-- MOV sreg without a prefix byte. R186, R108. -/
def execMovSregRm (r : SRegDst) (rm : Rm Reg16) (s : State) : Out := movSregRmIn (Ctx.of (.movSregRm r rm)) r rm s

end Sys2Proof.Machine
end

