-- ==== Sys2Proof/Machine/Stack.lean ====
section
/-! DEFINITION. The stack family (spec/45_stack.md): PUSH, POP, PUSHF, POPF over the primitives `push` and `pop`. -/

namespace Sys2Proof.Machine

/-- The value PUSH stores for a 16-bit register: for SP it is `PUSH_SP_VALUE`'s. R292, D20. -/
def pushedReg (r : Reg16) (s : State) : Word :=
  match r, s.cfg.pushSpValue with
  | .sp, .new => s.sp - 2
  | .sp, .old => s.sp
  | r, _ => s.reg16 r

/-- PUSH r/m16: the source is read with its own segment before SP changes. R293. -/
def pushRmOp (c : Ctx) (rm : Rm Reg16) (s : State) : Exec State :=
  match rm with
  | .reg r => push (pushedReg r s) s
  | .mem m => do
    let v ← s.load16 (eaAddr c.segovr m s)
    push v s

/-- POP: the word is read, SP incremented, the destination written last. R295 to R297, D21. -/
def popTo (dst : Place 16) (s : State) : Exec State := do
  let (v, s1) ← pop s
  dst.write v s1

/-- POPF: all 16 bits of FLAGS take the popped word. R299. -/
def popFlags (s : State) : Exec State := do
  let (v, s1) ← pop s
  .ok (s1.setFlags v)

/-- PUSH r16, R292, R113. -/
def pushRegIn (c : Ctx) (r : Reg16) (s : State) : Out := finish c (push (pushedReg r s) s)

/-- PUSH r16 without a prefix byte. R292, R113. -/
def execPushReg (r : Reg16) (s : State) : Out := pushRegIn (Ctx.of (.pushReg r)) r s

/-- PUSH r/m16, R293, R119. -/
def pushRmIn (c : Ctx) (rm : Rm Reg16) (s : State) : Out := finish c (pushRmOp c rm s)

/-- PUSH r/m16 without a prefix byte. R293, R119. -/
def execPushRm (rm : Rm Reg16) (s : State) : Out := pushRmIn (Ctx.of (.pushRm rm)) rm s

/-- PUSH sreg, R294, R114. -/
def pushSregIn (c : Ctx) (r : SReg) (s : State) : Out := finish c (push (s.sreg r) s)

/-- PUSH sreg without a prefix byte. R294, R114. -/
def execPushSreg (r : SReg) (s : State) : Out := pushSregIn (Ctx.of (.pushSreg r)) r s

/-- POP r16, R296, R113. -/
def popRegIn (c : Ctx) (r : Reg16) (s : State) : Out := finish c (popTo (.reg16 r) s)

/-- POP r16 without a prefix byte. R296, R113. -/
def execPopReg (r : Reg16) (s : State) : Out := popRegIn (Ctx.of (.popReg r)) r s

/-- POP r/m16, its address computed from the registers at the start. R297, R119. -/
def popRmIn (c : Ctx) (rm : Rm Reg16) (s : State) : Out := finish c (popTo (rm16 c s rm) s)

/-- POP r/m16 without a prefix byte. R297, R119. -/
def execPopRm (rm : Rm Reg16) (s : State) : Out := popRmIn (Ctx.of (.popRm rm)) rm s

/-- POP ES, R295, R114. -/
def popEsIn (c : Ctx) (s : State) : Out := finish c (popTo (.sreg .es) s)

/-- POP ES without a prefix byte. R295, R114. -/
def execPopEs (s : State) : Out := popEsIn (Ctx.of .popEs) s

/-- POP SS, R295, R114. -/
def popSsIn (c : Ctx) (s : State) : Out := finish c (popTo (.sreg .ss) s)

/-- POP SS without a prefix byte. R295, R114. -/
def execPopSs (s : State) : Out := popSsIn (Ctx.of .popSs) s

/-- POP DS, R295, R114. -/
def popDsIn (c : Ctx) (s : State) : Out := finish c (popTo (.sreg .ds) s)

/-- POP DS without a prefix byte. R295, R114. -/
def execPopDs (s : State) : Out := popDsIn (Ctx.of .popDs) s

/-- PUSHF, R298, R121. -/
def pushfIn (c : Ctx) (s : State) : Out := finish c (push s.flags s)

/-- PUSHF without a prefix byte. R298, R121. -/
def execPushf (s : State) : Out := pushfIn (Ctx.of .pushf) s

/-- POPF, R299, R121. -/
def popfIn (c : Ctx) (s : State) : Out := finish c (popFlags s)

/-- POPF without a prefix byte. R299, R121. -/
def execPopf (s : State) : Out := popfIn (Ctx.of .popf) s

end Sys2Proof.Machine
end

