-- ==== Sys2Proof/Machine/StringOps.lean ====
section
/-! DEFINITION. The string family (spec/47_string.md): STOSB and STOSW, alone, under REP and under REPNE. A repeated
STOS is one instruction and one step (R330). -/

namespace Sys2Proof.Machine

/-- DI moved by `n` in the direction DF gives. R331. -/
def moveDi (n : Word) (s : State) : State :=
  s.setReg16 .di (if getFlag .df s.flags then s.di - n else s.di + n)

/-- One store of a STOS: AL or AX to the destination segment at DI, then DI moves. R331. -/
def stosOnce (w : Width) (s : State) : Exec State := do
  match w with
  | .byte =>
    let s1 ← s.store8 (phys s.stosSeg s.di) (s.reg8 .al)
    .ok (moveDi 1 s1)
  | .word =>
    let s1 ← s.store16 (phys s.stosSeg s.di) s.ax
    .ok (moveDi 2 s1)

/-- `count` iterations under REP: each stores once and decrements CX. R331, D34. -/
def stosRep (w : Width) : Nat → State → Exec State
  | 0, s => .ok s
  | k + 1, s => do
    let s1 ← stosOnce w s
    stosRep w k (s1.setReg16 .cx (s1.cx - 1))

/-- `Stos(d)`. R331, R334. -/
def stos (c : Ctx) (w : Width) (s : State) : Exec State :=
  match c.rep with
  | some .repne => .error (.repNE s.p0)
  | some .rep => stosRep w s.cx.toNat s
  | none => stosOnce w s

/-- STOSB, R332, R121. -/
def stosbIn (c : Ctx) (s : State) : Out := finish c (stos c .byte s)

/-- STOSB without a prefix byte. R332, R121. -/
def execStosb (s : State) : Out := stosbIn (Ctx.of .stosb) s

/-- STOSW, R333, R121. -/
def stoswIn (c : Ctx) (s : State) : Out := finish c (stos c .word s)

/-- STOSW without a prefix byte. R333, R121. -/
def execStosw (s : State) : Out := stoswIn (Ctx.of .stosw) s

end Sys2Proof.Machine
end

