-- ==== Sys2Proof/Machine/Prefix.lean ====
section
/-! DEFINITION. The prefix bytes (spec/30_encoding.md R82 to R84): an instruction under prefix bytes has its own
meaning, with the record's segment override, repeat prefix and size (R110). -/

namespace Sys2Proof.Machine

/-- The outcome the engine gives a decoder's failure at `p0`, when the decoder could read `n` bytes. R142, R350. -/
def failFault (p0 n : Nat) : DecodeFail → Fault
  | .noMatch op => .noMatch p0 op
  | .badArithSelector op m => .badArithSelector p0 op m
  | .badSubSelector op m => .badSubSelector p0 op m
  | .badSegReg op m => .badSegReg p0 op m
  | .duplicatePrefix b => .duplicatePrefix p0 b
  | .prefixMisuse op => .prefixMisuse p0 op
  | .truncated => .cursorOutOfBounds (p0 + n)

/-- The meaning of an instruction's core in the context `c` of its record. R84, R110. -/
def execIn (c : Ctx) : Instr → State → Out
  | .addRmReg d o => addRmRegIn c d o
  | .addAccImm o => addAccImmIn c o
  | .orRmReg d o => orRmRegIn c d o
  | .orAccImm o => orAccImmIn c o
  | .andRmReg d o => andRmRegIn c d o
  | .andAccImm o => andAccImmIn c o
  | .subRmReg d o => subRmRegIn c d o
  | .subAccImm o => subAccImmIn c o
  | .xorRmReg d o => xorRmRegIn c d o
  | .xorAccImm o => xorAccImmIn c o
  | .cmpRmReg d o => cmpRmRegIn c d o
  | .cmpAccImm o => cmpAccImmIn c o
  | .addRmImm o => addRmImmIn c o
  | .orRmImm o => orRmImmIn c o
  | .andRmImm o => andRmImmIn c o
  | .subRmImm o => subRmImmIn c o
  | .xorRmImm o => xorRmImmIn c o
  | .cmpRmImm o => cmpRmImmIn c o
  | .incReg r => incRegIn c r
  | .decReg r => decRegIn c r
  | .pushReg r => pushRegIn c r
  | .popReg r => popRegIn c r
  | .pushSreg r => pushSregIn c r
  | .popEs => popEsIn c
  | .popSs => popSsIn c
  | .popDs => popDsIn c
  | .jo d => joIn c d
  | .jno d => jnoIn c d
  | .jb d => jbIn c d
  | .jnb d => jnbIn c d
  | .je d => jeIn c d
  | .jne d => jneIn c d
  | .jbe d => jbeIn c d
  | .jnbe d => jnbeIn c d
  | .js d => jsIn c d
  | .jns d => jnsIn c d
  | .jp d => jpIn c d
  | .jnp d => jnpIn c d
  | .jl d => jlIn c d
  | .jnl d => jnlIn c d
  | .jle d => jleIn c d
  | .jnle d => jnleIn c d
  | .testRmReg o => testRmRegIn c o
  | .movRmReg o => movRmRegIn c o
  | .movRegRm o => movRegRmIn c o
  | .movRmSreg rm r => movRmSregIn c rm r
  | .movSregRm r rm => movSregRmIn c r rm
  | .popRm rm => popRmIn c rm
  | .pushf => pushfIn c
  | .popf => popfIn c
  | .movAccMem x w addr => movAccMemIn c x w addr
  | .testAccImm o => testAccImmIn c o
  | .stosb => stosbIn c
  | .stosw => stoswIn c
  | .movRegImm o => movRegImmIn c o
  | .movRmImm o => movRmImmIn c o
  | .int3 => int3In c
  | .intImm n => intImmIn c n
  | .into => intoIn c
  | .iret => iretIn
  | .loopnz d => loopnzIn c d
  | .loopz d => loopzIn c d
  | .loop d => loopIn c d
  | .jcxz d => jcxzIn c d
  | .jmpNear d => jmpNearIn c d
  | .jmpFar off seg => jmpFarIn off seg
  | .jmpShort d => jmpShortIn c d
  | .testRmImm o => testRmImmIn c o
  | .notRm o => notRmIn c o
  | .mulRm o => mulRmIn c o
  | .divRm o => divRmIn c o
  | .incRm o => incRmIn c o
  | .decRm o => decRmIn c o
  | .jmpFarMem m => jmpFarMemIn m
  | .pushRm rm => pushRmIn c rm
  | .prefixEs i => execIn c i
  | .prefixCs i => execIn c i
  | .prefixSs i => execIn c i
  | .prefixDs i => execIn c i
  | .prefixRep i => execIn c i
  | .prefixRepne i => execIn c i

/-- An instruction that begins with a prefix byte: the anomaly of its prefix bytes where it is no decoder's output
(log 9), else the meaning of what stands under them. R83, R84. -/
def execPrefixed (i : Instr) (s : State) : Out :=
  match i.prefixFail false false with
  | some e => .fault (failFault s.p0 i.size e)
  | none => execIn (Ctx.of i) i s

/-- The byte 26 before `i`. R82, R84. -/
def execPrefixEs (i : Instr) (s : State) : Out := execPrefixed (.prefixEs i) s

/-- The byte 2E before `i`. R82, R84. -/
def execPrefixCs (i : Instr) (s : State) : Out := execPrefixed (.prefixCs i) s

/-- The byte 36 before `i`. R82, R84. -/
def execPrefixSs (i : Instr) (s : State) : Out := execPrefixed (.prefixSs i) s

/-- The byte 3E before `i`. R82, R84. -/
def execPrefixDs (i : Instr) (s : State) : Out := execPrefixed (.prefixDs i) s

/-- The byte F3 before `i`. R82, R84. -/
def execPrefixRep (i : Instr) (s : State) : Out := execPrefixed (.prefixRep i) s

/-- The byte F2 before `i`. R82, R84. -/
def execPrefixRepne (i : Instr) (s : State) : Out := execPrefixed (.prefixRepne i) s

end Sys2Proof.Machine
end

