-- ==== Sys2Proof/Machine/Dispatch.lean ====
section
/-! DEFINITION. One arm per instruction: each calls the instruction's meaning. -/

namespace Sys2Proof.Machine

open Sys2Proof

def exec (i : Instr) (s : State) : Host.Outcome State Fault Refusal :=
  match i with
  | .addRmReg d o => Sys2Proof.Machine.execAddRmReg d o s
  | .addAccImm o => Sys2Proof.Machine.execAddAccImm o s
  | .orRmReg d o => Sys2Proof.Machine.execOrRmReg d o s
  | .orAccImm o => Sys2Proof.Machine.execOrAccImm o s
  | .andRmReg d o => Sys2Proof.Machine.execAndRmReg d o s
  | .andAccImm o => Sys2Proof.Machine.execAndAccImm o s
  | .subRmReg d o => Sys2Proof.Machine.execSubRmReg d o s
  | .subAccImm o => Sys2Proof.Machine.execSubAccImm o s
  | .xorRmReg d o => Sys2Proof.Machine.execXorRmReg d o s
  | .xorAccImm o => Sys2Proof.Machine.execXorAccImm o s
  | .cmpRmReg d o => Sys2Proof.Machine.execCmpRmReg d o s
  | .cmpAccImm o => Sys2Proof.Machine.execCmpAccImm o s
  | .addRmImm o => Sys2Proof.Machine.execAddRmImm o s
  | .orRmImm o => Sys2Proof.Machine.execOrRmImm o s
  | .andRmImm o => Sys2Proof.Machine.execAndRmImm o s
  | .subRmImm o => Sys2Proof.Machine.execSubRmImm o s
  | .xorRmImm o => Sys2Proof.Machine.execXorRmImm o s
  | .cmpRmImm o => Sys2Proof.Machine.execCmpRmImm o s
  | .incReg r => Sys2Proof.Machine.execIncReg r s
  | .decReg r => Sys2Proof.Machine.execDecReg r s
  | .pushReg r => Sys2Proof.Machine.execPushReg r s
  | .popReg r => Sys2Proof.Machine.execPopReg r s
  | .pushSreg r => Sys2Proof.Machine.execPushSreg r s
  | .popEs => Sys2Proof.Machine.execPopEs s
  | .popSs => Sys2Proof.Machine.execPopSs s
  | .popDs => Sys2Proof.Machine.execPopDs s
  | .jo d => Sys2Proof.Machine.execJo d s
  | .jno d => Sys2Proof.Machine.execJno d s
  | .jb d => Sys2Proof.Machine.execJb d s
  | .jnb d => Sys2Proof.Machine.execJnb d s
  | .je d => Sys2Proof.Machine.execJe d s
  | .jne d => Sys2Proof.Machine.execJne d s
  | .jbe d => Sys2Proof.Machine.execJbe d s
  | .jnbe d => Sys2Proof.Machine.execJnbe d s
  | .js d => Sys2Proof.Machine.execJs d s
  | .jns d => Sys2Proof.Machine.execJns d s
  | .jp d => Sys2Proof.Machine.execJp d s
  | .jnp d => Sys2Proof.Machine.execJnp d s
  | .jl d => Sys2Proof.Machine.execJl d s
  | .jnl d => Sys2Proof.Machine.execJnl d s
  | .jle d => Sys2Proof.Machine.execJle d s
  | .jnle d => Sys2Proof.Machine.execJnle d s
  | .testRmReg o => Sys2Proof.Machine.execTestRmReg o s
  | .movRmReg o => Sys2Proof.Machine.execMovRmReg o s
  | .movRegRm o => Sys2Proof.Machine.execMovRegRm o s
  | .movRmSreg rm r => Sys2Proof.Machine.execMovRmSreg rm r s
  | .movSregRm r rm => Sys2Proof.Machine.execMovSregRm r rm s
  | .popRm rm => Sys2Proof.Machine.execPopRm rm s
  | .pushf => Sys2Proof.Machine.execPushf s
  | .popf => Sys2Proof.Machine.execPopf s
  | .movAccMem x w addr => Sys2Proof.Machine.execMovAccMem x w addr s
  | .testAccImm o => Sys2Proof.Machine.execTestAccImm o s
  | .stosb => Sys2Proof.Machine.execStosb s
  | .stosw => Sys2Proof.Machine.execStosw s
  | .movRegImm o => Sys2Proof.Machine.execMovRegImm o s
  | .movRmImm o => Sys2Proof.Machine.execMovRmImm o s
  | .int3 => Sys2Proof.Machine.execInt3 s
  | .intImm n => Sys2Proof.Machine.execIntImm n s
  | .into => Sys2Proof.Machine.execInto s
  | .iret => Sys2Proof.Machine.execIret s
  | .loopnz d => Sys2Proof.Machine.execLoopnz d s
  | .loopz d => Sys2Proof.Machine.execLoopz d s
  | .loop d => Sys2Proof.Machine.execLoop d s
  | .jcxz d => Sys2Proof.Machine.execJcxz d s
  | .jmpNear d => Sys2Proof.Machine.execJmpNear d s
  | .jmpFar off seg => Sys2Proof.Machine.execJmpFar off seg s
  | .jmpShort d => Sys2Proof.Machine.execJmpShort d s
  | .testRmImm o => Sys2Proof.Machine.execTestRmImm o s
  | .notRm o => Sys2Proof.Machine.execNotRm o s
  | .mulRm o => Sys2Proof.Machine.execMulRm o s
  | .divRm o => Sys2Proof.Machine.execDivRm o s
  | .incRm o => Sys2Proof.Machine.execIncRm o s
  | .decRm o => Sys2Proof.Machine.execDecRm o s
  | .jmpFarMem m => Sys2Proof.Machine.execJmpFarMem m s
  | .pushRm rm => Sys2Proof.Machine.execPushRm rm s
  | .prefixEs j => Sys2Proof.Machine.execPrefixEs j s
  | .prefixCs j => Sys2Proof.Machine.execPrefixCs j s
  | .prefixSs j => Sys2Proof.Machine.execPrefixSs j s
  | .prefixDs j => Sys2Proof.Machine.execPrefixDs j s
  | .prefixRep j => Sys2Proof.Machine.execPrefixRep j s
  | .prefixRepne j => Sys2Proof.Machine.execPrefixRepne j s

end Sys2Proof.Machine
end

