-- ==== Sys2Proof/Machine/Fetch.lean ====
section
/-! DEFINITION. The Fetch and Decode stages (spec/40_engine_and_flags.md R141, R142, R144), the byte cursor's window
(spec/30_encoding.md R80), the retained decodes (R145), and placing an instruction where the next step fetches. -/

namespace Sys2Proof.Machine

/-- The bytes of the longest record. R95. -/
def maxRecordBytes : Nat := 7

/-- The instruction bytes the cursor may read from `p0`: consecutive physical addresses below E. No decode reads more
than `maxRecordBytes` of them (log 15). R80. -/
def window (s : State) (p0 : Nat) : List Byte :=
  (List.range (min maxRecordBytes (s.imageEnd - p0))).map (fun k => s.mem.read (p0 + k))

/-- `Decode(p0)` from memory as it stands. R95, R96, R122, R142. -/
def decodeAt (s : State) (p0 : Nat) : Exec Record :=
  let w := window s p0
  match decode s.cfg.admitTierX w with
  | .ok (i, t) => .ok { instr := i, size := w.length - t.length, offset := p0 }
  | .error e => .error (failFault p0 w.length e)

/-- The record retained under an IP value. R145. -/
def retainedAt : List (Word × Record) → Word → Option Record
  | [], _ => none
  | (k, d) :: t, ip => if ip = k then some d else retainedAt t ip

/-- The table with a record retained under an IP value, IP values strictly rising. R145. -/
def retain : List (Word × Record) → Word → Record → List (Word × Record)
  | [], ip, d => [(ip, d)]
  | (k, x) :: t, ip, d =>
    if ip.toNat < k.toNat then (ip, d) :: (k, x) :: t
    else if ip = k then (ip, d) :: t
    else (k, x) :: retain t ip d

/-- The record of this step: the retained one under `by_ip`, else a fresh decode, which `by_ip` retains. R144, R145. -/
def recordAt (s : State) (p0 : Nat) : Exec (Record × State) :=
  match s.cfg.decodeCache with
  | .none =>
    match decodeAt s p0 with
    | .ok d => .ok (d, s)
    | .error f => .error f
  | .byIp =>
    match retainedAt s.dtable s.ip with
    | some d => .ok (d, s)
    | none =>
      match decodeAt s p0 with
      | .ok d => .ok (d, { s with dtable := retain s.dtable s.ip d })
      | .error f => .error f

/-- `last <- d; cursor <- p0 + d.size`. R142, R144. -/
def dispatched (s : State) (p0 : Nat) (d : Record) : State := { s with last := some d, cursor := p0 + d.size }

/-- Fetch and Decode: the end-of-image test, then the record and the state in which it is executed. R141, R142, R144. -/
def fetch (s : State) : Exec (Record × State) :=
  if s.imageEnd ≤ s.p0 then .error (.endOfImage s.p0)
  else
    match recordAt s s.p0 with
    | .ok (d, s') => .ok (d, dispatched s' s.p0 d)
    | .error f => .error f

/-- The bytes of a table word stored from Phys(CS, IP) on (those past the end of memory dropped), E raised past them,
and no record retained under IP: what fetching exactly this instruction needs (log 2). -/
def placeInstr (s : State) (bytes : List Byte) : State :=
  let p := s.p0
  let kept := bytes.take (Config.memSize - p)
  { s with
    mem := s.mem.writeBytes p kept
    imageEnd := max s.imageEnd (p + kept.length)
    dtable := s.dtable.filter (fun e => e.1 != s.ip) }

end Sys2Proof.Machine
end

