-- ==== Sys2Proof/Machine/Step.lean ====
section
/-! DEFINITION. One step of the block (spec/40_engine_and_flags.md R144): Fetch and Decode, then Execute and Advance,
which are `exec`. -/

namespace Sys2Proof.Machine

open Sys2Proof

/-- R140, R144. -/
def step (s : State) : Host.Outcome State Fault Refusal :=
  match fetch s with
  | .ok (d, s') => exec d.instr s'
  | .error f => .fault f

/-- `s` with the table word `w` of `nbits` bits, then zero bytes, where the next step fetches (logs 2 and 7). -/
def State.withFetchWord (s : State) (nbits w : Nat) : State := placeInstr s (tableImage nbits w)

end Sys2Proof.Machine
end

