-- ==== Sys2Proof/Machine/Load.lean ====
section
/-! DEFINITION. The image loader as the block's reset input (spec/70_reset_and_hazards.md R390 to R392). -/

namespace Sys2Proof.Machine

/-- The boot state of an image at an origin, with a setting of the parameters. R35, R392. -/
def bootState (cfg : Config) (image : List Byte) (loadSeg loadOff : Word) : State :=
  let o := phys loadSeg loadOff
  { State.reset with
    cfg := cfg, cs := loadSeg, ip := loadOff
    mem := Memory.writeBytes [] o image
    imageOrigin := o, imageEnd := o + image.length, cursor := o }

/-- `Load(IMAGE, LOAD_SEG, LOAD_OFF)`; none is an image that cannot be opened or read. R390, D32. -/
def load (cfg : Config) (image : Option (List Byte)) (loadSeg loadOff : Word) : Exec State :=
  match image with
  | none => .error .loaderIO
  | some img =>
    if Config.memSize < phys loadSeg loadOff + img.length then .error .loaderCapacity
    else .ok (bootState cfg img loadSeg loadOff)

end Sys2Proof.Machine
end

