-- ==== Sys2Proof/Machine/Pass.lean ====
section
/-! DEFINITION. The decode pass (spec/30_encoding.md R123, D26): an observation of the image that executes nothing,
reads no register and follows no branch. -/

namespace Sys2Proof.Machine

/-- How a decode pass ends: cleanly at E, or with the outcome of the decode that gave no record (clean for NoMatch,
reported for an anomaly, fatal for a truncated instruction: `Fault.kind`). R123. -/
inductive PassEnd where
  | atEnd
  | stopped (f : Fault)
  deriving DecidableEq, Repr

/-- The pass from physical address `p`, at most `fuel` records. R123. -/
def passFrom (s : State) : (fuel p : Nat) → List Record × PassEnd
  | 0, _ => ([], .atEnd)
  | fuel + 1, p =>
    if s.imageEnd ≤ p then ([], .atEnd)
    else
      match decodeAt s p with
      | .error f => ([], .stopped f)
      | .ok d =>
        let (ds, e) := passFrom s fuel (p + d.size)
        (d :: ds, e)

/-- The decode pass over `O .. E`: every record takes a byte at least, so `E - O` records are enough. R123. -/
def decodePass (s : State) : List Record × PassEnd := passFrom s (s.imageEnd - s.imageOrigin) s.imageOrigin

end Sys2Proof.Machine
end

