-- ==== Sys2Proof/Machine/Record.lean ====
section
/-! DEFINITION. The fields of the decoder's output record (spec/30_encoding.md R110, R111) that are functions of the
instruction: mnemonic, the two operand slots, and the flags W, S, FAR (segovr and rep are `Instr.segovr` and
`Instr.rep`). No instruction reads them; the host and the decode pass's readers do (R406, R407). -/

namespace Sys2Proof.Machine

/-- The closed mnemonic set. R111. -/
inductive Mnemonic where
  | MOV | ADD | SUB | CMP | AND | OR | XOR | TEST | NOT | INC | DEC | MUL | DIV
  | PUSH | POP | PUSHF | POPF
  | JO | JNO | JB | JNB | JE | JNE | JBE | JNBE | JS | JNS | JP | JNP | JL | JNL | JLE | JNLE
  | LOOPNZ | LOOPZ | LOOP | JCXZ | JMP | INT | INTO | IRET | STOSB | STOSW
  deriving DecidableEq, Repr

/-- The operand kinds. R111. -/
inductive Slot where
  | none
  | reg8 (r : Reg8)
  | reg16 (r : Reg16)
  | sreg (r : SReg)
  | imm8 (v : Byte)
  | imm16 (v : Word)
  /-- `Mem(k, disp, n, segovr)`; the kind `none` is Direct. -/
  | mem (k : Option EaBase) (disp : Word) (w : Width) (segovr : Option SReg)
  | rel (v : Int)
  deriving DecidableEq, Repr

/-- The mnemonic of an instruction; a prefix byte is no instruction of its own. R111. -/
def Instr.mnemonic : Instr → Mnemonic
  | .movRmReg _ | .movRegRm _ | .movRmSreg _ _ | .movSregRm _ _ | .movAccMem _ _ _ | .movRegImm _ | .movRmImm _ => .MOV
  | .addRmReg _ _ | .addAccImm _ | .addRmImm _ => .ADD
  | .subRmReg _ _ | .subAccImm _ | .subRmImm _ => .SUB
  | .cmpRmReg _ _ | .cmpAccImm _ | .cmpRmImm _ => .CMP
  | .andRmReg _ _ | .andAccImm _ | .andRmImm _ => .AND
  | .orRmReg _ _ | .orAccImm _ | .orRmImm _ => .OR
  | .xorRmReg _ _ | .xorAccImm _ | .xorRmImm _ => .XOR
  | .testRmReg _ | .testAccImm _ | .testRmImm _ => .TEST
  | .notRm _ => .NOT
  | .incReg _ | .incRm _ => .INC
  | .decReg _ | .decRm _ => .DEC
  | .mulRm _ => .MUL
  | .divRm _ => .DIV
  | .pushReg _ | .pushSreg _ | .pushRm _ => .PUSH
  | .popReg _ | .popEs | .popSs | .popDs | .popRm _ => .POP
  | .pushf => .PUSHF
  | .popf => .POPF
  | .jo _ => .JO | .jno _ => .JNO | .jb _ => .JB | .jnb _ => .JNB | .je _ => .JE | .jne _ => .JNE
  | .jbe _ => .JBE | .jnbe _ => .JNBE | .js _ => .JS | .jns _ => .JNS | .jp _ => .JP | .jnp _ => .JNP
  | .jl _ => .JL | .jnl _ => .JNL | .jle _ => .JLE | .jnle _ => .JNLE
  | .loopnz _ => .LOOPNZ | .loopz _ => .LOOPZ | .loop _ => .LOOP | .jcxz _ => .JCXZ
  | .jmpNear _ | .jmpFar _ _ | .jmpShort _ | .jmpFarMem _ => .JMP
  | .int3 | .intImm _ => .INT
  | .into => .INTO
  | .iret => .IRET
  | .stosb => .STOSB
  | .stosw => .STOSW
  | .prefixEs i | .prefixCs i | .prefixSs i | .prefixDs i | .prefixRep i | .prefixRepne i => Instr.mnemonic i

/-- A memory slot. R88, R111. -/
def Ea.slot (seg : Option SReg) (w : Width) (m : Ea) : Slot := .mem (eaKind m) (eaDisp m) w seg

/-- An 8-bit r/m slot. R90, R111. -/
def slot8 (seg : Option SReg) : Rm Reg8 → Slot
  | .reg r => .reg8 r
  | .mem m => Ea.slot seg .byte m

/-- A 16-bit r/m slot. R90, R111. -/
def slot16 (seg : Option SReg) : Rm Reg16 → Slot
  | .reg r => .reg16 r
  | .mem m => Ea.slot seg .word m

/-- The r/m slot and the register slot of a pair. R94. -/
def RmReg.slots (seg : Option SReg) : RmReg → Slot × Slot
  | .byte rm r => (slot8 seg rm, .reg8 r)
  | .word rm r => (slot16 seg rm, .reg16 r)

/-- The slots in the order the direction bit gives. R94. -/
def dirSlots (seg : Option SReg) (d : Dir) (o : RmReg) : Slot × Slot :=
  match d with
  | .toRm => RmReg.slots seg o
  | .toReg => (RmReg.slots seg o).swap

/-- R103, R91. -/
def GrpImm.slots (seg : Option SReg) : GrpImm → Slot × Slot
  | .byte _ rm v => (slot8 seg rm, .imm8 v)
  | .word rm v => (slot16 seg rm, .imm16 v)
  | .wordSx rm v => (slot16 seg rm, .imm16 (v.signExtend 16))

/-- R105, R118. -/
def RmImm.slots (seg : Option SReg) : RmImm → Slot × Slot
  | .byte rm v => (slot8 seg rm, .imm8 v)
  | .word rm v => (slot16 seg rm, .imm16 v)

/-- R102, R109. -/
def AccImm.slots : AccImm → Slot × Slot
  | .byte v => (.reg8 .al, .imm8 v)
  | .word v => (.reg16 .ax, .imm16 v)

/-- R106. -/
def RegImm.slots : RegImm → Slot × Slot
  | .byte r v => (.reg8 r, .imm8 v)
  | .word r v => (.reg16 r, .imm16 v)

/-- R118, R119. -/
def RmOnly.slot (seg : Option SReg) : RmOnly → Slot
  | .byte rm => slot8 seg rm
  | .word rm => slot16 seg rm

/-- R107. -/
def accSlots (seg : Option SReg) (x : AccDir) (w : Width) (a : Word) : Slot × Slot :=
  let acc := match w with
    | .byte => Slot.reg8 .al
    | .word => Slot.reg16 .ax
  match x with
  | .load => (acc, Ea.slot seg w (.direct a))
  | .store => (Ea.slot seg w (.direct a), acc)

/-- `Rel(signed_8(d8) + 2)`. R92. -/
def rel8 (d : Byte) : Slot × Slot := (.rel (d.toInt + 2), .none)

/-- The two operand slots of a core instruction under the segment override `seg`. R93, R94, R101 to R121. -/
def slotsUnder (seg : Option SReg) : Instr → Slot × Slot
  | .addRmReg d o | .orRmReg d o | .andRmReg d o | .subRmReg d o | .xorRmReg d o | .cmpRmReg d o => dirSlots seg d o
  | .testRmReg o | .movRmReg o => dirSlots seg .toRm o
  | .movRegRm o => dirSlots seg .toReg o
  | .addAccImm o | .orAccImm o | .andAccImm o | .subAccImm o | .xorAccImm o | .cmpAccImm o | .testAccImm o => AccImm.slots o
  | .addRmImm o | .orRmImm o | .andRmImm o | .subRmImm o | .xorRmImm o | .cmpRmImm o => GrpImm.slots seg o
  | .movRmImm o | .testRmImm o => RmImm.slots seg o
  | .movRegImm o => RegImm.slots o
  | .movRmSreg rm r => (slot16 seg rm, .sreg r)
  | .movSregRm r rm => (.sreg r.sreg, slot16 seg rm)
  | .movAccMem x w a => accSlots seg x w a
  | .notRm o | .mulRm o | .divRm o | .incRm o | .decRm o => (RmOnly.slot seg o, .none)
  | .popRm rm | .pushRm rm => (slot16 seg rm, .none)
  | .incReg r | .decReg r | .pushReg r | .popReg r => (.reg16 r, .none)
  | .pushSreg r => (.sreg r, .none)
  | .popEs => (.sreg .es, .none)
  | .popSs => (.sreg .ss, .none)
  | .popDs => (.sreg .ds, .none)
  | .jo d | .jno d | .jb d | .jnb d | .je d | .jne d | .jbe d | .jnbe d => rel8 d
  | .js d | .jns d | .jp d | .jnp d | .jl d | .jnl d | .jle d | .jnle d => rel8 d
  | .loopnz d | .loopz d | .loop d | .jcxz d | .jmpShort d => rel8 d
  | .jmpNear d => (.rel (d.toInt + 3), .none)
  | .jmpFar off sg => (.imm16 off, .imm16 sg)
  | .jmpFarMem m => (Ea.slot seg .word m, .none)
  | .int3 => (.imm8 3, .none)
  | .intImm n => (.imm8 n, .none)
  | .pushf | .popf | .into | .iret | .stosb | .stosw => (.none, .none)
  | .prefixEs i | .prefixCs i | .prefixSs i | .prefixDs i | .prefixRep i | .prefixRepne i => slotsUnder seg i

/-- op0 and op1. R110. -/
def Instr.slots (i : Instr) : Slot × Slot := slotsUnder i.segovr i

/-- The `W` of an operand pair. R94. -/
def RmReg.width : RmReg → Width
  | .byte _ _ => .byte
  | .word _ _ => .word

/-- The `W` flag R101 to R121 give a form, or the width of its operands, with which W agrees (R152): 8 for the vector
number of INT, 16 for the pointer of a far jump. None for INTO and IRET, which have no operands, and for the relative
branches, whose operand has no width. -/
def Instr.statedWidth : Instr → Option Width
  | .addRmReg _ o | .orRmReg _ o | .andRmReg _ o | .subRmReg _ o | .xorRmReg _ o | .cmpRmReg _ o => some (RmReg.width o)
  | .testRmReg o | .movRmReg o | .movRegRm o => some (RmReg.width o)
  | .addAccImm o | .orAccImm o | .andAccImm o | .subAccImm o | .xorAccImm o | .cmpAccImm o | .testAccImm o =>
    match o with
    | .byte _ => some .byte
    | .word _ => some .word
  | .addRmImm o | .orRmImm o | .andRmImm o | .subRmImm o | .xorRmImm o | .cmpRmImm o =>
    match o with
    | .byte _ _ _ => some .byte
    | .word _ _ | .wordSx _ _ => some .word
  | .movRmImm o | .testRmImm o =>
    match o with
    | .byte _ _ => some .byte
    | .word _ _ => some .word
  | .movRegImm o =>
    match o with
    | .byte _ _ => some .byte
    | .word _ _ => some .word
  | .notRm o | .mulRm o | .divRm o | .incRm o | .decRm o =>
    match o with
    | .byte _ => some .byte
    | .word _ => some .word
  | .movAccMem _ w _ => some w
  | .movRmSreg _ _ | .movSregRm _ _ | .popRm _ | .pushRm _ | .incReg _ | .decReg _ | .pushReg _ | .popReg _ => some .word
  | .pushSreg _ | .popEs | .popSs | .popDs | .pushf | .popf | .stosw => some .word
  | .stosb => some .byte
  | .jo _ | .jno _ | .jb _ | .jnb _ | .je _ | .jne _ | .jbe _ | .jnbe _ => none
  | .js _ | .jns _ | .jp _ | .jnp _ | .jl _ | .jnl _ | .jle _ | .jnle _ => none
  | .loopnz _ | .loopz _ | .loop _ | .jcxz _ | .jmpShort _ | .jmpNear _ | .into | .iret => none
  | .int3 | .intImm _ => some .byte
  | .jmpFar _ _ | .jmpFarMem _ => some .word
  | .prefixEs i | .prefixCs i | .prefixSs i | .prefixDs i | .prefixRep i | .prefixRepne i => Instr.statedWidth i

/-- The `W` flag of a record; a free value where the spec states none (log 19). R110. -/
def Instr.recordWidth (i : Instr) : Width := (Instr.statedWidth i).getD (Config.unstatedWidth (encode i))

/-- The `S` flag: the immediate was declared sign-dependent and s = 1 (82, 83). R91, R110, D35. -/
def Instr.recordSign : Instr → Bool
  | .addRmImm o | .orRmImm o | .andRmImm o | .subRmImm o | .xorRmImm o | .cmpRmImm o =>
    match o with
    | .byte s _ _ => s
    | .word _ _ => false
    | .wordSx _ _ => true
  | .prefixEs i | .prefixCs i | .prefixSs i | .prefixDs i | .prefixRep i | .prefixRepne i => Instr.recordSign i
  | .addRmReg _ _ | .orRmReg _ _ | .andRmReg _ _ | .subRmReg _ _ | .xorRmReg _ _ | .cmpRmReg _ _ => false
  | .testRmReg _ | .movRmReg _ | .movRegRm _ | .movRegImm _ | .movAccMem _ _ _ => false
  | .addAccImm _ | .orAccImm _ | .andAccImm _ | .subAccImm _ | .xorAccImm _ | .cmpAccImm _ | .testAccImm _ => false
  | .movRmImm _ | .testRmImm _ | .notRm _ | .mulRm _ | .divRm _ | .incRm _ | .decRm _ => false
  | .movRmSreg _ _ | .movSregRm _ _ | .popRm _ | .pushRm _ | .incReg _ | .decReg _ | .pushReg _ | .popReg _ => false
  | .pushSreg _ | .popEs | .popSs | .popDs | .pushf | .popf | .stosb | .stosw => false
  | .jo _ | .jno _ | .jb _ | .jnb _ | .je _ | .jne _ | .jbe _ | .jnbe _ => false
  | .js _ | .jns _ | .jp _ | .jnp _ | .jl _ | .jnl _ | .jle _ | .jnle _ => false
  | .loopnz _ | .loopz _ | .loop _ | .jcxz _ | .jmpShort _ | .jmpNear _ => false
  | .int3 | .intImm _ | .into | .iret => false
  | .jmpFar _ _ | .jmpFarMem _ => false

/-- The `FAR` flag: EA and FF /5. R93, R110. -/
def Instr.recordFar : Instr → Bool
  | .jmpFar _ _ | .jmpFarMem _ => true
  | .prefixEs i | .prefixCs i | .prefixSs i | .prefixDs i | .prefixRep i | .prefixRepne i => Instr.recordFar i
  | .addRmReg _ _ | .orRmReg _ _ | .andRmReg _ _ | .subRmReg _ _ | .xorRmReg _ _ | .cmpRmReg _ _ => false
  | .testRmReg _ | .movRmReg _ | .movRegRm _ | .movRegImm _ | .movAccMem _ _ _ => false
  | .addAccImm _ | .orAccImm _ | .andAccImm _ | .subAccImm _ | .xorAccImm _ | .cmpAccImm _ | .testAccImm _ => false
  | .movRmImm _ | .testRmImm _ | .notRm _ | .mulRm _ | .divRm _ | .incRm _ | .decRm _ => false
  | .movRmSreg _ _ | .movSregRm _ _ | .popRm _ | .pushRm _ | .incReg _ | .decReg _ | .pushReg _ | .popReg _ => false
  | .pushSreg _ | .popEs | .popSs | .popDs | .pushf | .popf | .stosb | .stosw => false
  | .jo _ | .jno _ | .jb _ | .jnb _ | .je _ | .jne _ | .jbe _ | .jnbe _ => false
  | .js _ | .jns _ | .jp _ | .jnp _ | .jl _ | .jnl _ | .jle _ | .jnle _ => false
  | .loopnz _ | .loopz _ | .loop _ | .jcxz _ | .jmpShort _ | .jmpNear _ => false
  | .int3 | .intImm _ | .into | .iret => false
  | .addRmImm _ | .orRmImm _ | .andRmImm _ | .subRmImm _ | .xorRmImm _ | .cmpRmImm _ => false

/-! ## The whole record -/

/-- The decoder's output record, every field of R110. -/
structure RecordFields where
  mnemonic : Mnemonic
  op0 : Slot
  op1 : Slot
  w : Width
  s : Bool
  far : Bool
  segovr : Option SReg
  rep : Option Rep
  size : Nat
  offset : Nat
  deriving DecidableEq, Repr

/-- `assemble op0, op1, mnemonic and flags`, with the size and the offset of the decode. R110, R122. -/
def Record.fields (d : Record) : RecordFields :=
  { mnemonic := Instr.mnemonic d.instr, op0 := (Instr.slots d.instr).1, op1 := (Instr.slots d.instr).2
    w := Instr.recordWidth d.instr, s := Instr.recordSign d.instr, far := Instr.recordFar d.instr
    segovr := d.instr.segovr, rep := d.instr.rep, size := d.size, offset := d.offset }

/-- The width of an operand slot that is a register, an immediate or a memory operand. R111, R152. -/
def Slot.width : Slot → Option Width
  | .reg8 _ | .imm8 _ => some .byte
  | .reg16 _ | .sreg _ | .imm16 _ => some .word
  | .mem _ _ w _ => some w
  | .none | .rel _ => Option.none

end Sys2Proof.Machine
end

