-- ==== Sys2Proof/Safety.lean ====
section
/-! DEFINITION. What counts as a safe run, and the invariant of the machine's states, in the terms the statements use. -/

namespace Sys2Proof.Machine

/-- A step that is no failure: a next state, or one of the two clean ends of R10. -/
def Out.clean : Host.Outcome State Fault Refusal → Bool
  | .next _ => true
  | .fault f => f.kind == .halt
  | .refused _ => false

/-- A record some decode could have given: well formed, with its own size (R95), at an address of memory. -/
abbrev Record.ok (d : Record) : Prop := d.instr.wellFormed = true ∧ d.size = d.instr.size ∧ d.offset < Config.memSize

/-- The retained decodes in their canonical form: IP values strictly rising, every record one a decode gave. -/
abbrev dtableOk (t : List (Word × Record)) : Prop :=
  t.Pairwise (fun x y => x.1.toNat < y.1.toNat) ∧ ∀ e ∈ t, e.2.ok

/-- The invariant: memory in canonical form and within the address space (R50), the image bounds within memory
(R34, R390, R391), the records of `last` and `dtable` ones a decode gave (R34, R95), and no retained record when
`DECODE_CACHE = none` (R34). -/
structure State.Inv (s : State) : Prop where
  memWf : s.mem.wf
  memBounded : s.mem.bounded
  originLe : s.imageOrigin ≤ s.imageEnd
  endLe : s.imageEnd ≤ Config.memSize
  lastOk : ∀ d ∈ s.last, d.ok
  dtableOk : dtableOk s.dtable
  dtableNone : s.cfg.decodeCache = .none → s.dtable = []

end Sys2Proof.Machine
end

