-- ==== Sys2Proof/Safety/Claims.lean ====
section
/-! DEFINITION. The vocabulary of the statements: instruction forms by family with the operands each names, what an
operand holds, what an instruction leaves unchanged, and the flag rules in arithmetic of their own
(spec/40_engine_and_flags.md R162 to R165), not through the bit tests the model computes with. -/

namespace Sys2Proof.Machine

/-! ## Instructions under a segment override -/

/-- An instruction with or without a segment override before it. R82. -/
def under (g : Option SReg) (i : Instr) : Instr :=
  match g with
  | none => i
  | some r => r.before i

/-- An instruction with a repeat prefix and, before or after that prefix, perhaps a segment override. R83. -/
def repeated (k : Rep) (g : Option SReg) (inner : Bool) (i : Instr) : Instr :=
  if inner then k.before (under g i) else under g (k.before i)

/-! ## Operands -/

/-- The place is not a word that starts at the last byte of memory. R57. -/
def Place.inBounds : {n : Nat} → Place n → Prop
  | _, .mem16 a => a ≠ 0xFFFFF
  | _, .reg8 _ | _, .reg16 _ | _, .sreg _ | _, .mem8 _ => True

/-- The operand is not a word that starts at the last byte of memory. R57. -/
def Opnd.inBounds {n : Nat} : Opnd n → Prop
  | .place p => p.inBounds
  | .imm _ => True

/-- What a place holds. R24, R55, R150. -/
def Place.value : {n : Nat} → Place n → State → BitVec n
  | _, .reg8 r, s => s.reg8 r
  | _, .reg16 r, s => s.reg16 r
  | _, .sreg r, s => s.sreg r.sreg
  | _, .mem8 a, s => s.mem.read a
  | _, .mem16 a, s => BitVec.ofNat 16 ((s.mem.read (a + 1)).toNat * 256 + (s.mem.read a).toNat)

/-- What an operand holds. R150. -/
def Opnd.value {n : Nat} : Opnd n → State → BitVec n
  | .place p, s => p.value s
  | .imm v, _ => v

/-- The 16-bit general registers a write to a place changes. R22. -/
def Place.gp : {n : Nat} → Place n → List Reg16
  | _, .reg8 r => [parent r]
  | _, .reg16 r => [r]
  | _, .sreg _ | _, .mem8 _ | _, .mem16 _ => []

/-- The segment registers a write to a place changes. -/
def Place.seg : {n : Nat} → Place n → List SReg
  | _, .sreg r => [r.sreg]
  | _, .reg8 _ | _, .reg16 _ | _, .mem8 _ | _, .mem16 _ => []

/-- The addresses of the bytes a write to a place stores. R56. -/
def Place.bytes : {n : Nat} → Place n → List Nat
  | _, .mem8 a => [a]
  | _, .mem16 a => [a, a + 1]
  | _, .reg8 _ | _, .reg16 _ | _, .sreg _ => []

/-- The place holds `v` after a write, and the other byte aliases keep their values. R23, R151. -/
def Place.Stored : {n : Nat} → Place n → BitVec n → State → State → Prop
  | _, .reg8 r, v, s, t => t.reg8 r = v ∧ ∀ r', r' ≠ r → t.reg8 r' = s.reg8 r'
  | _, .reg16 r, v, _, t => t.reg16 r = v
  | _, .sreg r, v, _, t => t.sreg r.sreg = v
  | _, .mem8 a, v, _, t => t.mem.read a = v
  | _, .mem16 a, v, _, t => (t.mem.read a).toNat = v.toNat % 256 ∧ (t.mem.read (a + 1)).toNat = v.toNat / 256

/-- The 8-bit r/m operand, its address computed from the registers of `s`. R54, R90. -/
def rmByte (g : Option SReg) (s : State) : Rm Reg8 → Place 8
  | .reg r => .reg8 r
  | .mem m => .mem8 (eaAddr g m s)

/-- The 16-bit r/m operand, its address computed from the registers of `s`. R54, R90. -/
def rmWord (g : Option SReg) (s : State) : Rm Reg16 → Place 16
  | .reg r => .reg16 r
  | .mem m => .mem16 (eaAddr g m s)

/-- A destination and a source of one width. R152. -/
inductive Pair where
  | byte (dst : Place 8) (src : Opnd 8)
  | word (dst : Place 16) (src : Opnd 16)

/-- No operand of the pair is a word at the last byte of memory. R57. -/
def Pair.inBounds : Pair → Prop
  | .byte d x => d.inBounds ∧ x.inBounds
  | .word d x => d.inBounds ∧ x.inBounds

/-- A property of a pair, at its width. -/
def Pair.Holds (P : ∀ n, Place n → Opnd n → Prop) : Pair → Prop
  | .byte d x => P 8 d x
  | .word d x => P 16 d x

/-- One operand, at its width. -/
inductive Single where
  | byte (p : Place 8)
  | word (p : Place 16)

/-- The operand is not a word at the last byte of memory. R57. -/
def Single.inBounds : Single → Prop
  | .byte p => p.inBounds
  | .word p => p.inBounds

/-- A property of an operand, at its width. -/
def Single.Holds (P : ∀ n, Place n → Prop) : Single → Prop
  | .byte p => P 8 p
  | .word p => P 16 p

/-! ## Forms -/

/-- op0 = r/m, op1 = reg. R94. -/
def rmRegPair (g : Option SReg) (s : State) : RmReg → Pair
  | .byte rm r => .byte (rmByte g s rm) (.place (.reg8 r))
  | .word rm r => .word (rmWord g s rm) (.place (.reg16 r))

/-- op0 = reg, op1 = r/m. R94. -/
def regRmPair (g : Option SReg) (s : State) : RmReg → Pair
  | .byte rm r => .byte (.reg8 r) (.place (rmByte g s rm))
  | .word rm r => .word (.reg16 r) (.place (rmWord g s rm))

/-- op0 = AL or AX, op1 = the immediate. R102, R109. -/
def accPair : AccImm → Pair
  | .byte v => .byte (.reg8 .al) (.imm v)
  | .word v => .word (.reg16 .ax) (.imm v)

/-- op0 = r/m, op1 = the immediate, sign-extended for `83`. R91, R103. -/
def grpPair (g : Option SReg) (s : State) : GrpImm → Pair
  | .byte _ rm v => .byte (rmByte g s rm) (.imm v)
  | .word rm v => .word (rmWord g s rm) (.imm v)
  | .wordSx rm v => .word (rmWord g s rm) (.imm (BitVec.ofInt 16 v.toInt))

/-- op0 = r/m, op1 = the immediate. R105, R118. -/
def rmImmPair (g : Option SReg) (s : State) : RmImm → Pair
  | .byte rm v => .byte (rmByte g s rm) (.imm v)
  | .word rm v => .word (rmWord g s rm) (.imm v)

/-- The r/m operand. R118, R119. -/
def rmSingle (g : Option SReg) (s : State) : RmOnly → Single
  | .byte rm => .byte (rmByte g s rm)
  | .word rm => .word (rmWord g s rm)

/-- The three operand forms of ADD, OR, AND, SUB, XOR and CMP. R101 to R103. -/
inductive AluForm where
  | rmReg (d : Dir) (o : RmReg)
  | accImm (o : AccImm)
  | rmImm (o : GrpImm)
  deriving DecidableEq, Repr

/-- The instruction of an operation and a form. R100. -/
def AluForm.instr (op : AluOp) : AluForm → Instr
  | .rmReg d o => op.rmReg d o
  | .accImm o => op.accImm o
  | .rmImm o => op.rmImm o

/-- op0 and op1 of a form. R94, R101 to R103. -/
def AluForm.operands (g : Option SReg) (s : State) : AluForm → Pair
  | .rmReg .toRm o => rmRegPair g s o
  | .rmReg .toReg o => regRmPair g s o
  | .accImm o => accPair o
  | .rmImm o => grpPair g s o

/-- The three forms of TEST. R109, R118. -/
inductive TestForm where
  | rmReg (o : RmReg)
  | accImm (o : AccImm)
  | rmImm (o : RmImm)
  deriving DecidableEq, Repr

/-- R243. -/
def TestForm.instr : TestForm → Instr
  | .rmReg o => .testRmReg o
  | .accImm o => .testAccImm o
  | .rmImm o => .testRmImm o

/-- op0 and op1. R109, R118. -/
def TestForm.operands (g : Option SReg) (s : State) : TestForm → Pair
  | .rmReg o => rmRegPair g s o
  | .accImm o => accPair o
  | .rmImm o => rmImmPair g s o

/-- The seven forms of MOV. R181 to R187. -/
inductive MovForm where
  | rmReg (o : RmReg)
  | regRm (o : RmReg)
  | rmImm (o : RmImm)
  | regImm (o : RegImm)
  | accMem (x : AccDir) (w : Width) (addr : Word)
  | sregRm (r : SRegDst) (rm : Rm Reg16)
  | rmSreg (rm : Rm Reg16) (r : SReg)
  deriving DecidableEq, Repr

/-- R181 to R187. -/
def MovForm.instr : MovForm → Instr
  | .rmReg o => .movRmReg o
  | .regRm o => .movRegRm o
  | .rmImm o => .movRmImm o
  | .regImm o => .movRegImm o
  | .accMem x w addr => .movAccMem x w addr
  | .sregRm r rm => .movSregRm r rm
  | .rmSreg rm r => .movRmSreg rm r

/-- op0 and op1. R104 to R108. -/
def MovForm.operands (g : Option SReg) (s : State) : MovForm → Pair
  | .rmReg o => rmRegPair g s o
  | .regRm o => regRmPair g s o
  | .rmImm o => rmImmPair g s o
  | .regImm (.byte r v) => .byte (.reg8 r) (.imm v)
  | .regImm (.word r v) => .word (.reg16 r) (.imm v)
  | .accMem .load .byte a => .byte (.reg8 .al) (.place (rmByte g s (.mem (.direct a))))
  | .accMem .load .word a => .word (.reg16 .ax) (.place (rmWord g s (.mem (.direct a))))
  | .accMem .store .byte a => .byte (rmByte g s (.mem (.direct a))) (.place (.reg8 .al))
  | .accMem .store .word a => .word (rmWord g s (.mem (.direct a))) (.place (.reg16 .ax))
  | .sregRm r rm => .word (.sreg r) (.place (rmWord g s rm))
  | .rmSreg rm r => .word (rmWord g s rm) (.imm (s.sreg r))

/-- The two forms of INC and DEC. R112, R119. -/
inductive StepForm where
  | reg (r : Reg16)
  | rm (o : RmOnly)
  deriving DecidableEq, Repr

/-- R203. -/
def StepForm.inc : StepForm → Instr
  | .reg r => .incReg r
  | .rm o => .incRm o

/-- R204. -/
def StepForm.dec : StepForm → Instr
  | .reg r => .decReg r
  | .rm o => .decRm o

/-- op0. R112, R119. -/
def StepForm.operand (g : Option SReg) (s : State) : StepForm → Single
  | .reg r => .word (.reg16 r)
  | .rm o => rmSingle g s o

/-- The forms that push: PUSH r16, PUSH r/m16, PUSH sreg, PUSHF. R292 to R294, R298. -/
inductive PushForm where
  | reg (r : Reg16)
  | rm (rm : Rm Reg16)
  | sreg (r : SReg)
  | flags
  deriving DecidableEq, Repr

/-- R292 to R294, R298. -/
def PushForm.instr : PushForm → Instr
  | .reg r => .pushReg r
  | .rm x => .pushRm x
  | .sreg r => .pushSreg r
  | .flags => .pushf

/-- The word a push of a general register stores; for SP `PUSH_SP_VALUE` says which SP. R292, D20. -/
def pushedWord (r : Reg16) (s : State) : Word :=
  if r = .sp then (if s.cfg.pushSpValue = .new then s.sp - 2 else s.sp) else s.reg16 r

/-- The word a form pushes. R292 to R294, R298. -/
def PushForm.value (g : Option SReg) (s : State) : PushForm → Word
  | .reg r => pushedWord r s
  | .rm (.reg r) => pushedWord r s
  | .rm (.mem m) => (Place.mem16 (eaAddr g m s)).value s
  | .sreg r => s.sreg r
  | .flags => s.flags

/-- The source is not a word at the last byte of memory. R57, R293. -/
def PushForm.inBounds (g : Option SReg) (s : State) : PushForm → Prop
  | .rm (.mem m) => eaAddr g m s ≠ 0xFFFFF
  | .reg _ | .rm (.reg _) | .sreg _ | .flags => True

/-- Where a push of `s` stores its word. R290. -/
def pushAddr (s : State) : Nat := phys s.ss (s.sp - 2)

/-- The forms that pop a word to an operand: POP r16, POP r/m16, POP ES, SS, DS. R295 to R297. -/
inductive PopForm where
  | reg (r : Reg16)
  | rm (rm : Rm Reg16)
  | sreg (r : SRegDst)
  deriving DecidableEq, Repr

/-- R295 to R297. -/
def PopForm.instr : PopForm → Instr
  | .reg r => .popReg r
  | .rm x => .popRm x
  | .sreg r => r.pop

/-- The destination, its address computed from the registers at the start. R295 to R297. -/
def PopForm.dst (g : Option SReg) (s : State) : PopForm → Place 16
  | .reg r => .reg16 r
  | .rm x => rmWord g s x
  | .sreg r => .sreg r

/-- The destination is SP itself. R296, R297. -/
def PopForm.isSp : PopForm → Bool
  | .reg r => r == .sp
  | .rm x => x == .reg .sp
  | .sreg _ => false

/-! ## What an instruction leaves unchanged -/

/-- The six status flags. R28. -/
def statusFlags : List Flag := [.cf, .pf, .af, .zf, .sf, .of]

/-- The bits of FLAGS that are status flags. R29. -/
def statusBits : List Nat := [0, 2, 4, 6, 7, 11]

/-- Everything but IP is unchanged, except the general registers `gp`, the segment registers `seg`, the bits `bits` of
FLAGS, the memory bytes `stored`, and `drawn` free values drawn. R30, R56, R61, R69. -/
structure Frame (gp : List Reg16) (seg : List SReg) (bits : List Nat) (stored : List Nat) (drawn : Nat)
    (s t : State) : Prop where
  gp : ∀ r, r ∉ gp → t.reg16 r = s.reg16 r
  seg : ∀ r, r ∉ seg → t.sreg r = s.sreg r
  flags : ∀ k, k ∉ bits → t.flags.getLsbD k = s.flags.getLsbD k
  mem : ∀ a, a ∉ stored → t.mem.read a = s.mem.read a
  bounds : t.imageOrigin = s.imageOrigin ∧ t.imageEnd = s.imageEnd
  engine : t.cursor = s.cursor ∧ t.last = s.last ∧ t.dtable = s.dtable
  cfg : t.cfg = s.cfg
  draws : t.draws = s.draws + drawn

/-- `IP <- (IP + size) mod 2^16`. R143. -/
def Advanced (i : Instr) (s t : State) : Prop := t.ip.toNat = (s.ip.toNat + i.size) % 65536

/-! ## The flag rules -/

/-- How many of the low `k` bits of `v` are 1. R160. -/
def onesBelow (k v : Nat) : Nat := ((List.range k).filter (fun j => v / 2 ^ j % 2 = 1)).length

/-- ZF, SF and PF of a result. R160. -/
structure ResultFlags {n : Nat} (p : ParityScope) (res : BitVec n) (w : Word) : Prop where
  zf : getFlag .zf w = decide (res.toNat = 0)
  sf : getFlag .sf w = decide (2 ^ (n - 1) ≤ res.toNat)
  pf : getFlag .pf w = decide (onesBelow (parityBits p n) res.toNat % 2 = 0)

/-- An integer no signed n-bit value is. R164. -/
def OutOfSignedRange (n : Nat) (v : Int) : Prop := v < -(2 ^ (n - 1)) ∨ 2 ^ (n - 1) ≤ v

/-- The flags of `a + b`, in the "exactly when" wording of R162 to R164. -/
structure AddFlags {n : Nat} (p : ParityScope) (a b : BitVec n) (w : Word) : Prop where
  res : ResultFlags p (a + b) w
  cf : getFlag .cf w = true ↔ 2 ^ n ≤ a.toNat + b.toNat
  af : getFlag .af w = true ↔ 16 ≤ a.toNat % 16 + b.toNat % 16
  of : getFlag .of w = true ↔ OutOfSignedRange n (a.toInt + b.toInt)

/-- The flags of `a - b`, in the "exactly when" wording of R162 to R164. -/
structure SubFlags {n : Nat} (p : ParityScope) (a b : BitVec n) (w : Word) : Prop where
  res : ResultFlags p (a - b) w
  cf : getFlag .cf w = true ↔ a.toNat < b.toNat
  af : getFlag .af w = true ↔ a.toNat % 16 < b.toNat % 16
  of : getFlag .of w = true ↔ OutOfSignedRange n (a.toInt - b.toInt)

/-- The flags of a logical result. R165. -/
structure LogicFlags {n : Nat} (p : ParityScope) (res : BitVec n) (w : Word) : Prop where
  res : ResultFlags p res w
  cf : getFlag .cf w = false
  af : getFlag .af w = false
  of : getFlag .of w = false

/-- The condition table of the conditional jumps. R262. -/
def Cond.Taken (w : Word) : Cond → Prop
  | .o => getFlag .of w = true
  | .no => getFlag .of w = false
  | .b => getFlag .cf w = true
  | .nb => getFlag .cf w = false
  | .e => getFlag .zf w = true
  | .ne => getFlag .zf w = false
  | .be => getFlag .cf w = true ∨ getFlag .zf w = true
  | .nbe => getFlag .cf w = false ∧ getFlag .zf w = false
  | .s => getFlag .sf w = true
  | .ns => getFlag .sf w = false
  | .p => getFlag .pf w = true
  | .np => getFlag .pf w = false
  | .l => getFlag .sf w ≠ getFlag .of w
  | .nl => getFlag .sf w = getFlag .of w
  | .le => getFlag .sf w ≠ getFlag .of w ∨ getFlag .zf w = true
  | .nle => getFlag .sf w = getFlag .of w ∧ getFlag .zf w = false

/-! ## Branches -/

/-- `Target(d)`: the offset of the byte after the whole instruction plus the displacement, mod 2^16. R260. -/
def branchTarget (i : Instr) (disp : Int) (s : State) : Word := BitVec.ofInt 16 (s.ip.toNat + i.size + disp)

/-- The offset of the byte after the instruction. R143. -/
def fallThrough (i : Instr) (s : State) : Word := BitVec.ofNat 16 (s.ip.toNat + i.size)

/-- The instruction writes IP and, where it says so, CX, and nothing else. R260, R279, R286. -/
structure Jumped (ip cx : Word) (s t : State) : Prop where
  ip : t.ip = ip
  cx : t.cx = cx
  frame : Frame [.cx] [] [] [] 0 s t

/-- The relative branches. R92, R115 to R117. -/
inductive BranchForm where
  | cond (c : Cond) (d : Byte)
  | loop (k : LoopKind) (d : Byte)
  | short (d : Byte)
  | near (d : Word)
  deriving DecidableEq, Repr

/-- R115 to R117. -/
def BranchForm.instr : BranchForm → Instr
  | .cond c d => c.jump d
  | .loop k d => k.instr d
  | .short d => .jmpShort d
  | .near d => .jmpNear d

/-- The raw signed displacement. R92. -/
def BranchForm.disp : BranchForm → Int
  | .cond _ d | .loop _ d | .short d => d.toInt
  | .near d => d.toInt

/-- The length of the form without prefixes. R260. -/
def BranchForm.len : BranchForm → Nat
  | .cond _ _ | .loop _ _ | .short _ => 2
  | .near _ => 3

/-! ## Memory words -/

/-- The word at an address, little-endian. R55. -/
def Memory.word (m : Memory) (a : Nat) : Nat := (m.read (a + 1)).toNat * 256 + (m.read a).toNat

/-! ## Decoding -/

/-- The opcode bytes of the rows `mismatch` of R120. -/
def mismatchBytes : List Nat :=
  [0x0F, 0x27, 0x2F, 0x37, 0x3F] ++ List.range' 0x60 16 ++ [0x86, 0x87, 0x8D] ++ List.range' 0x90 12 ++ [0x9E, 0x9F]
    ++ List.range' 0xA4 4 ++ List.range' 0xAC 4 ++ List.range' 0xC0 6 ++ List.range' 0xC8 4 ++ List.range' 0xD0 16
    ++ List.range' 0xE4 5 ++ List.range' 0xEC 6 ++ [0xF4, 0xF5] ++ List.range' 0xF8 6

/-- The opcode bytes of the rows marked (X) of R120. -/
def tierXBytes : List Nat := [0x06, 0x07, 0x0E, 0x16, 0x17, 0x1E, 0x1F, 0x8C, 0x8E, 0xE9, 0xEB]

/-- The opcode bytes of the rows `anomaly` of R120. -/
def adcSbbBytes : List Nat := List.range' 0x10 6 ++ List.range' 0x18 6

/-- The prefix bytes. R82. -/
def prefixBytes : List Nat := [0x26, 0x2E, 0x36, 0x3E, 0xF2, 0xF3]

/-- The byte of a segment override. R82. -/
def segByte : SReg → Byte
  | .es => 0x26
  | .cs => 0x2E
  | .ss => 0x36
  | .ds => 0x3E

/-- The byte of a repeat prefix. R82. -/
def repByte : Rep → Byte
  | .rep => 0xF3
  | .repne => 0xF2

/-- The prefix bytes that may stand before an opcode: at most one of each class, in either order. R83. -/
def prefixRun (g : Option SReg) (k : Option Rep) (segFirst : Bool) : List Byte :=
  let a := g.toList.map segByte
  let b := k.toList.map repByte
  if segFirst then a ++ b else b ++ a

/-- The group opcodes and the ModRM bytes their selector refuses with `BadSubSelector`. R93, R105, R118, R119. -/
def badSubSelector (op m : Nat) : Prop :=
  let reg := m / 8 % 8
  (op ∈ [0xC6, 0xC7, 0x8F] ∧ reg ≠ 0) ∨ (op ∈ [0xF6, 0xF7] ∧ reg % 2 = 1) ∨ (op = 0xFE ∧ 2 ≤ reg) ∨
    (op = 0xFF ∧ (reg ∈ [2, 3, 4, 7] ∨ (reg = 5 ∧ m / 64 = 3)))

/-- The ModRM bytes 8C and 8E refuse with `BadSegReg`. R87. -/
def badSegReg (op m : Nat) : Prop :=
  let reg := m / 8 % 8
  (op ∈ [0x8C, 0x8E] ∧ 4 ≤ reg) ∨ (op = 0x8E ∧ reg = 1)

/-- The core instruction is a tier-X form. R11. -/
def Instr.tierX (i : Instr) : Bool :=
  match i.core with
  | .pushSreg _ | .popEs | .popSs | .popDs | .movRmSreg _ _ | .movSregRm _ _ | .jmpNear _ | .jmpShort _ => true
  | _ => false

/-- The core instruction is a STOS. R84. -/
def Instr.isStos (i : Instr) : Bool := i.core == .stosb || i.core == .stosw

/-! ## Whole-machine rules -/

/-- The instruction may write the flag: the rows of R30 by mnemonic, DIV's among them for the status flags, and INT and
INTO for TF and IF. -/
def mayWriteFlag (f : Flag) (i : Instr) : Bool :=
  match Instr.mnemonic i with
  | .ADD | .SUB | .CMP | .AND | .OR | .XOR | .TEST | .INC | .DEC | .MUL | .DIV => decide (f ∈ statusFlags)
  | .POPF | .IRET => true
  | .INT | .INTO => decide (f = .tf ∨ f = .ief)
  | .MOV | .NOT | .PUSH | .POP | .PUSHF | .JO | .JNO | .JB | .JNB | .JE | .JNE | .JBE | .JNBE | .JS | .JNS | .JP
  | .JNP | .JL | .JNL | .JLE | .JNLE | .LOOPNZ | .LOOPZ | .LOOP | .JCXZ | .JMP | .STOSB | .STOSW => false

/-- The flags instructions read by name. R31. -/
def readFlags : List Flag := [.cf, .zf, .sf, .of, .pf, .df]

/-- A state with another FLAGS word. -/
def State.withFlags (s : State) (w : Word) : State := { s with flags := w }

/-- The state of the same machine with no retained decodes. R34, R402. -/
def State.uncached (s : State) : State :=
  { s with dtable := [], cfg := { s.cfg with decodeCache := .none } }

/-- An outcome with its next state changed by `f`. -/
def Out.mapNext (f : State → State) : Host.Outcome State Fault Refusal → Host.Outcome State Fault Refusal
  | .next s => .next (f s)
  | .fault r => .fault r
  | .refused r => .refused r

/-- Two outcomes of one instruction run with the FLAGS words `w` and `w'`: the same terminal outcome, or next states
that agree except in the FLAGS bits, each of which agrees or is still the bit it was. R31, R32. -/
def SameButFlags (w w' : Word) : Host.Outcome State Fault Refusal → Host.Outcome State Fault Refusal → Prop
  | .next t, .next t' =>
    t'.withFlags t.flags = t ∧
      ∀ k, t.flags.getLsbD k = t'.flags.getLsbD k ∨
        (t.flags.getLsbD k = w.getLsbD k ∧ t'.flags.getLsbD k = w'.getLsbD k)
  | .fault f, .fault f' => f = f'
  | .refused r, .refused r' => r = r'
  | _, _ => False

end Sys2Proof.Machine
end

