-- ==== Sys2Proof/Certificates/Slice0/Obligations.lean ====
section
/-! DEFINITION. The statements for the provers. OBLIGATIONS.json gives each its rules; the vocabulary is that of
Safety/Claims.lean. `g` is the segment override before an instruction, or none. -/

open Sys2Proof Sys2Proof.Machine

/-! ## Encoding (spec/30_encoding.md) -/

/-- Every well-formed instruction is what the decoder reads from its encoding, and the bytes after it are left. -/
def Obligations.DecodeOfEncode : Prop :=
  ∀ (i : Instr) (rest : List Byte), i.wellFormed = true → decode true (encode i ++ rest) = .ok (i, rest)

/-- Whatever the decoder reads is well formed, and its encoding is the bytes it consumed. -/
def Obligations.EncodeOfDecode : Prop :=
  ∀ (admitX : Bool) (bytes : List Byte) (i : Instr) (rest : List Byte), decode admitX bytes = .ok (i, rest) →
    i.wellFormed = true ∧ bytes = encode i ++ rest

/-- R95, R96: a record's size is the bytes consumed, 1 to 7, all below E, and its offset the first byte's address. -/
def Obligations.RecordSizeIsConsumedBytes : Prop :=
  ∀ (s : State) (p0 : Nat) (d : Record), decodeAt s p0 = .ok d →
    d.offset = p0 ∧ 1 ≤ d.size ∧ d.size ≤ 7 ∧ p0 + d.size ≤ s.imageEnd ∧
      (List.range d.size).map (fun k => s.mem.read (p0 + k)) = encode d.instr

/-- R11: with ADMIT_TIER_X = false exactly the tier-X forms are lost, and their opcodes are mismatches. -/
def Obligations.TierXOnlyWhenAdmitted : Prop :=
  ∀ (bytes : List Byte) (i : Instr) (rest : List Byte), decode true bytes = .ok (i, rest) →
    (Machine.Instr.tierX i = false → decode false bytes = .ok (i, rest)) ∧
    (Machine.Instr.tierX i = true → ∃ op, decode false bytes = .error (.noMatch op) ∧ op.toNat ∈ tierXBytes)

/-- R97, R84, R101, R102 in the order of R353: after any admissible prefixes a mismatch byte gives NoMatch; else a
repeat prefix before anything but AA or AB gives PrefixMisuse; else an ADC or SBB opcode gives BadArithSelector; and no
other opcode gives one of the three. Whatever bytes follow, none among them. -/
def Obligations.OpcodeStageOutcomes : Prop :=
  ∀ (admitX : Bool) (g : Option SReg) (k : Option Rep) (segFirst : Bool) (b : Byte) (rest : List Byte),
    b.toNat ∉ prefixBytes →
    let got := decode admitX (prefixRun g k segFirst ++ b :: rest)
    let mismatch := b.toNat ∈ mismatchBytes ∨ (admitX = false ∧ b.toNat ∈ tierXBytes)
    let misuse := k ≠ none ∧ b.toNat ≠ 0xAA ∧ b.toNat ≠ 0xAB
    (mismatch → got = .error (.noMatch b)) ∧
    (¬ mismatch → misuse → got = .error (.prefixMisuse b)) ∧
    (¬ mismatch → ¬ misuse → b.toNat ∈ adcSbbBytes → got = .error (.badArithSelector b none)) ∧
    (¬ mismatch → ¬ misuse → b.toNat ∉ adcSbbBytes →
      ∀ c, got ≠ .error (.noMatch c) ∧ got ≠ .error (.prefixMisuse c) ∧ got ≠ .error (.badArithSelector c none))

/-- R103, R105, R118, R119, R93, R87: at the ModRM byte, before any displacement byte is read, a refused selector or
segment-register field gives its anomaly, and no other ModRM byte gives one. For 80 to 83 the reason is
BadArithSelector, which the model chose (log 5). -/
def Obligations.ModRmStageAnomalies : Prop :=
  ∀ (g : Option SReg) (op m : Byte) (rest : List Byte),
    op.toNat ∈ List.range' 0x80 4 ++ [0x8C, 0x8E, 0x8F, 0xC6, 0xC7, 0xF6, 0xF7, 0xFE, 0xFF] →
    let got := decode true (prefixRun g none true ++ op :: m :: rest)
    let badArith := op.toNat < 0x84 ∧ (m.toNat / 8 % 8 = 2 ∨ m.toNat / 8 % 8 = 3)
    (badArith → got = .error (.badArithSelector op (some m))) ∧
    (badSubSelector op.toNat m.toNat → got = .error (.badSubSelector op m)) ∧
    (badSegReg op.toNat m.toNat → got = .error (.badSegReg op m)) ∧
    (¬ badArith → ¬ badSubSelector op.toNat m.toNat → ¬ badSegReg op.toNat m.toNat →
      got = .error .truncated ∨ ∃ i t, got = .ok (i, t))

/-- R83: one segment override and one repeat prefix may precede an opcode, in either order; a second of its class
raises DuplicatePrefix at the byte it is. -/
def Obligations.PrefixCollection : Prop :=
  ∀ (admitX : Bool) (r r' : SReg) (k k' : Rep) (w : Width) (rest : List Byte),
    let stos : Instr := if w = .byte then .stosb else .stosw
    let op : Byte := if w = .byte then 0xAA else 0xAB
    decode admitX (segByte r :: repByte k :: op :: rest) = .ok (r.before (k.before stos), rest) ∧
    decode admitX (repByte k :: segByte r :: op :: rest) = .ok (k.before (r.before stos), rest) ∧
    decode admitX (segByte r :: segByte r' :: rest) = .error (.duplicatePrefix (segByte r')) ∧
    decode admitX (segByte r :: repByte k :: segByte r' :: rest) = .error (.duplicatePrefix (segByte r')) ∧
    decode admitX (repByte k :: segByte r :: segByte r' :: rest) = .error (.duplicatePrefix (segByte r')) ∧
    decode admitX (repByte k :: repByte k' :: rest) = .error (.duplicatePrefix (repByte k')) ∧
    decode admitX (repByte k :: segByte r :: repByte k' :: rest) = .error (.duplicatePrefix (repByte k')) ∧
    decode admitX (segByte r :: repByte k :: repByte k' :: rest) = .error (.duplicatePrefix (repByte k'))

/-- Sanity: one or two words of each family, written out from the encodings of R82, R88, R89, R102 to R104, R106, R115,
R118, R119 and R121. -/
def Obligations.DecodesWrittenOutWords : Prop :=
  decode true [0x89, 0xD8] = .ok (.movRmReg (.word (.reg .ax) .bx), []) ∧
  decode true [0xB8, 0x05, 0x00] = .ok (.movRegImm (.word .ax 5), []) ∧
  decode true [0x83, 0xC3, 0xFF] = .ok (.addRmImm (.wordSx (.reg .bx) 0xFF), []) ∧
  decode true [0x24, 0x0F] = .ok (.andAccImm (.byte 0x0F), []) ∧
  decode true [0xF7, 0xE2] = .ok (.mulRm (.word (.reg .dx)), []) ∧
  decode true [0x7E, 0x02] = .ok (.jle 2, []) ∧
  decode true [0xFF, 0x36, 0x00, 0x20] = .ok (.pushRm (.mem (.direct 0x2000)), []) ∧
  decode true [0xCD, 0x21] = .ok (.intImm 0x21, []) ∧
  decode true [0xF3, 0xAB] = .ok (.prefixRep .stosw, []) ∧
  decode true [0x2E, 0x8B, 0x86, 0x34, 0x12] = .ok (.prefixCs (.movRegRm (.word (.mem (.disp16 .bp 0x1234)) .ax)), [])

/-- R92, R260: the operand slot of a relative branch is `Rel(disp + L)`, and the target computed from the slot is the
one computed from the raw displacement. -/
def Obligations.RelativeOperandGivesTarget : Prop :=
  ∀ (g : Option SReg) (f : BranchForm) (s : State),
    let d := under g f.instr
    Machine.Instr.slots d = (.rel (f.disp + f.len), .none) ∧
    d.size = f.len + (if g = none then 0 else 1) ∧
    branchTarget d f.disp s = BitVec.ofInt 16 (s.ip.toNat + ((d.size : Int) - f.len) + (f.disp + f.len))

/-! ## Registers and memory (spec/10_state.md, spec/20_memory.md) -/

/-- R23: a register write reads back; a 16-bit write overwrites both aliases, an alias write neither its sibling nor
another register; a segment register has no aliases. -/
def Obligations.RegisterAliasing : Prop :=
  ∀ (s : State) (r : Reg16) (b : Reg8) (q : SRegDst) (v : Word) (x : Byte),
    (s.setReg16 r v).reg16 r = v ∧
    (parent b = r → ((s.setReg16 r v).reg8 b).toNat = if isHigh b then v.toNat / 256 else v.toNat % 256) ∧
    (∀ r', r' ≠ r → (s.setReg16 r v).reg16 r' = s.reg16 r') ∧
    (s.setReg8 b x).reg8 b = x ∧
    (∀ b', b' ≠ b → (s.setReg8 b x).reg8 b' = s.reg8 b') ∧
    (∀ r', r' ≠ parent b → (s.setReg8 b x).reg16 r' = s.reg16 r') ∧
    ((s.setReg8 .al x).ax.toNat = (s.reg8 .ah).toNat * 256 + x.toNat) ∧
    (s.setSReg q v).sreg q.sreg = v ∧ (∀ q', q' ≠ q.sreg → (s.setSReg q v).sreg q' = s.sreg q')

/-- R52, R53, R54, R88, R89: the physical address of every memory operand, both settings of EA_WRAP16. -/
def Obligations.EffectiveAddress : Prop :=
  ∀ (g : Option SReg) (s : State) (k : EaBase) (d8 : Byte) (d16 : Word),
    let dflt := if k ∈ [.bpSi, .bpDi, .bp] ∧ s.cfg.bpDefaultSegment = .ss then s.ss else s.ds
    let seg := (g.elim dflt s.sreg).toNat
    let segDirect := (g.elim s.ds s.sreg).toNat
    let base : Nat :=
      match k with
      | .bxSi => s.bx.toNat + s.si.toNat
      | .bxDi => s.bx.toNat + s.di.toNat
      | .bpSi => s.bp.toNat + s.si.toNat
      | .bpDi => s.bp.toNat + s.di.toNat
      | .si => s.si.toNat
      | .di => s.di.toNat
      | .bp => s.bp.toNat
      | .bx => s.bx.toNat
    eaAddr g (.direct d16) s = (segDirect * 16 + d16.toNat) % 2 ^ 20 ∧
    (s.cfg.eaWrap16 = true →
      eaAddr g (.base k) s = (seg * 16 + base % 2 ^ 16) % 2 ^ 20 ∧
      (eaAddr g (.disp8 k d8) s : Int) = (seg * 16 + (base + d8.toInt) % 2 ^ 16) % 2 ^ 20 ∧
      eaAddr g (.disp16 k d16) s = (seg * 16 + (base + d16.toNat) % 2 ^ 16) % 2 ^ 20) ∧
    (s.cfg.eaWrap16 = false →
      eaAddr g (.base k) s = (seg * 16 + base) % 2 ^ 20 ∧
      (eaAddr g (.disp8 k d8) s : Int) = (seg * 16 + base + d8.toInt) % 2 ^ 20 ∧
      (eaAddr g (.disp16 k d16) s : Int) = (seg * 16 + base + d16.toInt) % 2 ^ 20)

/-- R55, R56: a write of one or two bytes sets exactly those bytes, the low byte at the lower address, and nothing else
of the state. -/
def Obligations.StoreWritesExactly : Prop :=
  ∀ (s : State) (a : Nat) (x : Byte) (v : Word),
    (a + 1 ≤ 2 ^ 20 → ∃ t, s.store8 a x = .ok t ∧ t.mem.read a = x ∧ Frame [] [] [] [a] 0 s t ∧ t.ip = s.ip) ∧
    (a + 1 < 2 ^ 20 → ∃ t, s.store16 a v = .ok t ∧ (t.mem.read a).toNat = v.toNat % 256 ∧
      (t.mem.read (a + 1)).toNat = v.toNat / 256 ∧ Frame [] [] [] [a, a + 1] 0 s t ∧ t.ip = s.ip)

/-- R59: a word write read back as bytes, and two byte writes read back as a word. -/
def Obligations.MixedWidthAccesses : Prop :=
  ∀ (s : State) (a : Nat) (v : Word) (lo hi : Byte), a + 1 < 2 ^ 20 →
    (∃ t, s.store16 a v = .ok t ∧ t.load16 a = .ok v ∧ t.load8 a = .ok (v.setWidth 8) ∧
      t.load8 (a + 1) = .ok ((v >>> 8).setWidth 8)) ∧
    (∃ t u w, s.store8 a lo = .ok t ∧ t.store8 (a + 1) hi = .ok u ∧ u.load16 a = .ok w ∧
      w.toNat = hi.toNat * 256 + lo.toNat)

/-- R57: an access of n bytes at a with a + n > 2^20 raises MemoryOutOfBounds(a, n); every physical address is below
2^20, so the only such access is a word at 0xFFFFF. -/
def Obligations.OnlyTheTopWordIsOutOfBounds : Prop :=
  ∀ (s : State) (a : Nat) (x : Byte) (v : Word),
    (2 ^ 20 < a + 1 → s.load8 a = .error (.memoryOutOfBounds a 1) ∧ s.store8 a x = .error (.memoryOutOfBounds a 1)) ∧
    (2 ^ 20 < a + 2 → s.load16 a = .error (.memoryOutOfBounds a 2) ∧ s.store16 a v = .error (.memoryOutOfBounds a 2)) ∧
    (∀ seg off, phys seg off < 2 ^ 20) ∧ (∀ g m, eaAddr g m s < 2 ^ 20) ∧
    (a < 2 ^ 20 → (∃ y, s.load8 a = .ok y) ∧ ((∃ y, s.load16 a = .ok y) ↔ a ≠ 0xFFFFF))

/-- The canonical form makes memories that read alike equal data (log 13). -/
def Obligations.EqualReadsAreEqualMemories : Prop :=
  ∀ m m' : Memory, m.wf → m'.wf → (∀ a, m.read a = m'.read a) → m = m'

/-! ## The engine (spec/40_engine_and_flags.md) -/

/-- R141: a step ends with Halt(EndOfImage) exactly when Phys(CS, IP) ≥ E. -/
def Obligations.HaltsExactlyAtImageEnd : Prop :=
  ∀ (s : State) (p : Nat),
    step s = .fault (.endOfImage p) ↔ s.imageEnd ≤ (s.cs.toNat * 16 + s.ip.toNat) % 2 ^ 20 ∧
      p = (s.cs.toNat * 16 + s.ip.toNat) % 2 ^ 20

/-- R142, R144: when the bytes from Phys(CS, IP) decode to an instruction, the step is that instruction's exec, in the
state whose `last` and `cursor` are the record's; under by_ip, when none was retained, the record is retained too. -/
def Obligations.StepRunsTheDecodedInstruction : Prop :=
  ∀ (s : State) (i : Instr) (rest : List Byte), s.p0 < s.imageEnd →
    decode s.cfg.admitTierX (window s s.p0) = .ok (i, rest) →
    let d : Record := { instr := i, size := i.size, offset := s.p0 }
    (s.cfg.decodeCache = .none → step s = exec i { s with last := some d, cursor := s.p0 + i.size }) ∧
    (s.cfg.decodeCache = .byIp → retainedAt s.dtable s.ip = none →
      step s = exec i { s with last := some d, cursor := s.p0 + i.size, dtable := retain s.dtable s.ip d })

/-- R142: with DECODE_CACHE = none, a decode that gives no record ends the step with the outcome R350 gives its failure,
and the bytes R350 records. For a BadArithSelector of 80-83 the ModRM byte is recorded beside p0 and the opcode byte,
which R350's row of that outcome does not list: the model's union of two rows, log 5 (DEDUCED). -/
def Obligations.DecodeFailureEndsTheStep : Prop :=
  ∀ (s : State) (e : DecodeFail), s.p0 < s.imageEnd → s.cfg.decodeCache = .none →
    decode s.cfg.admitTierX (window s s.p0) = .error e →
    ∃ f, step s = .fault f ∧
      match e with
      | .noMatch op => f = .noMatch s.p0 op
      | .badArithSelector op m => f = .badArithSelector s.p0 op m
      | .badSubSelector op m => f = .badSubSelector s.p0 op m
      | .badSegReg op m => f = .badSegReg s.p0 op m
      | .duplicatePrefix b => f = .duplicatePrefix s.p0 b
      | .prefixMisuse op => f = .prefixMisuse s.p0 op
      | .truncated => f = .cursorOutOfBounds s.imageEnd

/-- R404, R80, R99: an instruction that is decoded, whose first byte is below E and a later one is not, ends with
CursorOutOfBounds(E). -/
def Obligations.StraddlingInstructionIsFatal : Prop :=
  ∀ (s : State) (i : Instr), i.wellFormed = true → (s.cfg.admitTierX = true ∨ Machine.Instr.tierX i = false) →
    (s.cfg.decodeCache = .none ∨ retainedAt s.dtable s.ip = none) → s.p0 < s.imageEnd → s.imageEnd < s.p0 + i.size →
    window s s.p0 = (encode i).take (s.imageEnd - s.p0) →
    step s = .fault (.cursorOutOfBounds s.imageEnd)

/-- R145: the end-of-image test runs first; then under by_ip a record stored under IP is re-dispatched whatever CS and
memory are, and a step that decodes stores its record under its IP, and no other; under none every step decodes, and
nothing is stored. -/
def Obligations.RetainedDecodeIsRedispatched : Prop :=
  ∀ (s : State),
    (s.imageEnd ≤ s.p0 → step s = .fault (.endOfImage s.p0)) ∧
    (s.cfg.decodeCache = .byIp → s.p0 < s.imageEnd →
      (∀ d, retainedAt s.dtable s.ip = some d →
        step s = exec d.instr { s with last := some d, cursor := s.p0 + d.size }) ∧
      (retainedAt s.dtable s.ip = none → ∀ t, step s = .next t →
        ∃ d, decodeAt s s.p0 = .ok d ∧ retainedAt t.dtable s.ip = some d ∧
          ∀ ip, ip ≠ s.ip → retainedAt t.dtable ip = retainedAt s.dtable ip)) ∧
    (s.cfg.decodeCache = .none → ∀ t, step s = .next t →
      t.dtable = s.dtable ∧ ∃ d, decodeAt s s.p0 = .ok d ∧ t.last = some d)

/-- R402: where the retained record, if there is one, is what decoding afresh gives, by_ip and none do the same. -/
def Obligations.CacheAgreesWhenRecordsAreFresh : Prop :=
  ∀ (s : State), (∀ d, retainedAt s.dtable s.ip = some d → decodeAt s s.p0 = .ok d) →
    Out.mapNext State.uncached (step s) = step s.uncached

/-! ## Invariants and whole-machine rules -/

/-- Every step keeps the invariant: canonical and bounded memory, image bounds, decoded records. -/
def Obligations.StepKeepsInvariant : Prop :=
  ∀ (s t : State), s.Inv → step s = .next t → t.Inv

/-- The invariant holds at reset and in every state the loader gives. -/
def Obligations.ResetAndLoadMeetInvariant : Prop :=
  State.reset.Inv ∧
    ∀ (cfg : Config) (image : Option (List Byte)) (seg off : Word) (s : State), load cfg image seg off = .ok s → s.Inv

/-- R391, R69: no step moves the image bounds or changes a parameter. -/
def Obligations.ImageBoundsNeverMove : Prop :=
  ∀ (s t : State), step s = .next t →
    t.imageOrigin = s.imageOrigin ∧ t.imageEnd = s.imageEnd ∧ t.cfg = s.cfg

/-- R286: CS changes only by INT, a taken INTO and IRET. -/
def Obligations.OnlyInterruptsChangeCs : Prop :=
  ∀ (i : Instr) (s t : State), exec i s = .next t → t.cs ≠ s.cs →
    Machine.Instr.mnemonic i = .INT ∨ (Machine.Instr.mnemonic i = .INTO ∧ getFlag .of s.flags = true) ∨
      Machine.Instr.mnemonic i = .IRET

/-- R30: a flag changes only by an instruction of its row; the reserved bits only by POPF and IRET. -/
def Obligations.FlagWriters : Prop :=
  ∀ (i : Instr) (s t : State), exec i s = .next t →
    (∀ f, mayWriteFlag f i = false → getFlag f t.flags = getFlag f s.flags) ∧
    (∀ k, k ∈ [1, 3, 5, 12, 13, 14, 15] → Machine.Instr.mnemonic i ≠ .POPF → Machine.Instr.mnemonic i ≠ .IRET →
      t.flags.getLsbD k = s.flags.getLsbD k)

/-- R31, R32: no instruction but PUSHF, INT and INTO, which push the whole word, does anything else when AF, TF, IF or a
reserved bit of FLAGS is another. -/
def Obligations.UnreadFlagsHaveNoEffect : Prop :=
  ∀ (i : Instr) (s : State) (w w' : Word), (∀ f ∈ readFlags, getFlag f w = getFlag f w') →
    Machine.Instr.mnemonic i ≠ .PUSHF → Machine.Instr.mnemonic i ≠ .INT → Machine.Instr.mnemonic i ≠ .INTO →
    SameButFlags w w' (exec i (s.withFlags w)) (exec i (s.withFlags w'))

/-- R146, R350, R57, R316: exec refuses nothing; its faults for a well-formed instruction are the five of the Execute
stage, each by its own instructions. The p0 recorded is Phys(CS, IP) in every state; under a by_ip re-dispatch that is
the model's reading, log 10 (DEDUCED). -/
def Obligations.OutcomesOfExecute : Prop :=
  ∀ (i : Instr) (s : State), i.wellFormed = true →
    (∃ t, exec i s = .next t) ∨ exec i s = .fault (.memoryOutOfBounds 0xFFFFF 2) ∨
    (exec i s = .fault (.divideByZero s.p0) ∧ Machine.Instr.mnemonic i = .DIV) ∨
    (exec i s = .fault (.divideOverflow s.p0) ∧ Machine.Instr.mnemonic i = .DIV) ∨
    (exec i s = .fault (.repNE s.p0) ∧ Machine.Instr.isStos i = true ∧ i.rep = some .repne) ∨
    (exec i s = .fault (.farJump s.p0) ∧ Machine.Instr.recordFar i = true)

/-- R84: a segment override before an instruction with no memory operand it applies to changes nothing but the size. -/
def Obligations.OverrideWithoutMemoryOperand : Prop :=
  ∀ (r : SReg) (i : Instr) (s : State), (r.before i).wellFormed = true → i.ea = none →
    (∀ t, exec (r.before i) s = .next t ↔ exec i { s with ip := s.ip + 1 } = .next t) ∧
    ((∃ f, exec (r.before i) s = .fault f) ↔ ∃ f, exec i { s with ip := s.ip + 1 } = .fault f)

/-! ## Arithmetic (spec/42_arithmetic.md) -/

/-- R200, R201: ADD and SUB of every form complete with the sum or difference mod 2^W, the flags of R161 to R164, and
nothing else changed. -/
def Obligations.AddAndSubtract : Prop :=
  ∀ (f : AluForm) (g : Option SReg) (s : State), (f.operands g s).inBounds →
    (∃ t, exec (under g (f.instr .add)) s = .next t ∧ Advanced (under g (f.instr .add)) s t ∧
      (f.operands g s).Holds fun _ d x =>
        d.Stored (d.value s + x.value s) s t ∧ AddFlags s.cfg.parityScope (d.value s) (x.value s) t.flags ∧
        Frame d.gp d.seg statusBits d.bytes 0 s t) ∧
    (∃ t, exec (under g (f.instr .sub)) s = .next t ∧ Advanced (under g (f.instr .sub)) s t ∧
      (f.operands g s).Holds fun _ d x =>
        d.Stored (d.value s - x.value s) s t ∧ SubFlags s.cfg.parityScope (d.value s) (x.value s) t.flags ∧
        Frame d.gp d.seg statusBits d.bytes 0 s t)

/-- R202: CMP sets the flags SUB would and stores nothing. -/
def Obligations.CompareStoresNothing : Prop :=
  ∀ (f : AluForm) (g : Option SReg) (s : State), (f.operands g s).inBounds →
    ∃ t, exec (under g (f.instr .cmp)) s = .next t ∧ Advanced (under g (f.instr .cmp)) s t ∧
      Frame [] [] statusBits [] 0 s t ∧
      (f.operands g s).Holds fun _ d x => SubFlags s.cfg.parityScope (d.value s) (x.value s) t.flags

/-- R203, R204, R206: INC and DEC add and subtract 1; CF is computed or kept as INC_DEC_CF says. -/
def Obligations.IncrementAndDecrement : Prop :=
  ∀ (f : StepForm) (g : Option SReg) (s : State), (f.operand g s).inBounds →
    (∃ t, exec (under g f.inc) s = .next t ∧ Advanced (under g f.inc) s t ∧
      (f.operand g s).Holds fun n p =>
        p.Stored (p.value s + 1) s t ∧ Frame p.gp p.seg statusBits p.bytes 0 s t ∧
        ∃ w, AddFlags s.cfg.parityScope (p.value s) (1 : BitVec n) w ∧
          (∀ fl ∈ [Flag.pf, .af, .zf, .sf, .of], getFlag fl t.flags = getFlag fl w) ∧
          getFlag .cf t.flags = if s.cfg.incDecCf = .compute then getFlag .cf w else getFlag .cf s.flags) ∧
    (∃ t, exec (under g f.dec) s = .next t ∧ Advanced (under g f.dec) s t ∧
      (f.operand g s).Holds fun n p =>
        p.Stored (p.value s - 1) s t ∧ Frame p.gp p.seg statusBits p.bytes 0 s t ∧
        ∃ w, SubFlags s.cfg.parityScope (p.value s) (1 : BitVec n) w ∧
          (∀ fl ∈ [Flag.pf, .af, .zf, .sf, .of], getFlag fl t.flags = getFlag fl w) ∧
          getFlag .cf t.flags = if s.cfg.incDecCf = .compute then getFlag .cf w else getFlag .cf s.flags)

/-- R207, R208: MUL leaves the exact product in AX or DX:AX, CF = OF = 1 exactly when the high half is not zero; PF, AF,
ZF, SF are draws, of which nothing is stated (log 4). -/
def Obligations.MultiplyExactly : Prop :=
  ∀ (g : Option SReg) (s : State),
    (∀ rm, ∃ t, exec (under g (.mulRm (.byte rm))) s = .next t ∧ Advanced (under g (.mulRm (.byte rm))) s t ∧
      t.ax.toNat = (s.reg8 .al).toNat * ((rmByte g s rm).value s).toNat ∧
      getFlag .cf t.flags = decide (256 ≤ t.ax.toNat) ∧ getFlag .of t.flags = decide (256 ≤ t.ax.toNat) ∧
      Frame [.ax] [] statusBits [] 4 s t) ∧
    (∀ rm, (rmWord g s rm).inBounds →
      ∃ t, exec (under g (.mulRm (.word rm))) s = .next t ∧ Advanced (under g (.mulRm (.word rm))) s t ∧
        t.dx.toNat * 65536 + t.ax.toNat = s.ax.toNat * ((rmWord g s rm).value s).toNat ∧
        getFlag .cf t.flags = decide (t.dx ≠ 0) ∧ getFlag .of t.flags = decide (t.dx ≠ 0) ∧
        Frame [.ax, .dx] [] statusBits [] 4 s t)

/-- R209, R210, R212: a DIV whose divisor is not zero and whose quotient fits leaves the quotient and the remainder of
truncating division; the six status flags are draws, of which nothing is stated (log 4). -/
def Obligations.DivideWithRemainder : Prop :=
  ∀ (g : Option SReg) (s : State),
    (∀ rm, let v := ((rmByte g s rm).value s).toNat
      s.ax.toNat < 256 * v →
      ∃ t, exec (under g (.divRm (.byte rm))) s = .next t ∧ Advanced (under g (.divRm (.byte rm))) s t ∧
        (t.reg8 .al).toNat * v + (t.reg8 .ah).toNat = s.ax.toNat ∧ (t.reg8 .ah).toNat < v ∧
        Frame [.ax] [] statusBits [] 6 s t) ∧
    (∀ rm, let v := ((rmWord g s rm).value s).toNat
      (rmWord g s rm).inBounds → s.dx.toNat * 65536 + s.ax.toNat < 65536 * v →
      ∃ t, exec (under g (.divRm (.word rm))) s = .next t ∧ Advanced (under g (.divRm (.word rm))) s t ∧
        t.ax.toNat * v + t.dx.toNat = s.dx.toNat * 65536 + s.ax.toNat ∧ t.dx.toNat < v ∧
        Frame [.ax, .dx] [] statusBits [] 6 s t)

/-- R209, R211: a zero divisor is DivideByZero, a quotient of 2^W or more DivideOverflow; so a DIV by DX never
completes. R350: each records p0. The p0 recorded is Phys(CS, IP) in every state; under a by_ip re-dispatch that is the
model's reading, log 10 (DEDUCED). -/
def Obligations.DivideFaults : Prop :=
  ∀ (g : Option SReg) (s : State),
    (∀ rm, let v := ((rmByte g s rm).value s).toNat
      (v = 0 → exec (under g (.divRm (.byte rm))) s = .fault (.divideByZero s.p0)) ∧
      (v ≠ 0 → 256 * v ≤ s.ax.toNat → exec (under g (.divRm (.byte rm))) s = .fault (.divideOverflow s.p0))) ∧
    (∀ rm, (rmWord g s rm).inBounds → let v := ((rmWord g s rm).value s).toNat
      (v = 0 → exec (under g (.divRm (.word rm))) s = .fault (.divideByZero s.p0)) ∧
      (v ≠ 0 → 65536 * v ≤ s.dx.toNat * 65536 + s.ax.toNat →
        exec (under g (.divRm (.word rm))) s = .fault (.divideOverflow s.p0))) ∧
    (∀ t, exec (under g (.divRm (.word (.reg .dx)))) s ≠ .next t)

/-! ## Logic (spec/43_logical.md) -/

/-- R240, R241, R242: AND, OR and XOR of every form, bit by bit, with the flags of R165. -/
def Obligations.BitwiseOperations : Prop :=
  ∀ (op : AluOp) (f : AluForm) (g : Option SReg) (s : State), op ∈ [AluOp.and, .or, .xor] → (f.operands g s).inBounds →
    ∃ t, exec (under g (f.instr op)) s = .next t ∧ Advanced (under g (f.instr op)) s t ∧
      (f.operands g s).Holds fun n d x => ∃ res : BitVec n,
        (∀ k, res.getLsbD k =
          match op with
          | .and => (d.value s).getLsbD k && (x.value s).getLsbD k
          | .or => (d.value s).getLsbD k || (x.value s).getLsbD k
          | _ => (d.value s).getLsbD k ^^ (x.value s).getLsbD k) ∧
        d.Stored res s t ∧ LogicFlags s.cfg.parityScope res t.flags ∧ Frame d.gp d.seg statusBits d.bytes 0 s t

/-- R243: TEST sets the flags AND would and stores nothing. -/
def Obligations.TestStoresNothing : Prop :=
  ∀ (f : TestForm) (g : Option SReg) (s : State), (f.operands g s).inBounds →
    ∃ t, exec (under g f.instr) s = .next t ∧ Advanced (under g f.instr) s t ∧ Frame [] [] statusBits [] 0 s t ∧
      (f.operands g s).Holds fun _ d x => LogicFlags s.cfg.parityScope (d.value s &&& x.value s) t.flags

/-- R244: NOT stores the one's complement and writes no flag. -/
def Obligations.NotComplements : Prop :=
  ∀ (o : RmOnly) (g : Option SReg) (s : State), (rmSingle g s o).inBounds →
    ∃ t, exec (under g (.notRm o)) s = .next t ∧ Advanced (under g (.notRm o)) s t ∧
      (rmSingle g s o).Holds fun n p =>
        p.Stored (BitVec.ofNat n (2 ^ n - 1 - (p.value s).toNat)) s t ∧ Frame p.gp p.seg [] p.bytes 0 s t

/-! ## Moves (spec/41_move.md) -/

/-- R180 to R187: every form of MOV copies its source to its destination and changes nothing else. -/
def Obligations.MoveCopies : Prop :=
  ∀ (f : MovForm) (g : Option SReg) (s : State), (f.operands g s).inBounds →
    ∃ t, exec (under g f.instr) s = .next t ∧ Advanced (under g f.instr) s t ∧
      (f.operands g s).Holds fun _ d x => d.Stored (x.value s) s t ∧ Frame d.gp d.seg [] d.bytes 0 s t

/-- R57, R180, R200, R240: an operand that is a word at 0xFFFFF ends the instruction with MemoryOutOfBounds. -/
def Obligations.OperandAtTopWordIsFatal : Prop :=
  ∀ (g : Option SReg) (s : State) (op : AluOp) (a : AluForm) (e : TestForm) (m : MovForm) (p : StepForm) (o : RmOnly),
    let top : Out := .fault (.memoryOutOfBounds 0xFFFFF 2)
    (¬ (a.operands g s).inBounds → exec (under g (a.instr op)) s = top) ∧
    (¬ (e.operands g s).inBounds → exec (under g e.instr) s = top) ∧
    (¬ (m.operands g s).inBounds → exec (under g m.instr) s = top) ∧
    (¬ (p.operand g s).inBounds → exec (under g p.inc) s = top ∧ exec (under g p.dec) s = top) ∧
    (¬ (rmSingle g s o).inBounds → exec (under g (.notRm o)) s = top ∧ exec (under g (.mulRm o)) s = top ∧
      exec (under g (.divRm o)) s = top)

/-! ## Control flow (spec/44_control_flow.md) -/

/-- R262, R260, R279: each conditional jump goes to its target when its condition holds and falls through otherwise,
writing IP alone; the condition numbered cccc XOR 1 is the opposite one. -/
def Obligations.ConditionalJumps : Prop :=
  ∀ (c : Cond) (d : Byte) (g : Option SReg) (s : State),
    (∃ t, exec (under g (c.jump d)) s = .next t ∧
      (Cond.Taken s.flags c → Jumped (branchTarget (under g (c.jump d)) d.toInt s) s.cx s t) ∧
      (¬ Cond.Taken s.flags c → Jumped (fallThrough (under g (c.jump d)) s) s.cx s t)) ∧
    (Cond.Taken s.flags (Cond.ofNum (c.num ^^^ 1)) ↔ ¬ Cond.Taken s.flags c)

/-- R280 to R283: LOOPNZ, LOOPZ and LOOP decrement CX and go on the new CX and ZF; JCXZ goes when CX = 0 and keeps CX. -/
def Obligations.LoopFamily : Prop :=
  ∀ (k : LoopKind) (d : Byte) (g : Option SReg) (s : State),
    let i := under g (k.instr d)
    let cx' : Word := if k = .cxz then s.cx else BitVec.ofInt 16 (s.cx.toNat - 1)
    let taken : Prop :=
      match k with
      | .nz => cx' ≠ 0 ∧ getFlag .zf s.flags = false
      | .z => cx' ≠ 0 ∧ getFlag .zf s.flags = true
      | .always => cx' ≠ 0
      | .cxz => s.cx = 0
    ∃ t, exec i s = .next t ∧ (taken → Jumped (branchTarget i d.toInt s) cx' s t) ∧
      (¬ taken → Jumped (fallThrough i s) cx' s t)

/-- R284: JMP short and near always go to their target. -/
def Obligations.UnconditionalJumps : Prop :=
  ∀ (d : Byte) (w : Word) (g : Option SReg) (s : State),
    (∃ t, exec (under g (.jmpShort d)) s = .next t ∧ Jumped (branchTarget (under g (.jmpShort d)) d.toInt s) s.cx s t) ∧
    (∃ t, exec (under g (.jmpNear w)) s = .next t ∧ Jumped (branchTarget (under g (.jmpNear w)) w.toInt s) s.cx s t)

/-- R285: both far jumps decode, with FAR set, and stop with FarJump in every state, before any access; FF /5 with
mod 11 is an anomaly of the decoder. R350: FarJump records p0. The p0 recorded is Phys(CS, IP) in every state; under a by_ip
re-dispatch that is the model's reading, log 10 (DEDUCED). -/
def Obligations.FarJumpsStop : Prop :=
  ∀ (off seg : Word) (m : Ea) (g : Option SReg) (s : State) (admitX : Bool) (b : Byte) (rest : List Byte),
    decode admitX (encode (under g (.jmpFar off seg)) ++ rest) = .ok (under g (.jmpFar off seg), rest) ∧
    (m.wellFormed = true →
      decode admitX (encode (under g (.jmpFarMem m)) ++ rest) = .ok (under g (.jmpFarMem m), rest)) ∧
    Machine.Instr.recordFar (under g (.jmpFar off seg)) = true ∧
    Machine.Instr.recordFar (under g (.jmpFarMem m)) = true ∧
    (b.toNat / 64 = 3 → b.toNat / 8 % 8 = 5 → decode admitX (0xFF :: b :: rest) = .error (.badSubSelector 0xFF b)) ∧
    exec (under g (.jmpFar off seg)) s = .fault (.farJump ((s.cs.toNat * 16 + s.ip.toNat) % 2 ^ 20)) ∧
    exec (under g (.jmpFarMem m)) s = .fault (.farJump ((s.cs.toNat * 16 + s.ip.toNat) % 2 ^ 20))

/-! ## Stack (spec/45_stack.md) -/

/-- R290, R292 to R294, R298: every push lowers SP by 2 and stores its word there. -/
def Obligations.PushStoresWord : Prop :=
  ∀ (f : PushForm) (g : Option SReg) (s : State), f.inBounds g s → pushAddr s ≠ 0xFFFFF →
    ∃ t, exec (under g f.instr) s = .next t ∧ Advanced (under g f.instr) s t ∧ t.sp = s.sp - 2 ∧
      t.mem.word (pushAddr s) = (f.value g s).toNat ∧ Frame [.sp] [] [] [pushAddr s, pushAddr s + 1] 0 s t

/-- R291, R295 to R297: every POP reads the word at SS:SP, raises SP by 2, and writes its destination last. -/
def Obligations.PopLoadsWord : Prop :=
  ∀ (f : PopForm) (g : Option SReg) (s : State), phys s.ss s.sp ≠ 0xFFFFF → (f.dst g s).inBounds →
    ∃ t, exec (under g f.instr) s = .next t ∧ Advanced (under g f.instr) s t ∧
      (f.dst g s).Stored ((Place.mem16 (phys s.ss s.sp)).value s) s t ∧
      (f.isSp = false → t.sp = s.sp + 2) ∧
      Frame (.sp :: (f.dst g s).gp) (f.dst g s).seg [] (f.dst g s).bytes 0 s t

/-- R299: POPF puts the word at SS:SP into all sixteen bits of FLAGS. -/
def Obligations.PopfLoadsAllFlags : Prop :=
  ∀ (g : Option SReg) (s : State), phys s.ss s.sp ≠ 0xFFFFF →
    ∃ t, exec (under g .popf) s = .next t ∧ Advanced (under g .popf) s t ∧ t.sp = s.sp + 2 ∧
      t.flags.toNat = s.mem.word (phys s.ss s.sp) ∧ Frame [.sp] [] (List.range 16) [] 0 s t

/-- R57, R290, R291: a push whose word would be at 0xFFFFF, a pop whose word is there, and a PUSH or POP whose own
memory operand is there, end with MemoryOutOfBounds. -/
def Obligations.StackAtTopWordIsFatal : Prop :=
  ∀ (f : PushForm) (h : PopForm) (g : Option SReg) (s : State),
    let top : Out := .fault (.memoryOutOfBounds 0xFFFFF 2)
    (¬ f.inBounds g s ∨ pushAddr s = 0xFFFFF → exec (under g f.instr) s = top) ∧
    (phys s.ss s.sp = 0xFFFFF ∨ ¬ (h.dst g s).inBounds → exec (under g h.instr) s = top) ∧
    (phys s.ss s.sp = 0xFFFFF → exec (under g .popf) s = top)

/-- R300: a push followed by a pop gives the pushed word and the SP of before; a pop into SP leaves SP at the word. -/
def Obligations.PushPopRoundTrip : Prop :=
  ∀ (f : PushForm) (h : PopForm) (g g' : Option SReg) (s : State), f.inBounds g s → pushAddr s ≠ 0xFFFFF →
    ∃ t, exec (under g f.instr) s = .next t ∧
      ((h.dst g' t).inBounds → ∃ u, exec (under g' h.instr) t = .next u ∧
        (h.dst g' t).Stored (f.value g s) t u ∧ u.sp = if h.isSp then f.value g s else s.sp) ∧
      (∃ u, exec (under g' .popf) t = .next u ∧ u.flags = f.value g s ∧ u.sp = s.sp)

/-! ## Interrupts (spec/46_interrupts.md) -/

/-- R310 to R313: INT n, INT 3 and INTO with OF = 1 push FLAGS, CS and the next instruction's offset, clear TF and IF,
and go to the vector read from physical 4n after the pushes. -/
def Obligations.InterruptEntry : Prop :=
  ∀ (n : Byte) (g : Option SReg) (s : State) (i : Instr),
    i = .intImm n ∨ (i = .int3 ∧ n = 3) ∨ (i = .into ∧ n = 4 ∧ getFlag .of s.flags = true) →
    let a1 := phys s.ss (s.sp - 2)
    let a2 := phys s.ss (s.sp - 4)
    let a3 := phys s.ss (s.sp - 6)
    a1 ≠ 0xFFFFF → a2 ≠ 0xFFFFF → a3 ≠ 0xFFFFF →
    ∃ t, exec (under g i) s = .next t ∧ t.sp = s.sp - 6 ∧
      t.mem.word a1 = s.flags.toNat ∧ t.mem.word a2 = s.cs.toNat ∧
      t.mem.word a3 = (s.ip.toNat + (under g i).size) % 65536 ∧
      t.ip.toNat = t.mem.word (4 * n.toNat) ∧ t.cs.toNat = t.mem.word (4 * n.toNat + 2) ∧
      getFlag .tf t.flags = false ∧ getFlag .ief t.flags = false ∧
      Frame [.sp] [.cs] [8, 9] [a1, a1 + 1, a2, a2 + 1, a3, a3 + 1] 0 s t

/-- R313: INTO with OF = 0 only advances IP. -/
def Obligations.IntoNotTaken : Prop :=
  ∀ (g : Option SReg) (s : State), getFlag .of s.flags = false →
    ∃ t, exec (under g .into) s = .next t ∧ Advanced (under g .into) s t ∧ Frame [] [] [] [] 0 s t

/-- R310, R314, R57: an interrupt one of whose three pushes, or an IRET one of whose three pops, would be at 0xFFFFF
ends with MemoryOutOfBounds. -/
def Obligations.InterruptAtTopWordIsFatal : Prop :=
  ∀ (n : Byte) (g : Option SReg) (s : State),
    let top : Out := .fault (.memoryOutOfBounds 0xFFFFF 2)
    (phys s.ss (s.sp - 2) = 0xFFFFF ∨ phys s.ss (s.sp - 4) = 0xFFFFF ∨ phys s.ss (s.sp - 6) = 0xFFFFF →
      exec (under g (.intImm n)) s = top ∧ exec (under g .int3) s = top ∧
      (getFlag .of s.flags = true → exec (under g .into) s = top)) ∧
    (phys s.ss s.sp = 0xFFFFF ∨ phys s.ss (s.sp + 2) = 0xFFFFF ∨ phys s.ss (s.sp + 4) = 0xFFFFF →
      exec (under g .iret) s = top)

/-- R314: IRET pops IP, then CS, then all of FLAGS. -/
def Obligations.InterruptReturn : Prop :=
  ∀ (g : Option SReg) (s : State),
    let a1 := phys s.ss s.sp
    let a2 := phys s.ss (s.sp + 2)
    let a3 := phys s.ss (s.sp + 4)
    a1 ≠ 0xFFFFF → a2 ≠ 0xFFFFF → a3 ≠ 0xFFFFF →
    ∃ t, exec (under g .iret) s = .next t ∧ t.ip.toNat = s.mem.word a1 ∧ t.cs.toNat = s.mem.word a2 ∧
      t.flags.toNat = s.mem.word a3 ∧ t.sp = s.sp + 6 ∧ Frame [.sp] [.cs] (List.range 16) [] 0 s t

/-- R315: an IRET in any state that still has the interrupt's SS, SP and three stacked words restores CS and FLAGS, and
goes to the offset after the interrupt. -/
def Obligations.InterruptRoundTrip : Prop :=
  ∀ (n : Byte) (g g' : Option SReg) (s t u : State), exec (under g (.intImm n)) s = .next t →
    u.ss = t.ss → u.sp = t.sp →
    (∀ a ∈ [phys s.ss (s.sp - 2), phys s.ss (s.sp - 4), phys s.ss (s.sp - 6)], u.mem.word a = t.mem.word a) →
    ∃ v, exec (under g' .iret) u = .next v ∧ v.cs = s.cs ∧ v.flags = s.flags ∧ v.sp = s.sp ∧
      v.ip.toNat = (s.ip.toNat + 2 + (if g = none then 0 else 1)) % 65536

/-! ## Strings (spec/47_string.md) -/

/-- R331 to R333: STOSB and STOSW store AL or AX at STOS_SEGMENT:DI, whatever the override, and move DI by DF. -/
def Obligations.StosStoresOnce : Prop :=
  ∀ (g : Option SReg) (s : State),
    let a := phys (if s.cfg.stosSegment = .es then s.es else s.ds) s.di
    (∃ t, exec (under g .stosb) s = .next t ∧ Advanced (under g .stosb) s t ∧ t.mem.read a = s.reg8 .al ∧
      t.di = (if getFlag .df s.flags then s.di - 1 else s.di + 1) ∧ Frame [.di] [] [] [a] 0 s t) ∧
    (a ≠ 0xFFFFF →
      ∃ t, exec (under g .stosw) s = .next t ∧ Advanced (under g .stosw) s t ∧ t.mem.word a = s.ax.toNat ∧
        t.di = (if getFlag .df s.flags then s.di - 2 else s.di + 2) ∧ Frame [.di] [] [] [a, a + 1] 0 s t) ∧
    (a = 0xFFFFF → exec (under g .stosw) s = .fault (.memoryOutOfBounds 0xFFFFF 2))

/-- R330, R331: REP STOSB and REP STOSW store CX times in one step; after it CX = 0 and DI has moved by CX times the
width, every cell reached holds AL or AX, and no other byte changed. -/
def Obligations.RepStosFills : Prop :=
  ∀ (g : Option SReg) (inner : Bool) (s : State),
    let seg := if s.cfg.stosSegment = .es then s.es else s.ds
    let cell (w k : Nat) : Nat :=
      phys seg (if getFlag .df s.flags then s.di - BitVec.ofNat 16 (w * k) else s.di + BitVec.ofNat 16 (w * k))
    let moved (w : Nat) : Word :=
      if getFlag .df s.flags then s.di - BitVec.ofNat 16 (w * s.cx.toNat) else s.di + BitVec.ofNat 16 (w * s.cx.toNat)
    let ib := repeated .rep g inner .stosb
    let iw := repeated .rep g inner .stosw
    (∃ t, exec ib s = .next t ∧ Advanced ib s t ∧ t.cx = 0 ∧ t.di = moved 1 ∧
      (∀ k, k < s.cx.toNat → t.mem.read (cell 1 k) = s.reg8 .al) ∧
      Frame [.cx, .di] [] [] ((List.range s.cx.toNat).map (cell 1)) 0 s t) ∧
    ((∀ k, k < s.cx.toNat → cell 2 k ≠ 0xFFFFF) →
      ∃ t, exec iw s = .next t ∧ Advanced iw s t ∧ t.cx = 0 ∧ t.di = moved 2 ∧
        (∀ k, k < s.cx.toNat → t.mem.word (cell 2 k) = s.ax.toNat) ∧
        Frame [.cx, .di] [] [] ((List.range s.cx.toNat).flatMap fun k => [cell 2 k, cell 2 k + 1]) 0 s t) ∧
    ((∃ k, k < s.cx.toNat ∧ cell 2 k = 0xFFFFF) → exec iw s = .fault (.memoryOutOfBounds 0xFFFFF 2))

/-- R334: F2 AA and F2 AB decode, and a REPNE STOS is Fatal(RepNE) in every state, CX = 0 too; a repeat prefix before any
other opcode that has an entry is an anomaly of the decoder. R350: RepNE records p0. The p0 recorded is Phys(CS, IP) in
every state; under a by_ip re-dispatch that is the model's reading, log 10 (DEDUCED). -/
def Obligations.RepneStosIsFatal : Prop :=
  ∀ (g : Option SReg) (inner : Bool) (s : State) (k : Rep) (b : Byte) (rest : List Byte),
    decode true (0xF2 :: 0xAA :: rest) = .ok (repeated .repne none true .stosb, rest) ∧
    decode true (0xF2 :: 0xAB :: rest) = .ok (repeated .repne none true .stosw, rest) ∧
    (b.toNat ∉ prefixBytes → b.toNat ∉ mismatchBytes → b.toNat ∉ [0xAA, 0xAB] →
      decode true (repByte k :: b :: rest) = .error (.prefixMisuse b)) ∧
    exec (repeated .repne g inner .stosb) s = .fault (.repNE ((s.cs.toNat * 16 + s.ip.toNat) % 2 ^ 20)) ∧
    exec (repeated .repne g inner .stosw) s = .fault (.repNE ((s.cs.toNat * 16 + s.ip.toNat) % 2 ^ 20))

/-! ## Reset and boot (spec/70_reset_and_hazards.md) -/

/-- R390, R391, R392, R35: what the loader gives, and when it refuses. -/
def Obligations.LoaderGivesBootState : Prop :=
  ∀ (cfg : Config) (image : List Byte) (seg off : Word),
    let o := (seg.toNat * 16 + off.toNat) % 2 ^ 20
    load cfg none seg off = .error .loaderIO ∧
    (2 ^ 20 < o + image.length → load cfg (some image) seg off = .error .loaderCapacity) ∧
    (o + image.length ≤ 2 ^ 20 → ∃ s, load cfg (some image) seg off = .ok s ∧
      (∀ r, s.reg16 r = 0) ∧ s.es = 0 ∧ s.ss = 0 ∧ s.ds = 0 ∧ s.flags = 0 ∧ s.cs = seg ∧ s.ip = off ∧
      (∀ k, (h : k < image.length) → s.mem.read (o + k) = image[k]) ∧
      (∀ a, a < o ∨ o + image.length ≤ a → s.mem.read a = 0) ∧
      s.imageOrigin = o ∧ s.imageEnd = o + image.length ∧ s.cursor = o ∧ s.last = none ∧ s.dtable = [] ∧ s.cfg = cfg ∧
      s.p0 = o ∧ (image = [] → step s = .fault (.endOfImage o)))

/-- R35 at reset, with the model's choice of an empty image at 0000:0000 (log 1): so the first step from reset itself
halts at the image's end. -/
def Obligations.ResetState : Prop :=
  (∀ r, State.reset.reg16 r = 0) ∧ (∀ r, State.reset.sreg r = 0) ∧ State.reset.ip = 0 ∧ State.reset.flags = 0 ∧
    (∀ a, State.reset.mem.read a = 0) ∧ State.reset.last = none ∧ State.reset.dtable = [] ∧
    State.reset.cfg = Config.default ∧ step State.reset = .fault (.endOfImage 0)

/-- R123: the records of a decode pass lie end to end from O, each what decoding there gives; the pass ends cleanly only
at or past E, else with the outcome of the decode after the last record, clean for a mismatch alone; and it depends on
memory, the image bounds and the parameters only. -/
def Obligations.DecodePassIsLinear : Prop :=
  ∀ (s u : State),
    let out := decodePass s
    (∀ k, (h : k < out.1.length) →
      out.1[k].offset = s.imageOrigin + ((out.1.take k).map Record.size).sum ∧ decodeAt s out.1[k].offset = .ok out.1[k]) ∧
    (out.2 = .atEnd ↔ s.imageEnd ≤ s.imageOrigin + (out.1.map Record.size).sum) ∧
    (∀ f, out.2 = .stopped f → decodeAt s (s.imageOrigin + (out.1.map Record.size).sum) = .error f ∧
      (f.kind = .halt ↔ ∃ p op, f = .noMatch p op)) ∧
    (u.mem = s.mem → u.imageOrigin = s.imageOrigin → u.imageEnd = s.imageEnd → u.cfg = s.cfg → decodePass u = out)
end

