-- ==== Sys2Proof/Laws/Decode.lean ====
section
/-! SUPPORT. The decoder and the encoder: lengths, what each operand form reads back, and the opcode byte of each
table entry. -/

namespace Sys2Proof

/-! ## Bytes and words -/

theorem wordOf_toNat (lo hi : Byte) : (wordOf lo hi).toNat = hi.toNat * 256 + lo.toNat := by
  have := lo.isLt
  simp only [wordOf, BitVec.toNat_append, Nat.shiftLeft_eq]
  rw [Nat.mul_comm, ← Nat.two_pow_add_eq_or_of_lt lo.isLt]

theorem loByte_toNat (v : Word) : (loByte v).toNat = v.toNat % 256 := by simp [loByte]

theorem hiByte_toNat (v : Word) : (hiByte v).toNat = v.toNat / 256 := by
  have := v.isLt
  simp only [hiByte, BitVec.extractLsb'_toNat, Nat.shiftRight_eq_div_pow]; omega

@[simp] theorem loByte_wordOf (lo hi : Byte) : loByte (wordOf lo hi) = lo := by
  have := lo.isLt
  apply BitVec.eq_of_toNat_eq; rw [loByte_toNat, wordOf_toNat]; omega

@[simp] theorem hiByte_wordOf (lo hi : Byte) : hiByte (wordOf lo hi) = hi := by
  have := lo.isLt
  apply BitVec.eq_of_toNat_eq; rw [hiByte_toNat, wordOf_toNat]; omega

@[simp] theorem wordOf_loByte_hiByte (v : Word) : wordOf (loByte v) (hiByte v) = v := by
  apply BitVec.eq_of_toNat_eq; rw [wordOf_toNat, loByte_toNat, hiByte_toNat]; omega

@[simp] theorem takeWord_wordBytes (v : Word) (t : List Byte) : takeWord (wordBytes v ++ t) = .ok (v, t) := by
  simp [takeWord, wordBytes]

@[simp] theorem takeByte_cons (b : Byte) (t : List Byte) : takeByte (b :: t) = .ok (b, t) := rfl

/-- What reading a byte can do. -/
theorem takeByte_cases {l t : List Byte} {b : Byte} (h : takeByte l = .ok (b, t)) : l = b :: t := by
  cases l with
  | nil => simp [takeByte] at h
  | cons x l => simp only [takeByte, Except.ok.injEq, Prod.mk.injEq] at h; rw [h.1, h.2]

/-- What reading a word can do. -/
theorem takeWord_cases {l t : List Byte} {v : Word} (h : takeWord l = .ok (v, t)) : l = wordBytes v ++ t := by
  rcases l with _ | ⟨x, _ | ⟨y, l⟩⟩
  · simp [takeWord] at h
  · simp [takeWord] at h
  · simp only [takeWord, Except.ok.injEq, Prod.mk.injEq] at h
    rw [← h.1, ← h.2, wordBytes, loByte_wordOf, hiByte_wordOf]; rfl

@[simp] theorem Parse.map_ok {α β : Type} (f : α → β) (a : α) (t : List Byte) :
    Parse.map f (.ok (a, t)) = .ok (f a, t) := rfl

@[simp] theorem Parse.map_error {α β : Type} (f : α → β) (e : DecodeFail) :
    Parse.map f (.error e : Parse α) = .error e := rfl

/-- What mapping over an answer can do. -/
theorem Parse.map_cases {α β : Type} {f : α → β} {p : Parse α} {b : β} {t : List Byte} (h : Parse.map f p = .ok (b, t)) :
    ∃ a, p = .ok (a, t) ∧ b = f a := by
  rcases p with e | ⟨a, t'⟩
  · simp at h
  · simp only [Parse.map_ok, Except.ok.injEq, Prod.mk.injEq] at h
    exact ⟨a, by rw [h.2], h.1.symm⟩

/-- A failure after mapping is the failure before it. -/
theorem Parse.map_error_iff {α β : Type} {f : α → β} {p : Parse α} {e : DecodeFail} :
    Parse.map f p = .error e ↔ p = .error e := by
  rcases p with e' | ⟨a, t'⟩ <;> simp

/-! ## The ModRM byte -/

@[simp] theorem modOf_mkModRm (a : BitVec 2) (b c : BitVec 3) : modOf (mkModRm a b c) = a := by
  revert a b c; decide

@[simp] theorem regOf_mkModRm (a : BitVec 2) (b c : BitVec 3) : regOf (mkModRm a b c) = b := by
  revert a b c; decide

@[simp] theorem rmOf_mkModRm (a : BitVec 2) (b c : BitVec 3) : rmOf (mkModRm a b c) = c := by
  revert a b c; decide

theorem mkModRm_fields (m : Byte) : mkModRm (modOf m) (regOf m) (rmOf m) = m := by revert m; decide

@[simp] theorem Reg16.ofNum_num (r : Reg16) : Reg16.ofNum r.num = r := by cases r <;> rfl
@[simp] theorem Reg8.ofNum_num (r : Reg8) : Reg8.ofNum r.num = r := by cases r <;> rfl
@[simp] theorem SReg.ofNum_num (r : SReg) : SReg.ofNum r.num = r := by cases r <;> rfl
@[simp] theorem EaBase.ofNum_num (k : EaBase) : EaBase.ofNum k.num = k := by cases k <;> rfl
@[simp] theorem Reg16.num_ofNum (n : BitVec 3) : (Reg16.ofNum n).num = n := by revert n; decide
@[simp] theorem Reg8.num_ofNum (n : BitVec 3) : (Reg8.ofNum n).num = n := by revert n; decide
@[simp] theorem SReg.num_ofNum (n : BitVec 2) : (SReg.ofNum n).num = n := by revert n; decide
@[simp] theorem EaBase.num_ofNum (n : BitVec 3) : (EaBase.ofNum n).num = n := by revert n; decide

/-! ## Memory and r/m operands (R86 to R90) -/

/-- Decoding a memory operand's encoding gives it back. -/
theorem parseEa_encode {e : Ea} (h : e.wellFormed = true) (reg : BitVec 3) (t : List Byte) :
    ∃ m tl, e.encode reg = m :: tl ∧ regOf m = reg ∧ modOf m ≠ 3 ∧ parseEa m (tl ++ t) = .ok (e, t) := by
  cases e with
  | direct a => exact ⟨_, _, rfl, by simp, by simp, by simp [parseEa]⟩
  | base k =>
    refine ⟨_, _, rfl, by simp, by simp, ?_⟩
    have hk : k.num ≠ 6 := by cases k <;> first | decide | cases h
    simp only [parseEa, modOf_mkModRm, rmOf_mkModRm, if_neg hk, EaBase.ofNum_num, List.nil_append]
    rfl
  | disp8 k d => exact ⟨_, _, rfl, by simp, by simp, by simp [parseEa]⟩
  | disp16 k d => exact ⟨_, _, rfl, by simp, by simp, by simp [parseEa]⟩

/-- What decoding a memory operand can do. -/
theorem parseEa_cases {m : Byte} {t t' : List Byte} {e : Ea} (hm : modOf m ≠ 3) (h : parseEa m t = .ok (e, t')) :
    m :: t = e.encode (regOf m) ++ t' ∧ e.wellFormed = true := by
  have hf := mkModRm_fields m
  have h4 := (modOf m).isLt
  have back : ∀ n : BitVec 2, (modOf m).toNat = n.toNat → modOf m = n := fun n => BitVec.eq_of_toNat_eq
  simp only [parseEa] at h
  split at h
  · rename_i h0
    rw [back 0 (by simpa using h0)] at hf
    split at h
    · rename_i h6
      obtain ⟨a, ha, rfl⟩ := Parse.map_cases h
      rw [h6] at hf
      rw [takeWord_cases ha, Ea.encode, hf]
      exact ⟨rfl, rfl⟩
    · rename_i h6
      simp only [Except.ok.injEq, Prod.mk.injEq] at h
      obtain ⟨rfl, rfl⟩ := h
      rw [Ea.encode, EaBase.num_ofNum, hf]
      refine ⟨rfl, ?_⟩
      generalize rmOf m = r at h6
      revert r; decide
  · rename_i h1
    rw [back 1 (by simpa using h1)] at hf
    obtain ⟨a, ha, rfl⟩ := Parse.map_cases h
    rw [takeByte_cases ha, Ea.encode, EaBase.num_ofNum, hf]
    exact ⟨rfl, rfl⟩
  · rename_i h0 h1
    have : (modOf m).toNat ≠ 3 := fun e => hm (BitVec.eq_of_toNat_eq e)
    rw [back 2 (by simp only [imp_false] at h0 h1; show _ = 2; omega)] at hf
    obtain ⟨a, ha, rfl⟩ := Parse.map_cases h
    rw [takeWord_cases ha, Ea.encode, EaBase.num_ofNum, hf]
    exact ⟨rfl, rfl⟩

/-- Decoding an r/m operand's encoding gives it back. -/
theorem parseRm_encode {ρ : Type} {ofNum : BitVec 3 → ρ} {num : ρ → BitVec 3} (hn : ∀ r, ofNum (num r) = r)
    {x : Rm ρ} (h : x.ea.all Ea.wellFormed = true) (reg : BitVec 3) (t : List Byte) :
    ∃ m tl, x.encode num reg = m :: tl ∧ regOf m = reg ∧ parseRm ofNum m (tl ++ t) = .ok (x, t) := by
  cases x with
  | reg r => exact ⟨_, _, rfl, by simp, by simp [parseRm, hn]⟩
  | mem e =>
    obtain ⟨m, tl, h1, h2, h3, h4⟩ := parseEa_encode (e := e) (by simpa [Rm.ea] using h) reg t
    exact ⟨m, tl, h1, h2, by rw [parseRm, if_neg h3, h4]; rfl⟩

/-- What decoding an r/m operand can do. -/
theorem parseRm_cases {ρ : Type} {ofNum : BitVec 3 → ρ} {num : ρ → BitVec 3} (hn : ∀ n, num (ofNum n) = n)
    {m : Byte} {t t' : List Byte} {x : Rm ρ} (h : parseRm ofNum m t = .ok (x, t')) :
    m :: t = x.encode num (regOf m) ++ t' ∧ x.ea.all Ea.wellFormed = true := by
  simp only [parseRm] at h
  split at h
  · rename_i h3
    simp only [Except.ok.injEq, Prod.mk.injEq] at h
    obtain ⟨rfl, rfl⟩ := h
    have hf := mkModRm_fields m
    rw [h3] at hf
    rw [Rm.encode, hn, hf]
    exact ⟨rfl, rfl⟩
  · rename_i h3
    obtain ⟨a, ha, rfl⟩ := Parse.map_cases h
    have := parseEa_cases h3 ha
    exact ⟨this.1, by simpa [Rm.ea] using this.2⟩

/-! ## Lengths (R95) -/

@[simp] theorem wordBytes_length (v : Word) : (wordBytes v).length = 2 := rfl

@[simp] theorem Ea.encode_length (reg : BitVec 3) (e : Ea) : (e.encode reg).length = 1 + e.dispSize := by
  cases e <;> simp [Ea.encode, Ea.dispSize]

@[simp] theorem Rm.encode_length {ρ : Type} (num : ρ → BitVec 3) (reg : BitVec 3) (x : Rm ρ) :
    (x.encode num reg).length = 1 + x.dispSize := by
  cases x <;> simp [Rm.encode, Rm.dispSize]

/-- R95: an instruction's size is the length of its encoding. -/
theorem encode_length (i : Instr) : (encode i).length = i.size := by
  induction i with
  | prefixEs i ih | prefixCs i ih | prefixSs i ih | prefixDs i ih | prefixRep i ih | prefixRepne i ih =>
    simp [encode, Instr.size, ih, Nat.add_comm]
  | addRmReg d o | orRmReg d o | andRmReg d o | subRmReg d o | xorRmReg d o | cmpRmReg d o =>
    cases o <;> simp [encode, encodeAluRmReg, Instr.size, RmReg.size] <;> omega
  | testRmReg o | movRmReg o | movRegRm o =>
    cases o <;> simp [encode, encodeRmReg, Instr.size, RmReg.size] <;> omega
  | addAccImm o | orAccImm o | andAccImm o | subAccImm o | xorAccImm o | cmpAccImm o | testAccImm o =>
    cases o <;> rfl
  | addRmImm o | orRmImm o | andRmImm o | subRmImm o | xorRmImm o | cmpRmImm o =>
    cases o <;> simp [encode, encodeGrpImm, Instr.size, GrpImm.size] <;> omega
  | movRmImm o | testRmImm o => cases o <;> simp [encode, encodeRmImm, Instr.size, RmImm.size] <;> omega
  | notRm o | mulRm o | divRm o | incRm o | decRm o =>
    cases o <;> simp [encode, encodeRmOnly, Instr.size, RmOnly.size] <;> omega
  | movRegImm o => cases o <;> rfl
  | movRmSreg rm r | movSregRm r rm => simp [encode, Instr.size]; omega
  | popRm rm | pushRm rm | jmpFarMem rm => simp [encode, Instr.size]; omega
  | _ => rfl

theorem Instr.size_pos (i : Instr) : 1 ≤ i.size := by
  cases i with
  | addRmReg d o | orRmReg d o | andRmReg d o | subRmReg d o | xorRmReg d o | cmpRmReg d o =>
    cases o <;> simp only [Instr.size, RmReg.size] <;> omega
  | testRmReg o | movRmReg o | movRegRm o => cases o <;> simp only [Instr.size, RmReg.size] <;> omega
  | addAccImm o | orAccImm o | andAccImm o | subAccImm o | xorAccImm o | cmpAccImm o | testAccImm o =>
    cases o <;> simp only [Instr.size, AccImm.size] <;> omega
  | addRmImm o | orRmImm o | andRmImm o | subRmImm o | xorRmImm o | cmpRmImm o =>
    cases o <;> simp only [Instr.size, GrpImm.size] <;> omega
  | movRmImm o | testRmImm o => cases o <;> simp only [Instr.size, RmImm.size] <;> omega
  | notRm o | mulRm o | divRm o | incRm o | decRm o => cases o <;> simp only [Instr.size, RmOnly.size] <;> omega
  | movRegImm o => cases o <;> simp only [Instr.size, RegImm.size] <;> omega
  | _ => simp only [Instr.size]; omega

/-! ## The opcode byte of an entry (R120) -/

/-- The opcode byte of an entry other than `adcSbb`, which has twelve. R120. -/
def Entry.opcode : Entry → Byte
  | .aluRmReg a d w => 0#2 ++ a.sel ++ 0#1 ++ d.bit ++ w.bit
  | .aluAccImm a w => 0#2 ++ a.sel ++ 2#2 ++ w.bit
  | .adcSbb => 0x10
  | .pushSreg r => 0#3 ++ r.num ++ 6#3
  | .popSreg r => 0#3 ++ r.sreg.num ++ 7#3
  | .incReg r => 8#5 ++ r.num
  | .decReg r => 9#5 ++ r.num
  | .pushReg r => 10#5 ++ r.num
  | .popReg r => 11#5 ++ r.num
  | .jcc c => 7#4 ++ c.num
  | .grpAlu s w => 32#6 ++ BitVec.ofBool s ++ w.bit
  | .testRmReg w => 0x42#7 ++ w.bit
  | .movRmReg w => 0x44#7 ++ w.bit
  | .movRegRm w => 0x45#7 ++ w.bit
  | .movRmSreg => 0x8C
  | .movSregRm => 0x8E
  | .grpPop => 0x8F
  | .pushf => 0x9C
  | .popf => 0x9D
  | .movAccMem x w => 40#6 ++ x.bit ++ w.bit
  | .testAccImm w => 0x54#7 ++ w.bit
  | .stos w => 0x55#7 ++ w.bit
  | .movReg8 r => 0x16#5 ++ r.num
  | .movReg16 r => 0x17#5 ++ r.num
  | .grpMov w => 0x63#7 ++ w.bit
  | .int3 => 0xCC
  | .intImm => 0xCD
  | .into => 0xCE
  | .iret => 0xCF
  | .loop k => 0x38#6 ++ k.num
  | .jmpNear => 0xE9
  | .jmpFar => 0xEA
  | .jmpShort => 0xEB
  | .grpUnary w => 0x7B#7 ++ w.bit
  | .grpFe => 0xFE
  | .grpFf => 0xFF

/-- R120: every entry but ADC's and SBB's has one opcode byte. -/
theorem Entry.opcode_of (b : Byte) : ∀ e ∈ Entry.of b, e = .adcSbb ∨ e.opcode = b := by revert b; decide

/-! ## What decoding each operand form can do -/

theorem withModRm_cases {t k i rest} (h : withModRm t k = .ok (i, rest)) : ∃ m t', t = m :: t' ∧ k m t' = .ok (i, rest) := by
  simp only [withModRm] at h
  split at h
  · rename_i m t' hm; exact ⟨m, t', takeByte_cases hm, h⟩
  · cases h

theorem parseRmReg_cases {w m t rest o} (h : parseRmReg w m t = .ok (o, rest)) :
   (∀ op : BitVec 7, (op ++ w.bit) :: m :: t = encodeRmReg op o ++ rest) ∧
   (∀ a d, (Entry.aluRmReg a d w).opcode :: m :: t = encodeAluRmReg a d o ++ rest) ∧ o.ea.all Ea.wellFormed = true := by
  simp only [parseRmReg] at h
  split at h
  · obtain ⟨x, hx, rfl⟩ := Parse.map_cases h
    obtain ⟨e, hw⟩ := parseRm_cases (num := Reg8.num) Reg8.num_ofNum hx
    rw [e]; exact ⟨by simp [encodeRmReg, Width.bit], by simp [encodeAluRmReg, Entry.opcode, Width.bit], hw⟩
  · obtain ⟨x, hx, rfl⟩ := Parse.map_cases h
    obtain ⟨e, hw⟩ := parseRm_cases (num := Reg16.num) Reg16.num_ofNum hx
    rw [e]; exact ⟨by simp [encodeRmReg, Width.bit], by simp [encodeAluRmReg, Entry.opcode, Width.bit], hw⟩

theorem parseRmOnly_cases {op : BitVec 7} {sel : BitVec 3} {w m t rest o} (hn : regOf m = sel) (h : parseRmOnly w m t = .ok (o, rest)) :
   (op ++ w.bit) :: m :: t = encodeRmOnly op sel o ++ rest ∧ o.ea.all Ea.wellFormed = true := by
  simp only [parseRmOnly] at h
  split at h
  · obtain ⟨x, hx, rfl⟩ := Parse.map_cases h
    obtain ⟨e, hw⟩ := parseRm_cases (num := Reg8.num) Reg8.num_ofNum hx
    rw [e, hn]; exact ⟨by simp [encodeRmOnly, Width.bit], hw⟩
  · obtain ⟨x, hx, rfl⟩ := Parse.map_cases h
    obtain ⟨e, hw⟩ := parseRm_cases (num := Reg16.num) Reg16.num_ofNum hx
    rw [e, hn]; exact ⟨by simp [encodeRmOnly, Width.bit], hw⟩

theorem parseRmImm_cases {op : BitVec 7} {sel : BitVec 3} {w m t rest o} (hn : regOf m = sel) (h : parseRmImm w m t = .ok (o, rest)) :
   (op ++ w.bit) :: m :: t = encodeRmImm op sel o ++ rest ∧ o.ea.all Ea.wellFormed = true := by
  simp only [parseRmImm] at h
  split at h
  · split at h
    · rename_i x t1 hx
      obtain ⟨v, hv, rfl⟩ := Parse.map_cases h
      obtain ⟨e, hw⟩ := parseRm_cases (num := Reg8.num) Reg8.num_ofNum hx
      rw [e, hn, takeByte_cases hv]; exact ⟨by simp [encodeRmImm, Width.bit], hw⟩
    · cases h
  · split at h
    · rename_i x t1 hx
      obtain ⟨v, hv, rfl⟩ := Parse.map_cases h
      obtain ⟨e, hw⟩ := parseRm_cases (num := Reg16.num) Reg16.num_ofNum hx
      rw [e, hn, takeWord_cases hv]; exact ⟨by simp [encodeRmImm, Width.bit], hw⟩
    · cases h

theorem parseGrpImm_cases {a : AluOp} {s w m t rest o} (hn : regOf m = a.sel) (h : parseGrpImm s w m t = .ok (o, rest)) :
   (Entry.grpAlu s w).opcode :: m :: t = encodeGrpImm a o ++ rest ∧ o.ea.all Ea.wellFormed = true := by
  simp only [parseGrpImm] at h
  split at h
  · split at h
    · rename_i x t1 hx
      obtain ⟨v, hv, rfl⟩ := Parse.map_cases h
      obtain ⟨e, hw⟩ := parseRm_cases (num := Reg8.num) Reg8.num_ofNum hx
      rw [e, hn, takeByte_cases hv]; exact ⟨by simp [Entry.opcode, encodeGrpImm, Width.bit], hw⟩
    · cases h
  · split at h
    · rename_i x t1 hx
      obtain ⟨e, hw⟩ := parseRm_cases (num := Reg16.num) Reg16.num_ofNum hx
      split at h
      · rename_i hs
        obtain ⟨v, hv, rfl⟩ := Parse.map_cases h
        rw [e, hn, takeByte_cases hv, hs]; exact ⟨by simp [encodeGrpImm]; rfl, hw⟩
      · rename_i hs
        obtain ⟨v, hv, rfl⟩ := Parse.map_cases h
        rw [e, hn, takeWord_cases hv, Bool.eq_false_iff.2 hs]; exact ⟨by simp [encodeGrpImm]; rfl, hw⟩
    · cases h

theorem parseAccImm_cases {w t rest o} (h : parseAccImm w t = .ok (o, rest)) (op : BitVec 7) : (op ++ w.bit) :: t = encodeAccImm op o ++ rest := by
  cases w <;> simp only [parseAccImm] at h <;> obtain ⟨v, hv, rfl⟩ := Parse.map_cases h
  · rw [takeByte_cases hv]; rfl
  · rw [takeWord_cases hv]; rfl

/-! ## Past its ModRM byte and its selector a decode can only lack bytes (R99) -/

theorem takeByte_error {t e} (h : takeByte t = .error e) : e = .truncated := by cases t <;> simp_all [takeByte]

theorem takeWord_error {t e} (h : takeWord t = .error e) : e = .truncated := by rcases t with _ | ⟨a, _ | ⟨b, t⟩⟩ <;> simp_all [takeWord]

theorem parseEa_error {m t e} (h : parseEa m t = .error e) : e = .truncated := by
  simp only [parseEa] at h
  split at h
  · split at h
    · exact takeWord_error (Parse.map_error_iff.1 h)
    · cases h
  · exact takeByte_error (Parse.map_error_iff.1 h)
  · exact takeWord_error (Parse.map_error_iff.1 h)

theorem parseRm_error {ρ} {o : BitVec 3 → ρ} {m t e} (h : parseRm o m t = .error e) : e = .truncated := by
  simp only [parseRm] at h
  split at h
  · cases h
  · exact parseEa_error (Parse.map_error_iff.1 h)

theorem parseRmReg_error {w m t e} (h : parseRmReg w m t = .error e) : e = .truncated := by
  cases w <;> simp only [parseRmReg] at h <;> exact parseRm_error (Parse.map_error_iff.1 h)

theorem parseRmOnly_error {w m t e} (h : parseRmOnly w m t = .error e) : e = .truncated := by
  cases w <;> simp only [parseRmOnly] at h <;> exact parseRm_error (Parse.map_error_iff.1 h)

theorem parseRmImm_error {w m t e} (h : parseRmImm w m t = .error e) : e = .truncated := by
  cases w <;> simp only [parseRmImm] at h <;> split at h
  · exact takeByte_error (Parse.map_error_iff.1 h)
  · cases h; rename_i h; exact parseRm_error h
  · exact takeWord_error (Parse.map_error_iff.1 h)
  · cases h; rename_i h; exact parseRm_error h

theorem parseGrpImm_error {s w m t e} (h : parseGrpImm s w m t = .error e) : e = .truncated := by
  cases w <;> simp only [parseGrpImm] at h <;> split at h
  · exact takeByte_error (Parse.map_error_iff.1 h)
  · cases h; rename_i h; exact parseRm_error h
  · split at h
    · exact takeByte_error (Parse.map_error_iff.1 h)
    · exact takeWord_error (Parse.map_error_iff.1 h)
  · cases h; rename_i h; exact parseRm_error h

theorem parseAccImm_error {w t e} (h : parseAccImm w t = .error e) : e = .truncated := by
  cases w <;> simp only [parseAccImm] at h
  · exact takeByte_error (Parse.map_error_iff.1 h)
  · exact takeWord_error (Parse.map_error_iff.1 h)

end Sys2Proof
end

