-- ==== Sys2Proof/Laws/State.lean ====
section
/-! SUPPORT. What each update of the state leaves: one lemma per field per update, so that no later proof unfolds a
record update. -/

namespace Sys2Proof.Machine

open Sys2Proof

/-! ## `setReg16` -/

@[simp] theorem State.reg16_setReg16 (s : State) (r r' : Reg16) (v : Word) :
    (s.setReg16 r v).reg16 r' = if r' = r then v else s.reg16 r' := by
  cases r <;> cases r' <;> rfl

@[simp] theorem State.setReg16_ax (s : State) (r : Reg16) (v : Word) :
    (s.setReg16 r v).ax = if r = .ax then v else s.ax := by cases r <;> rfl

@[simp] theorem State.setReg16_cx (s : State) (r : Reg16) (v : Word) :
    (s.setReg16 r v).cx = if r = .cx then v else s.cx := by cases r <;> rfl

@[simp] theorem State.setReg16_dx (s : State) (r : Reg16) (v : Word) :
    (s.setReg16 r v).dx = if r = .dx then v else s.dx := by cases r <;> rfl

@[simp] theorem State.setReg16_bx (s : State) (r : Reg16) (v : Word) :
    (s.setReg16 r v).bx = if r = .bx then v else s.bx := by cases r <;> rfl

@[simp] theorem State.setReg16_sp (s : State) (r : Reg16) (v : Word) :
    (s.setReg16 r v).sp = if r = .sp then v else s.sp := by cases r <;> rfl

@[simp] theorem State.setReg16_bp (s : State) (r : Reg16) (v : Word) :
    (s.setReg16 r v).bp = if r = .bp then v else s.bp := by cases r <;> rfl

@[simp] theorem State.setReg16_si (s : State) (r : Reg16) (v : Word) :
    (s.setReg16 r v).si = if r = .si then v else s.si := by cases r <;> rfl

@[simp] theorem State.setReg16_di (s : State) (r : Reg16) (v : Word) :
    (s.setReg16 r v).di = if r = .di then v else s.di := by cases r <;> rfl

@[simp] theorem State.setReg16_es (s : State) (r : Reg16) (v : Word) : (s.setReg16 r v).es = s.es := by
  cases r <;> rfl

@[simp] theorem State.setReg16_cs (s : State) (r : Reg16) (v : Word) : (s.setReg16 r v).cs = s.cs := by
  cases r <;> rfl

@[simp] theorem State.setReg16_ss (s : State) (r : Reg16) (v : Word) : (s.setReg16 r v).ss = s.ss := by
  cases r <;> rfl

@[simp] theorem State.setReg16_ds (s : State) (r : Reg16) (v : Word) : (s.setReg16 r v).ds = s.ds := by
  cases r <;> rfl

@[simp] theorem State.setReg16_ip (s : State) (r : Reg16) (v : Word) : (s.setReg16 r v).ip = s.ip := by
  cases r <;> rfl

@[simp] theorem State.setReg16_flags (s : State) (r : Reg16) (v : Word) : (s.setReg16 r v).flags = s.flags := by
  cases r <;> rfl

@[simp] theorem State.setReg16_mem (s : State) (r : Reg16) (v : Word) : (s.setReg16 r v).mem = s.mem := by
  cases r <;> rfl

@[simp] theorem State.setReg16_imageOrigin (s : State) (r : Reg16) (v : Word) : (s.setReg16 r v).imageOrigin = s.imageOrigin := by
  cases r <;> rfl

@[simp] theorem State.setReg16_imageEnd (s : State) (r : Reg16) (v : Word) : (s.setReg16 r v).imageEnd = s.imageEnd := by
  cases r <;> rfl

@[simp] theorem State.setReg16_cursor (s : State) (r : Reg16) (v : Word) : (s.setReg16 r v).cursor = s.cursor := by
  cases r <;> rfl

@[simp] theorem State.setReg16_last (s : State) (r : Reg16) (v : Word) : (s.setReg16 r v).last = s.last := by
  cases r <;> rfl

@[simp] theorem State.setReg16_dtable (s : State) (r : Reg16) (v : Word) : (s.setReg16 r v).dtable = s.dtable := by
  cases r <;> rfl

@[simp] theorem State.setReg16_cfg (s : State) (r : Reg16) (v : Word) : (s.setReg16 r v).cfg = s.cfg := by
  cases r <;> rfl

@[simp] theorem State.setReg16_draws (s : State) (r : Reg16) (v : Word) : (s.setReg16 r v).draws = s.draws := by
  cases r <;> rfl

@[simp] theorem State.setReg16_sreg (s : State) (r : Reg16) (v : Word) (x : SReg) : (s.setReg16 r v).sreg x = s.sreg x := by
  cases x <;> simp [State.sreg]

/-! ## `setReg8` -/

@[simp] theorem State.setReg8_es (s : State) (r : Reg8) (v : Byte) : (s.setReg8 r v).es = s.es := by
  simp [State.setReg8]

@[simp] theorem State.setReg8_cs (s : State) (r : Reg8) (v : Byte) : (s.setReg8 r v).cs = s.cs := by
  simp [State.setReg8]

@[simp] theorem State.setReg8_ss (s : State) (r : Reg8) (v : Byte) : (s.setReg8 r v).ss = s.ss := by
  simp [State.setReg8]

@[simp] theorem State.setReg8_ds (s : State) (r : Reg8) (v : Byte) : (s.setReg8 r v).ds = s.ds := by
  simp [State.setReg8]

@[simp] theorem State.setReg8_ip (s : State) (r : Reg8) (v : Byte) : (s.setReg8 r v).ip = s.ip := by
  simp [State.setReg8]

@[simp] theorem State.setReg8_flags (s : State) (r : Reg8) (v : Byte) : (s.setReg8 r v).flags = s.flags := by
  simp [State.setReg8]

@[simp] theorem State.setReg8_mem (s : State) (r : Reg8) (v : Byte) : (s.setReg8 r v).mem = s.mem := by
  simp [State.setReg8]

@[simp] theorem State.setReg8_imageOrigin (s : State) (r : Reg8) (v : Byte) : (s.setReg8 r v).imageOrigin = s.imageOrigin := by
  simp [State.setReg8]

@[simp] theorem State.setReg8_imageEnd (s : State) (r : Reg8) (v : Byte) : (s.setReg8 r v).imageEnd = s.imageEnd := by
  simp [State.setReg8]

@[simp] theorem State.setReg8_cursor (s : State) (r : Reg8) (v : Byte) : (s.setReg8 r v).cursor = s.cursor := by
  simp [State.setReg8]

@[simp] theorem State.setReg8_last (s : State) (r : Reg8) (v : Byte) : (s.setReg8 r v).last = s.last := by
  simp [State.setReg8]

@[simp] theorem State.setReg8_dtable (s : State) (r : Reg8) (v : Byte) : (s.setReg8 r v).dtable = s.dtable := by
  simp [State.setReg8]

@[simp] theorem State.setReg8_cfg (s : State) (r : Reg8) (v : Byte) : (s.setReg8 r v).cfg = s.cfg := by
  simp [State.setReg8]

@[simp] theorem State.setReg8_draws (s : State) (r : Reg8) (v : Byte) : (s.setReg8 r v).draws = s.draws := by
  simp [State.setReg8]

@[simp] theorem State.setReg8_sreg (s : State) (r : Reg8) (v : Byte) (x : SReg) : (s.setReg8 r v).sreg x = s.sreg x := by
  simp [State.setReg8]

/-! ## `setSReg` -/

@[simp] theorem State.sreg_setSReg (s : State) (r : SRegDst) (x : SReg) (v : Word) :
    (s.setSReg r v).sreg x = if x = r.sreg then v else s.sreg x := by
  cases r <;> cases x <;> rfl

@[simp] theorem State.setSReg_ax (s : State) (r : SRegDst) (v : Word) : (s.setSReg r v).ax = s.ax := by
  cases r <;> rfl

@[simp] theorem State.setSReg_cx (s : State) (r : SRegDst) (v : Word) : (s.setSReg r v).cx = s.cx := by
  cases r <;> rfl

@[simp] theorem State.setSReg_dx (s : State) (r : SRegDst) (v : Word) : (s.setSReg r v).dx = s.dx := by
  cases r <;> rfl

@[simp] theorem State.setSReg_bx (s : State) (r : SRegDst) (v : Word) : (s.setSReg r v).bx = s.bx := by
  cases r <;> rfl

@[simp] theorem State.setSReg_sp (s : State) (r : SRegDst) (v : Word) : (s.setSReg r v).sp = s.sp := by
  cases r <;> rfl

@[simp] theorem State.setSReg_bp (s : State) (r : SRegDst) (v : Word) : (s.setSReg r v).bp = s.bp := by
  cases r <;> rfl

@[simp] theorem State.setSReg_si (s : State) (r : SRegDst) (v : Word) : (s.setSReg r v).si = s.si := by
  cases r <;> rfl

@[simp] theorem State.setSReg_di (s : State) (r : SRegDst) (v : Word) : (s.setSReg r v).di = s.di := by
  cases r <;> rfl

@[simp] theorem State.setSReg_es (s : State) (r : SRegDst) (v : Word) :
    (s.setSReg r v).es = if r = .es then v else s.es := by cases r <;> rfl

@[simp] theorem State.setSReg_cs (s : State) (r : SRegDst) (v : Word) : (s.setSReg r v).cs = s.cs := by
  cases r <;> rfl

@[simp] theorem State.setSReg_ss (s : State) (r : SRegDst) (v : Word) :
    (s.setSReg r v).ss = if r = .ss then v else s.ss := by cases r <;> rfl

@[simp] theorem State.setSReg_ds (s : State) (r : SRegDst) (v : Word) :
    (s.setSReg r v).ds = if r = .ds then v else s.ds := by cases r <;> rfl

@[simp] theorem State.setSReg_ip (s : State) (r : SRegDst) (v : Word) : (s.setSReg r v).ip = s.ip := by
  cases r <;> rfl

@[simp] theorem State.setSReg_flags (s : State) (r : SRegDst) (v : Word) : (s.setSReg r v).flags = s.flags := by
  cases r <;> rfl

@[simp] theorem State.setSReg_mem (s : State) (r : SRegDst) (v : Word) : (s.setSReg r v).mem = s.mem := by
  cases r <;> rfl

@[simp] theorem State.setSReg_imageOrigin (s : State) (r : SRegDst) (v : Word) : (s.setSReg r v).imageOrigin = s.imageOrigin := by
  cases r <;> rfl

@[simp] theorem State.setSReg_imageEnd (s : State) (r : SRegDst) (v : Word) : (s.setSReg r v).imageEnd = s.imageEnd := by
  cases r <;> rfl

@[simp] theorem State.setSReg_cursor (s : State) (r : SRegDst) (v : Word) : (s.setSReg r v).cursor = s.cursor := by
  cases r <;> rfl

@[simp] theorem State.setSReg_last (s : State) (r : SRegDst) (v : Word) : (s.setSReg r v).last = s.last := by
  cases r <;> rfl

@[simp] theorem State.setSReg_dtable (s : State) (r : SRegDst) (v : Word) : (s.setSReg r v).dtable = s.dtable := by
  cases r <;> rfl

@[simp] theorem State.setSReg_cfg (s : State) (r : SRegDst) (v : Word) : (s.setSReg r v).cfg = s.cfg := by
  cases r <;> rfl

@[simp] theorem State.setSReg_draws (s : State) (r : SRegDst) (v : Word) : (s.setSReg r v).draws = s.draws := by
  cases r <;> rfl

/-! ## `setFlags` -/

@[simp] theorem State.setFlags_ax (s : State) (w : Word) : (s.setFlags w).ax = s.ax := rfl

@[simp] theorem State.setFlags_cx (s : State) (w : Word) : (s.setFlags w).cx = s.cx := rfl

@[simp] theorem State.setFlags_dx (s : State) (w : Word) : (s.setFlags w).dx = s.dx := rfl

@[simp] theorem State.setFlags_bx (s : State) (w : Word) : (s.setFlags w).bx = s.bx := rfl

@[simp] theorem State.setFlags_sp (s : State) (w : Word) : (s.setFlags w).sp = s.sp := rfl

@[simp] theorem State.setFlags_bp (s : State) (w : Word) : (s.setFlags w).bp = s.bp := rfl

@[simp] theorem State.setFlags_si (s : State) (w : Word) : (s.setFlags w).si = s.si := rfl

@[simp] theorem State.setFlags_di (s : State) (w : Word) : (s.setFlags w).di = s.di := rfl

@[simp] theorem State.setFlags_es (s : State) (w : Word) : (s.setFlags w).es = s.es := rfl

@[simp] theorem State.setFlags_cs (s : State) (w : Word) : (s.setFlags w).cs = s.cs := rfl

@[simp] theorem State.setFlags_ss (s : State) (w : Word) : (s.setFlags w).ss = s.ss := rfl

@[simp] theorem State.setFlags_ds (s : State) (w : Word) : (s.setFlags w).ds = s.ds := rfl

@[simp] theorem State.setFlags_ip (s : State) (w : Word) : (s.setFlags w).ip = s.ip := rfl

@[simp] theorem State.setFlags_flags (s : State) (w : Word) : (s.setFlags w).flags = w := rfl

@[simp] theorem State.setFlags_mem (s : State) (w : Word) : (s.setFlags w).mem = s.mem := rfl

@[simp] theorem State.setFlags_imageOrigin (s : State) (w : Word) : (s.setFlags w).imageOrigin = s.imageOrigin := rfl

@[simp] theorem State.setFlags_imageEnd (s : State) (w : Word) : (s.setFlags w).imageEnd = s.imageEnd := rfl

@[simp] theorem State.setFlags_cursor (s : State) (w : Word) : (s.setFlags w).cursor = s.cursor := rfl

@[simp] theorem State.setFlags_last (s : State) (w : Word) : (s.setFlags w).last = s.last := rfl

@[simp] theorem State.setFlags_dtable (s : State) (w : Word) : (s.setFlags w).dtable = s.dtable := rfl

@[simp] theorem State.setFlags_cfg (s : State) (w : Word) : (s.setFlags w).cfg = s.cfg := rfl

@[simp] theorem State.setFlags_draws (s : State) (w : Word) : (s.setFlags w).draws = s.draws := rfl

/-! ## `setIp` -/

@[simp] theorem State.setIp_ax (s : State) (v : Word) : (s.setIp v).ax = s.ax := rfl

@[simp] theorem State.setIp_cx (s : State) (v : Word) : (s.setIp v).cx = s.cx := rfl

@[simp] theorem State.setIp_dx (s : State) (v : Word) : (s.setIp v).dx = s.dx := rfl

@[simp] theorem State.setIp_bx (s : State) (v : Word) : (s.setIp v).bx = s.bx := rfl

@[simp] theorem State.setIp_sp (s : State) (v : Word) : (s.setIp v).sp = s.sp := rfl

@[simp] theorem State.setIp_bp (s : State) (v : Word) : (s.setIp v).bp = s.bp := rfl

@[simp] theorem State.setIp_si (s : State) (v : Word) : (s.setIp v).si = s.si := rfl

@[simp] theorem State.setIp_di (s : State) (v : Word) : (s.setIp v).di = s.di := rfl

@[simp] theorem State.setIp_es (s : State) (v : Word) : (s.setIp v).es = s.es := rfl

@[simp] theorem State.setIp_cs (s : State) (v : Word) : (s.setIp v).cs = s.cs := rfl

@[simp] theorem State.setIp_ss (s : State) (v : Word) : (s.setIp v).ss = s.ss := rfl

@[simp] theorem State.setIp_ds (s : State) (v : Word) : (s.setIp v).ds = s.ds := rfl

@[simp] theorem State.setIp_ip (s : State) (v : Word) : (s.setIp v).ip = v := rfl

@[simp] theorem State.setIp_flags (s : State) (v : Word) : (s.setIp v).flags = s.flags := rfl

@[simp] theorem State.setIp_mem (s : State) (v : Word) : (s.setIp v).mem = s.mem := rfl

@[simp] theorem State.setIp_imageOrigin (s : State) (v : Word) : (s.setIp v).imageOrigin = s.imageOrigin := rfl

@[simp] theorem State.setIp_imageEnd (s : State) (v : Word) : (s.setIp v).imageEnd = s.imageEnd := rfl

@[simp] theorem State.setIp_cursor (s : State) (v : Word) : (s.setIp v).cursor = s.cursor := rfl

@[simp] theorem State.setIp_last (s : State) (v : Word) : (s.setIp v).last = s.last := rfl

@[simp] theorem State.setIp_dtable (s : State) (v : Word) : (s.setIp v).dtable = s.dtable := rfl

@[simp] theorem State.setIp_cfg (s : State) (v : Word) : (s.setIp v).cfg = s.cfg := rfl

@[simp] theorem State.setIp_draws (s : State) (v : Word) : (s.setIp v).draws = s.draws := rfl

/-! ## Views through an update -/

@[simp] theorem State.setSReg_reg16 (s : State) (x : SRegDst) (v : Word) (r : Reg16) : (s.setSReg x v).reg16 r = s.reg16 r := by
  cases r <;> simp [State.reg16]

@[simp] theorem State.setSReg_reg8 (s : State) (x : SRegDst) (v : Word) (r : Reg8) : (s.setSReg x v).reg8 r = s.reg8 r := by
  simp [State.reg8]

@[simp] theorem State.setFlags_reg16 (s : State) (v : Word) (r : Reg16) : (s.setFlags v).reg16 r = s.reg16 r := by
  cases r <;> simp [State.reg16]

@[simp] theorem State.setFlags_reg8 (s : State) (v : Word) (r : Reg8) : (s.setFlags v).reg8 r = s.reg8 r := by
  simp [State.reg8]

@[simp] theorem State.setFlags_sreg (s : State) (v : Word) (r : SReg) : (s.setFlags v).sreg r = s.sreg r := by
  cases r <;> rfl

@[simp] theorem State.setIp_reg16 (s : State) (v : Word) (r : Reg16) : (s.setIp v).reg16 r = s.reg16 r := by
  cases r <;> simp [State.reg16]

@[simp] theorem State.setIp_reg8 (s : State) (v : Word) (r : Reg8) : (s.setIp v).reg8 r = s.reg8 r := by
  simp [State.reg8]

@[simp] theorem State.setIp_sreg (s : State) (v : Word) (r : SReg) : (s.setIp v).sreg r = s.sreg r := by
  cases r <;> rfl

@[simp] theorem State.mem_reg16 (s : State) (m : Memory) (r : Reg16) : ({ s with mem := m } : State).reg16 r = s.reg16 r := by
  cases r <;> rfl

@[simp] theorem State.mem_reg8 (s : State) (m : Memory) (r : Reg8) : ({ s with mem := m } : State).reg8 r = s.reg8 r := by
  cases r <;> rfl

@[simp] theorem State.mem_sreg (s : State) (m : Memory) (r : SReg) : ({ s with mem := m } : State).sreg r = s.sreg r := by
  cases r <;> rfl

/-! ## Bytes of a word and the byte aliases -/

/-- R23, R24: an alias written reads back; every other alias keeps its byte. -/
@[simp] theorem State.reg8_setReg8 (s : State) (r r' : Reg8) (v : Byte) :
    (s.setReg8 r v).reg8 r' = if r' = r then v else s.reg8 r' := by
  cases r <;> cases r' <;> simp [State.setReg8, State.reg8, parent, isHigh]

/-- R23: an alias write changes its parent alone. -/
@[simp] theorem State.reg16_setReg8 (s : State) (r : Reg8) (v : Byte) (r' : Reg16) (h : r' ≠ parent r) :
    (s.setReg8 r v).reg16 r' = s.reg16 r' := by
  simp [State.setReg8, h]

/-- R23: a 16-bit write overwrites both of its aliases. -/
@[simp] theorem State.reg8_setReg16 (s : State) (r : Reg16) (b : Reg8) (v : Word) :
    (s.setReg16 r v).reg8 b = if parent b = r then (if isHigh b then hiByte v else loByte v) else s.reg8 b := by
  by_cases h : parent b = r <;> simp [State.reg8, h]

/-! ## Advance and the decoder's registers -/

@[simp] theorem State.advance_eq (s : State) (n : Nat) : s.advance n = s.setIp (s.nextIp n) := rfl

@[simp] theorem finish_ok (c : Ctx) (s : State) : finish c (.ok s) = .next (s.setIp (s.nextIp c.size)) := rfl

@[simp] theorem finish_error (c : Ctx) (f : Fault) : finish c (.error f) = .fault f := rfl

@[simp] theorem redirect_ok (s : State) : redirect (.ok s) = .next s := rfl

@[simp] theorem redirect_error (f : Fault) : redirect (.error f) = .fault f := rfl

/-- R143: a normal return answers the next state with IP advanced, or the fault its body raised. -/
theorem finish_cases {c : Ctx} {x : Exec State} {t : State} (h : finish c x = .next t) :
    ∃ u, x = .ok u ∧ t = u.setIp (u.nextIp c.size) := by
  cases x with
  | ok u => exact ⟨u, rfl, by simpa using h.symm⟩
  | error f => simp at h

theorem redirect_cases {x : Exec State} {t : State} (h : redirect x = .next t) : x = .ok t := by
  cases x with
  | ok u => simpa using h
  | error f => simp at h

end Sys2Proof.Machine
end

