-- ==== Sys2Proof/Laws/Memory.lean ====
section
/-! SUPPORT. The memory: a read after a write, and the canonical form every memory operation keeps. -/

namespace Sys2Proof.Machine

open Sys2Proof

@[simp] theorem Memory.read_nil (a : Nat) : Memory.read [] a = 0 := rfl

theorem Memory.read_erase (m : Memory) (a b : Nat) : (m.erase a).read b = if b = a then 0 else m.read b := by
  induction m with
  | nil => simp [Memory.erase, Memory.read]
  | cons c t ih =>
    obtain ⟨k, x⟩ := c
    simp only [Memory.erase, List.filter_cons] at *
    by_cases hk : k = a
    · subst hk
      simp only [bne_self_eq_false, Bool.false_eq_true, if_false, ih, Memory.read]
      split <;> simp_all
    · simp only [bne_iff_ne, ne_eq, hk, not_false_eq_true, if_true, Memory.read, ih]
      split
      · subst_vars; simp [hk]
      · rfl

theorem Memory.read_insert (m : Memory) (a b : Nat) (v : Byte) :
    (m.insert a v).read b = if b = a then v else m.read b := by
  induction m with
  | nil => simp [Memory.insert, Memory.read]
  | cons c t ih =>
    obtain ⟨k, x⟩ := c
    simp only [Memory.insert]
    split
    · simp [Memory.read]
    · split
      · subst_vars; simp only [Memory.read]; split <;> rfl
      · rename_i h1 h2
        simp only [Memory.read, ih]
        by_cases hb : b = k
        · subst hb; simp [Ne.symm h2]
        · simp [hb]

/-- R55, R56: a byte written reads back, and every other address reads as before. -/
@[simp] theorem Memory.read_write (m : Memory) (a b : Nat) (v : Byte) :
    (m.write a v).read b = if b = a then v else m.read b := by
  simp only [Memory.write]
  split
  · subst_vars; exact m.read_erase a b
  · exact m.read_insert a b v

theorem Memory.mem_insert {m : Memory} {a : Nat} {v : Byte} {c : Host.Cell} (h : c ∈ m.insert a v) :
    c = (a, v) ∨ c ∈ m := by
  induction m with
  | nil => simpa [Memory.insert] using h
  | cons d t ih =>
    obtain ⟨k, x⟩ := d
    simp only [Memory.insert] at h
    split at h
    · simpa using h
    · split at h
      · rcases List.mem_cons.1 h with h | h
        · exact .inl h
        · exact .inr (.tail _ h)
      · rcases List.mem_cons.1 h with h | h
        · exact .inr (h ▸ .head _)
        · exact (ih h).imp_right (.tail _)

theorem Memory.erase_wf {m : Memory} (h : m.wf) (a : Nat) : (m.erase a).wf :=
  ⟨h.1.filter _, fun c hc => h.2 c (List.mem_of_mem_filter hc)⟩

theorem Memory.insert_wf {m : Memory} (h : m.wf) (a : Nat) {v : Byte} (hv : v ≠ 0) : (m.insert a v).wf := by
  refine ⟨?_, fun c hc => (Memory.mem_insert hc).elim (fun e => e ▸ hv) (h.2 c)⟩
  obtain ⟨h, -⟩ := h
  induction m with
  | nil => simp [Memory.insert]
  | cons d t ih =>
    obtain ⟨k, x⟩ := d
    obtain ⟨hk, ht⟩ := List.pairwise_cons.1 h
    simp only [Memory.insert]
    split
    · rename_i lt
      refine List.pairwise_cons.2 ⟨fun c hc => ?_, h⟩
      rcases List.mem_cons.1 hc with rfl | hc
      · exact lt
      · exact Nat.lt_trans lt (hk c hc)
    · split
      · subst_vars; exact List.pairwise_cons.2 ⟨hk, ht⟩
      · refine List.pairwise_cons.2 ⟨fun c hc => ?_, ih ht⟩
        rcases Memory.mem_insert hc with rfl | hc
        · simp only; omega
        · exact hk c hc

/-- A write keeps the canonical form. -/
theorem Memory.write_wf {m : Memory} (h : m.wf) (a : Nat) (v : Byte) : (m.write a v).wf := by
  simp only [Memory.write]
  split
  · exact m.erase_wf h a
  · exact Memory.insert_wf h a ‹_›

/-- A write within the address space lists no address outside it. -/
theorem Memory.write_bounded {m : Memory} (h : m.bounded) {a : Nat} (ha : a < Config.memSize) (v : Byte) :
    (m.write a v).bounded := by
  intro c hc
  simp only [Memory.write] at hc
  split at hc
  · exact h c (List.mem_of_mem_filter hc)
  · exact (Memory.mem_insert hc).elim (fun e => e ▸ ha) (h c)

theorem Memory.writeBytes_wf {m : Memory} (h : m.wf) (a : Nat) (l : List Byte) : (m.writeBytes a l).wf := by
  induction l generalizing m a with
  | nil => exact h
  | cons b t ih => exact ih (Memory.write_wf h a b) (a + 1)

theorem Memory.writeBytes_bounded {m : Memory} (h : m.bounded) {a : Nat} {l : List Byte}
    (ha : a + l.length ≤ Config.memSize) : (m.writeBytes a l).bounded := by
  induction l generalizing m a with
  | nil => exact h
  | cons b t ih =>
    simp only [List.length_cons] at ha
    exact ih (Memory.write_bounded h (by omega) b) (by omega)

/-- R390: bytes written one after another read back; every other address reads as before. -/
theorem Memory.read_writeBytes (m : Memory) (a : Nat) (l : List Byte) (x : Nat) :
    (m.writeBytes a l).read x = if h : a ≤ x ∧ x - a < l.length then l[x - a]'h.2 else m.read x := by
  induction l generalizing m a with
  | nil => simp [Memory.writeBytes]
  | cons b t ih =>
    simp only [Memory.writeBytes, ih, Memory.read_write, List.length_cons]
    by_cases hx : x = a
    · subst hx; simp
    · by_cases h1 : a + 1 ≤ x ∧ x - (a + 1) < t.length
      · rw [dif_pos h1, dif_pos (by omega)]
        have : x - a = (x - (a + 1)) + 1 := by omega
        simp [this]
      · rw [dif_neg h1, dif_neg (by omega), if_neg hx]

theorem State.reset_mem_wf : State.reset.mem.wf := by decide

theorem State.reset_mem_bounded : State.reset.mem.bounded := by decide

/-! ## Physical addresses and the accesses -/

/-- R52: every physical address is one of the 2^20. -/
theorem phys_lt (seg off : Word) : phys seg off < Config.memSize := Nat.mod_lt _ (by decide)

/-- R54: so is every effective address. -/
theorem eaAddr_lt (g : Option SReg) (m : Ea) (s : State) : eaAddr g m s < Config.memSize := by
  simp only [eaAddr]
  split
  · exact phys_lt _ _
  · have h : (0 : Int) < Config.memSize := by decide
    have := Int.emod_lt_of_pos ((((s.sreg (g.getD (implicitSeg s.cfg (eaKind m)))).toNat * 16 +
      baseSum s (eaKind m) : Nat) : Int) + eaDispExact m) h
    have := Int.emod_nonneg ((((s.sreg (g.getD (implicitSeg s.cfg (eaKind m)))).toNat * 16 +
      baseSum s (eaKind m) : Nat) : Int) + eaDispExact m) (Int.ne_of_gt h)
    omega

/-- R55: a byte within memory is read. -/
theorem State.load8_eq (s : State) {a : Nat} (h : a < Config.memSize) : s.load8 a = .ok (s.mem.read a) := by
  simp [State.load8, Nat.succ_le_of_lt h]

/-- R55: a word within memory is read, low byte first. -/
theorem State.load16_eq (s : State) {a : Nat} (h : a + 1 < Config.memSize) :
    s.load16 a = .ok (wordOf (s.mem.read a) (s.mem.read (a + 1))) := by
  simp only [State.load16]; rw [if_pos (by omega)]

/-- R56. -/
theorem State.store8_eq (s : State) {a : Nat} (h : a < Config.memSize) (v : Byte) :
    s.store8 a v = .ok { s with mem := s.mem.write a v } := by
  simp [State.store8, Nat.succ_le_of_lt h]

/-- R56. -/
theorem State.store16_eq (s : State) {a : Nat} (h : a + 1 < Config.memSize) (v : Word) :
    s.store16 a v = .ok { s with mem := (s.mem.write a (loByte v)).write (a + 1) (hiByte v) } := by
  simp only [State.store16]; rw [if_pos (by omega)]

/-- R57: the word at the last byte of memory is out of bounds. -/
theorem State.load16_top (s : State) {a : Nat} (h : Config.memSize ≤ a + 1) :
    s.load16 a = .error (.memoryOutOfBounds a 2) := by
  simp only [State.load16]; rw [if_neg (by omega)]

/-- R57. -/
theorem State.store16_top (s : State) {a : Nat} (h : Config.memSize ≤ a + 1) (v : Word) :
    s.store16 a v = .error (.memoryOutOfBounds a 2) := by
  simp only [State.store16]; rw [if_neg (by omega)]

/-- What a completed store can do: it writes memory alone, keeps its canonical form and stays within it. -/
theorem State.store8_cases {s t : State} {a : Nat} {v : Byte} (h : s.store8 a v = .ok t) :
    a < Config.memSize ∧ t = { s with mem := s.mem.write a v } := by
  simp only [State.store8] at h
  split at h
  · exact ⟨by omega, by simpa using h.symm⟩
  · simp at h

/-- What a completed word store can do. -/
theorem State.store16_cases {s t : State} {a : Nat} {v : Word} (h : s.store16 a v = .ok t) :
    a + 1 < Config.memSize ∧ t = { s with mem := (s.mem.write a (loByte v)).write (a + 1) (hiByte v) } := by
  simp only [State.store16] at h
  split at h
  · exact ⟨by omega, by simpa using h.symm⟩
  · simp at h

end Sys2Proof.Machine
end

