-- ==== Sys2Proof/Laws/Operands.lean ====
section
/-! SUPPORT. Operand access said once: what a place reads, what a write to it leaves, and when it is out of bounds. The
frame of an instruction is built from the frames here. -/

namespace Sys2Proof.Machine

open Sys2Proof

/-- Every byte of the place is in memory. R50. -/
def Place.InMemory : {n : Nat} → Place n → Prop
  | _, .mem8 a => a < Config.memSize
  | _, .mem16 a => a + 1 < Config.memSize
  | _, .reg8 _ | _, .reg16 _ | _, .sreg _ => True

/-- Every byte of the operand is in memory. R50. -/
def Opnd.InMemory {n : Nat} : Opnd n → Prop
  | .place p => p.InMemory
  | .imm _ => True

/-- The state a completed write leaves. R151. -/
def Place.put : {n : Nat} → Place n → BitVec n → State → State
  | _, .reg8 r, v, s => s.setReg8 r v
  | _, .reg16 r, v, s => s.setReg16 r v
  | _, .sreg r, v, s => s.setSReg r v
  | _, .mem8 a, v, s => { s with mem := s.mem.write a v }
  | _, .mem16 a, v, s => { s with mem := (s.mem.write a (loByte v)).write (a + 1) (hiByte v) }

theorem ofNat_word (lo hi : Byte) : BitVec.ofNat 16 (hi.toNat * 256 + lo.toNat) = wordOf lo hi := by
  rw [← wordOf_toNat, BitVec.ofNat_toNat, BitVec.setWidth_eq]

/-- R150. -/
theorem Place.read_eq {n : Nat} {p : Place n} (h : p.InMemory) (s : State) : p.read s = .ok (p.value s) := by
  cases p with
  | mem8 a => exact s.load8_eq h
  | mem16 a => simpa [Place.read, Place.value, ofNat_word] using s.load16_eq h
  | _ => rfl

/-- R150. -/
theorem Opnd.read_eq {n : Nat} {x : Opnd n} (h : x.InMemory) (s : State) : x.read s = .ok (x.value s) := by
  cases x with
  | place p => exact p.read_eq h s
  | imm v => rfl

/-- R151. -/
theorem Place.write_eq {n : Nat} {p : Place n} (h : p.InMemory) (v : BitVec n) (s : State) :
    p.write v s = .ok (p.put v s) := by
  cases p with
  | mem8 a => exact s.store8_eq h v
  | mem16 a => exact s.store16_eq h v
  | _ => rfl

/-- What a completed write can do. -/
theorem Place.write_cases {n : Nat} {p : Place n} {v : BitVec n} {s t : State} (h : p.write v s = .ok t) :
    p.InMemory ∧ t = p.put v s := by
  cases p with
  | mem8 a => exact State.store8_cases h
  | mem16 a => exact State.store16_cases h
  | _ => exact ⟨trivial, by simpa [Place.write, Place.put] using h.symm⟩

/-! ## r/m operands -/

theorem rm8_eq (c : Ctx) (s : State) (x : Rm Reg8) : rm8 c s x = rmByte c.segovr s x := by cases x <;> rfl

theorem rm16_eq (c : Ctx) (s : State) (x : Rm Reg16) : rm16 c s x = rmWord c.segovr s x := by cases x <;> rfl

/-- A byte r/m operand is never out of bounds. R57. -/
theorem rmByte_inMemory (g : Option SReg) (s : State) (x : Rm Reg8) : (rmByte g s x).InMemory := by
  cases x with
  | reg r => trivial
  | mem m => exact eaAddr_lt g m s

/-- A word r/m operand is out of bounds only at 0xFFFFF. R57. -/
theorem rmWord_inMemory {g : Option SReg} {s : State} {x : Rm Reg16} (h : (rmWord g s x).inBounds) :
    (rmWord g s x).InMemory := by
  cases x with
  | reg r => trivial
  | mem m =>
    have := eaAddr_lt g m s
    simp only [rmWord, Place.inBounds, Place.InMemory, Config.memSize] at *
    omega

theorem eq_top_of_not_inBounds {g : Option SReg} {s : State} {x : Rm Reg16} (h : ¬ (rmWord g s x).inBounds) :
    rmWord g s x = .mem16 0xFFFFF := by
  cases x with
  | reg r => exact absurd trivial h
  | mem m => simp only [rmWord, Place.inBounds, not_not] at h; simp [rmWord, h]

/-- R57: reading a word at the last byte of memory. -/
@[simp] theorem Place.read_top (s : State) : (Place.mem16 0xFFFFF).read s = .error (.memoryOutOfBounds 0xFFFFF 2) :=
  s.load16_top (by decide)

/-- R57: writing a word at the last byte of memory. -/
@[simp] theorem Place.write_top (s : State) (v : Word) :
    (Place.mem16 0xFFFFF).write v s = .error (.memoryOutOfBounds 0xFFFFF 2) :=
  s.store16_top (by decide) v

/-! ## What a write leaves -/

@[simp] theorem Place.put_ip {n : Nat} (p : Place n) (v : BitVec n) (s : State) : (p.put v s).ip = s.ip := by
  cases p <;> simp [Place.put]

@[simp] theorem Place.put_flags {n : Nat} (p : Place n) (v : BitVec n) (s : State) : (p.put v s).flags = s.flags := by
  cases p <;> simp [Place.put]

@[simp] theorem Place.put_cfg {n : Nat} (p : Place n) (v : BitVec n) (s : State) : (p.put v s).cfg = s.cfg := by
  cases p <;> simp [Place.put]

@[simp] theorem Place.put_cs {n : Nat} (p : Place n) (v : BitVec n) (s : State) : (p.put v s).cs = s.cs := by
  cases p <;> simp [Place.put]

@[simp] theorem Place.value_setFlags {n : Nat} (p : Place n) (s : State) (w : Word) :
    p.value (s.setFlags w) = p.value s := by
  cases p <;> simp [Place.value]

@[simp] theorem Opnd.value_setFlags {n : Nat} (x : Opnd n) (s : State) (w : Word) :
    x.value (s.setFlags w) = x.value s := by
  cases x <;> simp [Opnd.value]

/-- R23, R56, R151: the written place holds the value; the other aliases keep theirs. -/
theorem Place.put_stored {n : Nat} (p : Place n) (v : BitVec n) (s : State) : p.Stored v s (p.put v s) := by
  cases p with
  | reg8 r => exact ⟨by simp [Place.put], fun r' h => by simp [Place.put, h]⟩
  | mem16 a => simp [Place.Stored, Place.put, loByte_toNat, hiByte_toNat]
  | _ => simp [Place.Stored, Place.put]

/-- What a write leaves unchanged. -/
theorem Place.put_frame {n : Nat} (p : Place n) (v : BitVec n) (s : State) :
    Frame p.gp p.seg [] p.bytes 0 s (p.put v s) := by
  cases p <;> constructor <;> simp +contextual [Place.put, Place.gp, Place.seg, Place.bytes]

/-! ## Frames composed -/

theorem Frame.refl (s : State) : Frame [] [] [] [] 0 s s := by constructor <;> simp

theorem Frame.setIp {gp seg bits bytes d} {s t : State} (h : Frame gp seg bits bytes d s t) (v : Word) :
    Frame gp seg bits bytes d s (t.setIp v) := by
  obtain ⟨h1, h2, h3, h4, h5, h6, h7, h8⟩ := h
  constructor <;> simpa

/-- An instruction that writes flags before the rest: the bits it writes join the frame. -/
theorem Frame.ofFlags {gp seg bits bytes d} {s t : State} {w : Word}
    (hw : ∀ k, k ∉ bits → w.getLsbD k = s.flags.getLsbD k) (h : Frame gp seg [] bytes d (s.setFlags w) t) :
    Frame gp seg bits bytes d s t := by
  obtain ⟨h1, h2, h3, h4, h5, h6, h7, h8⟩ := h
  constructor
  · simpa using h1
  · simpa using h2
  · intro k hk; rw [h3 k (by simp)]; exact hw k hk
  all_goals simpa

/-- A frame with fewer exceptions is a frame with more. -/
theorem Frame.mono {gp gp' seg seg' bits bits' bytes bytes' d} {s t : State} (h : Frame gp seg bits bytes d s t)
    (hg : gp ⊆ gp') (hs : seg ⊆ seg') (hb : bits ⊆ bits') (hm : bytes ⊆ bytes') : Frame gp' seg' bits' bytes' d s t :=
  ⟨fun r x => h.gp r fun y => x (hg y), fun r x => h.seg r fun y => x (hs y),
    fun k x => h.flags k fun y => x (hb y), fun a x => h.mem a fun y => x (hm y), h.bounds, h.engine, h.cfg, h.draws⟩

theorem Frame.trans {gp gp' seg seg' bits bits' bytes bytes' d d'} {s t u : State}
    (h : Frame gp seg bits bytes d s t) (h' : Frame gp' seg' bits' bytes' d' t u) :
    Frame (gp ++ gp') (seg ++ seg') (bits ++ bits') (bytes ++ bytes') (d + d') s u := by
  refine ⟨fun r x => ?_, fun r x => ?_, fun k x => ?_, fun a x => ?_, ?_, ?_, ?_, ?_⟩
  · simp only [List.mem_append, not_or] at x; rw [h'.gp r x.2, h.gp r x.1]
  · simp only [List.mem_append, not_or] at x; rw [h'.seg r x.2, h.seg r x.1]
  · simp only [List.mem_append, not_or] at x; rw [h'.flags k x.2, h.flags k x.1]
  · simp only [List.mem_append, not_or] at x; rw [h'.mem a x.2, h.mem a x.1]
  · exact ⟨h'.bounds.1.trans h.bounds.1, h'.bounds.2.trans h.bounds.2⟩
  · exact ⟨h'.engine.1.trans h.engine.1, h'.engine.2.1.trans h.engine.2.1, h'.engine.2.2.trans h.engine.2.2⟩
  · exact h'.cfg.trans h.cfg
  · rw [h'.draws, h.draws, Nat.add_assoc]

end Sys2Proof.Machine
end

