-- ==== Sys2Proof/Laws/Flags.lean ====
section
/-! SUPPORT. The flag computation unit: reading a written flag, the bits each routine leaves alone, and the bit tests of
R161 against the "exactly when" wording of R162 to R164. -/

namespace Sys2Proof.Machine

open Sys2Proof

/-! ## One flag written -/

theorem getLsbD_one_shl (n k : Nat) (hn : n < 16) : (1#16 <<< n).getLsbD k = decide (k = n) := by
  rcases Nat.lt_or_ge k 16 with hk | hk
  · simp only [BitVec.getLsbD_shiftLeft, BitVec.getLsbD_one]
    by_cases h : k = n
    · subst h; simp [hk]
    · simp only [h, decide_false, hk, decide_true, Bool.true_and]
      by_cases h2 : k < n
      · simp [h2]
      · have : k - n ≠ 0 := by omega
        simp [this]
  · rw [BitVec.getLsbD_of_ge _ _ hk]
    have : k ≠ n := by omega
    simp [this]

theorem Flag.bit_lt (f : Flag) : f.bit < 16 := by cases f <;> decide

theorem Flag.bit_inj {f f' : Flag} (h : f.bit = f'.bit) : f = f' := by
  cases f <;> cases f' <;> first | rfl | exact absurd h (by decide)

/-- R167: writing a flag leaves every other bit of FLAGS. -/
theorem getLsbD_setFlag (f : Flag) (b : Bool) (w : Word) (k : Nat) :
    (setFlag f b w).getLsbD k = if k = f.bit then b else w.getLsbD k := by
  have hf := f.bit_lt
  cases b
  · simp only [setFlag, Bool.false_eq_true, if_false, BitVec.getLsbD_and, BitVec.getLsbD_not, getLsbD_one_shl _ _ hf]
    by_cases h : k = f.bit
    · simp [h]
    · simp only [h, decide_false, Bool.not_false, Bool.and_true, if_false]
      by_cases hk : k < 16
      · simp [hk]
      · rw [BitVec.getLsbD_of_ge _ _ (by omega)]; rfl
  · simp only [setFlag, if_true, BitVec.getLsbD_or, getLsbD_one_shl _ _ hf]
    by_cases h : k = f.bit <;> simp [h]

@[simp] theorem getFlag_setFlag (f f' : Flag) (b : Bool) (w : Word) :
    getFlag f (setFlag f' b w) = if f = f' then b else getFlag f w := by
  simp only [getFlag, getLsbD_setFlag]
  by_cases h : f = f'
  · simp [h]
  · have : f.bit ≠ f'.bit := fun e => h (Flag.bit_inj e)
    simp [h, this]

/-! ## The bits a routine leaves alone (R167) -/

theorem commonFlags_other {n : Nat} (p : ParityScope) (res : BitVec n) (w : Word) {k : Nat}
    (h : k ∉ [2, 6, 7]) : (commonFlags p res w).getLsbD k = w.getLsbD k := by
  simp only [List.mem_cons, List.not_mem_nil, or_false, not_or] at h
  simp [commonFlags, getLsbD_setFlag, Flag.bit, h]

theorem arithFlags_other {n : Nat} (p : ParityScope) (op : ArithOp) (a b : BitVec n) (w : Word) {k : Nat}
    (h : k ∉ statusBits) : (arithFlags p op a b w).getLsbD k = w.getLsbD k := by
  simp only [statusBits, List.mem_cons, List.not_mem_nil, or_false, not_or] at h
  simp [arithFlags, commonFlags, getLsbD_setFlag, Flag.bit, h]

theorem logicFlags_other {n : Nat} (p : ParityScope) (res : BitVec n) (w : Word) {k : Nat}
    (h : k ∉ statusBits) : (logicFlags p res w).getLsbD k = w.getLsbD k := by
  simp only [statusBits, List.mem_cons, List.not_mem_nil, or_false, not_or] at h
  simp [logicFlags, commonFlags, getLsbD_setFlag, Flag.bit, h]

theorem incDecFlags_other {n : Nat} (cfg : Config) (op : ArithOp) (a : BitVec n) (w : Word) {k : Nat}
    (h : k ∉ statusBits) : (incDecFlags cfg op a w).getLsbD k = w.getLsbD k := by
  simp only [incDecFlags]
  split
  · exact arithFlags_other _ _ _ _ _ h
  · rw [getLsbD_setFlag, if_neg, arithFlags_other _ _ _ _ _ h]
    simp only [statusBits, List.mem_cons, List.not_mem_nil, or_false, not_or] at h
    exact h.1

theorem drawFlags_other (fs : List Flag) (j : Nat) (w : Word) {k : Nat} (h : ∀ f ∈ fs, k ≠ f.bit) :
    (drawFlags fs j w).getLsbD k = w.getLsbD k := by
  induction fs generalizing j w with
  | nil => rfl
  | cons f fs ih =>
    rw [drawFlags, ih _ _ fun x hx => h x (.tail _ hx), getLsbD_setFlag, if_neg (h f (.head _))]

theorem mulFlags_other (b : Bool) (j : Nat) (w : Word) {k : Nat} (h : k ∉ statusBits) :
    (mulFlags b j w).getLsbD k = w.getLsbD k := by
  simp only [statusBits, List.mem_cons, List.not_mem_nil, or_false, not_or] at h
  simp [mulFlags, mulDrawn, drawFlags, getLsbD_setFlag, Flag.bit, h]

theorem divFlags_other (j : Nat) (w : Word) {k : Nat} (h : k ∉ statusBits) :
    (divFlags j w).getLsbD k = w.getLsbD k := by
  simp only [statusBits, List.mem_cons, List.not_mem_nil, or_false, not_or] at h
  simp [divFlags, divDrawn, drawFlags, getLsbD_setFlag, Flag.bit, h]

/-- R208: the two flags MUL defines. -/
@[simp] theorem getFlag_mulFlags_cf (b : Bool) (j : Nat) (w : Word) : getFlag .cf (mulFlags b j w) = b := by
  simp [mulFlags, mulDrawn, drawFlags]

@[simp] theorem getFlag_mulFlags_of (b : Bool) (j : Nat) (w : Word) : getFlag .of (mulFlags b j w) = b := by
  simp [mulFlags, mulDrawn, drawFlags]

/-! ## Results -/

/-- R161: the full-width masked result of add is the sum mod 2^w. -/
@[simp] theorem ArithOp.result_add {n : Nat} (a b : BitVec n) : ArithOp.add.result a b = a + b := by
  apply BitVec.eq_of_toNat_eq
  rw [ArithOp.result, ArithOp.exact, ← Int.natCast_add, BitVec.ofInt_natCast, BitVec.toNat_ofNat, BitVec.toNat_add]

/-- R161: of sub, the difference mod 2^w. -/
@[simp] theorem ArithOp.result_sub {n : Nat} (a b : BitVec n) : ArithOp.sub.result a b = a - b := by
  apply BitVec.eq_of_toInt_eq
  rw [ArithOp.result, ArithOp.exact, BitVec.toInt_ofInt, BitVec.toInt_sub, BitVec.toInt_eq_toNat_bmod,
    BitVec.toInt_eq_toNat_bmod, Int.sub_bmod_bmod, Int.bmod_sub_bmod]

/-- R160. -/
theorem evenOnes_eq {n : Nat} (k : Nat) (v : BitVec n) : evenOnes k v = decide (onesBelow k v.toNat % 2 = 0) := by
  simp only [evenOnes, onesBelow, List.countP_eq_length_filter, BitVec.getLsbD, Nat.testBit_eq_decide_div_mod_eq]
  exact beq_eq_decide _ _

theorem sign_eq {n : Nat} (v : BitVec n) : v.getLsbD (n - 1) = decide (2 ^ (n - 1) ≤ v.toNat) := by
  rw [← BitVec.msb_eq_getLsbD_last, BitVec.msb_eq_decide]

theorem beq_zero_eq {n : Nat} (v : BitVec n) : (v == 0) = decide (v.toNat = 0) := by
  by_cases h : v = 0
  · simp [h]
  · have : v.toNat ≠ 0 := fun e => h (BitVec.eq_of_toNat_eq (by simpa using e))
    rw [decide_eq_false this]; exact beq_eq_false_iff_ne.2 h

theorem commonFlags_result {n : Nat} (p : ParityScope) (res : BitVec n) (w : Word) :
    ResultFlags p res (commonFlags p res w) := by
  constructor <;> simp only [commonFlags, getFlag_setFlag, evenOnes_eq, sign_eq, beq_zero_eq] <;> simp

theorem ResultFlags.setFlag {n : Nat} {p : ParityScope} {res : BitVec n} {w : Word} (h : ResultFlags p res w)
    {f : Flag} (hf : f ∉ [Flag.zf, .sf, .pf]) (b : Bool) : ResultFlags p res (setFlag f b w) := by
  simp only [List.mem_cons, List.not_mem_nil, or_false, not_or] at hf
  obtain ⟨h1, h2, h3⟩ := hf
  obtain ⟨a1, a2, a3⟩ := h
  constructor <;> simp [Ne.symm h1, Ne.symm h2, Ne.symm h3, a1, a2, a3]

theorem logicFlags_spec {n : Nat} (p : ParityScope) (res : BitVec n) (w : Word) :
    LogicFlags p res (logicFlags p res w) := by
  refine ⟨commonFlags_result _ _ _, ?_, ?_, ?_⟩ <;> simp [logicFlags, commonFlags]

/-! ## Carry, auxiliary carry, overflow -/

/-- R162. -/
theorem ArithOp.carry_add {n : Nat} (a b : BitVec n) : ArithOp.add.carry a b = true ↔ 2 ^ n ≤ a.toNat + b.toNat := by
  have ha := a.isLt
  have hb := b.isLt
  rw [ArithOp.carry, ArithOp.exact, ← Int.natCast_add, BitVec.ofInt_natCast]
  have := BitVec.msb_eq_getLsbD_last (BitVec.ofNat (n + 1) (a.toNat + b.toNat))
  rw [Nat.add_sub_cancel] at this
  rw [← this, BitVec.msb_eq_decide, BitVec.toNat_ofNat, Nat.mod_eq_of_lt (by omega), Nat.add_sub_cancel]
  simp

/-- R162. -/
theorem ArithOp.carry_sub {n : Nat} (a b : BitVec n) : ArithOp.sub.carry a b = true ↔ a.toNat < b.toNat := by
  have ha := a.isLt
  have hb := b.isLt
  have e := BitVec.msb_eq_getLsbD_last (BitVec.ofInt (n + 1) ((a.toNat : Int) - b.toNat))
  rw [Nat.add_sub_cancel] at e
  have h2 : ((2 ^ (n + 1) : Nat) : Int) = 2 * ((2 ^ n : Nat) : Int) := by push_cast; ring
  rw [ArithOp.carry, ArithOp.exact, ← e, BitVec.msb_eq_toInt, BitVec.toInt_ofInt,
    Int.bmod_eq_of_le_mul_two (by omega) (by omega)]
  simp

theorem carry_four {n : Nat} (a b : BitVec n) (h : 4 < n) :
    (a ^^^ b ^^^ (a + b)).getLsbD 4 = true ↔ 16 ≤ a.toNat % 16 + b.toNat % 16 := by
  simp only [BitVec.getLsbD_xor, BitVec.getLsbD_add h, BitVec.carry, Bool.toNat_false, Nat.add_zero, Nat.reducePow]
  generalize a.getLsbD 4 = x
  generalize b.getLsbD 4 = y
  cases x <;> cases y <;> simp

/-- R163. -/
theorem ArithOp.auxCarry_add {n : Nat} (a b : BitVec n) (h : 4 < n) :
    ArithOp.add.auxCarry a b = true ↔ 16 ≤ a.toNat % 16 + b.toNat % 16 := by
  rw [ArithOp.auxCarry, ArithOp.result_add]; exact carry_four a b h

/-- R163. -/
theorem ArithOp.auxCarry_sub {n : Nat} (a b : BitVec n) (h : 4 < n) :
    ArithOp.sub.auxCarry a b = true ↔ a.toNat % 16 < b.toNat % 16 := by
  have e : a = (a - b) + b := by simp
  rw [ArithOp.auxCarry, ArithOp.result_sub]
  have hx : a ^^^ b ^^^ (a - b) = (a - b) ^^^ b ^^^ ((a - b) + b) := by
    rw [← e, BitVec.xor_comm, ← BitVec.xor_assoc, BitVec.xor_assoc, BitVec.xor_comm a b, BitVec.xor_assoc]
  rw [hx, carry_four _ _ h]
  have hm : a.toNat % 16 = ((a - b).toNat % 16 + b.toNat % 16) % 16 := by
    have hd : 16 ∣ 2 ^ n := by
      obtain ⟨j, rfl⟩ : ∃ j, n = 4 + j := ⟨n - 4, by omega⟩
      exact ⟨2 ^ j, by rw [pow_add]; norm_num⟩
    conv_lhs => rw [e]
    rw [BitVec.toNat_add, Nat.mod_mod_of_dvd _ hd, Nat.add_mod]
  omega

/-- R164. -/
theorem ArithOp.overflow_add {n : Nat} (a b : BitVec n) :
    ArithOp.add.overflow a b = true ↔ OutOfSignedRange n (a.toInt + b.toInt) := by
  have h : ArithOp.add.overflow a b = a.saddOverflow b := by
    simp only [ArithOp.overflow, ArithOp.result_add, ← BitVec.msb_eq_getLsbD_last, BitVec.msb_and, BitVec.msb_xor,
      BitVec.saddOverflow_eq]
    generalize a.msb = x; generalize b.msb = y; generalize (a + b).msb = z
    cases x <;> cases y <;> cases z <;> rfl
  rw [h, BitVec.saddOverflow, OutOfSignedRange]
  simp only [Bool.or_eq_true, decide_eq_true_eq, ge_iff_le]
  exact or_comm

/-- R164. -/
theorem ArithOp.overflow_sub {n : Nat} (a b : BitVec n) :
    ArithOp.sub.overflow a b = true ↔ OutOfSignedRange n (a.toInt - b.toInt) := by
  have h : ArithOp.sub.overflow a b = a.ssubOverflow b := by
    simp only [ArithOp.overflow, ArithOp.result_sub, ← BitVec.msb_eq_getLsbD_last, BitVec.msb_and, BitVec.msb_xor,
      BitVec.ssubOverflow_eq]
    generalize a.msb = x; generalize b.msb = y; generalize (a - b).msb = z
    cases x <;> cases y <;> cases z <;> rfl
  rw [h, BitVec.ssubOverflow, OutOfSignedRange]
  simp only [Bool.or_eq_true, decide_eq_true_eq, ge_iff_le]
  exact or_comm

theorem arithFlags_add_spec {n : Nat} (p : ParityScope) (a b : BitVec n) (w : Word) (h : 4 < n) :
    AddFlags p a b (arithFlags p .add a b w) := by
  have hr : ResultFlags p (a + b) (arithFlags p .add a b w) := by
    simp only [arithFlags, ArithOp.result_add]
    exact (((commonFlags_result p (a + b) w).setFlag (by decide) _).setFlag (by decide) _).setFlag (by decide) _
  refine ⟨hr, ?_, ?_, ?_⟩ <;> simp only [arithFlags, getFlag_setFlag]
  · simpa using ArithOp.carry_add a b
  · simpa using ArithOp.auxCarry_add a b h
  · simpa using ArithOp.overflow_add a b

theorem arithFlags_sub_spec {n : Nat} (p : ParityScope) (a b : BitVec n) (w : Word) (h : 4 < n) :
    SubFlags p a b (arithFlags p .sub a b w) := by
  have hr : ResultFlags p (a - b) (arithFlags p .sub a b w) := by
    simp only [arithFlags, ArithOp.result_sub]
    exact (((commonFlags_result p (a - b) w).setFlag (by decide) _).setFlag (by decide) _).setFlag (by decide) _
  refine ⟨hr, ?_, ?_, ?_⟩ <;> simp only [arithFlags, getFlag_setFlag]
  · simpa using ArithOp.carry_sub a b
  · simpa using ArithOp.auxCarry_sub a b h
  · simpa using ArithOp.overflow_sub a b

/-- R203, R204, R206: the flags of INC and DEC are those of adding or subtracting 1, but for CF. -/
theorem incDecFlags_spec {n : Nat} (cfg : Config) (op : ArithOp) (a : BitVec n) (w : Word) :
    (∀ fl ∈ [Flag.pf, .af, .zf, .sf, .of],
      getFlag fl (incDecFlags cfg op a w) = getFlag fl (arithFlags cfg.parityScope op a 1 w)) ∧
    getFlag .cf (incDecFlags cfg op a w) =
      if cfg.incDecCf = .compute then getFlag .cf (arithFlags cfg.parityScope op a 1 w) else getFlag .cf w := by
  simp only [incDecFlags]
  cases cfg.incDecCf <;> simp

/-- R244: the one's complement as a number. -/
theorem not_eq_ofNat {n : Nat} (v : BitVec n) : ~~~v = BitVec.ofNat n (2 ^ n - 1 - v.toNat) := by
  apply BitVec.eq_of_toNat_eq
  have := v.isLt
  rw [BitVec.toNat_not, BitVec.toNat_ofNat, Nat.mod_eq_of_lt (by omega)]

end Sys2Proof.Machine
end

