-- ==== Sys2Proof/Laws/Exec.lean ====
section
/-! SUPPORT. How exec answers, said once per shared operation: an instruction under a segment override is its core
meaning in the context of its record; each shared operation answers a stated state, or its one fault. -/

namespace Sys2Proof.Machine

open Sys2Proof

/-! ## From exec to the core meaning -/

/-- The instruction begins with no prefix byte. R82. -/
def Instr.bare : Instr → Bool
  | .prefixEs _ | .prefixCs _ | .prefixSs _ | .prefixDs _ | .prefixRep _ | .prefixRepne _ => false
  | _ => true

/-- Every arm of exec but the prefix arms is the core meaning in the record's own context. -/
theorem exec_bare {i : Instr} (h : Instr.bare i = true) (s : State) : exec i s = execIn (Ctx.of i) i s := by
  cases i <;> first | rfl | cases h

theorem Ctx.of_bare {i : Instr} (h : Instr.bare i = true) : Ctx.of i = { segovr := none, rep := none, size := i.size } := by
  cases i <;> first | rfl | cases h

theorem prefixFail_bare {i : Instr} (h : Instr.bare i = true) (seg : Bool) : i.prefixFail seg false = none := by
  cases i <;> first | rfl | cases h

theorem execIn_before (r : SReg) (i : Instr) (c : Ctx) (s : State) : execIn c (r.before i) s = execIn c i s := by
  cases r <;> rfl

theorem execIn_repeat (k : Rep) (i : Instr) (c : Ctx) (s : State) : execIn c (k.before i) s = execIn c i s := by
  cases k <;> rfl

theorem exec_before (r : SReg) (i : Instr) (s : State) : exec (r.before i) s = execPrefixed (r.before i) s := by
  cases r <;> rfl

theorem exec_repeat (k : Rep) (i : Instr) (s : State) : exec (k.before i) s = execPrefixed (k.before i) s := by
  cases k <;> rfl

theorem prefixFail_before (r : SReg) (i : Instr) (rep : Bool) :
    (r.before i).prefixFail false rep = i.prefixFail true rep := by cases r <;> rfl

theorem prefixFail_repeat (k : Rep) (i : Instr) (seg : Bool) :
    (k.before i).prefixFail seg false = i.prefixFail seg true := by cases k <;> rfl

theorem Ctx.of_before (r : SReg) (i : Instr) :
    Ctx.of (r.before i) = { segovr := some r, rep := i.rep, size := 1 + i.size } := by cases r <;> rfl

theorem Ctx.of_repeat (k : Rep) (i : Instr) :
    Ctx.of (k.before i) = { segovr := i.segovr, rep := some k, size := 1 + i.size } := by cases k <;> rfl

theorem size_before (r : SReg) (i : Instr) : (r.before i).size = 1 + i.size := by cases r <;> rfl

theorem size_repeat (k : Rep) (i : Instr) : (k.before i).size = 1 + i.size := by cases k <;> rfl

/-- R84, R110: an instruction with or without a segment override is its core meaning, in the context of its record. -/
theorem exec_under {i : Instr} (h : Instr.bare i = true) (g : Option SReg) (s : State) :
    exec (under g i) s = execIn { segovr := g, rep := none, size := (under g i).size } i s := by
  cases g with
  | none => rw [under, exec_bare h, Ctx.of_bare h]
  | some r =>
    have hr : i.rep = none := by
      have := congrArg Ctx.rep (Ctx.of_bare h); exact this
    rw [under, exec_before, execPrefixed, prefixFail_before, prefixFail_bare h, execIn_before, Ctx.of_before,
      size_before, hr]

/-- R82 to R84: a repeated STOS is its core meaning with the record's repeat prefix. -/
theorem exec_repeated (k : Rep) (g : Option SReg) (inner : Bool) (w : Width) (s : State) :
    exec (repeated k g inner (if w = .byte then .stosb else .stosw)) s =
      finish { segovr := g, rep := some k,
               size := (repeated k g inner (if w = .byte then .stosb else .stosw)).size }
        (stos { segovr := g, rep := some k,
                size := (repeated k g inner (if w = .byte then .stosb else .stosw)).size } w s) := by
  cases k <;> cases inner <;> cases w <;> rcases g with _ | g <;> try cases g <;> rfl
  all_goals rfl

/-! ## IP -/

/-- R143: Advance adds the size mod 2^16. -/
theorem nextIp_toNat (s : State) (n : Nat) : (s.nextIp n).toNat = (s.ip.toNat + n) % 65536 := by
  simp [State.nextIp, BitVec.toNat_add]

theorem advanced_of {i : Instr} {s u : State} (h : u.ip = s.ip) : Advanced i s (u.setIp (u.nextIp i.size)) := by
  rw [Advanced, State.setIp_ip, nextIp_toNat, h]

/-! ## The shared operations -/

/-- R200 to R202, R240 to R242: what a two-operand operation does. -/
theorem alu_eq {n : Nat} (op : AluOp) {d : Place n} {x : Opnd n} (hd : d.InMemory) (hx : x.InMemory) (s : State) :
    alu op d x s =
      .ok (if aluStores op then
          d.put (aluResult op (d.value s) (x.value s))
            (s.setFlags (aluFlags s.cfg.parityScope op (d.value s) (x.value s) s.flags))
        else s.setFlags (aluFlags s.cfg.parityScope op (d.value s) (x.value s) s.flags)) := by
  simp only [alu, Place.read_eq hd, Opnd.read_eq hx, Place.write_eq hd, bind, Except.bind]
  split <;> rfl

/-- R243: what TEST does. -/
theorem testOp_eq {n : Nat} {d : Place n} {x : Opnd n} (hd : d.InMemory) (hx : x.InMemory) (s : State) :
    testOp d x s = .ok (s.setFlags (logicFlags s.cfg.parityScope (d.value s &&& x.value s) s.flags)) := by
  simp only [testOp, Place.read_eq hd, Opnd.read_eq hx, bind, Except.bind]

/-- R203, R204: what INC and DEC do. -/
theorem incDec_eq {n : Nat} (op : ArithOp) {d : Place n} (hd : d.InMemory) (s : State) :
    incDec op d s = .ok (d.put (op.result (d.value s) 1) (s.setFlags (incDecFlags s.cfg op (d.value s) s.flags))) := by
  simp only [incDec, Place.read_eq hd, Place.write_eq hd, bind, Except.bind]

/-- R244: what NOT does. -/
theorem notOp_eq {n : Nat} {d : Place n} (hd : d.InMemory) (s : State) : notOp d s = .ok (d.put (~~~(d.value s)) s) := by
  simp only [notOp, Place.read_eq hd, Place.write_eq hd, bind, Except.bind]

/-- R180: what MOV does. -/
theorem mov_eq {n : Nat} {d : Place n} {x : Opnd n} (hd : d.InMemory) (hx : x.InMemory) (s : State) :
    mov d x s = .ok (d.put (x.value s) s) := by
  simp only [mov, Opnd.read_eq hx, Place.write_eq hd, bind, Except.bind]

/-- R57: a two-operand operation with an operand at the top word. -/
theorem alu_top (op : AluOp) {d : Place 16} {x : Opnd 16} (s : State)
    (h : d = .mem16 0xFFFFF ∨ (d.InMemory ∧ x = .place (.mem16 0xFFFFF))) :
    alu op d x s = .error (.memoryOutOfBounds 0xFFFFF 2) := by
  rcases h with rfl | ⟨hd, rfl⟩
  · simp [alu, bind, Except.bind]
  · simp [alu, Place.read_eq hd, Opnd.read, bind, Except.bind]

theorem testOp_top {d : Place 16} {x : Opnd 16} (s : State)
    (h : d = .mem16 0xFFFFF ∨ (d.InMemory ∧ x = .place (.mem16 0xFFFFF))) :
    testOp d x s = .error (.memoryOutOfBounds 0xFFFFF 2) := by
  rcases h with rfl | ⟨hd, rfl⟩
  · simp [testOp, bind, Except.bind]
  · simp [testOp, Place.read_eq hd, Opnd.read, bind, Except.bind]

theorem mov_top {d : Place 16} {x : Opnd 16} (s : State)
    (h : x = .place (.mem16 0xFFFFF) ∨ (x.InMemory ∧ d = .mem16 0xFFFFF)) :
    mov d x s = .error (.memoryOutOfBounds 0xFFFFF 2) := by
  rcases h with rfl | ⟨hx, rfl⟩
  · simp [mov, Opnd.read, bind, Except.bind]
  · simp [mov, Opnd.read_eq hx, bind, Except.bind]

/-! ## The stack -/

theorem Memory.word_eq (m : Memory) (a : Nat) : m.word a = (wordOf (m.read a) (m.read (a + 1))).toNat := by
  rw [wordOf_toNat, Memory.word]

theorem Memory.word_congr {m m' : Memory} {a : Nat} (h : m.read a = m'.read a) (h' : m.read (a + 1) = m'.read (a + 1)) :
    m.word a = m'.word a := by rw [Memory.word, Memory.word, h, h']

/-- The state a completed push leaves. R290. -/
def State.pushed (v : Word) (s : State) : State :=
  (Place.mem16 (pushAddr s)).put v (s.setReg16 .sp (s.sp - 2))

/-- R290: what a push does. -/
theorem push_eq {s : State} (h : pushAddr s ≠ 0xFFFFF) (v : Word) : push v s = .ok (s.pushed v) := by
  have := phys_lt s.ss (s.sp - 2)
  simp only [pushAddr, Config.memSize] at *
  simp only [push, State.setReg16_ss, State.setReg16_sp, if_true]
  rw [State.store16_eq _ (by simp only [Config.memSize]; omega)]
  simp [State.pushed, Place.put, pushAddr]

/-- R57, R290: a push whose word would be at the top of memory. -/
theorem push_top {s : State} (h : pushAddr s = 0xFFFFF) (v : Word) :
    push v s = .error (.memoryOutOfBounds 0xFFFFF 2) := by
  simp only [pushAddr] at h
  simp only [push, State.setReg16_ss, State.setReg16_sp, if_true, h]
  exact State.store16_top _ (by decide) v

/-- R291: what a pop does. -/
theorem pop_eq {s : State} (h : phys s.ss s.sp ≠ 0xFFFFF) :
    pop s = .ok ((Place.mem16 (phys s.ss s.sp)).value s, s.setReg16 .sp (s.sp + 2)) := by
  have := phys_lt s.ss s.sp
  simp only [Config.memSize] at *
  simp only [pop, State.load16_eq s (a := phys s.ss s.sp) (by simp only [Config.memSize]; omega), Place.value, ofNat_word]

/-- R57, R291: a pop whose word is at the top of memory. -/
theorem pop_top {s : State} (h : phys s.ss s.sp = 0xFFFFF) : pop s = .error (.memoryOutOfBounds 0xFFFFF 2) := by
  simp only [pop, h, State.load16_top s (a := 0xFFFFF) (by decide)]

@[simp] theorem State.pushed_sp (v : Word) (s : State) : (s.pushed v).sp = s.sp - 2 := by
  simp [State.pushed, Place.put]

@[simp] theorem State.pushed_ip (v : Word) (s : State) : (s.pushed v).ip = s.ip := by simp [State.pushed]

@[simp] theorem State.pushed_ss (v : Word) (s : State) : (s.pushed v).ss = s.ss := by
  simp [State.pushed, Place.put]

@[simp] theorem State.pushed_cs (v : Word) (s : State) : (s.pushed v).cs = s.cs := by simp [State.pushed]

@[simp] theorem State.pushed_flags (v : Word) (s : State) : (s.pushed v).flags = s.flags := by simp [State.pushed]

theorem State.pushed_frame (v : Word) (s : State) :
    Frame [.sp] [] [] [pushAddr s, pushAddr s + 1] 0 s (s.pushed v) :=
  ((Place.reg16 .sp).put_frame (s.sp - 2) s).trans ((Place.mem16 (pushAddr s)).put_frame v _)

theorem State.pushed_word (v : Word) (s : State) : (s.pushed v).mem.word (pushAddr s) = v.toNat := by
  simp [State.pushed, Place.put, Memory.word_eq]

/-! ## Branches -/

/-- R260: what a branch does. -/
theorem branch_eq (c : Ctx) (taken : Bool) (disp : Word) (s : State) :
    branch c taken disp s = .next (s.setIp (if taken then s.nextIp c.size + disp else s.nextIp c.size)) := by
  cases taken <;> rfl

/-- R262: the model's condition is the table's. -/
theorem condHolds_iff (c : Cond) (w : Word) : condHolds c w = true ↔ Cond.Taken w c := by
  cases c <;> simp [condHolds, Cond.Taken]

end Sys2Proof.Machine
end

