-- ==== Sys2Proof/Laws/Forms.lean ====
section
/-! SUPPORT. Each family's exec as its shared operation over the operands Claims names: the link from an instruction's
constructor to the operation's law. -/

namespace Sys2Proof.Machine

open Sys2Proof

/-! ## Operands in memory -/

/-- Both operands are in memory. -/
def Pair.InMemory : Pair → Prop
  | .byte d x => d.InMemory ∧ x.InMemory
  | .word d x => d.InMemory ∧ x.InMemory

/-- The operand is in memory. -/
def Single.InMemory : Single → Prop
  | .byte p => p.InMemory
  | .word p => p.InMemory

theorem rmRegPair_inMemory {g s o} (h : (rmRegPair g s o).inBounds) : (rmRegPair g s o).InMemory := by
  cases o with
  | byte rm r => exact ⟨rmByte_inMemory g s rm, trivial⟩
  | word rm r => exact ⟨rmWord_inMemory h.1, trivial⟩

theorem regRmPair_inMemory {g s o} (h : (regRmPair g s o).inBounds) : (regRmPair g s o).InMemory := by
  cases o with
  | byte rm r => exact ⟨trivial, rmByte_inMemory g s rm⟩
  | word rm r => exact ⟨trivial, rmWord_inMemory h.2⟩

theorem accPair_inMemory (o) : (accPair o).InMemory := by cases o <;> exact ⟨trivial, trivial⟩

theorem grpPair_inMemory {g s o} (h : (grpPair g s o).inBounds) : (grpPair g s o).InMemory := by
  cases o with
  | byte _ rm v => exact ⟨rmByte_inMemory g s rm, trivial⟩
  | word rm v => exact ⟨rmWord_inMemory h.1, trivial⟩
  | wordSx rm v => exact ⟨rmWord_inMemory h.1, trivial⟩

theorem rmImmPair_inMemory {g s o} (h : (rmImmPair g s o).inBounds) : (rmImmPair g s o).InMemory := by
  cases o with
  | byte rm v => exact ⟨rmByte_inMemory g s rm, trivial⟩
  | word rm v => exact ⟨rmWord_inMemory h.1, trivial⟩

theorem rmSingle_inMemory {g s o} (h : (rmSingle g s o).inBounds) : (rmSingle g s o).InMemory := by
  cases o with
  | byte rm => exact rmByte_inMemory g s rm
  | word rm => exact rmWord_inMemory h

theorem AluForm.inMemory {g s} {f : AluForm} (h : (f.operands g s).inBounds) : (f.operands g s).InMemory := by
  cases f with
  | rmReg d o => cases d; exacts [rmRegPair_inMemory h, regRmPair_inMemory h]
  | accImm o => exact accPair_inMemory o
  | rmImm o => exact grpPair_inMemory h

theorem TestForm.inMemory {g s} {f : TestForm} (h : (f.operands g s).inBounds) : (f.operands g s).InMemory := by
  cases f with
  | rmReg o => exact rmRegPair_inMemory h
  | accImm o => exact accPair_inMemory o
  | rmImm o => exact rmImmPair_inMemory h

theorem MovForm.inMemory {g s} {f : MovForm} (h : (f.operands g s).inBounds) : (f.operands g s).InMemory := by
  cases f with
  | rmReg o => exact rmRegPair_inMemory h
  | regRm o => exact regRmPair_inMemory h
  | rmImm o => exact rmImmPair_inMemory h
  | regImm o => cases o <;> exact ⟨trivial, trivial⟩
  | accMem x w a =>
    cases x <;> cases w
    · exact ⟨trivial, rmByte_inMemory g s (.mem (.direct a))⟩
    · exact ⟨trivial, rmWord_inMemory (g := g) (s := s) (x := .mem (.direct a)) h.2⟩
    · exact ⟨rmByte_inMemory g s (.mem (.direct a)), trivial⟩
    · exact ⟨rmWord_inMemory (g := g) (s := s) (x := .mem (.direct a)) h.1, trivial⟩
  | sregRm r x => exact ⟨trivial, rmWord_inMemory (g := g) (s := s) (x := x) h.2⟩
  | rmSreg x r => exact ⟨rmWord_inMemory h.1, trivial⟩

theorem StepForm.inMemory {g s} {f : StepForm} (h : (f.operand g s).inBounds) : (f.operand g s).InMemory := by
  cases f with
  | reg r => trivial
  | rm o => exact rmSingle_inMemory h

/-! ## Operands at the top word (R57) -/

/-- One operand is a word at the last byte of memory, the other is in memory. -/
def Pair.AtTop (P : Pair) : Prop :=
  ∃ d x, P = .word d x ∧
    ((d = .mem16 0xFFFFF ∧ x.InMemory) ∨ (d.InMemory ∧ x = .place (.mem16 0xFFFFF)))

theorem rmByte_inBounds (g : Option SReg) (s : State) (x : Rm Reg8) : (rmByte g s x).inBounds := by cases x <;> trivial

theorem dst_atTop {g s} {x : Rm Reg16} {y : Opnd 16} (hy : y.inBounds) (hm : y.InMemory)
    (h : ¬ (Pair.word (rmWord g s x) y).inBounds) : (Pair.word (rmWord g s x) y).AtTop :=
  ⟨_, _, rfl, .inl ⟨eq_top_of_not_inBounds fun e => h ⟨e, hy⟩, hm⟩⟩

theorem src_atTop {g s} {x : Rm Reg16} {d : Place 16} (hd : d.inBounds) (hm : d.InMemory)
    (h : ¬ (Pair.word d (.place (rmWord g s x))).inBounds) : (Pair.word d (.place (rmWord g s x))).AtTop :=
  ⟨_, _, rfl, .inr ⟨hm, congrArg _ (eq_top_of_not_inBounds fun e => h ⟨hd, e⟩)⟩⟩

theorem rmRegPair_atTop {g s o} (h : ¬ (rmRegPair g s o).inBounds) : (rmRegPair g s o).AtTop := by
  cases o with
  | byte rm r => exact absurd ⟨rmByte_inBounds g s rm, trivial⟩ h
  | word rm r => exact dst_atTop trivial trivial h

theorem regRmPair_atTop {g s o} (h : ¬ (regRmPair g s o).inBounds) : (regRmPair g s o).AtTop := by
  cases o with
  | byte rm r => exact absurd ⟨trivial, rmByte_inBounds g s rm⟩ h
  | word rm r => exact src_atTop trivial trivial h

theorem grpPair_atTop {g s o} (h : ¬ (grpPair g s o).inBounds) : (grpPair g s o).AtTop := by
  cases o with
  | byte _ rm v => exact absurd ⟨rmByte_inBounds g s rm, trivial⟩ h
  | word rm v => exact dst_atTop trivial trivial h
  | wordSx rm v => exact dst_atTop trivial trivial h

theorem rmImmPair_atTop {g s o} (h : ¬ (rmImmPair g s o).inBounds) : (rmImmPair g s o).AtTop := by
  cases o with
  | byte rm v => exact absurd ⟨rmByte_inBounds g s rm, trivial⟩ h
  | word rm v => exact dst_atTop trivial trivial h

theorem accPair_inBounds (o) : (accPair o).inBounds := by cases o <;> exact ⟨trivial, trivial⟩

theorem AluForm.atTop {g s} {f : AluForm} (h : ¬ (f.operands g s).inBounds) : (f.operands g s).AtTop := by
  cases f with
  | rmReg d o => cases d; exacts [rmRegPair_atTop h, regRmPair_atTop h]
  | accImm o => exact absurd (accPair_inBounds o) h
  | rmImm o => exact grpPair_atTop h

theorem TestForm.atTop {g s} {f : TestForm} (h : ¬ (f.operands g s).inBounds) : (f.operands g s).AtTop := by
  cases f with
  | rmReg o => exact rmRegPair_atTop h
  | accImm o => exact absurd (accPair_inBounds o) h
  | rmImm o => exact rmImmPair_atTop h

theorem MovForm.atTop {g s} {f : MovForm} (h : ¬ (f.operands g s).inBounds) : (f.operands g s).AtTop := by
  cases f with
  | rmReg o => exact rmRegPair_atTop h
  | regRm o => exact regRmPair_atTop h
  | rmImm o => exact rmImmPair_atTop h
  | regImm o => cases o <;> exact absurd ⟨trivial, trivial⟩ h
  | accMem x w a =>
    cases x <;> cases w
    · exact absurd ⟨trivial, trivial⟩ h
    · exact src_atTop (x := .mem (.direct a)) trivial trivial h
    · exact absurd ⟨trivial, trivial⟩ h
    · exact dst_atTop (x := .mem (.direct a)) trivial trivial h
  | sregRm r x => exact src_atTop trivial trivial h
  | rmSreg x r => exact dst_atTop trivial trivial h

theorem rmSingle_atTop {g s o} (h : ¬ (rmSingle g s o).inBounds) :
    ∃ x, o = .word x ∧ rmWord g s x = .mem16 0xFFFFF := by
  cases o with
  | byte x => exact absurd (rmByte_inBounds g s x) h
  | word x => exact ⟨x, rfl, eq_top_of_not_inBounds h⟩

/-! ## What a write leaves, through the ends of a step -/

theorem Place.Stored.setIp {n : Nat} {p : Place n} {v : BitVec n} {s t : State} (h : p.Stored v s t) (x : Word) :
    p.Stored v s (t.setIp x) := by
  cases p <;> simpa [Place.Stored] using h

theorem Place.Stored.ofFlags {n : Nat} {p : Place n} {v : BitVec n} {s t : State} {w : Word}
    (h : p.Stored v (s.setFlags w) t) : p.Stored v s t := by
  cases p <;> simpa [Place.Stored] using h

/-! ## The shared operations over a pair -/

def Pair.alu (op : AluOp) : Pair → State → Exec State
  | .byte d x => Machine.alu op d x
  | .word d x => Machine.alu op d x

def Pair.test : Pair → State → Exec State
  | .byte d x => testOp d x
  | .word d x => testOp d x

def Pair.mov : Pair → State → Exec State
  | .byte d x => Machine.mov d x
  | .word d x => Machine.mov d x

def Single.incDec (op : ArithOp) : Single → State → Exec State
  | .byte d => Machine.incDec op d
  | .word d => Machine.incDec op d

def Single.not : Single → State → Exec State
  | .byte d => notOp d
  | .word d => notOp d

/-- The record context of an instruction under an override. -/
abbrev ctxUnder (g : Option SReg) (i : Instr) : Ctx := { segovr := g, rep := none, size := (under g i).size }

/-- ADD, OR, AND, SUB, XOR and CMP in every form. R101 to R103. -/
theorem exec_alu (op : AluOp) (f : AluForm) (g : Option SReg) (s : State) :
    exec (under g (f.instr op)) s = finish (ctxUnder g (f.instr op)) ((f.operands g s).alu op s) := by
  rw [exec_under (by cases op <;> cases f <;> rfl)]
  cases f with
  | rmReg d o =>
    cases op <;> cases d <;> cases o <;>
      simp only [AluForm.instr, AluOp.rmReg, execIn, addRmRegIn, orRmRegIn, andRmRegIn, subRmRegIn, xorRmRegIn,
        cmpRmRegIn, aluRmReg, rm8_eq, rm16_eq, AluForm.operands, rmRegPair, regRmPair, Pair.alu]
  | accImm o => cases op <;> cases o <;> rfl
  | rmImm o =>
    cases op <;> cases o <;>
      simp only [AluForm.instr, AluOp.rmImm, execIn, addRmImmIn, orRmImmIn, andRmImmIn, subRmImmIn, xorRmImmIn,
        cmpRmImmIn, aluRmImm, rm8_eq, rm16_eq, AluForm.operands, grpPair, Pair.alu, BitVec.signExtend]

/-- TEST in every form. R109, R118. -/
theorem exec_test (f : TestForm) (g : Option SReg) (s : State) :
    exec (under g f.instr) s = finish (ctxUnder g f.instr) ((f.operands g s).test s) := by
  rw [exec_under (by cases f <;> rfl)]
  cases f with
  | rmReg o =>
    cases o <;> simp only [TestForm.instr, execIn, testRmRegIn, testRmRegOp, rm8_eq, rm16_eq, TestForm.operands,
      rmRegPair, Pair.test]
  | accImm o => cases o <;> rfl
  | rmImm o =>
    cases o <;> simp only [TestForm.instr, execIn, testRmImmIn, testRmImmOp, rm8_eq, rm16_eq, TestForm.operands,
      rmImmPair, Pair.test]

/-- MOV in every form. R104 to R108. -/
theorem exec_mov (f : MovForm) (g : Option SReg) (s : State) :
    exec (under g f.instr) s = finish (ctxUnder g f.instr) ((f.operands g s).mov s) := by
  rw [exec_under (by cases f <;> rfl)]
  cases f with
  | rmReg o =>
    cases o <;> simp only [MovForm.instr, execIn, movRmRegIn, movRmRegOp, rm8_eq, rm16_eq, MovForm.operands, rmRegPair,
      Pair.mov]
  | regRm o =>
    cases o <;> simp only [MovForm.instr, execIn, movRegRmIn, movRegRmOp, rm8_eq, rm16_eq, MovForm.operands, regRmPair,
      Pair.mov]
  | rmImm o =>
    cases o <;> simp only [MovForm.instr, execIn, movRmImmIn, movRmImmOp, rm8_eq, rm16_eq, MovForm.operands, rmImmPair,
      Pair.mov]
  | regImm o => cases o <;> rfl
  | accMem x w a => cases x <;> cases w <;> rfl
  | sregRm r x => simp only [MovForm.instr, execIn, movSregRmIn, movSregRmOp, rm16_eq, MovForm.operands, Pair.mov]
  | rmSreg x r => simp only [MovForm.instr, execIn, movRmSregIn, movRmSregOp, rm16_eq, MovForm.operands, Pair.mov]

/-- INC in both forms. R112, R119. -/
theorem exec_inc (f : StepForm) (g : Option SReg) (s : State) :
    exec (under g f.inc) s = finish (ctxUnder g f.inc) ((f.operand g s).incDec .add s) := by
  rw [exec_under (by cases f <;> rfl)]
  cases f with
  | reg r => rfl
  | rm o => cases o <;> simp only [StepForm.inc, execIn, incRmIn, incDecRm, rm8_eq, rm16_eq, StepForm.operand, rmSingle,
      Single.incDec]

/-- DEC in both forms. R112, R119. -/
theorem exec_dec (f : StepForm) (g : Option SReg) (s : State) :
    exec (under g f.dec) s = finish (ctxUnder g f.dec) ((f.operand g s).incDec .sub s) := by
  rw [exec_under (by cases f <;> rfl)]
  cases f with
  | reg r => rfl
  | rm o => cases o <;> simp only [StepForm.dec, execIn, decRmIn, incDecRm, rm8_eq, rm16_eq, StepForm.operand, rmSingle,
      Single.incDec]

/-- NOT. R118. -/
theorem exec_not (o : RmOnly) (g : Option SReg) (s : State) :
    exec (under g (.notRm o)) s = finish (ctxUnder g (.notRm o)) ((rmSingle g s o).not s) := by
  rw [exec_under rfl]
  cases o <;> simp only [execIn, notRmIn, notRmOp, rm8_eq, rm16_eq, rmSingle, Single.not]

/-- R57: a two-operand operation with an operand at the top word. -/
theorem Pair.alu_atTop {P : Pair} (h : P.AtTop) (op : AluOp) (s : State) :
    P.alu op s = .error (.memoryOutOfBounds 0xFFFFF 2) := by
  obtain ⟨d, x, rfl, h⟩ := h
  exact alu_top op s (h.imp_left And.left)

theorem Pair.test_atTop {P : Pair} (h : P.AtTop) (s : State) : P.test s = .error (.memoryOutOfBounds 0xFFFFF 2) := by
  obtain ⟨d, x, rfl, h⟩ := h
  exact testOp_top s (h.imp_left And.left)

theorem Pair.mov_atTop {P : Pair} (h : P.AtTop) (s : State) : P.mov s = .error (.memoryOutOfBounds 0xFFFFF 2) := by
  obtain ⟨d, x, rfl, h⟩ := h
  exact mov_top s (h.elim (fun h => .inr ⟨h.2, h.1⟩) fun h => .inl h.2)

theorem incDec_top (op : ArithOp) (s : State) :
    Machine.incDec op (.mem16 0xFFFFF) s = .error (.memoryOutOfBounds 0xFFFFF 2) := by
  simp [Machine.incDec, bind, Except.bind]

theorem notOp_top (s : State) : notOp (.mem16 0xFFFFF) s = .error (.memoryOutOfBounds 0xFFFFF 2) := by
  simp [notOp, bind, Except.bind]

theorem StepForm.atTop {g s} {f : StepForm} (h : ¬ (f.operand g s).inBounds) :
    f.operand g s = .word (.mem16 0xFFFFF) := by
  cases f with
  | reg r => exact absurd trivial h
  | rm o => obtain ⟨x, rfl, e⟩ := rmSingle_atTop h; simp only [StepForm.operand, rmSingle, e]

/-- PUSH of a memory word at the top of memory. R57, R293. -/
theorem exec_pushMem_top {g : Option SReg} {m : Ea} {s : State} (h : eaAddr g m s = 0xFFFFF) :
    exec (under g (.pushRm (.mem m))) s = .fault (.memoryOutOfBounds 0xFFFFF 2) := by
  rw [exec_under rfl, execIn, pushRmIn, pushRmOp]
  simp only [h, State.load16_top s (a := 0xFFFFF) (by decide), bind, Except.bind]; rfl

/-- The pushes. R292 to R294, R298. -/
theorem exec_push {f : PushForm} {g : Option SReg} {s : State} (h : f.inBounds g s) :
    exec (under g f.instr) s = finish (ctxUnder g f.instr) (push (f.value g s) s) := by
  have hp : ∀ r, pushedReg r s = pushedWord r s := by
    intro r
    simp only [pushedReg, pushedWord]
    cases r <;> cases s.cfg.pushSpValue <;> simp [State.reg16]
  rw [exec_under (by cases f <;> rfl)]
  cases f with
  | reg r => simp only [PushForm.instr, execIn, pushRegIn, hp, PushForm.value]
  | rm x =>
    cases x with
    | reg r => simp only [PushForm.instr, execIn, pushRmIn, pushRmOp, hp, PushForm.value]
    | mem m =>
      have hm : (Place.mem16 (eaAddr g m s)).InMemory := rmWord_inMemory (g := g) (s := s) (x := .mem m) h
      have := Place.read_eq hm s
      simp only [Place.read] at this
      simp only [PushForm.instr, execIn, pushRmIn, pushRmOp, this, PushForm.value, bind, Except.bind]
  | sreg r => rfl
  | flags => rfl

/-- The pops to an operand. R295 to R297. -/
theorem exec_pop (f : PopForm) (g : Option SReg) (s : State) :
    exec (under g f.instr) s = finish (ctxUnder g f.instr) (popTo (f.dst g s) s) := by
  rw [exec_under (by rcases f with _ | _ | _ | _ | _ <;> rfl)]
  cases f with
  | reg r => rfl
  | rm x => simp only [PopForm.instr, execIn, popRmIn, rm16_eq, PopForm.dst]
  | sreg r => cases r <;> rfl

/-- R295 to R297: what a pop to an operand does. -/
theorem popTo_eq {d : Place 16} {s : State} (h : phys s.ss s.sp ≠ 0xFFFFF) (hd : d.InMemory) :
    popTo d s = .ok (d.put ((Place.mem16 (phys s.ss s.sp)).value s) (s.setReg16 .sp (s.sp + 2))) := by
  simp only [popTo, pop_eq h, bind, Except.bind, Place.write_eq hd]

theorem PopForm.inMemory {f : PopForm} {g s} (h : (f.dst g s).inBounds) : (f.dst g s).InMemory := by
  cases f with
  | reg r => trivial
  | rm x => exact rmWord_inMemory h
  | sreg r => trivial

/-- R299: what POPF does. -/
theorem popFlags_eq {s : State} (h : phys s.ss s.sp ≠ 0xFFFFF) :
    popFlags s = .ok ((s.setReg16 .sp (s.sp + 2)).setFlags ((Place.mem16 (phys s.ss s.sp)).value s)) := by
  simp only [popFlags, pop_eq h, bind, Except.bind]

/-- R55: a word operand's value is the memory word. -/
theorem Place.value_word (a : Nat) (s : State) : ((Place.mem16 a).value s).toNat = s.mem.word a := by
  simp only [Place.value, ofNat_word, Memory.word_eq]

/-- The conditional jumps. R115. -/
theorem exec_jcc (c : Cond) (d : Byte) (g : Option SReg) (s : State) :
    exec (under g (c.jump d)) s = jcc (ctxUnder g (c.jump d)) c d s := by
  rw [exec_under (by cases c <;> rfl)]
  cases c <;> rfl

/-- The loop family. R116. -/
theorem exec_loop (k : LoopKind) (d : Byte) (g : Option SReg) (s : State) :
    exec (under g (k.instr d)) s = loopFamily (ctxUnder g (k.instr d)) k d s := by
  rw [exec_under (by cases k <;> rfl)]
  cases k <;> rfl

/-- R260: the model's target is the spec's. -/
theorem branchTarget_byte (i : Instr) (d : Byte) (s : State) :
    branchTarget i d.toInt s = s.nextIp i.size + d.signExtend 16 := by
  rw [branchTarget, State.nextIp, BitVec.ofInt_add, BitVec.ofInt_add, BitVec.ofInt_natCast, BitVec.ofInt_natCast,
    BitVec.ofNat_toNat, BitVec.setWidth_eq, BitVec.signExtend]

/-- R260. -/
theorem branchTarget_word (i : Instr) (d : Word) (s : State) : branchTarget i d.toInt s = s.nextIp i.size + d := by
  rw [branchTarget, State.nextIp, BitVec.ofInt_add, BitVec.ofInt_add, BitVec.ofInt_natCast, BitVec.ofInt_natCast,
    BitVec.ofNat_toNat, BitVec.setWidth_eq, BitVec.ofInt_toInt]

theorem fallThrough_eq (i : Instr) (s : State) : fallThrough i s = s.nextIp i.size := by
  rw [fallThrough, State.nextIp, BitVec.ofNat_add, BitVec.ofNat_toNat, BitVec.setWidth_eq]

theorem jumped_setIp (s : State) (v : Word) : Jumped v s.cx s (s.setIp v) :=
  ⟨rfl, rfl, ((Frame.refl s).setIp v).mono (by simp) (by simp) (by simp) (by simp)⟩

theorem jumped_setCx (s : State) (v x : Word) : Jumped v x s ((s.setReg16 .cx x).setIp v) :=
  ⟨rfl, rfl, ((Place.reg16 .cx).put_frame x s).setIp v⟩

/-- R280: `CX - 1` mod 2^16. -/
theorem cx_sub_one (s : State) : BitVec.ofInt 16 (s.cx.toNat - 1) = s.cx - 1 := by
  apply BitVec.eq_of_toInt_eq
  rw [BitVec.toInt_ofInt, BitVec.toInt_sub, BitVec.toInt_eq_toNat_bmod, Int.sub_bmod]
  simp

end Sys2Proof.Machine
end

