-- ==== Sys2Proof/Laws/Arith.lean ====
section
/-! SUPPORT. What MUL and DIV do: one law per width, its side conditions in the arithmetic of R207 and R209. -/

namespace Sys2Proof.Machine

open Sys2Proof

/-- R118: MUL and DIV of a byte or word operand. -/
theorem exec_mul_byte (g : Option SReg) (x : Rm Reg8) (s : State) :
    exec (under g (.mulRm (.byte x))) s =
      .next ((mul8 ((rmByte g s x).value s) s).setIp (s.nextIp (under g (.mulRm (.byte x))).size)) := by
  rw [exec_under rfl, execIn, mulRmIn, mulRmOp, rm8_eq, Place.read_eq (rmByte_inMemory g s x)]
  simp [bind, Except.bind, State.nextIp, mul8]

theorem exec_mul_word {g : Option SReg} {x : Rm Reg16} {s : State} (h : (rmWord g s x).inBounds) :
    exec (under g (.mulRm (.word x))) s =
      .next ((mul16 ((rmWord g s x).value s) s).setIp (s.nextIp (under g (.mulRm (.word x))).size)) := by
  rw [exec_under rfl, execIn, mulRmIn, mulRmOp, rm16_eq, Place.read_eq (rmWord_inMemory h)]
  simp [bind, Except.bind, State.nextIp, mul16]

theorem exec_div_byte (g : Option SReg) (x : Rm Reg8) (s : State) :
    exec (under g (.divRm (.byte x))) s = finish (ctxUnder g (.divRm (.byte x))) (div8 ((rmByte g s x).value s) s) := by
  rw [exec_under rfl, execIn, divRmIn, divRmOp, rm8_eq, Place.read_eq (rmByte_inMemory g s x)]
  rfl

theorem exec_div_word {g : Option SReg} {x : Rm Reg16} {s : State} (h : (rmWord g s x).inBounds) :
    exec (under g (.divRm (.word x))) s = finish (ctxUnder g (.divRm (.word x))) (div16 ((rmWord g s x).value s) s) := by
  rw [exec_under rfl, execIn, divRmIn, divRmOp, rm16_eq, Place.read_eq (rmWord_inMemory h)]
  rfl

/-- R57: MUL and DIV by a word at the top of memory. -/
theorem exec_mul_top {g : Option SReg} {x : Rm Reg16} {s : State} (h : rmWord g s x = .mem16 0xFFFFF) :
    exec (under g (.mulRm (.word x))) s = .fault (.memoryOutOfBounds 0xFFFFF 2) := by
  rw [exec_under rfl, execIn, mulRmIn, mulRmOp, rm16_eq, h, Place.read_top]
  rfl

theorem exec_div_top {g : Option SReg} {x : Rm Reg16} {s : State} (h : rmWord g s x = .mem16 0xFFFFF) :
    exec (under g (.divRm (.word x))) s = .fault (.memoryOutOfBounds 0xFFFFF 2) := by
  rw [exec_under rfl, execIn, divRmIn, divRmOp, rm16_eq, h, Place.read_top]
  rfl

/-! ## MUL -/

/-- R207, R212: the 16-bit product is exact. -/
theorem mul8_ax (m : Byte) (s : State) : (mul8 m s).ax.toNat = (s.reg8 .al).toNat * m.toNat := by
  have h : (s.reg8 .al).toNat * m.toNat < 65536 :=
    Nat.lt_of_lt_of_le (Nat.mul_lt_mul'' (s.reg8 .al).isLt m.isLt) (by decide)
  simp [mul8, Nat.mod_eq_of_lt h]

/-- R208: CF and OF say whether AH is zero. -/
theorem mul8_flags (m : Byte) (s : State) :
    (mul8 m s).flags = mulFlags (decide (256 ≤ (mul8 m s).ax.toNat)) s.draws s.flags := by
  have e : (hiByte (BitVec.ofNat 16 ((s.reg8 .al).toNat * m.toNat)) != 0) = decide (256 ≤ (mul8 m s).ax.toNat) := by
    have h : (mul8 m s).ax = BitVec.ofNat 16 ((s.reg8 .al).toNat * m.toNat) := by simp [mul8]
    rw [h]
    generalize BitVec.ofNat 16 ((s.reg8 .al).toNat * m.toNat) = p
    rw [bne, beq_zero_eq, hiByte_toNat]
    by_cases h : p.toNat < 256
    · have h1 : p.toNat / 256 = 0 := by omega
      have h2 : ¬ 256 ≤ p.toNat := by omega
      simp [h1, h2]
    · have h1 : ¬ p.toNat / 256 = 0 := by omega
      have h2 : 256 ≤ p.toNat := by omega
      simp [h1, h2]
  simp only [mul8] at e ⊢
  rw [e]

theorem mul8_frame (m : Byte) (s : State) : Frame [.ax] [] statusBits [] 4 s (mul8 m s) := by
  refine ⟨?_, ?_, fun k hk => mulFlags_other _ _ _ hk, ?_, ?_, ?_, ?_, ?_⟩
  · intro r hr; cases r <;> simp_all [mul8, State.reg16]
  · intro r _; cases r <;> simp [mul8, State.sreg]
  all_goals simp [mul8, mulDrawn]

/-- R207, R212: the 32-bit product is exact. -/
theorem mul16_value (m : Word) (s : State) :
    (mul16 m s).dx.toNat * 65536 + (mul16 m s).ax.toNat = s.ax.toNat * m.toNat := by
  have h : s.ax.toNat * m.toNat < 65536 * 65536 := Nat.mul_lt_mul'' s.ax.isLt m.isLt
  simp only [mul16, State.setReg16_dx, State.setReg16_ax, if_true, reduceCtorEq, if_false, BitVec.toNat_ofNat]
  omega

/-- R208: CF and OF say whether DX is zero. -/
theorem mul16_flags (m : Word) (s : State) :
    (mul16 m s).flags = mulFlags (decide ((mul16 m s).dx ≠ 0)) s.draws s.flags := by
  simp only [mul16, State.setReg16_dx, if_true]
  congr 1
  rw [bne, beq_eq_decide, decide_not]

theorem mul16_frame (m : Word) (s : State) : Frame [.ax, .dx] [] statusBits [] 4 s (mul16 m s) := by
  refine ⟨?_, ?_, fun k hk => mulFlags_other _ _ _ hk, ?_, ?_, ?_, ?_, ?_⟩
  · intro r hr; cases r <;> simp_all [mul16, State.reg16]
  · intro r _; cases r <;> simp [mul16, State.sreg]
  all_goals simp [mul16, mulDrawn]

/-! ## DIV -/

theorem divDraw_frame (s : State) : Frame [] [] statusBits [] 6 s (divDraw s) := by
  refine ⟨?_, ?_, fun k hk => divFlags_other _ _ hk, ?_, ?_, ?_, ?_, ?_⟩
  · intro r _; cases r <;> rfl
  · intro r _; cases r <;> rfl
  all_goals simp [divDraw, divDrawn]

/-- R209: what a DIV of 8 bits does. -/
theorem div8_eq {v : Byte} {s : State} (h : s.ax.toNat < 256 * v.toNat) :
    ∃ t, div8 v s = .ok t ∧ t.ip = s.ip ∧
      (t.reg8 .al).toNat * v.toNat + (t.reg8 .ah).toNat = s.ax.toNat ∧ (t.reg8 .ah).toNat < v.toNat ∧
      Frame [.ax] [] statusBits [] 6 s t := by
  have hv : v ≠ 0 := fun e => by simp [e] at h
  have hvn : 0 < v.toNat := by omega
  have hq : s.ax.toNat / v.toNat < 256 := (Nat.div_lt_iff_lt_mul hvn).2 h
  have hr : s.ax.toNat % v.toNat < v.toNat := Nat.mod_lt _ hvn
  have hb := v.isLt
  have e := Nat.div_add_mod s.ax.toNat v.toNat
  refine ⟨divDraw ((s.setReg8 .al (BitVec.ofNat 8 (s.ax.toNat / v.toNat))).setReg8 .ah
    (BitVec.ofNat 8 (s.ax.toNat % v.toNat))), ?_, ?_, ?_, ?_, ?_⟩
  · simp only [div8, if_neg hv]; rw [if_neg (by omega)]
  · simp [divDraw]
  · have h1 : ∀ x : State, (divDraw x).reg8 .al = x.reg8 .al := fun x => rfl
    have h2 : ∀ x : State, (divDraw x).reg8 .ah = x.reg8 .ah := fun x => rfl
    simp only [h1, h2, State.reg8_setReg8, if_true, reduceCtorEq, if_false, BitVec.toNat_ofNat]
    rw [Nat.mod_eq_of_lt (by omega), Nat.mod_eq_of_lt (by omega), Nat.mul_comm]; exact e
  · have h2 : ∀ x : State, (divDraw x).reg8 .ah = x.reg8 .ah := fun x => rfl
    simp only [h2, State.reg8_setReg8, if_true, BitVec.toNat_ofNat]
    rw [Nat.mod_eq_of_lt (by omega)]; exact hr
  · exact ((((Place.reg8 .al).put_frame _ s).trans ((Place.reg8 .ah).put_frame _ _)).trans (divDraw_frame _)).mono
      (by simp [Place.gp, parent]) (by simp [Place.seg]) (by simp) (by simp [Place.bytes])

/-- R209: what a DIV of 16 bits does. -/
theorem div16_eq {v : Word} {s : State} (h : s.dx.toNat * 65536 + s.ax.toNat < 65536 * v.toNat) :
    ∃ t, div16 v s = .ok t ∧ t.ip = s.ip ∧
      t.ax.toNat * v.toNat + t.dx.toNat = s.dx.toNat * 65536 + s.ax.toNat ∧ t.dx.toNat < v.toNat ∧
      Frame [.ax, .dx] [] statusBits [] 6 s t := by
  have hv : v ≠ 0 := fun e => by simp [e] at h
  have hvn : 0 < v.toNat := by omega
  have hq : (s.dx.toNat * 65536 + s.ax.toNat) / v.toNat < 65536 := (Nat.div_lt_iff_lt_mul hvn).2 h
  have hr : (s.dx.toNat * 65536 + s.ax.toNat) % v.toNat < v.toNat := Nat.mod_lt _ hvn
  have hb := v.isLt
  have e := Nat.div_add_mod (s.dx.toNat * 65536 + s.ax.toNat) v.toNat
  refine ⟨divDraw ((s.setReg16 .ax (BitVec.ofNat 16 ((s.dx.toNat * 65536 + s.ax.toNat) / v.toNat))).setReg16 .dx
    (BitVec.ofNat 16 ((s.dx.toNat * 65536 + s.ax.toNat) % v.toNat))), ?_, ?_, ?_, ?_, ?_⟩
  · simp only [div16, if_neg hv]; rw [if_neg (by omega)]
  · simp [divDraw]
  · simp only [divDraw, State.setReg16_dx, State.setReg16_ax, if_true, reduceCtorEq, if_false, BitVec.toNat_ofNat]
    rw [Nat.mod_eq_of_lt hq, Nat.mod_eq_of_lt (by omega), Nat.mul_comm]; exact e
  · simp only [divDraw, State.setReg16_dx, if_true, BitVec.toNat_ofNat]
    rw [Nat.mod_eq_of_lt (by omega)]; exact hr
  · exact ((((Place.reg16 .ax).put_frame _ s).trans ((Place.reg16 .dx).put_frame _ _)).trans (divDraw_frame _)).mono
      (by simp [Place.gp]) (by simp [Place.seg]) (by simp) (by simp [Place.bytes])

/-- R209, R211: the faults of DIV. -/
theorem div8_zero (s : State) : div8 0 s = .error (.divideByZero s.p0) := rfl

theorem div16_zero (s : State) : div16 0 s = .error (.divideByZero s.p0) := rfl

theorem div8_overflow {v : Byte} {s : State} (hv : v ≠ 0) (h : 256 * v.toNat ≤ s.ax.toNat) :
    div8 v s = .error (.divideOverflow s.p0) := by
  have hvn : 0 < v.toNat := Nat.pos_of_ne_zero fun e => hv (BitVec.eq_of_toNat_eq (by simpa using e))
  simp only [div8, if_neg hv]
  rw [if_pos (show 2 ^ 8 ≤ _ from (Nat.le_div_iff_mul_le hvn).2 h)]

theorem div16_overflow {v : Word} {s : State} (hv : v ≠ 0)
    (h : 65536 * v.toNat ≤ s.dx.toNat * 65536 + s.ax.toNat) : div16 v s = .error (.divideOverflow s.p0) := by
  have hvn : 0 < v.toNat := Nat.pos_of_ne_zero fun e => hv (BitVec.eq_of_toNat_eq (by simpa using e))
  simp only [div16, if_neg hv]
  rw [if_pos (show 2 ^ 16 ≤ _ from (Nat.le_div_iff_mul_le hvn).2 h)]

end Sys2Proof.Machine
end

