-- ==== Sys2Proof/Laws/Interrupt.lean ====
section
/-! SUPPORT. Taking an interrupt and returning from it: what each leaves, and its one fault. -/

namespace Sys2Proof.Machine

open Sys2Proof

/-! ## The three stacked words -/

/-- R290: the word pushed one further lies below the first, and the two do not overlap. -/
theorem phys_apart {seg off off' : Word} (h : off - off' = 2 ∨ off - off' = 4) :
    phys seg off + 1 < phys seg off' ∨ phys seg off' + 1 < phys seg off := by
  have b1 := seg.isLt
  have b2 := off.isLt
  have b3 := off'.isLt
  have c2 : (2 : Word).toNat = 2 := rfl
  have c4 : (4 : Word).toNat = 4 := rfl
  simp only [← BitVec.toNat_inj, BitVec.toNat_sub, c2, c4] at h
  simp only [phys, Config.memSize] at *
  omega

/-- R290: where the second of two pushes stores its word. -/
theorem pushAddr_pushed (v : Word) (s : State) : pushAddr (s.pushed v) = phys s.ss (s.sp - 4) := by
  rw [pushAddr, State.pushed_ss, State.pushed_sp]; congr 1; bv_omega

/-- R290: where the third of three pushes stores its word. -/
theorem pushAddr_pushed_pushed (v v' : Word) (s : State) :
    pushAddr ((s.pushed v).pushed v') = phys s.ss (s.sp - 6) := by
  rw [pushAddr_pushed, State.pushed_ss, State.pushed_sp]; congr 1; bv_omega

/-- A push leaves every word that does not overlap its own. R56, R290. -/
theorem State.pushed_word_other (v : Word) (s : State) {a : Nat}
    (h : pushAddr s + 1 < a ∨ a + 1 < pushAddr s) : (s.pushed v).mem.word a = s.mem.word a := by
  apply Memory.word_congr <;> apply (s.pushed_frame v).mem <;>
    simp only [List.mem_cons, List.not_mem_nil, or_false] <;> omega

/-- FLAGS, CS and the return IP pushed. R310. -/
def State.stacked (size : Nat) (s : State) : State := ((s.pushed s.flags).pushed s.cs).pushed (s.nextIp size)

/-- R310: what an interrupt entry leaves, IP and CS read after the pushes. -/
def State.entered (n : Byte) (size : Nat) (s : State) : State :=
  let t := s.stacked size
  { t with
    flags := setFlag .ief false (setFlag .tf false t.flags)
    ip := (Place.mem16 (4 * n.toNat)).value t
    cs := (Place.mem16 (4 * n.toNat + 2)).value t }

/-- R310: what an interrupt entry does. -/
theorem enter_eq {s : State} (h1 : phys s.ss (s.sp - 2) ≠ 0xFFFFF) (h2 : phys s.ss (s.sp - 4) ≠ 0xFFFFF)
    (h3 : phys s.ss (s.sp - 6) ≠ 0xFFFFF) (n : Byte) (size : Nat) : enter n size s = .ok (s.entered n size) := by
  have hn := n.isLt
  simp only [enter, bind, Except.bind, push_eq h1]
  rw [push_eq (by rw [pushAddr_pushed]; exact h2)]
  simp only
  rw [push_eq (by rw [pushAddr_pushed_pushed]; exact h3)]
  simp only
  rw [State.load16_eq _ (by simp only [Config.memSize]; omega)]
  simp only
  rw [State.load16_eq _ (by simp only [Config.memSize]; omega)]
  simp only [State.entered, State.stacked, Place.value, ofNat_word]
  rfl

/-- R57: an interrupt one of whose pushes is at the top of memory. -/
theorem enter_top {s : State}
    (h : phys s.ss (s.sp - 2) = 0xFFFFF ∨ phys s.ss (s.sp - 4) = 0xFFFFF ∨ phys s.ss (s.sp - 6) = 0xFFFFF)
    (n : Byte) (size : Nat) : enter n size s = .error (.memoryOutOfBounds 0xFFFFF 2) := by
  by_cases h1 : phys s.ss (s.sp - 2) = 0xFFFFF
  · simp only [enter, bind, Except.bind, push_top h1]
  simp only [enter, bind, Except.bind, push_eq h1]
  by_cases h2 : phys s.ss (s.sp - 4) = 0xFFFFF
  · rw [push_top (by rw [pushAddr_pushed]; exact h2)]
  rw [push_eq (by rw [pushAddr_pushed]; exact h2)]
  simp only
  rw [push_top (by rw [pushAddr_pushed_pushed]; exact (h.resolve_left h1).resolve_left h2)]

theorem State.stacked_frame (size : Nat) (s : State) :
    Frame [.sp] [] []
      [phys s.ss (s.sp - 2), phys s.ss (s.sp - 2) + 1, phys s.ss (s.sp - 4), phys s.ss (s.sp - 4) + 1,
        phys s.ss (s.sp - 6), phys s.ss (s.sp - 6) + 1] 0 s (s.stacked size) := by
  have := ((s.pushed_frame s.flags).trans ((s.pushed s.flags).pushed_frame s.cs)).trans
    (((s.pushed s.flags).pushed s.cs).pushed_frame (s.nextIp size))
  rw [pushAddr_pushed, pushAddr_pushed_pushed, pushAddr] at this
  exact this.mono (by simp) (by simp) (by simp) (by simp)

@[simp] theorem State.stacked_sp (size : Nat) (s : State) : (s.stacked size).sp = s.sp - 6 := by
  simp only [State.stacked, State.pushed_sp]; bv_omega

@[simp] theorem State.stacked_flags (size : Nat) (s : State) : (s.stacked size).flags = s.flags := by
  simp [State.stacked]

@[simp] theorem State.stacked_ss (size : Nat) (s : State) : (s.stacked size).ss = s.ss := by simp [State.stacked]

/-- R310: the three words an interrupt stacks. -/
theorem State.stacked_words (s : State) (size : Nat) :
    (s.stacked size).mem.word (phys s.ss (s.sp - 2)) = s.flags.toNat ∧
    (s.stacked size).mem.word (phys s.ss (s.sp - 4)) = s.cs.toNat ∧
    (s.stacked size).mem.word (phys s.ss (s.sp - 6)) = (s.nextIp size).toNat := by
  have d12 := phys_apart (seg := s.ss) (off := s.sp - 2) (off' := s.sp - 4) (by left; bv_omega)
  have d13 := phys_apart (seg := s.ss) (off := s.sp - 2) (off' := s.sp - 6) (by right; bv_omega)
  have d23 := phys_apart (seg := s.ss) (off := s.sp - 4) (off' := s.sp - 6) (by left; bv_omega)
  refine ⟨?_, ?_, ?_⟩
  · rw [State.stacked, State.pushed_word_other _ _ (by rw [pushAddr_pushed_pushed]; exact d13.symm),
      State.pushed_word_other _ _ (by rw [pushAddr_pushed]; exact d12.symm)]
    exact State.pushed_word _ _
  · rw [State.stacked, State.pushed_word_other _ _ (by rw [pushAddr_pushed_pushed]; exact d23.symm), ← pushAddr_pushed s.flags]
    exact State.pushed_word _ _
  · rw [State.stacked, ← pushAddr_pushed_pushed s.flags s.cs]
    exact State.pushed_word _ _

/-! ## The return -/

/-- R314: what the return from an interrupt leaves. -/
def State.returned (s : State) : State :=
  { s with
    sp := s.sp + 6
    ip := (Place.mem16 (phys s.ss s.sp)).value s
    cs := (Place.mem16 (phys s.ss (s.sp + 2))).value s
    flags := (Place.mem16 (phys s.ss (s.sp + 4))).value s }

/-- R314: what IRET does. -/
theorem interruptReturn_eq {s : State} (h1 : phys s.ss s.sp ≠ 0xFFFFF) (h2 : phys s.ss (s.sp + 2) ≠ 0xFFFFF)
    (h3 : phys s.ss (s.sp + 4) ≠ 0xFFFFF) : interruptReturn s = .ok s.returned := by
  have e2 : s.sp + 2 + 2 = s.sp + 4 := by bv_omega
  have e3 : s.sp + 4 + 2 = s.sp + 6 := by bv_omega
  simp only [interruptReturn, bind, Except.bind, pop_eq h1]
  rw [pop_eq (by exact h2)]
  simp only [State.setReg16]
  rw [pop_eq (by simp only [e2]; exact h3)]
  simp only [State.setReg16, e2, e3, State.returned, Place.value]

/-- R57: an IRET one of whose pops is at the top of memory. -/
theorem interruptReturn_top {s : State}
    (h : phys s.ss s.sp = 0xFFFFF ∨ phys s.ss (s.sp + 2) = 0xFFFFF ∨ phys s.ss (s.sp + 4) = 0xFFFFF) :
    interruptReturn s = .error (.memoryOutOfBounds 0xFFFFF 2) := by
  have e2 : s.sp + 2 + 2 = s.sp + 4 := by bv_omega
  by_cases h1 : phys s.ss s.sp = 0xFFFFF
  · simp only [interruptReturn, bind, Except.bind, pop_top h1]
  simp only [interruptReturn, bind, Except.bind, pop_eq h1]
  by_cases h2 : phys s.ss (s.sp + 2) = 0xFFFFF
  · rw [pop_top (by exact h2)]
  rw [pop_eq (by exact h2)]
  simp only [State.setReg16]
  rw [pop_top (by simp only [e2]; exact (h.resolve_left h1).resolve_left h2)]

end Sys2Proof.Machine
end

