-- ==== Sys2Proof/Laws/StringOps.lean ====
section
/-! SUPPORT. What a STOS does: one store, and the fill of a repeated one, by induction on the count. -/

namespace Sys2Proof.Machine

open Sys2Proof

/-- The bytes a width stores. -/
def Width.bytes : Width → Nat
  | .byte => 1
  | .word => 2

/-- DI after `k` stores of width `w`. R331. -/
def stosDi (w : Width) (s : State) (k : Nat) : Word :=
  if getFlag .df s.flags then s.di - BitVec.ofNat 16 (Width.bytes w * k) else s.di + BitVec.ofNat 16 (Width.bytes w * k)

/-- Where the `k`-th store of width `w` goes. R331. -/
def stosCell (w : Width) (s : State) (k : Nat) : Nat := phys s.stosSeg (stosDi w s k)

/-- The state one store leaves. R331. -/
def stosPut (w : Width) (s : State) : State :=
  moveDi (BitVec.ofNat 16 (Width.bytes w))
    (match w with
    | .byte => (Place.mem8 (stosCell .byte s 0)).put (s.reg8 .al) s
    | .word => (Place.mem16 (stosCell .word s 0)).put s.ax s)

@[simp] theorem stosDi_zero (w : Width) (s : State) : stosDi w s 0 = s.di := by simp [stosDi]

theorem stosOnce_byte (s : State) : stosOnce .byte s = .ok (stosPut .byte s) := by
  simp only [stosOnce, bind, Except.bind, State.store8_eq s (phys_lt s.stosSeg s.di), stosPut, stosCell, stosDi_zero,
    Place.put, Width.bytes]
  rfl

theorem stosOnce_word {s : State} (h : stosCell .word s 0 ≠ 0xFFFFF) : stosOnce .word s = .ok (stosPut .word s) := by
  have := phys_lt s.stosSeg s.di
  simp only [stosCell, stosDi_zero, Config.memSize] at h this
  simp only [stosOnce, bind, Except.bind]
  rw [State.store16_eq s (by simp only [Config.memSize]; omega)]
  simp only [stosPut, stosCell, stosDi_zero, Place.put, Width.bytes]
  rfl

/-- R57. -/
theorem stosOnce_top {s : State} (h : stosCell .word s 0 = 0xFFFFF) :
    stosOnce .word s = .error (.memoryOutOfBounds 0xFFFFF 2) := by
  simp only [stosCell, stosDi_zero] at h
  simp only [stosOnce, bind, Except.bind, h, State.store16_top s (a := 0xFFFFF) (by decide)]

/-- The bytes of one store. R331. -/
def stosBytes (w : Width) (s : State) (k : Nat) : List Nat :=
  match w with
  | .byte => [stosCell .byte s k]
  | .word => [stosCell .word s k, stosCell .word s k + 1]

theorem stosPut_frame (w : Width) (s : State) : Frame [.di] [] [] (stosBytes w s 0) 0 s (stosPut w s) := by
  cases w
  · exact (((Place.mem8 _).put_frame (s.reg8 .al) s).trans ((Place.reg16 .di).put_frame _ _)).mono
      (by simp [Place.gp]) (by simp [Place.seg]) (by simp) (by simp [Place.bytes, stosBytes])
  · exact (((Place.mem16 _).put_frame s.ax s).trans ((Place.reg16 .di).put_frame _ _)).mono
      (by simp [Place.gp]) (by simp [Place.seg]) (by simp) (by simp [Place.bytes, stosBytes])

@[simp] theorem stosPut_ip (w : Width) (s : State) : (stosPut w s).ip = s.ip := by
  cases w <;> simp [stosPut, moveDi]

@[simp] theorem stosPut_flags (w : Width) (s : State) : (stosPut w s).flags = s.flags := by
  cases w <;> simp [stosPut, moveDi]

@[simp] theorem stosPut_di (w : Width) (s : State) : (stosPut w s).di = stosDi w s 1 := by
  cases w <;> simp [stosPut, moveDi, stosDi, Place.put] <;> rfl

/-- The state of the next iteration of a repeated STOS. R331. -/
def stosNext (w : Width) (s : State) : State := (stosPut w s).setReg16 .cx ((stosPut w s).cx - 1)

theorem stosNext_frame (w : Width) (s : State) : Frame [.cx, .di] [] [] (stosBytes w s 0) 0 s (stosNext w s) :=
  ((stosPut_frame w s).trans ((Place.reg16 .cx).put_frame _ _)).mono (by simp [Place.gp]) (by simp [Place.seg]) (by simp)
    (by simp [Place.bytes])

theorem stosNext_di (w : Width) (s : State) (k : Nat) : stosDi w (stosNext w s) k = stosDi w s (k + 1) := by
  have e : BitVec.ofNat 16 (Width.bytes w * (k + 1)) = BitVec.ofNat 16 (Width.bytes w * 1) + BitVec.ofNat 16 (Width.bytes w * k) := by
    rw [← BitVec.ofNat_add, ← Nat.mul_add, Nat.add_comm]
  have hd : (stosNext w s).di = stosDi w s 1 := by simp [stosNext]
  have hf : (stosNext w s).flags = s.flags := by simp [stosNext]
  simp only [stosDi, hf, hd, e]
  split
  · rw [BitVec.sub_sub]
  · rw [BitVec.add_assoc]

theorem stosNext_cell (w : Width) (s : State) (k : Nat) : stosCell w (stosNext w s) k = stosCell w s (k + 1) := by
  have F := stosNext_frame w s
  have h : (stosNext w s).stosSeg = s.stosSeg := by
    simp only [State.stosSeg, F.cfg]
    cases s.cfg.stosSegment
    · exact F.seg .es (by simp)
    · exact F.seg .ds (by simp)
  rw [stosCell, stosNext_di, h]; rfl

theorem stosNext_cx (w : Width) (s : State) : (stosNext w s).cx = s.cx - 1 := by
  have : (stosPut w s).cx = s.cx := (stosPut_frame w s).gp .cx (by simp)
  simp [stosNext, this]

theorem stosNext_bytes (w : Width) (s : State) (k : Nat) : stosBytes w (stosNext w s) k = stosBytes w s (k + 1) := by
  cases w <;> simp only [stosBytes, stosNext_cell]

/-- Every store of the `k` a repeated STOS makes is within memory. R57. -/
def StosFits (w : Width) (s : State) (k : Nat) : Prop := w = .word → ∀ j, j < k → stosCell .word s j ≠ 0xFFFFF

/-- What every cell of a repeated STOS holds after it. R331. -/
def stosHeld (w : Width) (s : State) (m : Memory) (a : Nat) : Prop :=
  match w with
  | .byte => m.read a = s.reg8 .al
  | .word => m.word a = s.ax.toNat

theorem stosOnce_eq {w : Width} {s : State} {k : Nat} (h : StosFits w s (k + 1)) : stosOnce w s = .ok (stosPut w s) := by
  cases w
  · exact stosOnce_byte s
  · exact stosOnce_word (h rfl 0 (by omega))

theorem stosFits_next {w : Width} {s : State} {k : Nat} (h : StosFits w s (k + 1)) : StosFits w (stosNext w s) k := by
  rintro rfl j hj
  rw [stosNext_cell]
  exact h rfl (j + 1) (by omega)

theorem stosHeld_put (w : Width) (s : State) : stosHeld w s (stosPut w s).mem (stosCell w s 0) := by
  cases w
  · simp [stosHeld, stosPut, moveDi, Place.put]
  · simp [stosHeld, stosPut, moveDi, Place.put, Memory.word_eq]

theorem stosHeld_next (w : Width) (s : State) (m : Memory) (a : Nat) : stosHeld w (stosNext w s) m a = stosHeld w s m a := by
  have h := (stosNext_frame w s).gp .ax (by simp)
  have h' : (stosNext w s).ax = s.ax := h
  cases w
  · simp only [stosHeld, State.reg8, parent, h]
  · simp only [stosHeld, h']

/-- R331: the words a repeated STOSW stores are all of one parity, so no two of them overlap in part. -/
theorem stosCell_parity (s : State) (k : Nat) : stosCell .word s k % 2 = s.di.toNat % 2 := by
  simp only [stosCell, stosDi, phys, Config.memSize, Width.bytes]
  split
  · rw [BitVec.toNat_sub, BitVec.toNat_ofNat]; omega
  · rw [BitVec.toNat_add, BitVec.toNat_ofNat]; omega

/-- R331: what a repeated STOS of `k` iterations does. -/
theorem stosRep_eq (w : Width) (k : Nat) {s : State} (h : StosFits w s k) :
    ∃ t, stosRep w k s = .ok t ∧ t.ip = s.ip ∧ t.cx = s.cx - BitVec.ofNat 16 k ∧ t.di = stosDi w s k ∧
      (∀ j, j < k → stosHeld w s t.mem (stosCell w s j)) ∧
      Frame [.cx, .di] [] [] ((List.range k).flatMap (stosBytes w s)) 0 s t := by
  induction k generalizing s with
  | zero =>
    refine ⟨s, rfl, rfl, by simp, by simp, fun j hj => absurd hj (Nat.not_lt_zero _), ?_⟩
    exact (Frame.refl s).mono (by simp) (by simp) (by simp) (by simp)
  | succ k ih =>
    obtain ⟨t, ht, hi, hc, hd, hm, F⟩ := ih (stosFits_next h)
    have hb : ∀ j, stosBytes w (stosNext w s) j = stosBytes w s (j + 1) := stosNext_bytes w s
    refine ⟨t, ?_, ?_, ?_, ?_, ?_, ?_⟩
    · simp only [stosRep, bind, Except.bind, stosOnce_eq h]; exact ht
    · rw [hi]; simp [stosNext]
    · rw [hc, stosNext_cx, BitVec.sub_sub, Nat.add_comm, BitVec.ofNat_add]; rfl
    · rw [hd, stosNext_di]
    · intro j hj
      cases j with
      | succ j =>
        have := hm j (by omega)
        rwa [stosNext_cell, stosHeld_next] at this
      | zero =>
        by_cases hx : ∃ j, j < k ∧ stosCell w s (j + 1) = stosCell w s 0
        · obtain ⟨j, hj, e⟩ := hx
          have := hm j hj
          rwa [stosNext_cell, stosHeld_next, e] at this
        · have keep : ∀ a, (∀ j, j < k → a ∉ stosBytes w s (j + 1)) → t.mem.read a = (stosPut w s).mem.read a := by
            intro a ha
            rw [F.mem a]
            · simp [stosNext]
            · simp only [List.mem_flatMap, List.mem_range, not_exists, not_and, hb]
              exact ha
          have e0 := stosHeld_put w s
          cases w with
          | byte =>
            rw [stosHeld] at e0 ⊢
            rw [keep _ fun j hj hm => hx ⟨j, hj, by simpa [stosBytes, eq_comm] using hm⟩]
            exact e0
          | word =>
            rw [stosHeld] at e0 ⊢
            have p := fun j => stosCell_parity s j
            have p0 := p 0
            rw [← e0]
            apply Memory.word_congr <;> apply keep <;> intro j hj hm' <;>
              simp only [stosBytes, List.mem_cons, List.not_mem_nil, or_false] at hm' <;>
              have pj := p (j + 1) <;> exact hx ⟨j, hj, by omega⟩
    · refine ((stosNext_frame w s).trans F).mono (by simp) (by simp) (by simp) ?_
      rw [List.range_succ_eq_map, List.flatMap_cons, List.flatMap_map, funext hb]
      simp

/-- R57: a repeated STOSW one of whose stores is at the top of memory. -/
theorem stosRep_top (k : Nat) {s : State} (h : ∃ j, j < k ∧ stosCell .word s j = 0xFFFFF) :
    stosRep .word k s = .error (.memoryOutOfBounds 0xFFFFF 2) := by
  induction k generalizing s with
  | zero => obtain ⟨j, hj, -⟩ := h; omega
  | succ k ih =>
    by_cases h0 : stosCell .word s 0 = 0xFFFFF
    · simp only [stosRep, bind, Except.bind, stosOnce_top h0]
    · simp only [stosRep, bind, Except.bind, stosOnce_word h0]
      apply ih (s := stosNext .word s)
      obtain ⟨j, hj, e⟩ := h
      cases j with
      | zero => exact absurd e h0
      | succ j => exact ⟨j, by omega, by rw [stosNext_cell]; exact e⟩

end Sys2Proof.Machine
end

