-- ==== Sys2Proof/Laws/Effect.lean ====
section
/-! SUPPORT. Said once: what any Execute stage can do. It keeps the loader's and the decoder's state and the memory's
canonical form, writes only its own bits of FLAGS, changes CS only where an interrupt or IRET does, refuses nothing and
faults only by name. -/

namespace Sys2Proof.Machine

open Sys2Proof

/-- The bits of FLAGS `bits` may change, CS may change where `cs`; the rest of what no Execute stage changes. -/
structure Effect (bits : List Nat) (cs : Bool) (s t : State) : Prop where
  origin : t.imageOrigin = s.imageOrigin
  end_ : t.imageEnd = s.imageEnd
  cursor : t.cursor = s.cursor
  last : t.last = s.last
  dtable : t.dtable = s.dtable
  cfg : t.cfg = s.cfg
  wf : s.mem.wf → t.mem.wf
  bounded : s.mem.bounded → t.mem.bounded
  flags : ∀ k, k ∉ bits → t.flags.getLsbD k = s.flags.getLsbD k
  cs : cs = false → t.cs = s.cs

theorem Effect.refl (s : State) : Effect [] false s s := by constructor <;> intros <;> first | rfl | assumption

theorem Effect.trans {b b' c c'} {s t u : State} (h : Effect b c s t) (h' : Effect b' c' t u) :
    Effect (b ++ b') (c || c') s u := by
  refine ⟨h'.origin.trans h.origin, h'.end_.trans h.end_, h'.cursor.trans h.cursor, h'.last.trans h.last,
    h'.dtable.trans h.dtable, h'.cfg.trans h.cfg, fun m => h'.wf (h.wf m), fun m => h'.bounded (h.bounded m), ?_, ?_⟩
  · intro k hk
    simp only [List.mem_append, not_or] at hk
    rw [h'.flags k hk.2, h.flags k hk.1]
  · intro e
    simp only [Bool.or_eq_false_iff] at e
    rw [h'.cs e.2, h.cs e.1]

theorem Effect.mono {b b' c c'} {s t : State} (h : Effect b c s t) (hb : b ⊆ b') (hc : c' = false → c = false) :
    Effect b' c' s t :=
  ⟨h.origin, h.end_, h.cursor, h.last, h.dtable, h.cfg, h.wf, h.bounded, fun k hk => h.flags k fun e => hk (hb e),
    fun e => h.cs (hc e)⟩

theorem Effect.setIp {b c} {s t : State} (h : Effect b c s t) (v : Word) : Effect b c s (t.setIp v) :=
  ⟨h.origin, h.end_, h.cursor, h.last, h.dtable, h.cfg, h.wf, h.bounded, h.flags, h.cs⟩

theorem Effect.setReg16 {b c} {s t : State} (h : Effect b c s t) (r : Reg16) (v : Word) :
    Effect b c s (t.setReg16 r v) := by
  cases r <;>
    exact ⟨h.origin, h.end_, h.cursor, h.last, h.dtable, h.cfg, h.wf, h.bounded, h.flags, h.cs⟩

theorem Effect.ofFlags {b c} {s t : State} {w : Word} (hw : ∀ k, k ∉ b → w.getLsbD k = s.flags.getLsbD k)
    (h : Effect [] c (s.setFlags w) t) : Effect b c s t :=
  ⟨h.origin, h.end_, h.cursor, h.last, h.dtable, h.cfg, h.wf, h.bounded,
    fun k hk => (h.flags k (by simp)).trans (hw k hk), h.cs⟩

theorem Effect.setFlags {b} {s : State} {w : Word} (hw : ∀ k, k ∉ b → w.getLsbD k = s.flags.getLsbD k) :
    Effect b false s (s.setFlags w) := Effect.ofFlags hw (Effect.refl _)

/-! ## Places -/

/-- The address of the place is an address of memory. R52, R54. -/
def Place.Within : {n : Nat} → Place n → Prop
  | _, .mem8 a | _, .mem16 a => a < Config.memSize
  | _, .reg8 _ | _, .reg16 _ | _, .sreg _ => True

/-- The address of the operand is an address of memory. R52, R54. -/
def Opnd.Within {n : Nat} : Opnd n → Prop
  | .place p => p.Within
  | .imm _ => True

theorem rm8_within (c : Ctx) (s : State) (x : Rm Reg8) : (rm8 c s x).Within := by
  cases x <;> first | trivial | exact eaAddr_lt _ _ _

theorem rm16_within (c : Ctx) (s : State) (x : Rm Reg16) : (rm16 c s x).Within := by
  cases x <;> first | trivial | exact eaAddr_lt _ _ _

/-- The fault of a word access at the last byte of memory. R57. -/
abbrev topWord : Fault := .memoryOutOfBounds 0xFFFFF 2

theorem Place.within_cases {n : Nat} {p : Place n} (h : p.Within) : p.InMemory ∨ HEq p (Place.mem16 0xFFFFF) := by
  cases p with
  | mem16 a =>
    simp only [Place.Within, Config.memSize] at h
    by_cases e : a = 0xFFFFF
    · subst e; exact .inr HEq.rfl
    · exact .inl (by simp only [Place.InMemory, Config.memSize]; omega)
  | mem8 a => exact .inl h
  | _ => exact .inl trivial

/-- What reading a place can do. R57, R150. -/
theorem Place.read_cases {n : Nat} {p : Place n} (h : p.Within) (s : State) :
    p.read s = .ok (p.value s) ∨ p.read s = .error topWord := by
  cases p with
  | mem16 a =>
    by_cases e : a = 0xFFFFF
    · subst e; exact .inr (Place.read_top s)
    · exact .inl (Place.read_eq (by simp only [Place.Within, Place.InMemory, Config.memSize] at *; omega) s)
  | mem8 a => exact .inl (Place.read_eq (p := .mem8 a) h s)
  | _ => exact .inl rfl

theorem Opnd.read_cases {n : Nat} {x : Opnd n} (h : x.Within) (s : State) :
    x.read s = .ok (x.value s) ∨ x.read s = .error topWord := by
  cases x with
  | place p => exact p.read_cases h s
  | imm v => exact .inl rfl

/-- What a part of an Execute stage can do: its effect, or one of its faults. -/
def Ans (bits : List Nat) (cs : Bool) (faults : Fault → Prop) (s : State) : Exec State → Prop
  | .ok t => Effect bits cs s t
  | .error f => faults f

/-- The faults of an instruction whose accesses alone can fault. -/
abbrev onlyTop : Fault → Prop := (· = topWord)

theorem Place.put_effect {n : Nat} {p : Place n} (h : p.InMemory) (v : BitVec n) (s : State) :
    Effect [] false s (p.put v s) := by
  cases p with
  | reg8 r => exact (Effect.refl s).setReg16 _ _
  | reg16 r => exact (Effect.refl s).setReg16 _ _
  | sreg r =>
    cases r <;> exact ⟨rfl, rfl, rfl, rfl, rfl, rfl, id, id, fun _ _ => rfl, fun _ => rfl⟩
  | mem8 a =>
    refine ⟨rfl, rfl, rfl, rfl, rfl, rfl, fun m => ?_, fun m => ?_, fun _ _ => rfl, fun _ => rfl⟩
    · exact Memory.write_wf m _ _
    · exact Memory.write_bounded m h _
  | mem16 a =>
    simp only [Place.InMemory] at h
    refine ⟨rfl, rfl, rfl, rfl, rfl, rfl, fun m => ?_, fun m => ?_, fun _ _ => rfl, fun _ => rfl⟩
    · exact Memory.write_wf (Memory.write_wf m _ _) _ _
    · exact Memory.write_bounded (Memory.write_bounded m (by omega) _) h _

theorem Place.write_ans {n : Nat} {p : Place n} (h : p.Within) (v : BitVec n) (s : State) :
    Ans [] false onlyTop s (p.write v s) := by
  cases p with
  | mem16 a =>
    by_cases e : a = 0xFFFFF
    · subst e; rw [Place.write_top]; rfl
    · have hm : (Place.mem16 a).InMemory := by simp only [Place.Within, Place.InMemory, Config.memSize] at *; omega
      rw [Place.write_eq hm]; exact Place.put_effect hm v s
  | mem8 a => rw [Place.write_eq (p := .mem8 a) h]; exact Place.put_effect (p := .mem8 a) h v s
  | reg8 r => exact Place.put_effect (p := .reg8 r) trivial v s
  | reg16 r => exact Place.put_effect (p := .reg16 r) trivial v s
  | sreg r => exact Place.put_effect (p := .sreg r) trivial v s

theorem Ans.ofFlags {b c Q} {s : State} {x : Exec State} {w : Word}
    (hw : ∀ k, k ∉ b → w.getLsbD k = s.flags.getLsbD k) (h : Ans [] c Q (s.setFlags w) x) : Ans b c Q s x := by
  cases x with
  | ok t => exact Effect.ofFlags hw h
  | error f => exact h

theorem Ans.read {n : Nat} {b c} {p : Place n} (hp : p.Within) {s : State} {k : BitVec n → Exec State}
    (h : Ans b c onlyTop s (k (p.value s))) : Ans b c onlyTop s (p.read s >>= k) := by
  rcases p.read_cases hp s with e | e <;> rw [e]
  · exact h
  · rfl

theorem Ans.readOpnd {n : Nat} {b c} {p : Opnd n} (hp : p.Within) {s : State} {k : BitVec n → Exec State}
    (h : Ans b c onlyTop s (k (p.value s))) : Ans b c onlyTop s (p.read s >>= k) := by
  rcases p.read_cases hp s with e | e <;> rw [e]
  · exact h
  · rfl

/-! ## The shared operations -/

theorem aluFlags_other {n : Nat} (p : ParityScope) (op : AluOp) (a b : BitVec n) (w : Word) {k : Nat}
    (h : k ∉ statusBits) : (aluFlags p op a b w).getLsbD k = w.getLsbD k := by
  cases op
  · exact arithFlags_other _ _ _ _ _ h
  · exact logicFlags_other _ _ _ h
  · exact logicFlags_other _ _ _ h
  · exact arithFlags_other _ _ _ _ _ h
  · exact logicFlags_other _ _ _ h
  · exact arithFlags_other _ _ _ _ _ h

theorem alu_ans {n : Nat} (op : AluOp) {d : Place n} {x : Opnd n} (hd : d.Within) (hx : x.Within) (s : State) :
    Ans statusBits false onlyTop s (alu op d x s) := by
  rw [alu]
  rcases d.read_cases hd s with e | e <;> rw [e]
  · rcases x.read_cases hx s with e' | e' <;> rw [e']
    · simp only [bind, Except.bind]
      split
      · exact Ans.ofFlags (fun k hk => aluFlags_other _ _ _ _ _ hk) (d.write_ans hd _ _)
      · exact Effect.setFlags fun k hk => aluFlags_other _ _ _ _ _ hk
    · rfl
  · rfl

theorem testOp_ans {n : Nat} {d : Place n} {x : Opnd n} (hd : d.Within) (hx : x.Within) (s : State) :
    Ans statusBits false onlyTop s (testOp d x s) :=
  Ans.read hd (Ans.readOpnd hx (Effect.setFlags fun _ hk => logicFlags_other _ _ _ hk))

theorem incDec_ans {n : Nat} (op : ArithOp) {d : Place n} (hd : d.Within) (s : State) :
    Ans statusBits false onlyTop s (incDec op d s) :=
  Ans.read hd (Ans.ofFlags (fun _ hk => incDecFlags_other _ _ _ _ hk) (d.write_ans hd _ _))

theorem notOp_ans {n : Nat} {d : Place n} (hd : d.Within) (s : State) : Ans [] false onlyTop s (notOp d s) :=
  Ans.read hd (d.write_ans hd _ _)

theorem mov_ans {n : Nat} {d : Place n} {x : Opnd n} (hd : d.Within) (hx : x.Within) (s : State) :
    Ans [] false onlyTop s (mov d x s) :=
  Ans.readOpnd hx (d.write_ans hd _ _)

theorem mul8_effect (m : Byte) (s : State) : Effect statusBits false s (mul8 m s) :=
  ⟨rfl, rfl, rfl, rfl, rfl, rfl, id, id, fun _ hk => mulFlags_other _ _ _ hk, fun _ => rfl⟩

theorem mul16_effect (m : Word) (s : State) : Effect statusBits false s (mul16 m s) :=
  ⟨rfl, rfl, rfl, rfl, rfl, rfl, id, id, fun _ hk => mulFlags_other _ _ _ hk, fun _ => rfl⟩

/-- The faults of DIV. R209, R57. -/
def divFaults (s : State) (f : Fault) : Prop := f = topWord ∨ f = .divideByZero s.p0 ∨ f = .divideOverflow s.p0

theorem div8_ans (v : Byte) (s : State) : Ans statusBits false (divFaults s) s (div8 v s) := by
  simp only [div8]
  split
  · exact .inr (.inl rfl)
  · split
    · exact .inr (.inr rfl)
    · exact ⟨rfl, rfl, rfl, rfl, rfl, rfl, id, id, fun _ hk => divFlags_other _ _ hk, fun _ => rfl⟩

theorem div16_ans (v : Word) (s : State) : Ans statusBits false (divFaults s) s (div16 v s) := by
  simp only [div16]
  split
  · exact .inr (.inl rfl)
  · split
    · exact .inr (.inr rfl)
    · exact ⟨rfl, rfl, rfl, rfl, rfl, rfl, id, id, fun _ hk => divFlags_other _ _ hk, fun _ => rfl⟩

theorem push_ans (v : Word) (s : State) : Ans [] false onlyTop s (push v s) := by
  by_cases h : pushAddr s = 0xFFFFF
  · rw [push_top h]; rfl
  · rw [push_eq h]
    have := phys_lt s.ss (s.sp - 2)
    refine ((Effect.refl s).setReg16 .sp (s.sp - 2)).trans (Place.put_effect (p := .mem16 (pushAddr s)) ?_ v _)
    simp only [Place.InMemory, pushAddr, Config.memSize] at *; omega

theorem pop_cases (s : State) :
    pop s = .ok ((Place.mem16 (phys s.ss s.sp)).value s, s.setReg16 .sp (s.sp + 2)) ∨ pop s = .error topWord := by
  by_cases h : phys s.ss s.sp = 0xFFFFF
  · exact .inr (pop_top h)
  · exact .inl (pop_eq h)

theorem popTo_ans {d : Place 16} (hd : d.Within) (s : State) : Ans [] false onlyTop s (popTo d s) := by
  simp only [popTo, bind, Except.bind]
  rcases pop_cases s with e | e <;> rw [e]
  · have := d.write_ans hd ((Place.mem16 (phys s.ss s.sp)).value s) (s.setReg16 .sp (s.sp + 2))
    simp only
    cases hx : d.write ((Place.mem16 (phys s.ss s.sp)).value s) (s.setReg16 .sp (s.sp + 2)) with
    | ok t => rw [hx] at this; exact ((Effect.refl s).setReg16 .sp (s.sp + 2)).trans this
    | error f => rw [hx] at this; exact this
  · rfl

theorem popFlags_ans (s : State) : Ans (List.range 16) false onlyTop s (popFlags s) := by
  simp only [popFlags, bind, Except.bind]
  rcases pop_cases s with e | e <;> rw [e]
  · refine (((Effect.refl s).setReg16 .sp (s.sp + 2)).trans (Effect.setFlags (b := List.range 16) ?_))
    intro k hk
    simp only [List.mem_range, not_lt] at hk
    rw [BitVec.getLsbD_of_ge _ _ hk, BitVec.getLsbD_of_ge _ _ hk]
  · rfl

theorem pushed_effect {s : State} (h : pushAddr s ≠ 0xFFFFF) (v : Word) : Effect [] false s (s.pushed v) := by
  have := push_ans v s
  rwa [push_eq h] at this

theorem enter_ans (n : Byte) (size : Nat) (s : State) : Ans [8, 9] true onlyTop s (enter n size s) := by
  by_cases h : phys s.ss (s.sp - 2) = 0xFFFFF ∨ phys s.ss (s.sp - 4) = 0xFFFFF ∨ phys s.ss (s.sp - 6) = 0xFFFFF
  · rw [enter_top h]; rfl
  · simp only [not_or] at h
    obtain ⟨h1, h2, h3⟩ := h
    rw [enter_eq h1 h2 h3]
    have e := ((pushed_effect h1 s.flags).trans (pushed_effect (by rw [pushAddr_pushed]; exact h2) s.cs)).trans
      (pushed_effect (by rw [pushAddr_pushed_pushed]; exact h3) (s.nextIp size))
    refine ⟨e.origin, e.end_, e.cursor, e.last, e.dtable, e.cfg, e.wf, e.bounded, ?_, nofun⟩
    intro k hk
    rw [← e.flags k (by simp)]
    simp only [List.mem_cons, List.not_mem_nil, or_false, not_or] at hk
    simp [State.entered, State.stacked, getLsbD_setFlag, Flag.bit, hk]

theorem interruptReturn_ans (s : State) : Ans (List.range 16) true onlyTop s (interruptReturn s) := by
  by_cases h : phys s.ss s.sp = 0xFFFFF ∨ phys s.ss (s.sp + 2) = 0xFFFFF ∨ phys s.ss (s.sp + 4) = 0xFFFFF
  · rw [interruptReturn_top h]; rfl
  · simp only [not_or] at h
    rw [interruptReturn_eq h.1 h.2.1 h.2.2]
    refine ⟨rfl, rfl, rfl, rfl, rfl, rfl, id, id, ?_, nofun⟩
    intro k hk
    simp only [List.mem_range, not_lt] at hk
    rw [BitVec.getLsbD_of_ge _ _ hk, BitVec.getLsbD_of_ge _ _ hk]

theorem stosOnce_ans (w : Width) (s : State) : Ans [] false onlyTop s (stosOnce w s) := by
  have hlt := phys_lt s.stosSeg s.di
  cases w with
  | byte =>
    have : (Place.mem8 (phys s.stosSeg s.di)).Within := hlt
    have := Place.write_ans this (s.reg8 .al) s
    simp only [Place.write] at this
    simp only [stosOnce, bind, Except.bind]
    cases hx : s.store8 (phys s.stosSeg s.di) (s.reg8 .al) with
    | ok t => rw [hx] at this; exact this.setReg16 _ _
    | error f => rw [hx] at this; exact this
  | word =>
    have : (Place.mem16 (phys s.stosSeg s.di)).Within := hlt
    have := Place.write_ans this s.ax s
    simp only [Place.write] at this
    simp only [stosOnce, bind, Except.bind]
    cases hx : s.store16 (phys s.stosSeg s.di) s.ax with
    | ok t => rw [hx] at this; exact this.setReg16 _ _
    | error f => rw [hx] at this; exact this

theorem stosRep_ans (w : Width) (k : Nat) (s : State) : Ans [] false onlyTop s (stosRep w k s) := by
  induction k generalizing s with
  | zero => exact Effect.refl s
  | succ k ih =>
    simp only [stosRep, bind, Except.bind]
    have h := stosOnce_ans w s
    cases hx : stosOnce w s with
    | error f => rw [hx] at h; exact h
    | ok t =>
      rw [hx] at h
      simp only
      have h' := ih (t.setReg16 .cx (t.cx - 1))
      cases hy : stosRep w k (t.setReg16 .cx (t.cx - 1)) with
      | error f => rw [hy] at h'; exact h'
      | ok u => rw [hy] at h'; exact (Effect.setReg16 h .cx (t.cx - 1)).trans h'

/-- The faults of a STOS. R334, R57. -/
def stosFaults (c : Ctx) (s : State) (f : Fault) : Prop := f = topWord ∨ (f = .repNE s.p0 ∧ c.rep = some .repne)

theorem Ans.weaken {b c Q Q'} {s : State} {x : Exec State} (h : Ans b c Q s x) (hq : ∀ f, Q f → Q' f) : Ans b c Q' s x := by
  cases x with
  | ok t => exact h
  | error f => exact hq f h

theorem stos_ans (c : Ctx) (w : Width) (s : State) : Ans [] false (stosFaults c s) s (stos c w s) := by
  simp only [stos]
  split
  · exact .inr ⟨rfl, ‹_›⟩
  · exact (stosRep_ans w _ s).weaken fun _ => .inl
  · exact (stosOnce_ans w s).weaken fun _ => .inl

/-! ## Whole instructions -/

/-- The bits of FLAGS an instruction may write. R30, R210. -/
def Instr.writes : Instr → List Nat
  | .addRmReg _ _ | .orRmReg _ _ | .andRmReg _ _ | .subRmReg _ _ | .xorRmReg _ _ | .cmpRmReg _ _ => statusBits
  | .addAccImm _ | .orAccImm _ | .andAccImm _ | .subAccImm _ | .xorAccImm _ | .cmpAccImm _ | .testAccImm _ => statusBits
  | .addRmImm _ | .orRmImm _ | .andRmImm _ | .subRmImm _ | .xorRmImm _ | .cmpRmImm _ => statusBits
  | .testRmReg _ | .testRmImm _ | .incReg _ | .decReg _ | .incRm _ | .decRm _ | .mulRm _ | .divRm _ => statusBits
  | .popf | .iret => List.range 16
  | .int3 | .intImm _ | .into => [8, 9]
  | .movRmReg _ | .movRegRm _ | .movRmImm _ | .movRegImm _ | .movAccMem _ _ _ | .movRmSreg _ _ | .movSregRm _ _ => []
  | .notRm _ | .popRm _ | .pushRm _ | .pushReg _ | .popReg _ | .pushSreg _ | .popEs | .popSs | .popDs | .pushf => []
  | .jo _ | .jno _ | .jb _ | .jnb _ | .je _ | .jne _ | .jbe _ | .jnbe _ => []
  | .js _ | .jns _ | .jp _ | .jnp _ | .jl _ | .jnl _ | .jle _ | .jnle _ => []
  | .loopnz _ | .loopz _ | .loop _ | .jcxz _ | .jmpNear _ | .jmpFar _ _ | .jmpShort _ | .jmpFarMem _ => []
  | .stosb | .stosw => []
  | .prefixEs i | .prefixCs i | .prefixSs i | .prefixDs i | .prefixRep i | .prefixRepne i => Instr.writes i

/-- Whether an instruction may change CS. R286. -/
def Instr.mayMoveCs (w : Word) : Instr → Bool
  | .int3 | .intImm _ | .iret => true
  | .into => getFlag .of w
  | .prefixEs i | .prefixCs i | .prefixSs i | .prefixDs i | .prefixRep i | .prefixRepne i => Instr.mayMoveCs w i
  | _ => false

/-- The faults of an instruction in the context of its record. R350. -/
def Instr.faults (c : Ctx) (s : State) : Instr → Fault → Prop
  | .divRm _ => divFaults s
  | .stosb | .stosw => stosFaults c s
  | .jmpFar _ _ | .jmpFarMem _ => (· = .farJump s.p0)
  | .prefixEs i | .prefixCs i | .prefixSs i | .prefixDs i | .prefixRep i | .prefixRepne i => Instr.faults c s i
  | _ => onlyTop

/-- What an outcome of the Execute stage is: a next state with its effect, or one of its faults; never a refusal. -/
def OutAns (bits : List Nat) (cs : Bool) (faults : Fault → Prop) (s : State) : Out → Prop
  | .next t => Effect bits cs s t
  | .fault f => faults f
  | .refused _ => False

theorem finish_ans {b c Q} {s : State} {x : Exec State} (k : Ctx) (h : Ans b c Q s x) : OutAns b c Q s (finish k x) := by
  cases x with
  | ok t => exact Effect.setIp h _
  | error f => exact h

theorem redirect_ans {b c Q} {s : State} {x : Exec State} (h : Ans b c Q s x) : OutAns b c Q s (redirect x) := by
  cases x with
  | ok t => exact h
  | error f => exact h

theorem branch_ans {b c Q} {s t : State} (k : Ctx) (taken : Bool) (d : Word) (h : Effect b c s t) :
    OutAns b c Q s (branch k taken d t) := by
  rw [branch_eq]; exact Effect.setIp h _

theorem decCx_effect (s : State) : Effect [] false s (decCx s) := (Effect.refl s).setReg16 _ _

theorem loopFamily_ans (c : Ctx) (k : LoopKind) (d : Byte) (s : State) : OutAns [] false onlyTop s (loopFamily c k d s) := by
  cases k
  · exact branch_ans _ _ _ (decCx_effect s)
  · exact branch_ans _ _ _ (decCx_effect s)
  · exact branch_ans _ _ _ (decCx_effect s)
  · exact branch_ans _ _ _ (Effect.refl s)

theorem aluRmReg_ans (c : Ctx) (op : AluOp) (d : Dir) (o : RmReg) (s : State) :
    Ans statusBits false onlyTop s (aluRmReg c op d o s) := by
  cases d <;> cases o <;> refine alu_ans op ?_ ?_ s <;>
    first | exact rm8_within c s _ | exact rm16_within c s _ | exact trivial

theorem aluAccImm_ans (op : AluOp) (o : AccImm) (s : State) : Ans statusBits false onlyTop s (aluAccImm op o s) := by
  cases o <;> refine alu_ans op ?_ ?_ s <;> exact trivial

theorem aluRmImm_ans (c : Ctx) (op : AluOp) (o : GrpImm) (s : State) :
    Ans statusBits false onlyTop s (aluRmImm c op o s) := by
  cases o <;> refine alu_ans op ?_ ?_ s <;>
    first | exact rm8_within c s _ | exact rm16_within c s _ | exact trivial

theorem incDecRm_ans (c : Ctx) (op : ArithOp) (o : RmOnly) (s : State) :
    Ans statusBits false onlyTop s (incDecRm c op o s) := by
  cases o <;> first
    | exact incDec_ans op (rm8_within c s _) s
    | exact incDec_ans op (rm16_within c s _) s

theorem mulRmOp_ans (c : Ctx) (o : RmOnly) (s : State) : Ans statusBits false onlyTop s (mulRmOp c o s) := by
  cases o with
  | byte x => exact Ans.read (k := fun m => .ok (mul8 m s)) (rm8_within c s x) (mul8_effect _ s)
  | word x => exact Ans.read (k := fun m => .ok (mul16 m s)) (rm16_within c s x) (mul16_effect _ s)

theorem divRmOp_ans (c : Ctx) (o : RmOnly) (s : State) : Ans statusBits false (divFaults s) s (divRmOp c o s) := by
  cases o with
  | byte x =>
    simp only [divRmOp]
    rcases (rm8 c s x).read_cases (rm8_within c s x) s with e | e <;> rw [e]
    · exact div8_ans _ s
    · exact .inl rfl
  | word x =>
    simp only [divRmOp]
    rcases (rm16 c s x).read_cases (rm16_within c s x) s with e | e <;> rw [e]
    · exact div16_ans _ s
    · exact .inl rfl

theorem pushRmOp_ans (c : Ctx) (x : Rm Reg16) (s : State) : Ans [] false onlyTop s (pushRmOp c x s) := by
  cases x with
  | reg r => exact push_ans _ s
  | mem m =>
    exact Ans.read (p := .mem16 (eaAddr c.segovr m s)) (k := fun v => push v s) (eaAddr_lt _ _ _) (push_ans _ s)

/-- R146: what the Execute stage of any instruction can do. -/
theorem execIn_ans (c : Ctx) (i : Instr) (s : State) :
    OutAns (Instr.writes i) (Instr.mayMoveCs s.flags i) (Instr.faults c s i) s (execIn c i s) := by
  induction i with
  | prefixEs i ih | prefixCs i ih | prefixSs i ih | prefixDs i ih | prefixRep i ih | prefixRepne i ih => exact ih
  | addRmReg d o | orRmReg d o | andRmReg d o | subRmReg d o | xorRmReg d o | cmpRmReg d o =>
    exact finish_ans c (aluRmReg_ans c _ d o s)
  | addAccImm o | orAccImm o | andAccImm o | subAccImm o | xorAccImm o | cmpAccImm o =>
    exact finish_ans c (aluAccImm_ans _ o s)
  | addRmImm o | orRmImm o | andRmImm o | subRmImm o | xorRmImm o | cmpRmImm o =>
    exact finish_ans c (aluRmImm_ans c _ o s)
  | testAccImm o =>
    cases o with
    | byte v => exact finish_ans c (testOp_ans (d := .reg8 .al) (x := .imm v) trivial trivial s)
    | word v => exact finish_ans c (testOp_ans (d := .reg16 .ax) (x := .imm v) trivial trivial s)
  | testRmReg o =>
    cases o <;> refine finish_ans c (testOp_ans ?_ ?_ s) <;>
      first | exact rm8_within c s _ | exact rm16_within c s _ | exact trivial
  | testRmImm o =>
    cases o <;> refine finish_ans c (testOp_ans ?_ ?_ s) <;>
      first | exact rm8_within c s _ | exact rm16_within c s _ | exact trivial
  | incReg r => exact finish_ans c (incDec_ans .add (d := .reg16 r) trivial s)
  | decReg r => exact finish_ans c (incDec_ans .sub (d := .reg16 r) trivial s)
  | incRm o | decRm o => exact finish_ans c (incDecRm_ans c _ o s)
  | mulRm o => exact finish_ans c (mulRmOp_ans c o s)
  | divRm o => exact finish_ans c (divRmOp_ans c o s)
  | notRm o =>
    cases o <;> refine finish_ans c (notOp_ans ?_ s) <;>
      first | exact rm8_within c s _ | exact rm16_within c s _
  | movRmReg o =>
    cases o <;> refine finish_ans c (mov_ans ?_ ?_ s) <;>
      first | exact rm8_within c s _ | exact rm16_within c s _ | exact trivial
  | movRegRm o =>
    cases o <;> refine finish_ans c (mov_ans ?_ ?_ s) <;>
      first | exact rm8_within c s _ | exact rm16_within c s _ | exact trivial
  | movRmImm o =>
    cases o <;> refine finish_ans c (mov_ans ?_ ?_ s) <;>
      first | exact rm8_within c s _ | exact rm16_within c s _ | exact trivial
  | movRegImm o =>
    cases o with
    | byte r v => exact finish_ans c (mov_ans (d := .reg8 r) (x := .imm v) trivial trivial s)
    | word r v => exact finish_ans c (mov_ans (d := .reg16 r) (x := .imm v) trivial trivial s)
  | movAccMem x w a =>
    have h := eaAddr_lt c.segovr (.direct a) s
    cases x <;> cases w <;> refine finish_ans c (mov_ans ?_ ?_ s) <;> first | exact h | exact trivial
  | movRmSreg x r => refine finish_ans c (mov_ans (rm16_within c s x) ?_ s); exact trivial
  | movSregRm r x => refine finish_ans c (mov_ans ?_ ?_ s); exacts [trivial, rm16_within c s x]
  | pushReg r => exact finish_ans c (push_ans _ s)
  | pushSreg r => exact finish_ans c (push_ans _ s)
  | pushf => exact finish_ans c (push_ans _ s)
  | pushRm x => exact finish_ans c (pushRmOp_ans c x s)
  | popReg r | popEs | popSs | popDs => refine finish_ans c (popTo_ans ?_ s); exact trivial
  | popRm x => exact finish_ans c (popTo_ans (rm16_within c s x) s)
  | popf => exact finish_ans c (popFlags_ans s)
  | jo d | jno d | jb d | jnb d | je d | jne d | jbe d | jnbe d | js d | jns d | jp d | jnp d | jl d | jnl d | jle d
  | jnle d => exact branch_ans c _ _ (Effect.refl s)
  | loopnz d => exact loopFamily_ans c .nz d s
  | loopz d => exact loopFamily_ans c .z d s
  | loop d => exact loopFamily_ans c .always d s
  | jcxz d => exact loopFamily_ans c .cxz d s
  | jmpShort d | jmpNear d => exact branch_ans c true _ (Effect.refl s)
  | jmpFar off seg => exact rfl
  | jmpFarMem m => exact rfl
  | int3 | intImm n => exact redirect_ans (enter_ans _ _ s)
  | into =>
    simp only [execIn, intoIn, Instr.mayMoveCs]
    split
    · rename_i h; rw [h]; exact redirect_ans (enter_ans _ _ s)
    · exact finish_ans c (x := .ok s) ((Effect.refl s).mono (by simp) (by simp))
  | iret => exact redirect_ans (interruptReturn_ans s)
  | stosb | stosw => exact finish_ans c (stos_ans c _ s)

theorem prefixFail_wellFormed {i : Instr} {seg rep : Bool} (h : i.wellFormedAfter seg rep = true) :
    i.prefixFail seg rep = none := by
  induction i generalizing seg rep with
  | prefixEs i ih | prefixCs i ih | prefixSs i ih | prefixDs i ih | prefixRep i ih | prefixRepne i ih =>
    simp only [Instr.wellFormedAfter, Bool.and_eq_true, Bool.not_eq_true'] at h
    simp [Instr.prefixFail, h.1, ih h.2]
  | stosb | stosw => rfl
  | _ =>
    simp only [Instr.wellFormedAfter, Bool.and_eq_true, Bool.not_eq_true'] at h
    simp [Instr.prefixFail, h]

/-- R84, log 9: exec is the Execute stage in the record's own context, or the anomaly of ill-formed prefix bytes. -/
theorem exec_cases (i : Instr) (s : State) :
    exec i s = execIn (Ctx.of i) i s ∨
      ∃ e, i.prefixFail false false = some e ∧ exec i s = .fault (failFault s.p0 i.size e) := by
  by_cases hb : Instr.bare i = true
  · exact .inl (exec_bare hb s)
  · have h : exec i s = execPrefixed i s := by cases i <;> rfl
    rw [h, execPrefixed]
    cases hp : i.prefixFail false false with
    | none => exact .inl rfl
    | some e => exact .inr ⟨e, rfl, rfl⟩

/-- A next state of exec has the instruction's effect. -/
theorem exec_effect {i : Instr} {s t : State} (h : exec i s = .next t) :
    Effect (Instr.writes i) (Instr.mayMoveCs s.flags i) s t := by
  rcases exec_cases i s with e | ⟨e, -, he⟩
  · have := execIn_ans (Ctx.of i) i s
    rw [← e, h] at this; exact this
  · rw [h] at he; cases he

/-- exec refuses nothing. -/
theorem exec_not_refused (i : Instr) (s : State) (r : Refusal) : exec i s ≠ .refused r := by
  intro h
  rcases exec_cases i s with e | ⟨e, -, he⟩
  · have := execIn_ans (Ctx.of i) i s
    rw [← e, h] at this; exact this
  · rw [h] at he; cases he

end Sys2Proof.Machine
end

