-- ==== Sys2Proof/Laws/PerInstr.lean ====
section
/-! SUPPORT. The family EncodedLength, stated of each instruction: its encoding is as long as its size says (R95), has a
byte at least. -/

namespace Sys2Proof

/-- R95: an encoding is `size` bytes, one at least. -/
def Laws.EncodedLength.Statement (i : Instr) : Prop := (encode i).length = i.size ∧ 1 ≤ i.size

theorem Laws.EncodedLength.all (i : Instr) : Laws.EncodedLength.Statement i := ⟨encode_length i, i.size_pos⟩

theorem Laws.EncodedLength.addRmReg (d : Dir) (o : RmReg) : Laws.EncodedLength.Statement (.addRmReg d o) := Laws.EncodedLength.all _

theorem Laws.EncodedLength.addAccImm (o : AccImm) : Laws.EncodedLength.Statement (.addAccImm o) := Laws.EncodedLength.all _

theorem Laws.EncodedLength.orRmReg (d : Dir) (o : RmReg) : Laws.EncodedLength.Statement (.orRmReg d o) := Laws.EncodedLength.all _

theorem Laws.EncodedLength.orAccImm (o : AccImm) : Laws.EncodedLength.Statement (.orAccImm o) := Laws.EncodedLength.all _

theorem Laws.EncodedLength.andRmReg (d : Dir) (o : RmReg) : Laws.EncodedLength.Statement (.andRmReg d o) := Laws.EncodedLength.all _

theorem Laws.EncodedLength.andAccImm (o : AccImm) : Laws.EncodedLength.Statement (.andAccImm o) := Laws.EncodedLength.all _

theorem Laws.EncodedLength.subRmReg (d : Dir) (o : RmReg) : Laws.EncodedLength.Statement (.subRmReg d o) := Laws.EncodedLength.all _

theorem Laws.EncodedLength.subAccImm (o : AccImm) : Laws.EncodedLength.Statement (.subAccImm o) := Laws.EncodedLength.all _

theorem Laws.EncodedLength.xorRmReg (d : Dir) (o : RmReg) : Laws.EncodedLength.Statement (.xorRmReg d o) := Laws.EncodedLength.all _

theorem Laws.EncodedLength.xorAccImm (o : AccImm) : Laws.EncodedLength.Statement (.xorAccImm o) := Laws.EncodedLength.all _

theorem Laws.EncodedLength.cmpRmReg (d : Dir) (o : RmReg) : Laws.EncodedLength.Statement (.cmpRmReg d o) := Laws.EncodedLength.all _

theorem Laws.EncodedLength.cmpAccImm (o : AccImm) : Laws.EncodedLength.Statement (.cmpAccImm o) := Laws.EncodedLength.all _

theorem Laws.EncodedLength.addRmImm (o : GrpImm) : Laws.EncodedLength.Statement (.addRmImm o) := Laws.EncodedLength.all _

theorem Laws.EncodedLength.orRmImm (o : GrpImm) : Laws.EncodedLength.Statement (.orRmImm o) := Laws.EncodedLength.all _

theorem Laws.EncodedLength.andRmImm (o : GrpImm) : Laws.EncodedLength.Statement (.andRmImm o) := Laws.EncodedLength.all _

theorem Laws.EncodedLength.subRmImm (o : GrpImm) : Laws.EncodedLength.Statement (.subRmImm o) := Laws.EncodedLength.all _

theorem Laws.EncodedLength.xorRmImm (o : GrpImm) : Laws.EncodedLength.Statement (.xorRmImm o) := Laws.EncodedLength.all _

theorem Laws.EncodedLength.cmpRmImm (o : GrpImm) : Laws.EncodedLength.Statement (.cmpRmImm o) := Laws.EncodedLength.all _

theorem Laws.EncodedLength.incReg (r : Reg16) : Laws.EncodedLength.Statement (.incReg r) := Laws.EncodedLength.all _

theorem Laws.EncodedLength.decReg (r : Reg16) : Laws.EncodedLength.Statement (.decReg r) := Laws.EncodedLength.all _

theorem Laws.EncodedLength.pushReg (r : Reg16) : Laws.EncodedLength.Statement (.pushReg r) := Laws.EncodedLength.all _

theorem Laws.EncodedLength.popReg (r : Reg16) : Laws.EncodedLength.Statement (.popReg r) := Laws.EncodedLength.all _

theorem Laws.EncodedLength.pushSreg (r : SReg) : Laws.EncodedLength.Statement (.pushSreg r) := Laws.EncodedLength.all _

theorem Laws.EncodedLength.popEs : Laws.EncodedLength.Statement (.popEs) := Laws.EncodedLength.all _

theorem Laws.EncodedLength.popSs : Laws.EncodedLength.Statement (.popSs) := Laws.EncodedLength.all _

theorem Laws.EncodedLength.popDs : Laws.EncodedLength.Statement (.popDs) := Laws.EncodedLength.all _

theorem Laws.EncodedLength.jo (d : Byte) : Laws.EncodedLength.Statement (.jo d) := Laws.EncodedLength.all _

theorem Laws.EncodedLength.jno (d : Byte) : Laws.EncodedLength.Statement (.jno d) := Laws.EncodedLength.all _

theorem Laws.EncodedLength.jb (d : Byte) : Laws.EncodedLength.Statement (.jb d) := Laws.EncodedLength.all _

theorem Laws.EncodedLength.jnb (d : Byte) : Laws.EncodedLength.Statement (.jnb d) := Laws.EncodedLength.all _

theorem Laws.EncodedLength.je (d : Byte) : Laws.EncodedLength.Statement (.je d) := Laws.EncodedLength.all _

theorem Laws.EncodedLength.jne (d : Byte) : Laws.EncodedLength.Statement (.jne d) := Laws.EncodedLength.all _

theorem Laws.EncodedLength.jbe (d : Byte) : Laws.EncodedLength.Statement (.jbe d) := Laws.EncodedLength.all _

theorem Laws.EncodedLength.jnbe (d : Byte) : Laws.EncodedLength.Statement (.jnbe d) := Laws.EncodedLength.all _

theorem Laws.EncodedLength.js (d : Byte) : Laws.EncodedLength.Statement (.js d) := Laws.EncodedLength.all _

theorem Laws.EncodedLength.jns (d : Byte) : Laws.EncodedLength.Statement (.jns d) := Laws.EncodedLength.all _

theorem Laws.EncodedLength.jp (d : Byte) : Laws.EncodedLength.Statement (.jp d) := Laws.EncodedLength.all _

theorem Laws.EncodedLength.jnp (d : Byte) : Laws.EncodedLength.Statement (.jnp d) := Laws.EncodedLength.all _

theorem Laws.EncodedLength.jl (d : Byte) : Laws.EncodedLength.Statement (.jl d) := Laws.EncodedLength.all _

theorem Laws.EncodedLength.jnl (d : Byte) : Laws.EncodedLength.Statement (.jnl d) := Laws.EncodedLength.all _

theorem Laws.EncodedLength.jle (d : Byte) : Laws.EncodedLength.Statement (.jle d) := Laws.EncodedLength.all _

theorem Laws.EncodedLength.jnle (d : Byte) : Laws.EncodedLength.Statement (.jnle d) := Laws.EncodedLength.all _

theorem Laws.EncodedLength.testRmReg (o : RmReg) : Laws.EncodedLength.Statement (.testRmReg o) := Laws.EncodedLength.all _

theorem Laws.EncodedLength.movRmReg (o : RmReg) : Laws.EncodedLength.Statement (.movRmReg o) := Laws.EncodedLength.all _

theorem Laws.EncodedLength.movRegRm (o : RmReg) : Laws.EncodedLength.Statement (.movRegRm o) := Laws.EncodedLength.all _

theorem Laws.EncodedLength.movRmSreg (rm : Rm Reg16) (r : SReg) : Laws.EncodedLength.Statement (.movRmSreg rm r) := Laws.EncodedLength.all _

theorem Laws.EncodedLength.movSregRm (r : SRegDst) (rm : Rm Reg16) : Laws.EncodedLength.Statement (.movSregRm r rm) := Laws.EncodedLength.all _

theorem Laws.EncodedLength.popRm (rm : Rm Reg16) : Laws.EncodedLength.Statement (.popRm rm) := Laws.EncodedLength.all _

theorem Laws.EncodedLength.pushf : Laws.EncodedLength.Statement (.pushf) := Laws.EncodedLength.all _

theorem Laws.EncodedLength.popf : Laws.EncodedLength.Statement (.popf) := Laws.EncodedLength.all _

theorem Laws.EncodedLength.movAccMem (x : AccDir) (w : Width) (addr : Word) : Laws.EncodedLength.Statement (.movAccMem x w addr) := Laws.EncodedLength.all _

theorem Laws.EncodedLength.testAccImm (o : AccImm) : Laws.EncodedLength.Statement (.testAccImm o) := Laws.EncodedLength.all _

theorem Laws.EncodedLength.stosb : Laws.EncodedLength.Statement (.stosb) := Laws.EncodedLength.all _

theorem Laws.EncodedLength.stosw : Laws.EncodedLength.Statement (.stosw) := Laws.EncodedLength.all _

theorem Laws.EncodedLength.movRegImm (o : RegImm) : Laws.EncodedLength.Statement (.movRegImm o) := Laws.EncodedLength.all _

theorem Laws.EncodedLength.movRmImm (o : RmImm) : Laws.EncodedLength.Statement (.movRmImm o) := Laws.EncodedLength.all _

theorem Laws.EncodedLength.int3 : Laws.EncodedLength.Statement (.int3) := Laws.EncodedLength.all _

theorem Laws.EncodedLength.intImm (n : Byte) : Laws.EncodedLength.Statement (.intImm n) := Laws.EncodedLength.all _

theorem Laws.EncodedLength.into : Laws.EncodedLength.Statement (.into) := Laws.EncodedLength.all _

theorem Laws.EncodedLength.iret : Laws.EncodedLength.Statement (.iret) := Laws.EncodedLength.all _

theorem Laws.EncodedLength.loopnz (d : Byte) : Laws.EncodedLength.Statement (.loopnz d) := Laws.EncodedLength.all _

theorem Laws.EncodedLength.loopz (d : Byte) : Laws.EncodedLength.Statement (.loopz d) := Laws.EncodedLength.all _

theorem Laws.EncodedLength.loop (d : Byte) : Laws.EncodedLength.Statement (.loop d) := Laws.EncodedLength.all _

theorem Laws.EncodedLength.jcxz (d : Byte) : Laws.EncodedLength.Statement (.jcxz d) := Laws.EncodedLength.all _

theorem Laws.EncodedLength.jmpNear (d : Word) : Laws.EncodedLength.Statement (.jmpNear d) := Laws.EncodedLength.all _

theorem Laws.EncodedLength.jmpFar (off seg : Word) : Laws.EncodedLength.Statement (.jmpFar off seg) := Laws.EncodedLength.all _

theorem Laws.EncodedLength.jmpShort (d : Byte) : Laws.EncodedLength.Statement (.jmpShort d) := Laws.EncodedLength.all _

theorem Laws.EncodedLength.testRmImm (o : RmImm) : Laws.EncodedLength.Statement (.testRmImm o) := Laws.EncodedLength.all _

theorem Laws.EncodedLength.notRm (o : RmOnly) : Laws.EncodedLength.Statement (.notRm o) := Laws.EncodedLength.all _

theorem Laws.EncodedLength.mulRm (o : RmOnly) : Laws.EncodedLength.Statement (.mulRm o) := Laws.EncodedLength.all _

theorem Laws.EncodedLength.divRm (o : RmOnly) : Laws.EncodedLength.Statement (.divRm o) := Laws.EncodedLength.all _

theorem Laws.EncodedLength.incRm (o : RmOnly) : Laws.EncodedLength.Statement (.incRm o) := Laws.EncodedLength.all _

theorem Laws.EncodedLength.decRm (o : RmOnly) : Laws.EncodedLength.Statement (.decRm o) := Laws.EncodedLength.all _

theorem Laws.EncodedLength.jmpFarMem (m : Ea) : Laws.EncodedLength.Statement (.jmpFarMem m) := Laws.EncodedLength.all _

theorem Laws.EncodedLength.pushRm (rm : Rm Reg16) : Laws.EncodedLength.Statement (.pushRm rm) := Laws.EncodedLength.all _

theorem Laws.EncodedLength.prefixEs (i : Instr) : Laws.EncodedLength.Statement (.prefixEs i) := Laws.EncodedLength.all _

theorem Laws.EncodedLength.prefixCs (i : Instr) : Laws.EncodedLength.Statement (.prefixCs i) := Laws.EncodedLength.all _

theorem Laws.EncodedLength.prefixSs (i : Instr) : Laws.EncodedLength.Statement (.prefixSs i) := Laws.EncodedLength.all _

theorem Laws.EncodedLength.prefixDs (i : Instr) : Laws.EncodedLength.Statement (.prefixDs i) := Laws.EncodedLength.all _

theorem Laws.EncodedLength.prefixRep (i : Instr) : Laws.EncodedLength.Statement (.prefixRep i) := Laws.EncodedLength.all _

theorem Laws.EncodedLength.prefixRepne (i : Instr) : Laws.EncodedLength.Statement (.prefixRepne i) := Laws.EncodedLength.all _

end Sys2Proof
end

