-- ==== Sys2Proof/Laws/Record.lean ====
section
/-! SUPPORT. The `W` flag of a record agrees with the width of each of its operands (R152). -/

namespace Sys2Proof.Machine

open Sys2Proof

@[simp] theorem Slot.width_reg8 (r : Reg8) : (Slot.reg8 r).width = some .byte := rfl
@[simp] theorem Slot.width_reg16 (r : Reg16) : (Slot.reg16 r).width = some .word := rfl
@[simp] theorem Slot.width_sreg (r : SReg) : (Slot.sreg r).width = some .word := rfl
@[simp] theorem Slot.width_imm8 (v : Byte) : (Slot.imm8 v).width = some .byte := rfl
@[simp] theorem Slot.width_imm16 (v : Word) : (Slot.imm16 v).width = some .word := rfl
@[simp] theorem Slot.width_rel (v : Int) : (Slot.rel v).width = Option.none := rfl
@[simp] theorem Slot.width_none : Slot.none.width = Option.none := rfl

@[simp] theorem Ea.slot_width (seg : Option SReg) (w : Width) (m : Ea) : (Ea.slot seg w m).width = some w := rfl

@[simp] theorem slot8_width (seg : Option SReg) (x : Rm Reg8) : (slot8 seg x).width = some .byte := by cases x <;> rfl

@[simp] theorem slot16_width (seg : Option SReg) (x : Rm Reg16) : (slot16 seg x).width = some .word := by cases x <;> rfl

/-- Both slots have the width, or have none. -/
def SlotsHave (p : Slot × Slot) (w : Option Width) : Prop :=
  (∀ v ∈ p.1.width, w = some v) ∧ ∀ v ∈ p.2.width, w = some v

theorem dirSlots_width (seg : Option SReg) (d : Dir) (o : RmReg) : SlotsHave (dirSlots seg d o) (some (RmReg.width o)) := by
  cases d <;> cases o <;> simp [SlotsHave, dirSlots, RmReg.slots, RmReg.width]

/-- R152, by form: a slot that has a width has the form's `W`. -/
theorem slotsUnder_width (seg : Option SReg) (i : Instr) : SlotsHave (slotsUnder seg i) (Instr.statedWidth i) := by
  induction i with
  | prefixEs _ h | prefixCs _ h | prefixSs _ h | prefixDs _ h | prefixRep _ h | prefixRepne _ h => exact h
  | addRmReg d o | orRmReg d o | andRmReg d o | subRmReg d o | xorRmReg d o | cmpRmReg d o => exact dirSlots_width seg d o
  | testRmReg o | movRmReg o => exact dirSlots_width seg .toRm o
  | movRegRm o => exact dirSlots_width seg .toReg o
  | addAccImm o | orAccImm o | andAccImm o | subAccImm o | xorAccImm o | cmpAccImm o | testAccImm o =>
    cases o <;> simp [SlotsHave, slotsUnder, AccImm.slots, Instr.statedWidth]
  | addRmImm o | orRmImm o | andRmImm o | subRmImm o | xorRmImm o | cmpRmImm o =>
    cases o <;> simp [SlotsHave, slotsUnder, GrpImm.slots, Instr.statedWidth]
  | movRmImm o | testRmImm o => cases o <;> simp [SlotsHave, slotsUnder, RmImm.slots, Instr.statedWidth]
  | movRegImm o => cases o <;> simp [SlotsHave, slotsUnder, RegImm.slots, Instr.statedWidth]
  | notRm o | mulRm o | divRm o | incRm o | decRm o =>
    cases o <;> simp [SlotsHave, slotsUnder, RmOnly.slot, Instr.statedWidth]
  | movAccMem x w _ => cases x <;> cases w <;> simp [SlotsHave, slotsUnder, accSlots, Instr.statedWidth]
  | _ => simp [SlotsHave, slotsUnder, rel8, Instr.statedWidth]

/-- R152: W is the width of every operand of a record that has one. -/
theorem recordWidth_slot (i : Instr) :
    (∀ w ∈ (Instr.slots i).1.width, Instr.recordWidth i = w) ∧
      ∀ w ∈ (Instr.slots i).2.width, Instr.recordWidth i = w := by
  obtain ⟨h0, h1⟩ := slotsUnder_width i.segovr i
  exact ⟨fun w h => by simp [Instr.recordWidth, h0 w h], fun w h => by simp [Instr.recordWidth, h1 w h]⟩

end Sys2Proof.Machine
end

