-- ==== Sys2Proof/Laws/Step.lean ====
section
/-! SUPPORT. What Fetch, Decode and a whole step can do; exec's own effect is Laws/Effect.lean's. -/

namespace Sys2Proof.Machine

open Sys2Proof

/-- R80: at most seven bytes may be read, and none at or past E. -/
theorem window_length (s : State) (p : Nat) : (window s p).length = min 7 (s.imageEnd - p) := by
  simp [window, maxRecordBytes]

/-- What a decode can do. R95, R96. -/
theorem decodeAt_cases {s : State} {p : Nat} {d : Record} (h : decodeAt s p = .ok d) :
    ∃ rest, decode s.cfg.admitTierX (window s p) = .ok (d.instr, rest) ∧
      d.size = (window s p).length - rest.length ∧ d.offset = p := by
  simp only [decodeAt] at h
  split at h
  · rename_i i t hd; simp only [Except.ok.injEq] at h; subst h; exact ⟨t, hd, rfl, rfl⟩
  · cases h

/-- What finding the record of a step can do. R144, R145. -/
theorem record_cases {s s' : State} {p : Nat} {d : Record} (h : recordAt s p = .ok (d, s')) :
    (s' = s ∧ s.cfg.decodeCache = .byIp ∧ retainedAt s.dtable s.ip = some d) ∨
    (decodeAt s p = .ok d ∧
      ((s' = s ∧ s.cfg.decodeCache = .none) ∨
        (s' = { s with dtable := retain s.dtable s.ip d } ∧ s.cfg.decodeCache = .byIp ∧
          retainedAt s.dtable s.ip = none))) := by
  simp only [recordAt] at h
  split at h
  · rename_i hc
    split at h
    · rename_i d' hd
      simp only [Except.ok.injEq, Prod.mk.injEq] at h
      obtain ⟨rfl, rfl⟩ := h
      exact .inr ⟨hd, .inl ⟨rfl, hc⟩⟩
    · cases h
  · rename_i hc
    split at h
    · rename_i d' hd
      simp only [Except.ok.injEq, Prod.mk.injEq] at h
      obtain ⟨rfl, rfl⟩ := h
      exact .inl ⟨rfl, hc, hd⟩
    · rename_i hn
      split at h
      · rename_i d' hd
        simp only [Except.ok.injEq, Prod.mk.injEq] at h
        obtain ⟨rfl, rfl⟩ := h
        exact .inr ⟨hd, .inr ⟨rfl, hc, hn⟩⟩
      · cases h

/-- What Fetch and Decode can do. R141, R142. -/
theorem fetch_cases {s s' : State} {d : Record} (h : fetch s = .ok (d, s')) :
    s.p0 < s.imageEnd ∧ ∃ u, recordAt s s.p0 = .ok (d, u) ∧ s' = dispatched u s.p0 d := by
  simp only [fetch] at h
  split at h
  · cases h
  · split at h
    · rename_i d' u hr
      simp only [Except.ok.injEq, Prod.mk.injEq] at h
      obtain ⟨rfl, rfl⟩ := h
      exact ⟨by omega, u, hr, rfl⟩
    · cases h

/-- What a step that goes on can do. R144. -/
theorem step_cases {s t : State} (h : step s = .next t) : ∃ d u, fetch s = .ok (d, u) ∧ exec d.instr u = .next t := by
  simp only [step] at h
  split at h
  · rename_i d u hf; exact ⟨d, u, hf, h⟩
  · cases h

/-- A retained record is one of the table's. -/
theorem retained_mem {t : List (Word × Record)} {ip d} (h : retainedAt t ip = some d) : (ip, d) ∈ t := by
  induction t with
  | nil => cases h
  | cons c t ih =>
    obtain ⟨k, x⟩ := c
    simp only [retainedAt] at h
    split at h
    · rename_i e; subst e; cases h; exact .head _
    · exact .tail _ (ih h)

theorem retain_mem {t : List (Word × Record)} {ip d e} (h : e ∈ retain t ip d) : e = (ip, d) ∨ e ∈ t := by
  induction t with
  | nil => simpa [retain] using h
  | cons c t ih =>
    obtain ⟨k, x⟩ := c
    simp only [retain] at h
    split at h
    · simpa using h
    · split at h
      · rcases List.mem_cons.1 h with h | h
        · exact .inl h
        · exact .inr (.tail _ h)
      · rcases List.mem_cons.1 h with h | h
        · exact .inr (h ▸ .head _)
        · exact (ih h).imp_right (.tail _)

/-- R145: retaining a record keeps the table's form. -/
theorem retain_ok {t : List (Word × Record)} {ip d} (h : dtableOk t) (hd : d.ok) : dtableOk (retain t ip d) := by
  refine ⟨?_, fun e he => (retain_mem he).elim (fun q => q ▸ hd) (h.2 e)⟩
  obtain ⟨h, -⟩ := h
  induction t with
  | nil => simp [retain]
  | cons c t ih =>
    obtain ⟨k, x⟩ := c
    obtain ⟨hk, ht⟩ := List.pairwise_cons.1 h
    simp only [retain]
    split
    · rename_i lt
      refine List.pairwise_cons.2 ⟨fun c hc => ?_, h⟩
      rcases List.mem_cons.1 hc with rfl | hc
      · exact lt
      · exact Nat.lt_trans lt (hk c hc)
    · split
      · rename_i hx; subst hx; exact List.pairwise_cons.2 ⟨hk, ht⟩
      · rename_i h1 h2
        refine List.pairwise_cons.2 ⟨fun c hc => ?_, ih ht⟩
        rcases retain_mem hc with rfl | hc
        · have : ip.toNat ≠ k.toNat := fun e => h2 (BitVec.eq_of_toNat_eq e)
          simp only; omega
        · exact hk c hc

/-- R145: a retained record is found under its IP, and no other lookup changes. -/
theorem retainedAt_retain (t : List (Word × Record)) (ip ip' : Word) (d : Record) :
    retainedAt (retain t ip d) ip' = if ip' = ip then some d else retainedAt t ip' := by
  induction t with
  | nil => simp only [retain, retainedAt]
  | cons c t ih =>
    obtain ⟨k, x⟩ := c
    simp only [retain]
    split
    · simp only [retainedAt]
    · split
      · rename_i e
        subst e
        simp only [retainedAt]
        split <;> rfl
      · rename_i e
        simp only [retainedAt, ih]
        by_cases h : ip' = k
        · subst h
          rw [if_pos rfl, if_pos rfl, if_neg (Ne.symm e)]
        · rw [if_neg h, if_neg h]

theorem State.p0_lt (s : State) : s.p0 < Config.memSize := phys_lt _ _

end Sys2Proof.Machine
end

