-- ==== Sys2Proof/Tests/Slice0.lean ====
section
/-! SUPPORT. Tests of the model against words and results taken from the spec, and a witness for the hypotheses of
every statement that has some. A test's comment names its vector of spec/95_test_vectors.md, or the rules its expected
result was worked out from by hand. -/

namespace Sys2Proof.Tests

open Sys2Proof Sys2Proof.Machine

/-- The vectors' start state: the instruction's bytes at 0000:0010, E just past them, everything else 0. -/
def start (bytes : List Byte) : State :=
  { State.reset with
    ip := 0x10, mem := Memory.writeBytes [] 0x10 bytes, imageOrigin := 0x10, imageEnd := 0x10 + bytes.length,
    cursor := 0x10 }

/-- A state with bytes placed in memory. -/
def poke (s : State) (a : Nat) (bytes : List Byte) : State := { s with mem := s.mem.writeBytes a bytes }

/-- Bytes of memory. -/
def peek (s : State) (a n : Nat) : List Byte := (List.range n).map (fun k => s.mem.read (a + k))

/-- The outcome is a next state of which `p` holds. -/
def answers (o : Out) (p : State → Bool) : Bool :=
  match o with
  | .next t => p t
  | .fault _ | .refused _ => false

/-- The outcome is this terminal one. -/
def ends (o : Out) (f : Fault) : Bool :=
  match o with
  | .fault g => g == f
  | .next _ | .refused _ => false

theorem next_of_answers {o : Out} {p : State → Bool} (h : answers o p = true) : ∃ t, o = .next t ∧ p t = true := by
  cases o with
  | next t => exact ⟨t, rfl, h⟩
  | fault _ => cases h
  | refused _ => cases h

theorem fault_of_ends {o : Out} {f : Fault} (h : ends o f = true) : o = .fault f := by
  cases o with
  | next _ => cases h
  | fault g => exact congrArg _ (eq_of_beq h)
  | refused _ => cases h

/-! ## WellFormed: each check refuses a term, and its neighbour passes -/

/-- R88: no displacement-free address on BP alone. -/
theorem test_wellFormed_bp :
    (Instr.movRmReg (.word (.mem (.base .bp)) .ax)).wellFormed = false ∧
      (Instr.movRmReg (.word (.mem (.disp8 .bp 0)) .ax)).wellFormed = true := by decide

/-- R83: one segment override at most. -/
theorem test_wellFormed_two_overrides :
    (Instr.prefixEs (.prefixCs .stosb)).wellFormed = false ∧ (Instr.prefixEs .stosb).wellFormed = true := by decide

/-- R83: one repeat prefix at most. -/
theorem test_wellFormed_two_repeats :
    (Instr.prefixRep (.prefixEs (.prefixRepne .stosb))).wellFormed = false ∧
      (Instr.prefixRep (.prefixEs .stosb)).wellFormed = true := by decide

/-- R84: a repeat prefix only before STOSB and STOSW. -/
theorem test_wellFormed_repeat_misuse :
    (Instr.prefixRep .pushf).wellFormed = false ∧ (Instr.prefixRepne .stosw).wellFormed = true := by decide

/-! ## Decoding: words written out from the encodings of R101 to R121 -/

/-- E1, E2, E3, E4, E5, E10, E11, E16, E17: MOV. -/
theorem test_decode_mov :
    decode true [0x89, 0xD8] = .ok (.movRmReg (.word (.reg .ax) .bx), []) ∧
    decode true [0x8B, 0x06, 0x34, 0x12] = .ok (.movRegRm (.word (.mem (.direct 0x1234)) .ax), []) ∧
    decode true [0x8B, 0x86, 0x34, 0x12] = .ok (.movRegRm (.word (.mem (.disp16 .bp 0x1234)) .ax), []) ∧
    decode true [0x8B, 0x46, 0x00] = .ok (.movRegRm (.word (.mem (.disp8 .bp 0)) .ax), []) ∧
    decode true [0x8A, 0x40, 0xFF] = .ok (.movRegRm (.byte (.mem (.disp8 .bxSi 0xFF)) .al), []) ∧
    decode true [0xC7, 0x06, 0x00, 0x10, 0x34, 0x12] = .ok (.movRmImm (.word (.mem (.direct 0x1000)) 0x1234), []) ∧
    decode true [0x26, 0x8B, 0x07] = .ok (.prefixEs (.movRegRm (.word (.mem (.base .bx)) .ax)), []) ∧
    decode true [0xA1, 0x34, 0x12] = .ok (.movAccMem .load .word 0x1234, []) ∧
    decode true [0x8E, 0xD8] = .ok (.movSregRm .ds (.reg .ax), []) := by decide

/-- E6, E7, E8, E9: the arithmetic family; R101 and R102 for SUB and CMP, R112, R119 for INC and DEC, R118 for MUL and
DIV. -/
theorem test_decode_arith :
    decode true [0x83, 0xC3, 0xFF] = .ok (.addRmImm (.wordSx (.reg .bx) 0xFF), []) ∧
    decode true [0x81, 0xC3, 0xFF, 0x00] = .ok (.addRmImm (.word (.reg .bx) 0x00FF), []) ∧
    decode true [0x80, 0x3F, 0x05] = .ok (.cmpRmImm (.byte false (.mem (.base .bx)) 5), []) ∧
    decode true [0x82, 0xC0, 0xFF] = .ok (.addRmImm (.byte true (.reg .al) 0xFF), []) ∧
    decode true [0x2A, 0xE1] = .ok (.subRmReg .toReg (.byte (.reg .cl) .ah), []) ∧
    decode true [0x3D, 0x01, 0x00] = .ok (.cmpAccImm (.word 1), []) ∧
    decode true [0x47] = .ok (.incReg .di, []) ∧ decode true [0xFE, 0xC8] = .ok (.decRm (.byte (.reg .al)), []) ∧
    decode true [0xF6, 0xE3] = .ok (.mulRm (.byte (.reg .bl)), []) ∧
    decode true [0xF7, 0xF2] = .ok (.divRm (.word (.reg .dx)), []) := by decide

/-- R101 to R103, R109, R118: the logical family. -/
theorem test_decode_logic :
    decode true [0x21, 0xD8] = .ok (.andRmReg .toRm (.word (.reg .ax) .bx), []) ∧
    decode true [0x0C, 0x80] = .ok (.orAccImm (.byte 0x80), []) ∧
    decode true [0x31, 0xC0] = .ok (.xorRmReg .toRm (.word (.reg .ax) .ax), []) ∧
    decode true [0x84, 0xC3] = .ok (.testRmReg (.byte (.reg .bl) .al), []) ∧
    decode true [0xF6, 0xC3, 0x01] = .ok (.testRmImm (.byte (.reg .bl) 1), []) ∧
    decode true [0xF6, 0x16, 0x00, 0x10] = .ok (.notRm (.byte (.mem (.direct 0x1000))), []) := by decide

/-- S10, E12, E15; R115, R116, R117, R119: control flow. -/
theorem test_decode_control :
    decode true [0x74, 0x02] = .ok (.je 2, []) ∧ decode true [0x2E, 0x74, 0x02] = .ok (.prefixCs (.je 2), []) ∧
    decode true [0xE1, 0xFE] = .ok (.loopz 0xFE, []) ∧ decode true [0xE9, 0x00, 0x01] = .ok (.jmpNear 0x0100, []) ∧
    decode true [0xEB, 0x7F] = .ok (.jmpShort 0x7F, []) ∧
    decode true [0xEA, 0x00, 0x00, 0x00, 0x10] = .ok (.jmpFar 0x0000 0x1000, []) ∧
    decode true [0xFF, 0x2E, 0x00, 0x10] = .ok (.jmpFarMem (.direct 0x1000), []) := by decide

/-- R113, R114, R119, R121; E13, E14: stack, interrupt and string. -/
theorem test_decode_stack_interrupt_string :
    decode true [0x54] = .ok (.pushReg .sp, []) ∧ decode true [0x1F] = .ok (.popDs, []) ∧
    decode true [0x0E] = .ok (.pushSreg .cs, []) ∧
    decode true [0xFF, 0x36, 0x00, 0x20] = .ok (.pushRm (.mem (.direct 0x2000)), []) ∧
    decode true [0x8F, 0xC4] = .ok (.popRm (.reg .sp), []) ∧ decode true [0x9D] = .ok (.popf, []) ∧
    decode true [0xCD, 0x21] = .ok (.intImm 0x21, []) ∧ decode true [0xCF] = .ok (.iret, []) ∧
    decode true [0xF3, 0xAB] = .ok (.prefixRep .stosw, []) ∧
    decode true [0x26, 0xF2, 0xAA] = .ok (.prefixEs (.prefixRepne .stosb), []) := by decide

/-- E18 to E23: the rejections, by name. -/
theorem test_decode_rejections :
    decode false [0x8E, 0xD8] = .error (.noMatch 0x8E) ∧
    decode true [0x80, 0xD3, 0x05] = .error (.badArithSelector 0x80 (some 0xD3)) ∧
    decode true [0x10, 0xC0] = .error (.badArithSelector 0x10 none) ∧ decode true [0x90] = .error (.noMatch 0x90) ∧
    decode true [0xF6, 0xC8] = .error (.badSubSelector 0xF6 0xC8) ∧
    decode true [0xFF, 0xE8] = .error (.badSubSelector 0xFF 0xE8) := by decide

/-- E24 to E28, E30: more rejections. -/
theorem test_decode_more_rejections :
    decode true [0x8E, 0xC8] = .error (.badSegReg 0x8E 0xC8) ∧
    decode true [0x8C, 0xF0] = .error (.badSegReg 0x8C 0xF0) ∧
    decode true [0x26, 0x2E, 0x8B, 0x07] = .error (.duplicatePrefix 0x2E) ∧
    decode true [0xF3, 0x89, 0xD8] = .error (.prefixMisuse 0x89) ∧
    decode true [0xF3, 0xF2, 0xAB] = .error (.duplicatePrefix 0xF2) ∧
    decode true [0x0F] = .error (.noMatch 0x0F) := by decide

/-- S1, R95: the encoder's bytes and the size it gives. -/
theorem test_encode_sizes :
    encode (.movRegImm (.word .ax 5)) = [0xB8, 0x05, 0x00] ∧
    encode (.movRmImm (.word (.mem (.direct 0x1000)) 0x1234)) = [0xC7, 0x06, 0x00, 0x10, 0x34, 0x12] ∧
    (Instr.prefixCs (.movRegRm (.word (.mem (.disp16 .bp 0x1234)) .ax))).size = 5 ∧
    (Instr.prefixRep .stosw).size = 2 := by decide

/-- The table's numbering (log 7): `B8` has 8 bits in the table, and `FF /6` sixteen, the ModRM byte in bits 7 to 0. -/
theorem test_decodeTableWord :
    decodeTableWord 8 0xB8 = some (.movRegImm (.word .ax 0)) ∧
    decodeTableWord 16 0xFF36 = some (.pushRm (.mem (.direct 0))) := by decide

/-- E12, E15, S4: the operand slots and flags of the record. -/
theorem test_record_slots :
    Machine.Instr.slots (.prefixCs (.je 2)) = (.rel 4, .none) ∧
    Machine.Instr.slots (.jmpFar 0 0x1000) = (.imm16 0, .imm16 0x1000) ∧
    Machine.Instr.recordFar (.jmpFar 0 0x1000) = true ∧
    Machine.Instr.slots (.movRegImm (.word .ax 5)) = (.reg16 .ax, .imm16 5) := by decide

/-! ## One step of each instruction, from the vectors of spec/95_test_vectors.md -/

/-- M1. -/
theorem test_mov_reg_reg :
    answers (step { start [0x89, 0xD8] with bx := 0x1234 }) (fun t => t.ax == 0x1234 && t.ip == 0x12) = true := by
  decide

/-- M2. -/
theorem test_mov_direct :
    answers (step { poke (start [0x8B, 0x06, 0x34, 0x12]) 0x3234 [0x78, 0x56] with ds := 0x0200 })
      (fun t => t.ax == 0x5678 && t.ip == 0x14) = true := by decide

/-- M3: a byte load with a negative displacement keeps the other byte. -/
theorem test_mov_byte_disp8 :
    answers (step { poke (start [0x8A, 0x40, 0xFF]) 0x1000 [0xAA] with bx := 0x1000, si := 1, ax := 0x1111 })
      (fun t => t.ax == 0x11AA && t.ip == 0x13) = true := by decide

/-- M4, M5: the segment of a BP-based address, both settings of BP_DEFAULT_SEGMENT. -/
theorem test_mov_bp_segment :
    let s := { poke (start [0x8B, 0x86, 0x34, 0x12]) 0x2244 [0x01, 0x02] with ss := 0x0100, bp := 0x0010 }
    answers (step s) (fun t => t.ax == 0x0201) = true ∧
      answers (step { s with cfg := { s.cfg with bpDefaultSegment := .ds } }) (fun t => t.ax == 0) = true := by decide

/-- M6, second half: AH is written and AL kept. -/
theorem test_mov_ah_imm :
    answers (step { start [0xB4, 0x12] with ax := 0x0041 }) (fun t => t.ax == 0x1241 && t.ip == 0x12) = true := by
  decide

/-- M7. -/
theorem test_mov_mem_imm :
    answers (step (start [0xC6, 0x06, 0x00, 0x10, 0xFF])) (fun t => peek t 0x1000 1 == [0xFF] && t.ip == 0x15) = true := by
  decide

/-- M8: a segment override. -/
theorem test_mov_override :
    answers (step { poke (start [0x26, 0x8B, 0x07]) 0x3010 [0xCD, 0xAB] with es := 0x0300, bx := 0x0010 })
      (fun t => t.ax == 0xABCD && t.ip == 0x13) = true := by decide

/-- M9, M10, M11: A3, 8E and 8C. -/
theorem test_mov_acc_and_sreg :
    answers (step { start [0xA3, 0x00, 0x20] with ax := 0xBEEF }) (fun t => peek t 0x2000 2 == [0xEF, 0xBE]) = true ∧
    answers (step { start [0x8E, 0xD8] with ax := 0x0200 }) (fun t => t.ds == 0x0200 && t.flags == 0) = true ∧
    answers (step { poke (start []) 0x1010 [0x8C, 0xC8] with cs := 0x0100, imageEnd := 0x1012 })
      (fun t => t.ax == 0x0100) = true := by decide

/-- M12: the offset wraps or not by EA_WRAP16. -/
theorem test_ea_wrap :
    let s := { poke (poke (start [0x8B, 0x47, 0x02]) 1 [0x11, 0x22]) 0x10001 [0x33, 0x44] with bx := 0xFFFF }
    answers (step s) (fun t => t.ax == 0x2211) = true ∧
      answers (step { s with cfg := { s.cfg with eaWrap16 := false } }) (fun t => t.ax == 0x4433) = true := by decide

/-- M13. -/
theorem test_mov_top_word :
    ends (step { start [0xA1, 0xFF, 0xFF] with ds := 0xF000 }) (.memoryOutOfBounds 0xFFFFF 2) = true := by decide

/-- A1. -/
theorem test_add_byte_wraps :
    answers (step { start [0x04, 0x01] with ax := 0x00FF }) (fun t => t.ax == 0 && t.flags == 0x0055) = true := by
  decide

/-- S6. -/
theorem test_add_word_overflows :
    answers (step { start [0x05, 0x01, 0x00] with ax := 0x7FFF })
      (fun t => t.ax == 0x8000 && t.flags == 0x0894 && t.ip == 0x13) = true := by decide

/-- A10: the immediate of 83 is sign-extended. -/
theorem test_add_sign_extended :
    answers (step { start [0x83, 0xC3, 0xFF] with bx := 1 }) (fun t => t.bx == 0 && t.flags == 0x0055) = true := by
  decide

/-- A26: PF by PARITY_SCOPE. -/
theorem test_parity_scope :
    let s := { start [0x05, 0x00, 0x01] with ax := 0x00FF }
    answers (step s) (fun t => t.ax == 0x01FF && t.flags == 0x0004) = true ∧
      answers (step { s with cfg := { s.cfg with parityScope := .full } }) (fun t => t.flags == 0) = true := by decide

/-- A5, A6. -/
theorem test_sub :
    answers (step (start [0x2D, 0x01, 0x00])) (fun t => t.ax == 0xFFFF && t.flags == 0x0095) = true ∧
      answers (step { start [0x2C, 0x01] with ax := 0x0080 }) (fun t => t.ax == 0x007F && t.flags == 0x0810) = true := by
  decide

/-- P2's last instruction: 0x1234 - 0x1235. -/
theorem test_sub_group :
    answers (step { start [0x81, 0xEA, 0x35, 0x12] with dx := 0x1234 })
      (fun t => t.dx == 0xFFFF && t.flags == 0x0095 && t.ip == 0x14) = true := by decide

/-- A8: CMP stores nothing. -/
theorem test_cmp_keeps_destination :
    answers (step { start [0x3C, 0x07] with ax := 5 }) (fun t => t.ax == 5 && t.flags == 0x0091) = true := by decide

/-- S3. -/
theorem test_cmp_self :
    answers (step { start [0x39, 0xC0] with ax := 0x1234, flags := 0x0891 })
      (fun t => t.ax == 0x1234 && t.flags == 0x0044 && t.ip == 0x12) = true := by decide

/-- A12, A15: INC and DEC of a register. -/
theorem test_inc_dec_reg :
    answers (step { start [0x40] with ax := 0x7FFF }) (fun t => t.ax == 0x8000 && t.flags == 0x0894) = true ∧
      answers (step { start [0x48] with ax := 0x8000 }) (fun t => t.ax == 0x7FFF && t.flags == 0x0814) = true := by
  decide

/-- A13, A14: CF by INC_DEC_CF. -/
theorem test_inc_dec_cf :
    let p := { Config.default with incDecCf := .preserve }
    answers (step { start [0xFE, 0xC0] with ax := 0x12FF }) (fun t => t.ax == 0x1200 && t.flags == 0x0055) = true ∧
      answers (step { start [0xFE, 0xC0] with ax := 0x12FF, cfg := p }) (fun t => t.flags == 0x0054) = true ∧
      answers (step (start [0x49])) (fun t => t.cx == 0xFFFF && t.flags == 0x0095) = true ∧
      answers (step { start [0x49] with cfg := p }) (fun t => t.flags == 0x0094) = true := by decide

/-- A16. -/
theorem test_inc_mem :
    answers (step (poke (start [0xFE, 0x06, 0x00, 0x10]) 0x1000 [0x7F]))
      (fun t => peek t 0x1000 1 == [0x80] && t.flags == 0x0890) = true := by decide

/-- A17, A18: the product, and CF = OF by its high half; the other four flags are draws. -/
theorem test_mul_byte :
    (∃ t, step { start [0xF6, 0xE3] with ax := 0x0080, bx := 2 } = .next t ∧ t.ax = 0x0100 ∧
      t.flags = mulFlags true 0 0) ∧
    ∃ t, step { start [0xF6, 0xE3] with ax := 3, bx := 4 } = .next t ∧ t.ax = 0x000C ∧ t.flags = mulFlags false 0 0 :=
  ⟨⟨_, rfl, rfl, rfl⟩, ⟨_, rfl, rfl, rfl⟩⟩

/-- A19, and CF and OF of the two flag words above: R208. -/
theorem test_mul_word :
    (∃ t, step { start [0xF7, 0xE3] with ax := 0xFFFF, bx := 0xFFFF } = .next t ∧ t.dx = 0xFFFE ∧ t.ax = 1 ∧
      t.flags = mulFlags true 0 0) ∧
    ∀ b, getFlag .cf (mulFlags b 0 0) = b ∧ getFlag .of (mulFlags b 0 0) = b :=
  ⟨⟨_, rfl, rfl, rfl, rfl⟩, fun b => by simp⟩

/-- A20, A23. -/
theorem test_div :
    answers (step { start [0xF6, 0xF3] with ax := 7, bx := 2 }) (fun t => t.ax == 0x0103) = true ∧
      answers (step { start [0xF7, 0xF3] with dx := 1, bx := 2 }) (fun t => t.ax == 0x8000 && t.dx == 0) = true := by
  decide

/-- A21, A22, A24, A25. -/
theorem test_div_faults :
    ends (step { start [0xF6, 0xF3] with ax := 7 }) (.divideByZero 0x10) = true ∧
    ends (step { start [0xF6, 0xF3] with ax := 0x0400, bx := 2 }) (.divideOverflow 0x10) = true ∧
    ends (step { start [0xF7, 0xF3] with dx := 2, bx := 2 }) (.divideOverflow 0x10) = true ∧
    ends (step { start [0xF7, 0xF2] with ax := 5 }) (.divideByZero 0x10) = true := by decide

/-- G1, G2. -/
theorem test_and :
    answers (step { start [0x24, 0x0F] with ax := 0x00F5, flags := 0x0801 })
      (fun t => t.ax == 5 && t.flags == 0x0004) = true ∧
    answers (step { start [0x21, 0xD8] with ax := 0xF0F0, bx := 0x0FF0 })
      (fun t => t.ax == 0x00F0 && t.flags == 0x0004) = true := by decide

/-- G3, G4. -/
theorem test_or_xor :
    answers (step { start [0x0C, 0x80] with ax := 1 }) (fun t => t.ax == 0x0081 && t.flags == 0x0084) = true ∧
      answers (step { start [0x31, 0xC0] with ax := 0x1234 }) (fun t => t.ax == 0 && t.flags == 0x0044) = true := by
  decide

/-- G6, G7: TEST stores nothing. -/
theorem test_test :
    answers (step { start [0xA8, 0x01] with ax := 2 }) (fun t => t.ax == 2 && t.flags == 0x0044) = true ∧
      answers (step { start [0xF6, 0xC3, 0x01] with bx := 3 })
        (fun t => t.bx == 3 && t.flags == 0 && t.ip == 0x13) = true := by decide

/-- G8, G9. -/
theorem test_not :
    answers (step { start [0xF7, 0xD0] with ax := 0x00FF, flags := 0x08D5 })
      (fun t => t.ax == 0xFF00 && t.flags == 0x08D5) = true ∧
    answers (step (poke (start [0xF6, 0x16, 0x00, 0x10]) 0x1000 [0x0F])) (fun t => peek t 0x1000 1 == [0xF0]) = true := by
  decide

/-- Where `7x 04` at 0x0010 goes: taken 0x0016, not taken 0x0012. -/
def jccTo (op : Byte) (flags : Word) (ip : Word) : Bool :=
  answers (step { start [op, 0x04] with flags := flags }) (fun t => t.ip == ip && t.flags == flags)

/-- J1 to J7. -/
theorem test_jcc_single_flags :
    jccTo 0x70 0x0800 0x16 = true ∧ jccTo 0x71 0x0800 0x12 = true ∧ jccTo 0x72 0x0001 0x16 = true ∧
    jccTo 0x73 0x0001 0x12 = true ∧ jccTo 0x74 0x0040 0x16 = true ∧ jccTo 0x75 0x0040 0x12 = true ∧
    jccTo 0x76 0x0040 0x16 = true := by decide

/-- J8 to J13. -/
theorem test_jcc_none_set :
    jccTo 0x77 0 0x16 = true ∧ jccTo 0x77 0x0001 0x12 = true ∧ jccTo 0x78 0x0080 0x16 = true ∧
    jccTo 0x79 0 0x16 = true ∧ jccTo 0x7A 0 0x12 = true ∧ jccTo 0x7B 0 0x16 = true := by decide

/-- J14 to J20. -/
theorem test_jcc_signed :
    jccTo 0x7C 0x0080 0x16 = true ∧ jccTo 0x7D 0x0880 0x16 = true ∧ jccTo 0x7E 0x08C0 0x16 = true ∧
    jccTo 0x7E 0 0x12 = true ∧ jccTo 0x7E 0x0800 0x16 = true ∧ jccTo 0x7F 0x0880 0x16 = true ∧
    jccTo 0x7F 0x0040 0x12 = true := by decide

/-- J21, J22, J24, J25: branches to itself, to the next instruction and far ahead. -/
theorem test_jumps :
    answers (step (start [0x75, 0xFE])) (fun t => t.ip == 0x10) = true ∧
    answers (step (start [0xEB, 0x00])) (fun t => t.ip == 0x12) = true ∧
    answers (step (start [0xE9, 0x00, 0x01])) (fun t => t.ip == 0x0113) = true ∧
    answers (step (start [0xE9, 0xFD, 0xFF])) (fun t => t.ip == 0x10) = true := by decide

/-- J23, J33: the target wraps, and a prefix counts in the length. -/
theorem test_jump_wraps_and_prefix :
    answers (step { poke (start []) 0xFFF0 [0xEB, 0x7F] with ip := 0xFFF0, imageEnd := 0xFFF2 })
      (fun t => t.ip == 0x0071) = true ∧
    answers (step { start [0x2E, 0x74, 0x02] with flags := 0x0040 }) (fun t => t.ip == 0x15) = true := by decide

/-- J26 to J29. -/
theorem test_loopnz_loopz :
    answers (step { start [0xE0, 0xFC] with cx := 3 }) (fun t => t.cx == 2 && t.ip == 0x0E) = true ∧
    answers (step { start [0xE0, 0xFC] with cx := 3, flags := 0x0040 }) (fun t => t.cx == 2 && t.ip == 0x12) = true ∧
    answers (step { start [0xE1, 0xFE] with cx := 5, flags := 0x0040 }) (fun t => t.cx == 4 && t.ip == 0x10) = true ∧
    answers (step { start [0xE1, 0xFE] with cx := 1, flags := 0x0040 }) (fun t => t.cx == 0 && t.ip == 0x12) = true := by
  decide

/-- S8, J30. -/
theorem test_loop :
    answers (step { start [0xE2, 0xFC] with cx := 1 }) (fun t => t.cx == 0 && t.ip == 0x12) = true ∧
    answers (step { start [0xE2, 0xFC] with cx := 2 }) (fun t => t.cx == 1 && t.ip == 0x0E) = true ∧
    answers (step (start [0xE2, 0xFE])) (fun t => t.cx == 0xFFFF && t.ip == 0x10) = true := by decide

/-- J31, J32. -/
theorem test_jcxz :
    answers (step (start [0xE3, 0x04])) (fun t => t.cx == 0 && t.ip == 0x16) = true ∧
      answers (step { start [0xE3, 0x04] with cx := 0x0100 }) (fun t => t.ip == 0x12) = true := by decide

/-- J34, E15. -/
theorem test_far_jumps :
    ends (step (start [0xFF, 0x2E, 0x00, 0x10])) (.farJump 0x10) = true ∧
      ends (step (start [0xEA, 0x00, 0x00, 0x00, 0x10])) (.farJump 0x10) = true := by decide

/-- K1, K2, K4. -/
theorem test_push_reg :
    answers (step { start [0x50] with sp := 0x0100, ax := 0x1234 })
      (fun t => t.sp == 0xFE && peek t 0xFE 2 == [0x34, 0x12]) = true ∧
    answers (step { start [0x50] with ax := 0x1234 }) (fun t => t.sp == 0xFFFE && peek t 0xFFFE 2 == [0x34, 0x12]) = true ∧
    ends (step { start [0x50] with ss := 0xF000, sp := 1 }) (.memoryOutOfBounds 0xFFFFF 2) = true := by decide

/-- K3: PUSH SP by PUSH_SP_VALUE. -/
theorem test_push_sp :
    let s := { start [0x54] with sp := 0x0100 }
    answers (step s) (fun t => t.sp == 0xFE && peek t 0xFE 2 == [0xFE, 0x00]) = true ∧
      answers (step { s with cfg := { s.cfg with pushSpValue := .old } })
        (fun t => t.sp == 0xFE && peek t 0xFE 2 == [0x00, 0x01]) = true := by decide

/-- K5, K6: POP AX, and POP SP. -/
theorem test_pop_reg :
    answers (step { poke (start [0x58]) 0xFE [0x78, 0x56] with sp := 0xFE })
      (fun t => t.ax == 0x5678 && t.sp == 0x0100) = true ∧
    answers (step { poke (start [0x5C]) 0xFE [0x00, 0x20] with sp := 0xFE }) (fun t => t.sp == 0x2000) = true := by
  decide

/-- K7, K8: PUSH and POP of memory. -/
theorem test_push_pop_mem :
    answers (step { poke (start [0xFF, 0x36, 0x00, 0x20]) 0x2000 [0x11, 0x22] with sp := 0x0100 })
      (fun t => t.sp == 0xFE && peek t 0xFE 2 == [0x11, 0x22]) = true ∧
    answers (step { poke (start [0x8F, 0x06, 0x00, 0x30]) 0xFE [0x78, 0x56] with sp := 0xFE })
      (fun t => t.sp == 0x0100 && peek t 0x3000 2 == [0x78, 0x56]) = true := by decide

/-- K9, K10: PUSH DS and POP DS. -/
theorem test_push_pop_ds :
    answers (step { start [0x1E] with ds := 0x1234, sp := 0x0100 })
      (fun t => t.sp == 0xFE && peek t 0xFE 2 == [0x34, 0x12]) = true ∧
    answers (step { poke (start [0x1F]) 0xFE [0x00, 0x20] with sp := 0xFE })
      (fun t => t.ds == 0x2000 && t.sp == 0x0100) = true := by decide

/-- R295 and K10 with the opcodes of R114: POP ES and POP SS; SP is the raised one whatever SS becomes. -/
theorem test_pop_es_ss :
    answers (step { poke (start [0x07]) 0xFE [0x00, 0x20] with sp := 0xFE })
      (fun t => t.es == 0x2000 && t.sp == 0x0100) = true ∧
    answers (step { poke (start [0x17]) 0xFE [0x00, 0x20] with sp := 0xFE })
      (fun t => t.ss == 0x2000 && t.sp == 0x0100) = true := by decide

/-- K11. -/
theorem test_pushf :
    answers (step { start [0x9C] with sp := 0x0100, flags := 0x0895 })
      (fun t => t.sp == 0xFE && peek t 0xFE 2 == [0x95, 0x08]) = true := by decide

/-- K12, K13. -/
theorem test_popf :
    answers (step { poke (start [0x9D]) 0xFE [0x00, 0x04] with sp := 0xFE })
      (fun t => t.flags == 0x0400 && t.sp == 0x0100) = true ∧
    answers (step { poke (start [0x9D]) 0xFE [0xFF, 0xFF] with sp := 0xFE }) (fun t => t.flags == 0xFFFF) = true := by
  decide

/-- I1. -/
theorem test_int :
    answers (step { poke (poke (start []) 0x1010 [0xCD, 0x21]) 0x84 [0x00, 0x20, 0x00, 0x03] with
        cs := 0x0100, sp := 0x0100, flags := 0x0201, imageEnd := 0x1012 })
      (fun t => peek t 0xFA 6 == [0x12, 0x00, 0x00, 0x01, 0x01, 0x02] && t.sp == 0xFA && t.flags == 1 &&
        t.cs == 0x0300 && t.ip == 0x2000) = true := by decide

/-- I6: the vector is read after the pushes. -/
theorem test_int_vector_overlap :
    answers (step { start [0xCD, 0xFF] with sp := 0x0400, flags := 1 })
      (fun t => t.ip == 0 && t.cs == 1 && t.sp == 0x03FA && t.flags == 1) = true := by decide

/-- I2. -/
theorem test_int3 :
    answers (step { poke (start []) 0x40 [0xCC] with
        ip := 0x40, sp := 0x0100, imageEnd := 0x41, mem := [(0x0D, 0x05), (0x40, 0xCC)] })
      (fun t => peek t 0xFA 6 == [0x41, 0, 0, 0, 0, 0] && t.sp == 0xFA && t.cs == 0 && t.ip == 0x0500) = true := by
  decide

/-- I3, and P3's INTO. -/
theorem test_into :
    answers (step (start [0xCE])) (fun t => t.ip == 0x11 && t.sp == 0 && t.flags == 0) = true ∧
    answers (step { poke (poke (start []) 0x1012 [0xCE]) 0x10 [0x15, 0x00, 0x00, 0x01] with
        cs := 0x0100, ip := 0x12, flags := 0x0894, imageEnd := 0x1019 })
      (fun t => peek t 0xFFFA 6 == [0x13, 0x00, 0x00, 0x01, 0x94, 0x08] && t.sp == 0xFFFA && t.cs == 0x0100 &&
        t.ip == 0x15) = true := by decide

/-- I4. -/
theorem test_iret :
    answers (step { poke (start [0xCF]) 0xFFFA [0x07, 0x00, 0x00, 0x01, 0x94, 0x08] with sp := 0xFFFA })
      (fun t => t.ip == 7 && t.cs == 0x0100 && t.flags == 0x0894 && t.sp == 0) = true := by decide

/-- T1, T4. -/
theorem test_stosb :
    answers (step { start [0xAA] with di := 0x0300, ax := 0x41, flags := 0x0400 })
      (fun t => peek t 0x300 1 == [0x41] && t.di == 0x02FF) = true ∧
    answers (step { start [0xAA] with di := 0xFFFF, ax := 7 }) (fun t => peek t 0xFFFF 1 == [7] && t.di == 0) = true := by
  decide

/-- T7: STOS_SEGMENT. -/
theorem test_stos_segment :
    let s := { start [0xAA] with es := 0x0100, ax := 5 }
    answers (step s) (fun t => peek t 0x1000 1 == [5] && peek t 0 1 == [0]) = true ∧
      answers (step { s with cfg := { s.cfg with stosSegment := .ds } }) (fun t => peek t 0 1 == [5]) = true := by
  decide

/-- T5's first store, without the repeat prefix. -/
theorem test_stosw :
    answers (step { start [0xAB] with di := 0x0104, ax := 0x1122, flags := 0x0400 })
      (fun t => peek t 0x104 2 == [0x22, 0x11] && t.di == 0x0102) = true := by decide

/-- T2, T3. -/
theorem test_rep_stosw :
    answers (step { start [0xF3, 0xAB] with di := 0x2000, cx := 3, ax := 0xABCD })
      (fun t => peek t 0x2000 6 == [0xCD, 0xAB, 0xCD, 0xAB, 0xCD, 0xAB] && t.di == 0x2006 && t.cx == 0) = true ∧
    answers (step { start [0xF3, 0xAB] with di := 0x2000, ax := 0xABCD })
      (fun t => peek t 0x2000 2 == [0, 0] && t.di == 0x2000 && t.cx == 0 && t.ip == 0x12) = true := by decide

/-- T6. -/
theorem test_repne_stosw : ends (step (start [0xF2, 0xAB])) (.repNE 0x10) = true := by decide

/-- E21, E29, E31: the ends of a run that the engine raises. -/
theorem test_engine_ends :
    ends (step (start [0x90])) (.noMatch 0x10 0x90) = true ∧
    ends (step (start [0xB8, 0x05])) (.cursorOutOfBounds 0x12) = true ∧
    ends (step (start [])) (.endOfImage 0x10) = true := by decide

/-- R145: under by_ip a store into the image does not change the retained instruction; under none it does. -/
theorem test_decode_cache :
    let s := { start [0x40] with dtable := [(0x10, { instr := .incReg .cx, size := 1, offset := 0x10 })] }
    answers (step s) (fun t => t.ax == 1 && t.cx == 0) = true ∧
      answers (step { s with cfg := { s.cfg with decodeCache := .byIp } }) (fun t => t.ax == 0 && t.cx == 1) = true := by
  decide

/-- R123: the decode pass of S1's three instructions follows no branch and ends cleanly at E. -/
theorem test_decode_pass :
    ((decodePass (start [0xB8, 0x05, 0x00, 0xEB, 0x7F, 0xF3, 0xAB])).1.map (fun d => (d.offset, d.size)) =
      [(0x10, 3), (0x13, 2), (0x15, 2)]) ∧ (decodePass (start [0xB8, 0x05, 0x00, 0xEB, 0x7F, 0xF3, 0xAB])).2 = .atEnd := by
  decide

/-- S4: the whole record of `B8 05 00`. -/
theorem test_record_fields :
    (decodeAt (start [0xB8, 0x05, 0x00]) 0x10).map Record.fields = .ok
      { mnemonic := .MOV, op0 := .reg16 .ax, op1 := .imm16 5, w := .word, s := false, far := false, segovr := none,
        rep := none, size := 3, offset := 0x10 } := by decide

/-- R110, R121, R152: the W of INT is that of its 8-bit immediate, the W of a far jump that of its 16-bit words. -/
theorem test_record_width :
    Instr.recordWidth (.intImm 0x21) = .byte ∧ Instr.recordWidth .int3 = .byte ∧
      Instr.recordWidth (.jmpFar 0 0xF000) = .word ∧ Instr.recordWidth (.jmpFarMem (.direct 0x2000)) = .word := by decide

/-- The table word of MOV AX, imm placed after reset runs as the first instruction (log 2). -/
theorem test_withFetchWord :
    answers (step (State.reset.withFetchWord 8 0xB8)) (fun t => t.ax == 0 && t.ip == 3) = true := by decide

/-! ## Witnesses: a state and operands that meet the hypotheses of each statement that has some, clause by clause -/

/-- DecodeOfEncode. -/
theorem witness_DecodeOfEncode :
    (Instr.prefixRep (.prefixEs .stosw)).wellFormed = true ∧
      (Instr.prefixCs (.movRegRm (.word (.mem (.disp16 .bp 0x1234)) .ax))).wellFormed = true := by decide

/-- EncodeOfDecode. -/
theorem witness_EncodeOfDecode :
    decode false [0x8B, 0x86, 0x34, 0x12, 0x90] = .ok (.movRegRm (.word (.mem (.disp16 .bp 0x1234)) .ax), [0x90]) := by
  decide

/-- RecordSizeIsConsumedBytes: the shortest record and the longest. -/
theorem witness_RecordSizeIsConsumedBytes :
    decodeAt (start [0xAA]) 0x10 = .ok { instr := .stosb, size := 1, offset := 0x10 } ∧
    decodeAt (start [0x26, 0xC7, 0x86, 0x34, 0x12, 0x78, 0x56]) 0x10 =
      .ok { instr := .prefixEs (.movRmImm (.word (.mem (.disp16 .bp 0x1234)) 0x5678)), size := 7, offset := 0x10 } := by
  decide

/-- TierXOnlyWhenAdmitted: a form of each tier. -/
theorem witness_TierXOnlyWhenAdmitted :
    (decode true [0x89, 0xD8] = .ok (.movRmReg (.word (.reg .ax) .bx), []) ∧
      Machine.Instr.tierX (.movRmReg (.word (.reg .ax) .bx)) = false) ∧
    (decode true [0x8E, 0xD8] = .ok (.movSregRm .ds (.reg .ax), []) ∧
      Machine.Instr.tierX (.movSregRm .ds (.reg .ax)) = true) := by decide

/-- OpcodeStageOutcomes: a byte of each clause. -/
theorem witness_OpcodeStageOutcomes :
    ((0x90 : Byte).toNat ∉ prefixBytes ∧ (0x90 : Byte).toNat ∈ mismatchBytes) ∧
    ((0xEB : Byte).toNat ∉ prefixBytes ∧ (0xEB : Byte).toNat ∈ tierXBytes) ∧
    ((0x89 : Byte).toNat ∉ prefixBytes ∧ (0x89 : Byte).toNat ∉ mismatchBytes ∧ some Rep.rep ≠ none ∧
      (0x89 : Byte).toNat ≠ 0xAA ∧ (0x89 : Byte).toNat ≠ 0xAB) ∧
    ((0x1D : Byte).toNat ∉ prefixBytes ∧ (0x1D : Byte).toNat ∉ mismatchBytes ∧ (0x1D : Byte).toNat ∈ adcSbbBytes) ∧
    ((0x20 : Byte).toNat ∉ prefixBytes ∧ (0x20 : Byte).toNat ∉ mismatchBytes ∧ (0x20 : Byte).toNat ∉ adcSbbBytes) := by
  decide

/-- ModRmStageAnomalies: a ModRM byte of each clause, at the edges of the selector ranges. -/
theorem witness_ModRmStageAnomalies :
    ((0x83 : Byte).toNat < 0x84 ∧ (0xD8 : Byte).toNat / 8 % 8 = 3) ∧ badSubSelector 0xFF 0xE8 ∧
    badSegReg 0x8E 0xC8 ∧ badSegReg 0x8C 0xE0 ∧ ¬ badSubSelector 0xFF 0x28 ∧ ¬ badSubSelector 0xFE 0xC8 ∧
    ¬ badSegReg 0x8C 0xD8 ∧ ¬ badSegReg 0x8E 0xD8 ∧
    (0xFF : Byte).toNat ∈ List.range' 0x80 4 ++ [0x8C, 0x8E, 0x8F, 0xC6, 0xC7, 0xF6, 0xF7, 0xFE, 0xFF] := by
  refine ⟨?_, ?_, ?_, ?_, ?_, ?_, ?_, ?_, ?_⟩ <;> (try unfold badSubSelector) <;> (try unfold badSegReg) <;> decide

/-- RegisterAliasing: a high alias of the written register, and another register. -/
theorem witness_RegisterAliasing : parent .ah = .ax ∧ Reg16.cx ≠ .ax ∧ Reg8.al ≠ .ah ∧ Reg16.sp ≠ parent .ah := by decide

/-- EffectiveAddress: both settings of EA_WRAP16. -/
theorem witness_EffectiveAddress :
    (start []).cfg.eaWrap16 = true ∧ { (start []).cfg with eaWrap16 := false }.eaWrap16 = false := by decide

/-- StoreWritesExactly and MixedWidthAccesses: the last byte and the last word of memory. -/
theorem witness_StoreWritesExactly : 0xFFFFF + 1 ≤ 2 ^ 20 ∧ 0xFFFFE + 1 < 2 ^ 20 := by decide

theorem witness_MixedWidthAccesses : 0xFFFFE + 1 < 2 ^ 20 := by decide

/-- OnlyTheTopWordIsOutOfBounds: the first byte past memory, the word at the last byte, and the last address. -/
theorem witness_OnlyTheTopWordIsOutOfBounds : 2 ^ 20 < 0x100000 + 1 ∧ 2 ^ 20 < 0xFFFFF + 2 ∧ 0xFFFFF < 2 ^ 20 := by decide

/-- EqualReadsAreEqualMemories: two memories built by different writes. -/
theorem witness_EqualReadsAreEqualMemories :
    let m := Memory.write (Memory.write [] 5 1) 7 0
    let m' := Memory.write (Memory.write [] 7 3) 5 1 |>.write 7 0
    m.wf ∧ m'.wf ∧ m = m' := by decide

/-- StepRunsTheDecodedInstruction: under `none`, and under `by_ip` with nothing retained. -/
theorem witness_StepRunsTheDecodedInstruction :
    let s := start [0x40]
    let c := { s with cfg := { s.cfg with decodeCache := .byIp } }
    (s.p0 < s.imageEnd ∧ decode s.cfg.admitTierX (window s s.p0) = .ok (.incReg .ax, []) ∧ s.cfg.decodeCache = .none) ∧
    (c.p0 < c.imageEnd ∧ decode c.cfg.admitTierX (window c c.p0) = .ok (.incReg .ax, []) ∧ c.cfg.decodeCache = .byIp ∧
      retainedAt c.dtable c.ip = none) := by decide

/-- The hypotheses of DecodeFailureEndsTheStep for an image's bytes and a failure. -/
def failsWith (bytes : List Byte) (e : DecodeFail) : Prop :=
  (start bytes).p0 < (start bytes).imageEnd ∧ (start bytes).cfg.decodeCache = .none ∧
    decode (start bytes).cfg.admitTierX (window (start bytes) (start bytes).p0) = .error e

/-- DecodeFailureEndsTheStep: every failure. -/
theorem witness_DecodeFailureEndsTheStep :
    failsWith [0x90] (.noMatch 0x90) ∧ failsWith [0x10, 0xC0] (.badArithSelector 0x10 none) ∧
    failsWith [0x80, 0xD3, 0x05] (.badArithSelector 0x80 (some 0xD3)) ∧
    failsWith [0xF6, 0xC8] (.badSubSelector 0xF6 0xC8) ∧ failsWith [0x8E, 0xC8] (.badSegReg 0x8E 0xC8) ∧
    failsWith [0x26, 0x2E] (.duplicatePrefix 0x2E) ∧ failsWith [0xF3, 0x89] (.prefixMisuse 0x89) ∧
    failsWith [0xB8, 0x05] .truncated := by
  simp only [failsWith]
  decide

/-- StraddlingInstructionIsFatal: one byte below E, and all but one. -/
theorem witness_StraddlingInstructionIsFatal :
    let i := Instr.movRegImm (.word .ax 5)
    (∀ s ∈ [start [0xB8], start [0xB8, 0x05]], i.wellFormed = true ∧
      (s.cfg.admitTierX = true ∨ Machine.Instr.tierX i = false) ∧
      (s.cfg.decodeCache = .none ∨ retainedAt s.dtable s.ip = none) ∧ s.p0 < s.imageEnd ∧ s.imageEnd < s.p0 + i.size ∧
      window s s.p0 = (encode i).take (s.imageEnd - s.p0)) := by decide

/-- A state under `by_ip`. -/
def cached (s : State) (t : List (Word × Record)) : State :=
  { s with dtable := t, cfg := { s.cfg with decodeCache := .byIp } }

/-- RetainedDecodeIsRedispatched: at E, with a record for this IP, with one for another, and under none. -/
theorem witness_RetainedDecodeIsRedispatched :
    let d : Record := { instr := .incReg .cx, size := 1, offset := 0x10 }
    let s := cached (start [0x40]) [(0x10, d)]
    let u := cached (start [0x40]) [(0x0F, d)]
    (s.cfg.decodeCache = .byIp ∧ s.p0 < s.imageEnd ∧ retainedAt s.dtable s.ip = some d) ∧
    (u.cfg.decodeCache = .byIp ∧ u.p0 < u.imageEnd ∧ retainedAt u.dtable u.ip = none ∧ (0x0F : Word) ≠ u.ip ∧
      answers (step u) (fun _ => true) = true) ∧
    (cached (start []) [(0x10, d)]).imageEnd ≤ (cached (start []) [(0x10, d)]).p0 ∧
    ((start [0x40]).cfg.decodeCache = .none ∧ answers (step (start [0x40])) (fun _ => true) = true) := by decide

/-- CacheAgreesWhenRecordsAreFresh: a retained record that is the fresh decode. -/
theorem witness_CacheAgreesWhenRecordsAreFresh :
    let d : Record := { instr := .incReg .ax, size := 1, offset := 0x10 }
    let s := cached (start [0x40]) [(0x10, d)]
    retainedAt s.dtable s.ip = some d ∧ decodeAt s s.p0 = .ok d := by decide

/-- StepKeepsInvariant: a loaded state with a retained record, and its step. -/
theorem witness_StepKeepsInvariant :
    let s := cached (start [0x40]) [(0x0F, { instr := .incReg .cx, size := 1, offset := 0x0F })]
    s.Inv ∧ ∃ t, step s = .next t :=
  ⟨⟨by decide, by decide, by decide, by decide, by decide, by decide, by decide⟩, _, rfl⟩

/-- ResetAndLoadMeetInvariant: the loader at the last byte of memory, where one byte fits. -/
theorem witness_ResetAndLoadMeetInvariant :
    ∃ s, load Config.default (some [0x40]) 0xF000 0xFFFF = .ok s ∧ s.imageEnd = 0x100000 := ⟨_, rfl, rfl⟩

/-- ImageBoundsNeverMove: a step that stores into the image. -/
theorem witness_ImageBoundsNeverMove : ∃ t, step { start [0xAA] with di := 0x10, ax := 0x90 } = .next t := ⟨_, rfl⟩

/-- OnlyInterruptsChangeCs: an INT. -/
theorem witness_OnlyInterruptsChangeCs :
    ∃ t, exec (.intImm 0x21) { poke (start []) 0x86 [0x00, 0x03] with sp := 0x0100 } = .next t ∧ t.cs ≠ 0 :=
  ⟨_, rfl, by decide⟩

/-- FlagWriters: an instruction, a flag it may not write, and one that is no POPF or IRET. -/
theorem witness_FlagWriters :
    (∃ t, exec (.incReg .ax) (start []) = .next t) ∧ mayWriteFlag .df (.incReg .ax) = false ∧
      Machine.Instr.mnemonic (.incReg .ax) ≠ .POPF ∧ Machine.Instr.mnemonic (.incReg .ax) ≠ .IRET :=
  ⟨⟨_, rfl⟩, by decide, by decide, by decide⟩

/-- UnreadFlagsHaveNoEffect: two words that differ in AF, TF, IF and every reserved bit. -/
theorem witness_UnreadFlagsHaveNoEffect :
    (∀ f ∈ readFlags, getFlag f (0xF33A : Word) = getFlag f 0) ∧ Machine.Instr.mnemonic (.jle 2) ≠ .PUSHF ∧
      Machine.Instr.mnemonic (.jle 2) ≠ .INT ∧ Machine.Instr.mnemonic (.jle 2) ≠ .INTO := by decide

/-- OutcomesOfExecute. -/
theorem witness_OutcomesOfExecute : (Instr.divRm (.word (.mem (.base .bx)))).wellFormed = true := by decide

/-- OverrideWithoutMemoryOperand: an instruction that completes and one that faults. -/
theorem witness_OverrideWithoutMemoryOperand :
    ((SReg.cs.before (.je 2)).wellFormed = true ∧ (Instr.je 2).ea = none) ∧
    (SReg.es.before (.divRm (.byte (.reg .bl)))).wellFormed = true ∧ (Instr.divRm (.byte (.reg .bl))).ea = none := by
  decide

/-- A word address that is not the top one is in bounds. -/
theorem below {a : Nat} (h : (a == 0xFFFFF) = false) : a ≠ 0xFFFFF := ne_of_beq_false h

/-- AddAndSubtract, CompareStoresNothing: a word at the highest address that has one, a byte at the last byte, and an
immediate. -/
theorem witness_AddAndSubtract :
    let s := { start [] with ds := 0xF000 }
    (AluForm.operands none s (.rmReg .toRm (.word (.mem (.direct 0xFFFE)) .bx))).inBounds ∧
    (AluForm.operands none s (.rmReg .toReg (.byte (.mem (.direct 0xFFFF)) .ah))).inBounds ∧
    (AluForm.operands none s (.accImm (.word 1))).inBounds ∧
    (AluForm.operands (some .cs) s (.rmImm (.wordSx (.mem (.direct 0xFFFF)) 0xFF))).inBounds :=
  ⟨⟨below rfl, trivial⟩, ⟨trivial, trivial⟩, ⟨trivial, trivial⟩, ⟨below rfl, trivial⟩⟩

theorem witness_CompareStoresNothing :
    (AluForm.operands none { start [] with ds := 0xF000 } (.rmImm (.word (.mem (.direct 0xFFFE)) 1))).inBounds :=
  ⟨below rfl, trivial⟩

/-- IncrementAndDecrement. -/
theorem witness_IncrementAndDecrement :
    let s := { start [] with ds := 0xF000 }
    (StepForm.operand none s (.rm (.word (.mem (.direct 0xFFFE))))).inBounds ∧
    (StepForm.operand none s (.rm (.byte (.mem (.direct 0xFFFF))))).inBounds ∧
    (StepForm.operand none s (.reg .sp)).inBounds :=
  ⟨below rfl, trivial, trivial⟩

/-- MultiplyExactly. -/
theorem witness_MultiplyExactly :
    (rmWord none { start [] with ds := 0xF000 } (.mem (.direct 0xFFFE))).inBounds := below rfl

/-- DivideWithRemainder: the largest quotient that fits, of each width. -/
theorem witness_DivideWithRemainder :
    (let s := { start [] with ax := 0x01FF, bx := 2 };
      s.ax.toNat < 256 * ((rmByte none s (.reg .bl)).value s).toNat) ∧
    (let s := { start [] with dx := 1, ax := 0xFFFF, bx := 2 };
      (rmWord none s (.reg .bx)).inBounds ∧
        s.dx.toNat * 65536 + s.ax.toNat < 65536 * ((rmWord none s (.reg .bx)).value s).toNat) :=
  ⟨by decide, trivial, by decide⟩

/-- DivideFaults: a zero divisor and the smallest quotient that does not fit, of each width. -/
theorem witness_DivideFaults :
    (let s := { start [] with ax := 0x0200, bx := 2 };
      ((rmByte none s (.reg .cl)).value s).toNat = 0 ∧ ((rmByte none s (.reg .bl)).value s).toNat ≠ 0 ∧
        256 * ((rmByte none s (.reg .bl)).value s).toNat ≤ s.ax.toNat) ∧
    (let s := { start [] with dx := 2, bx := 2 };
      (rmWord none s (.reg .bx)).inBounds ∧ ((rmWord none s (.reg .cx)).value s).toNat = 0 ∧
        ((rmWord none s (.reg .bx)).value s).toNat ≠ 0 ∧
        65536 * ((rmWord none s (.reg .bx)).value s).toNat ≤ s.dx.toNat * 65536 + s.ax.toNat) :=
  ⟨by decide, trivial, by decide, by decide, by decide⟩

/-- BitwiseOperations. -/
theorem witness_BitwiseOperations :
    AluOp.xor ∈ [AluOp.and, .or, .xor] ∧
      (AluForm.operands none { start [] with ds := 0xF000 } (.rmReg .toRm (.word (.mem (.direct 0xFFFE)) .bx))).inBounds :=
  ⟨by decide, below rfl, trivial⟩

/-- TestStoresNothing. -/
theorem witness_TestStoresNothing :
    (TestForm.operands none { start [] with ds := 0xF000 } (.rmImm (.word (.mem (.direct 0xFFFE)) 1))).inBounds ∧
      (TestForm.operands none (start []) (.rmReg (.byte (.reg .bl) .al))).inBounds ∧
      (TestForm.operands none (start []) (.accImm (.byte 1))).inBounds :=
  ⟨⟨below rfl, trivial⟩, ⟨trivial, trivial⟩, ⟨trivial, trivial⟩⟩

/-- NotComplements. -/
theorem witness_NotComplements :
    (rmSingle none { start [] with ds := 0xF000 } (.word (.mem (.direct 0xFFFE)))).inBounds := below rfl

/-- MoveCopies: each form, the memory operand at the highest word. -/
theorem witness_MoveCopies :
    let s := { start [] with ds := 0xF000 }
    let m : Rm Reg16 := .mem (.direct 0xFFFE)
    (MovForm.operands none s (.rmReg (.word m .ax))).inBounds ∧ (MovForm.operands none s (.regRm (.word m .ax))).inBounds ∧
    (MovForm.operands none s (.rmImm (.word m 1))).inBounds ∧ (MovForm.operands none s (.regImm (.byte .ah 1))).inBounds ∧
    (MovForm.operands none s (.accMem .load .word 0xFFFE)).inBounds ∧
    (MovForm.operands none s (.accMem .store .word 0xFFFE)).inBounds ∧
    (MovForm.operands none s (.sregRm .ss m)).inBounds ∧ (MovForm.operands none s (.rmSreg m .cs)).inBounds :=
  ⟨⟨below rfl, trivial⟩, ⟨trivial, below rfl⟩, ⟨below rfl, trivial⟩, ⟨trivial, trivial⟩, ⟨trivial, below rfl⟩,
    ⟨below rfl, trivial⟩, ⟨trivial, below rfl⟩, ⟨below rfl, trivial⟩⟩

/-- OperandAtTopWordIsFatal: each clause, with the word at 0xFFFFF as destination or as source. -/
theorem witness_OperandAtTopWordIsFatal :
    let s := { start [] with ds := 0xF000 }
    let m : Rm Reg16 := .mem (.direct 0xFFFF)
    ¬ (AluForm.operands none s (.rmReg .toRm (.word m .ax))).inBounds ∧
    ¬ (TestForm.operands none s (.rmReg (.word m .ax))).inBounds ∧
    ¬ (MovForm.operands none s (.sregRm .es m)).inBounds ∧
    ¬ (StepForm.operand none s (.rm (.word m))).inBounds ∧ ¬ (rmSingle none s (.word m)).inBounds :=
  ⟨fun h => absurd rfl h.1, fun h => absurd rfl h.1, fun h => absurd rfl h.2, fun h => absurd rfl h,
    fun h => absurd rfl h⟩

/-- ConditionalJumps: a condition that holds and one that does not. -/
theorem witness_ConditionalJumps : Cond.Taken 0x0800 .le ∧ ¬ Cond.Taken 0 .le := by
  simp only [Cond.Taken]
  decide

/-- LoopFamily: CX = 1 and CX = 2 for the three that count, and CX = 0 and 1 for JCXZ. -/
theorem witness_LoopFamily :
    BitVec.ofInt 16 (((2 : Word).toNat : Int) - 1) ≠ 0 ∧ ¬ BitVec.ofInt 16 (((1 : Word).toNat : Int) - 1) ≠ 0 ∧
      BitVec.ofInt 16 (((0 : Word).toNat : Int) - 1) ≠ 0 ∧ (start []).cx = 0 ∧ { start [] with cx := 1 }.cx ≠ 0 := by decide

/-- PushStoresWord: SP = 0 wraps below SS, and a memory source at the highest word. -/
theorem witness_PushStoresWord :
    let s := { start [] with ds := 0xF000 }
    PushForm.inBounds none s (.rm (.mem (.direct 0xFFFE))) ∧ PushForm.inBounds none s (.reg .sp) ∧
      PushForm.inBounds none s .flags ∧ PushForm.inBounds none s (.sreg .cs) ∧ pushAddr s ≠ 0xFFFFF :=
  ⟨below rfl, trivial, trivial, trivial, by decide⟩

/-- PopLoadsWord: destinations of each kind, SP among them. -/
theorem witness_PopLoadsWord :
    let s := { start [] with ss := 0xF000, sp := 0xFFFE }
    phys s.ss s.sp ≠ 0xFFFFF ∧ (PopForm.dst none s (.rm (.mem (.direct 0xFFFE)))).inBounds ∧
      (PopForm.dst none s (.reg .sp)).inBounds ∧ (PopForm.dst none s (.sreg .ss)).inBounds ∧
      PopForm.isSp (.sreg .ss) = false :=
  ⟨by decide, below rfl, trivial, trivial, rfl⟩

/-- PopfLoadsAllFlags. -/
theorem witness_PopfLoadsAllFlags : phys (start []).ss (start []).sp ≠ 0xFFFFF := by decide

/-- StackAtTopWordIsFatal: each way a push or a pop reaches the top word. -/
theorem witness_StackAtTopWordIsFatal :
    let s := { start [] with ds := 0xF000, ss := 0xF000, sp := 1 }
    let u := { start [] with ss := 0xF000, sp := 0xFFFF }
    ¬ PushForm.inBounds none s (.rm (.mem (.direct 0xFFFF))) ∧ pushAddr s = 0xFFFFF ∧ phys u.ss u.sp = 0xFFFFF ∧
      ¬ (PopForm.dst none s (.rm (.mem (.direct 0xFFFF)))).inBounds :=
  ⟨fun h => absurd rfl h, by decide, by decide, fun h => absurd rfl h⟩

/-- PushPopRoundTrip: PUSH AX, and POP to memory in the state it leaves. -/
theorem witness_PushPopRoundTrip :
    PushForm.inBounds none (start []) (.reg .ax) ∧ pushAddr (start []) ≠ 0xFFFFF ∧
      ∃ t, exec (.pushReg .ax) (start []) = .next t ∧ (PopForm.dst none t (.rm (.mem (.direct 0x2000)))).inBounds :=
  ⟨trivial, by decide, _, rfl, below rfl⟩

/-- InterruptEntry: each of the three instructions, at the highest and lowest stack that has room. -/
theorem witness_InterruptEntry :
    let s := { start [] with flags := 0x0800 }
    let i := Instr.into
    (i = .intImm 4 ∨ (i = .int3 ∧ (4 : Byte) = 3) ∨ (i = .into ∧ (4 : Byte) = 4 ∧ getFlag .of s.flags = true)) ∧
    (Instr.int3 = .int3 ∧ (3 : Byte) = 3) ∧
    phys s.ss (s.sp - 2) ≠ 0xFFFFF ∧ phys s.ss (s.sp - 4) ≠ 0xFFFFF ∧ phys s.ss (s.sp - 6) ≠ 0xFFFFF := by decide

/-- IntoNotTaken. -/
theorem witness_IntoNotTaken : getFlag .of (start []).flags = false := by decide

/-- InterruptAtTopWordIsFatal: the second push, the third pop, and OF set. -/
theorem witness_InterruptAtTopWordIsFatal :
    let s := { start [] with ss := 0xF000, sp := 3, flags := 0x0800 }
    let u := { start [] with ss := 0xF000, sp := 0xFFFB }
    phys s.ss (s.sp - 4) = 0xFFFFF ∧ getFlag .of s.flags = true ∧ phys u.ss (u.sp + 4) = 0xFFFFF := by decide

/-- InterruptReturn. -/
theorem witness_InterruptReturn :
    let s := { start [] with sp := 0xFFFA }
    phys s.ss s.sp ≠ 0xFFFFF ∧ phys s.ss (s.sp + 2) ≠ 0xFFFFF ∧ phys s.ss (s.sp + 4) ≠ 0xFFFFF := by decide

/-- InterruptRoundTrip: the IRET in the very state the interrupt leaves. -/
theorem witness_InterruptRoundTrip :
    ∃ t, exec (.intImm 0x21) { start [] with sp := 0x0100 } = .next t ∧ t.ss = t.ss ∧ t.sp = t.sp ∧
      ∀ a ∈ [phys 0 (0x0100 - 2), phys 0 (0x0100 - 4), phys 0 (0x0100 - 6)], t.mem.word a = t.mem.word a :=
  ⟨_, rfl, rfl, rfl, fun _ _ => rfl⟩

/-- StosStoresOnce: the last word of memory but one byte, and the top word. -/
theorem witness_StosStoresOnce :
    phys 0xF000 0xFFFE ≠ 0xFFFFF ∧ phys { start [] with es := 0xF000, di := 0xFFFF }.es 0xFFFF = 0xFFFFF := by decide

/-- RepStosFills: two stores that stay below the top word, and two of which the second reaches it. -/
theorem witness_RepStosFills :
    (∀ k, k < (2 : Word).toNat → phys 0xF000 (0xFFFC + BitVec.ofNat 16 (2 * k)) ≠ 0xFFFFF) ∧
      ∃ k, k < (2 : Word).toNat ∧ phys 0xF000 (0xFFFD + BitVec.ofNat 16 (2 * k)) = 0xFFFFF :=
  ⟨by decide, 1, by decide, by decide⟩

/-- LoaderGivesBootState: an image that just fits and one that does not; the empty image. -/
theorem witness_LoaderGivesBootState :
    ((0xF000 : Word).toNat * 16 + (0xFFFE : Word).toNat) % 2 ^ 20 + [(0x40 : Byte), 0x40].length ≤ 2 ^ 20 ∧
      2 ^ 20 < ((0xF000 : Word).toNat * 16 + (0xFFFF : Word).toNat) % 2 ^ 20 + [(0x40 : Byte), 0x40].length ∧
      ((0 : Word).toNat * 16 + (0 : Word).toNat) % 2 ^ 20 + ([] : List Byte).length ≤ 2 ^ 20 := by decide

/-- FarJumpsStop: a memory pointer, and the ModRM bytes of FF /5 with mod 11. -/
theorem witness_FarJumpsStop :
    (Ea.direct 0x1000).wellFormed = true ∧ (0xE8 : Byte).toNat / 64 = 3 ∧ (0xE8 : Byte).toNat / 8 % 8 = 5 := by decide

/-- RepneStosIsFatal: the neighbours of AA and AB that have an entry. -/
theorem witness_RepneStosIsFatal :
    ∀ b ∈ [(0xA9 : Byte), 0xB0], b.toNat ∉ prefixBytes ∧ b.toNat ∉ mismatchBytes ∧ b.toNat ∉ [0xAA, 0xAB] := by decide

/-- DecodePassIsLinear: a pass that ends at E and one that stops. -/
theorem witness_DecodePassIsLinear :
    (decodePass (start [0x40])).2 = .atEnd ∧
      (decodePass (start [0x40, 0x90])).2 = .stopped (.noMatch 0x11 0x90) := by decide

end Sys2Proof.Tests
end

section
/-! PROOFS. O4 (R11): what `ADMIT_TIER_X = false` takes from the decoder. -/

namespace Sys2Proof

/-- What the opcode stage can do when it reads an instruction. R122. -/
theorem decodeOpcode_cases {admitX rep : Bool} {op : Byte} {t rest : List Byte} {i : Instr}
    (h : decodeOpcode admitX rep op t = .ok (i, rest)) :
    ∃ e, Entry.of op = some e ∧ (e.tierX = true → admitX = true) ∧ (rep = true → e.isStos = true) ∧
      e.parse op t = .ok (i, rest) := by
  simp only [decodeOpcode] at h
  split at h
  · cases h
  · rename_i e he
    split at h
    · cases h
    · rename_i hX
      split at h
      · cases h
      · rename_i hrep
        exact ⟨e, he, by simpa using hX, by simpa using hrep, h⟩

/-- R97: without tier X, the opcode byte of a tier-X entry is a mismatch, whatever follows it. -/
theorem decodeOpcode_tierX_refused {rep : Bool} {op : Byte} {t : List Byte} {e : Entry} (he : Entry.of op = some e)
    (hX : e.tierX = true) : decodeOpcode false rep op t = .error (.noMatch op) := by
  simp [decodeOpcode, he, hX]

/-- Admitting tier X makes no difference to an entry of tier S. -/
theorem decodeOpcode_admitX_irrelevant {rep : Bool} {op : Byte} {t : List Byte} {e : Entry} (he : Entry.of op = some e)
    (hX : e.tierX = false) (a b : Bool) : decodeOpcode a rep op t = decodeOpcode b rep op t := by
  simp [decodeOpcode, he, hX]

end Sys2Proof

namespace Sys2Proof.Machine

open Sys2Proof

/-! ## The tier of an instruction is the tier of its opcode's entry (R11, R120) -/

@[simp] theorem Instr.tierX_segBefore (r : SReg) (i : Instr) : Instr.tierX (r.before i) = Instr.tierX i := by
  cases r <;> rfl

@[simp] theorem Instr.tierX_repBefore (k : Rep) (i : Instr) : Instr.tierX (k.before i) = Instr.tierX i := by
  cases k <;> rfl

theorem AluOp.rmReg_tierX (a : AluOp) (d : Dir) (o : RmReg) : Instr.tierX (a.rmReg d o) = false := by cases a <;> rfl

theorem AluOp.accImm_tierX (a : AluOp) (o : AccImm) : Instr.tierX (a.accImm o) = false := by cases a <;> rfl

theorem AluOp.rmImm_tierX (a : AluOp) (o : GrpImm) : Instr.tierX (a.rmImm o) = false := by cases a <;> rfl

theorem Cond.jump_tierX (c : Cond) (d : Byte) : Instr.tierX (c.jump d) = false := by cases c <;> rfl

theorem LoopKind.instr_tierX (k : LoopKind) (d : Byte) : Instr.tierX (k.instr d) = false := by cases k <;> rfl

theorem SRegDst.pop_tierX (r : SRegDst) : Instr.tierX r.pop = true := by cases r <;> rfl

/-- Every instruction the parser reads has the tier `x`: true is X. -/
def ReadsTier (x : Bool) (p : Parse Instr) : Prop := ∀ i t, p = .ok (i, t) → Instr.tierX i = x

theorem ReadsTier.ok {x : Bool} {i : Instr} {t : List Byte} (h : Instr.tierX i = x) : ReadsTier x (.ok (i, t)) := by
  rintro _ _ ⟨⟩
  exact h

theorem ReadsTier.error {x : Bool} {e : DecodeFail} : ReadsTier x (.error e) := nofun

theorem ReadsTier.map {α : Type} {x : Bool} {f : α → Instr} {p : Parse α} (h : ∀ a, Instr.tierX (f a) = x) :
    ReadsTier x (Parse.map f p) := by
  intro i t hi
  obtain ⟨a, -, rfl⟩ := Parse.map_cases hi
  exact h a

theorem ReadsTier.withModRm {x : Bool} {k : Byte → List Byte → Parse Instr} {t : List Byte}
    (h : ∀ m t, ReadsTier x (k m t)) : ReadsTier x (withModRm t k) := by
  intro i rest hi
  obtain ⟨m, t', -, hk⟩ := withModRm_cases hi
  exact h m t' i rest hk

/-- A form whose selector must hold `c`, or it is no instruction. R105, R119. -/
theorem ReadsTier.ite_error {x : Bool} {c : Prop} [Decidable c] {p : Parse Instr} {e : DecodeFail}
    (h : ReadsTier x p) : ReadsTier x (if c then p else .error e) := by
  split
  · exact h
  · exact .error

theorem parseUnary_tier (op : Byte) (w : Width) (m : Byte) (t : List Byte) : ReadsTier false (parseUnary op w m t) := by
  simp only [parseUnary]
  split
  · exact .map fun _ => rfl
  · exact .map fun _ => rfl
  · exact .map fun _ => rfl
  · exact .map fun _ => rfl
  · exact .error

theorem parseFe_tier (op m : Byte) (t : List Byte) : ReadsTier false (parseFe op m t) := by
  simp only [parseFe]
  split
  · exact .map fun _ => rfl
  · exact .map fun _ => rfl
  · exact .error

theorem parseFf_tier (op m : Byte) (t : List Byte) : ReadsTier false (parseFf op m t) := by
  simp only [parseFf]
  split
  · exact .map fun _ => rfl
  · exact .map fun _ => rfl
  · split
    · exact .error
    · exact .map fun _ => rfl
  · exact .map fun _ => rfl
  · exact .error

theorem parseMovRmSreg_tier (op m : Byte) (t : List Byte) : ReadsTier true (parseMovRmSreg op m t) := by
  simp only [parseMovRmSreg]
  split
  · exact .error
  · exact .map fun _ => rfl

theorem parseMovSregRm_tier (op m : Byte) (t : List Byte) : ReadsTier true (parseMovSregRm op m t) := by
  simp only [parseMovSregRm]
  split
  · exact .error
  · split
    · exact .map fun _ => rfl
    · exact .error

theorem parseGrpAlu_tier (op : Byte) (s : Bool) (w : Width) (m : Byte) (t : List Byte) :
    ReadsTier false (parseGrpAlu op s w m t) := by
  simp only [parseGrpAlu]
  split
  · rename_i a _
    exact .map (AluOp.rmImm_tierX a)
  · exact .error

theorem parseFar_tier (t : List Byte) : ReadsTier false (parseFar t) := by
  simp only [parseFar]
  split
  · exact .map fun _ => rfl
  · exact .error

/-- R11, R120: an entry of a row marked (X) reads only tier-X forms, and every other entry only tier-S forms. -/
theorem Entry.parse_tier (op : Byte) (t : List Byte) (e : Entry) : ReadsTier e.tierX (e.parse op t) := by
  cases e with
  | aluRmReg a d w => exact .withModRm fun _ _ => .map (AluOp.rmReg_tierX a d)
  | aluAccImm a w => exact .map (AluOp.accImm_tierX a)
  | adcSbb => exact .error
  | popSreg r => exact .ok (SRegDst.pop_tierX r)
  | jcc c => exact .map (Cond.jump_tierX c)
  | loop k => exact .map (LoopKind.instr_tierX k)
  | pushSreg r | incReg r | decReg r | pushReg r | popReg r => exact .ok rfl
  | pushf | popf | int3 | into | iret => exact .ok rfl
  | stos w => cases w <;> exact .ok rfl
  | testRmReg w | movRmReg w | movRegRm w => exact .withModRm fun _ _ => .map fun _ => rfl
  | grpPop | grpMov w => exact .withModRm fun _ _ => .ite_error (.map fun _ => rfl)
  | movAccMem x w | testAccImm w | movReg8 r | movReg16 r | intImm | jmpNear | jmpShort =>
    exact .map fun _ => rfl
  | grpAlu s w => exact .withModRm (parseGrpAlu_tier op s w)
  | movRmSreg => exact .withModRm (parseMovRmSreg_tier op)
  | movSregRm => exact .withModRm (parseMovSregRm_tier op)
  | jmpFar => exact parseFar_tier t
  | grpUnary w => exact .withModRm (parseUnary_tier op w)
  | grpFe => exact .withModRm (parseFe_tier op)
  | grpFf => exact .withModRm (parseFf_tier op)

/-- A byte that selects a tier-X entry is one of the bytes of the rows R120 marks (X). -/
theorem Entry.of_tierX_mem (b : Byte) : ∀ e ∈ Entry.of b, e.tierX = true → b.toNat ∈ tierXBytes := by
  revert b; decide

/-! ## The decoder with tier X beside the decoder without -/

/-- Of what `p` reads, `q` reads the tier-S forms alike, and at the tier-X forms it meets a mismatch. R11. -/
def LosesTierX (p q : Parse Instr) : Prop :=
  ∀ i rest, p = .ok (i, rest) →
    (Instr.tierX i = false → q = .ok (i, rest)) ∧
    (Instr.tierX i = true → ∃ op, q = .error (.noMatch op) ∧ op.toNat ∈ tierXBytes)

theorem LosesTierX.of_error (e : DecodeFail) (q : Parse Instr) : LosesTierX (.error e) q := nofun

/-- A prefix before what either decoder reads changes neither the tier nor the mismatch. -/
theorem LosesTierX.map {p q : Parse Instr} {f : Instr → Instr} (hf : ∀ i, Instr.tierX (f i) = Instr.tierX i)
    (h : LosesTierX p q) : LosesTierX (Parse.map f p) (Parse.map f q) := by
  intro i rest hi
  obtain ⟨j, hj, rfl⟩ := Parse.map_cases hi
  obtain ⟨hS, hX⟩ := h j rest hj
  rw [hf]
  constructor
  · intro ht
    rw [hS ht, Parse.map_ok]
  · intro ht
    obtain ⟨op, hq, hop⟩ := hX ht
    exact ⟨op, by rw [hq, Parse.map_error], hop⟩

theorem decodeOpcode_losesTierX (rep : Bool) (op : Byte) (t : List Byte) :
    LosesTierX (decodeOpcode true rep op t) (decodeOpcode false rep op t) := by
  intro i rest h
  obtain ⟨e, he, -, -, hp⟩ := decodeOpcode_cases h
  rw [Entry.parse_tier op t e i rest hp]
  constructor
  · intro hS
    rw [decodeOpcode_admitX_irrelevant he hS false true, h]
  · intro hX
    exact ⟨op, decodeOpcode_tierX_refused he hX, Entry.of_tierX_mem op e he hX⟩

/-- R122: the prefixes are collected alike, so the decoders differ only where their opcode stages do. -/
theorem decodeAfter_losesTierX (seg rep : Bool) (bytes : List Byte) :
    LosesTierX (decodeAfter true seg rep bytes) (decodeAfter false seg rep bytes) := by
  induction bytes generalizing seg rep with
  | nil => exact .of_error _ _
  | cons b t ih =>
    simp only [decodeAfter]
    split
    · rename_i r _
      split
      · exact .of_error _ _
      · exact (ih true rep).map (Instr.tierX_segBefore r)
    · split
      · rename_i k _
        split
        · exact .of_error _ _
        · exact (ih seg true).map (Instr.tierX_repBefore k)
      · exact decodeOpcode_losesTierX rep b t

/-- Settles O4: the decoders collect prefixes alike, and an opcode stage without tier X refuses exactly the entries that
read tier-X forms. -/
theorem tierXOnlyWhenAdmitted : Obligations.TierXOnlyWhenAdmitted :=
  fun bytes => decodeAfter_losesTierX false false bytes

end Sys2Proof.Machine
end

section
/-! PROOFS. What the decoder reads is well formed, and its encoding is the bytes it consumed (R83, R84, R88, R95). -/

namespace Sys2Proof

/-! ## Prefix bytes -/

theorem segOverride_cases {b : Byte} {r : SReg} (h : segOverride b = some r) : b = Machine.segByte r := by
  have : ∀ b : Byte, ∀ r ∈ segOverride b, b = Machine.segByte r := by decide
  exact this b r h

theorem repeatByte_cases {b : Byte} {k : Rep} (h : repeatByte b = some k) : b = Machine.repByte k := by
  have : ∀ b : Byte, ∀ k ∈ repeatByte b, b = Machine.repByte k := by decide
  exact this b k h

theorem encode_segBefore (r : SReg) (i : Instr) : encode (r.before i) = Machine.segByte r :: encode i := by
  cases r <;> rfl

theorem encode_repBefore (k : Rep) (i : Instr) : encode (k.before i) = Machine.repByte k :: encode i := by
  cases k <;> rfl

theorem wellFormedAfter_segBefore (r : SReg) (i : Instr) (seg rep : Bool) :
    (r.before i).wellFormedAfter seg rep = (!seg && i.wellFormedAfter true rep) := by
  cases r <;> rfl

theorem wellFormedAfter_repBefore (k : Rep) (i : Instr) (seg rep : Bool) :
    (k.before i).wellFormedAfter seg rep = (!rep && i.wellFormedAfter seg true) := by
  cases k <;> rfl

/-! ## The instruction after the prefixes -/

/-- The parser's answers, each a well-formed instruction whose encoding is `bytes` up to what the parser has not read.
`seg` and `rep` say which prefixes stand before it. -/
def ReadsEncoding (seg rep : Bool) (bytes : List Byte) (p : Parse Instr) : Prop :=
  ∀ i rest, p = .ok (i, rest) → bytes = encode i ++ rest ∧ i.wellFormedAfter seg rep = true

variable {seg rep : Bool} {bytes : List Byte}

theorem ReadsEncoding.error {e : DecodeFail} : ReadsEncoding seg rep bytes (.error e) := nofun

theorem ReadsEncoding.ok {i : Instr} {t : List Byte} (hb : bytes = encode i ++ t)
    (hw : i.wellFormedAfter seg rep = true) : ReadsEncoding seg rep bytes (.ok (i, t)) := by
  rintro _ _ ⟨⟩
  exact ⟨hb, hw⟩

theorem ReadsEncoding.map {α : Type} {f : α → Instr} {p : Parse α}
    (h : ∀ a rest, p = .ok (a, rest) → bytes = encode (f a) ++ rest ∧ (f a).wellFormedAfter seg rep = true) :
    ReadsEncoding seg rep bytes (Parse.map f p) := by
  intro i rest hi
  obtain ⟨a, ha, rfl⟩ := Parse.map_cases hi
  exact h a rest ha

theorem ReadsEncoding.withModRm {op : Byte} {t : List Byte} {k : Byte → List Byte → Parse Instr}
    (h : ∀ m t, ReadsEncoding seg rep (op :: m :: t) (k m t)) :
    ReadsEncoding seg rep (op :: t) (withModRm t k) := by
  intro i rest hi
  obtain ⟨m, t', rfl, hk⟩ := withModRm_cases hi
  exact h m t' i rest hk

theorem ReadsEncoding.byteMap {op : Byte} {t : List Byte} {f : Byte → Instr} (he : ∀ b, encode (f b) = [op, b])
    (hw : ∀ b, (f b).wellFormedAfter seg rep = true) : ReadsEncoding seg rep (op :: t) ((takeByte t).map f) := by
  refine .map fun b rest h => ⟨?_, hw b⟩
  rw [takeByte_cases h, he]
  rfl

theorem ReadsEncoding.wordMap {op : Byte} {t : List Byte} {f : Word → Instr}
    (he : ∀ v, encode (f v) = op :: wordBytes v) (hw : ∀ v, (f v).wellFormedAfter seg rep = true) :
    ReadsEncoding seg rep (op :: t) ((takeWord t).map f) := by
  refine .map fun v rest h => ⟨?_, hw v⟩
  rw [takeWord_cases h, he]
  rfl

theorem AluOp.ofSel_sel : ∀ n, ∀ a ∈ AluOp.ofSel n, n = a.sel := by decide

theorem parseRmReg_reads {f : RmReg → Instr} {w : Width} {m op : Byte} {t : List Byte}
    (hf : ∀ o rest, parseRmReg w m t = .ok (o, rest) → op :: m :: t = encode (f o) ++ rest)
    (hw : ∀ o, (f o).wellFormedAfter seg false = o.ea.all Ea.wellFormed) :
    ReadsEncoding seg false (op :: m :: t) ((parseRmReg w m t).map f) :=
  .map fun o rest h => ⟨hf o rest h, (hw o).trans (parseRmReg_cases h).2.2⟩

theorem parseRmImm_reads {f : RmImm → Instr} {op : BitVec 7} {sel : BitVec 3} {w : Width} {m : Byte} {t : List Byte}
    (he : ∀ o, encode (f o) = encodeRmImm op sel o)
    (hw : ∀ o, (f o).wellFormedAfter seg false = o.ea.all Ea.wellFormed) (hsel : regOf m = sel) :
    ReadsEncoding seg false ((op ++ w.bit) :: m :: t) ((parseRmImm w m t).map f) := by
  refine .map fun o rest h => ?_
  obtain ⟨hb, hwf⟩ := parseRmImm_cases (op := op) hsel h
  exact ⟨by rw [hb, he], (hw o).trans hwf⟩

theorem parseRmOnly_reads {f : RmOnly → Instr} {op : BitVec 7} {sel : BitVec 3} {w : Width} {m : Byte} {t : List Byte}
    (he : ∀ o, encode (f o) = encodeRmOnly op sel o)
    (hw : ∀ o, (f o).wellFormedAfter seg false = o.ea.all Ea.wellFormed) (hsel : regOf m = sel) :
    ReadsEncoding seg false ((op ++ w.bit) :: m :: t) ((parseRmOnly w m t).map f) := by
  refine .map fun o rest h => ?_
  obtain ⟨hb, hwf⟩ := parseRmOnly_cases (op := op) hsel h
  exact ⟨by rw [hb, he], (hw o).trans hwf⟩

theorem parseRm16_reads {f : Rm Reg16 → Instr} {op m : Byte} {sel : BitVec 3} {t : List Byte}
    (he : ∀ x, encode (f x) = op :: x.encode Reg16.num sel)
    (hw : ∀ x, (f x).wellFormedAfter seg false = x.ea.all Ea.wellFormed) (hsel : regOf m = sel) :
    ReadsEncoding seg false (op :: m :: t) ((parseRm Reg16.ofNum m t).map f) := by
  refine .map fun x rest h => ?_
  obtain ⟨hb, hwf⟩ := parseRm_cases (num := Reg16.num) Reg16.num_ofNum h
  exact ⟨by rw [hb, he, hsel]; rfl, (hw x).trans hwf⟩

theorem parseUnary_reads (w : Width) (m : Byte) (t : List Byte) :
    ReadsEncoding seg false ((0x7B#7 ++ w.bit) :: m :: t) (parseUnary (0x7B#7 ++ w.bit) w m t) := by
  simp only [parseUnary]
  split
  · rename_i h
    exact parseRmImm_reads (fun _ => rfl) (fun _ => rfl) (BitVec.eq_of_toNat_eq h)
  · rename_i h
    exact parseRmOnly_reads (fun _ => rfl) (fun _ => rfl) (BitVec.eq_of_toNat_eq h)
  · rename_i h
    exact parseRmOnly_reads (fun _ => rfl) (fun _ => rfl) (BitVec.eq_of_toNat_eq h)
  · rename_i h
    exact parseRmOnly_reads (fun _ => rfl) (fun _ => rfl) (BitVec.eq_of_toNat_eq h)
  · exact .error

theorem parseFe_reads (m : Byte) (t : List Byte) : ReadsEncoding seg false (0xFE :: m :: t) (parseFe 0xFE m t) := by
  simp only [parseFe]
  split
  · rename_i h
    exact parseRmOnly_reads (op := 0x7F) (w := .byte) (fun _ => rfl) (fun _ => rfl) (BitVec.eq_of_toNat_eq h)
  · rename_i h
    exact parseRmOnly_reads (op := 0x7F) (w := .byte) (fun _ => rfl) (fun _ => rfl) (BitVec.eq_of_toNat_eq h)
  · exact .error

theorem parseFf_reads (m : Byte) (t : List Byte) : ReadsEncoding seg false (0xFF :: m :: t) (parseFf 0xFF m t) := by
  simp only [parseFf]
  split
  · rename_i h
    exact parseRmOnly_reads (op := 0x7F) (w := .word) (fun _ => rfl) (fun _ => rfl) (BitVec.eq_of_toNat_eq h)
  · rename_i h
    exact parseRmOnly_reads (op := 0x7F) (w := .word) (fun _ => rfl) (fun _ => rfl) (BitVec.eq_of_toNat_eq h)
  · rename_i h
    split
    · exact .error
    · rename_i hm
      refine .map fun e rest he => ?_
      obtain ⟨hb, hwf⟩ := parseEa_cases hm he
      rw [show regOf m = 5 from BitVec.eq_of_toNat_eq h] at hb
      exact ⟨by rw [hb]; rfl, hwf⟩
  · rename_i h
    exact parseRm16_reads (fun _ => rfl) (fun _ => rfl) (BitVec.eq_of_toNat_eq h)
  · exact .error

/-- R87: a segment-register field below 4 is the register's number. -/
theorem sreg_field {n : BitVec 3} (h : n.getLsbD 2 = false) : 0#1 ++ (SReg.ofNum (n.extractLsb' 0 2)).num = n := by
  revert n; decide

theorem SReg.dst_sreg : ∀ {x : SReg} {r : SRegDst}, x.dst = some r → r.sreg = x := by
  rintro ⟨⟩ ⟨⟩ ⟨⟩ <;> rfl

theorem parseMovRmSreg_reads (m : Byte) (t : List Byte) :
    ReadsEncoding seg false (0x8C :: m :: t) (parseMovRmSreg 0x8C m t) := by
  simp only [parseMovRmSreg]
  split
  · exact .error
  · rename_i h
    exact parseRm16_reads (fun _ => rfl) (fun _ => rfl) (sreg_field (by simpa using h)).symm

theorem parseMovSregRm_reads (m : Byte) (t : List Byte) :
    ReadsEncoding seg false (0x8E :: m :: t) (parseMovSregRm 0x8E m t) := by
  simp only [parseMovSregRm]
  split
  · exact .error
  · rename_i h
    split
    · rename_i r hr
      have hfield := sreg_field (by simpa using h)
      rw [← SReg.dst_sreg hr] at hfield
      exact parseRm16_reads (fun _ => rfl) (fun _ => rfl) hfield.symm
    · exact .error

theorem parseGrpAlu_reads (s : Bool) (w : Width) (m : Byte) (t : List Byte) :
    ReadsEncoding seg false ((Entry.grpAlu s w).opcode :: m :: t) (parseGrpAlu (Entry.grpAlu s w).opcode s w m t) := by
  simp only [parseGrpAlu]
  split
  · rename_i a ha
    refine .map fun o rest h => ?_
    obtain ⟨hb, hwf⟩ := parseGrpImm_cases (AluOp.ofSel_sel _ a ha) h
    rw [hb]
    cases a <;> exact ⟨rfl, hwf⟩
  · exact .error

theorem parseFar_reads (t : List Byte) : ReadsEncoding seg false (0xEA :: t) (parseFar t) := by
  simp only [parseFar]
  split
  · rename_i off t' h
    refine .map fun s rest h' => ⟨?_, rfl⟩
    rw [takeWord_cases h, takeWord_cases h', encode]
    simp
  · exact .error

theorem parseAccImm_reads {f : AccImm → Instr} {op : BitVec 7} {w : Width} {t : List Byte}
    (he : ∀ o, encode (f o) = encodeAccImm op o) (hw : ∀ o, (f o).wellFormedAfter seg false = true) :
    ReadsEncoding seg false ((op ++ w.bit) :: t) ((parseAccImm w t).map f) :=
  .map fun o rest h => ⟨by rw [parseAccImm_cases h op, he], hw o⟩

theorem stos_reads (w : Width) (t : List Byte) :
    ReadsEncoding seg rep ((Entry.stos w).opcode :: t) ((Entry.stos w).parse (Entry.stos w).opcode t) := by
  cases w <;> exact .ok rfl rfl

/-- R101 to R121: whatever an entry reads after its opcode byte, it is well formed, and its encoding is what was read. -/
theorem Entry.parse_reads (e : Entry) (t : List Byte) :
    ReadsEncoding seg false (e.opcode :: t) (e.parse e.opcode t) := by
  cases e with
  | adcSbb => exact .error
  | stos w => exact stos_reads w t
  | pushSreg r | incReg r | decReg r | pushReg r | popReg r => exact .ok rfl rfl
  | pushf | popf | int3 | into | iret => exact .ok rfl rfl
  | popSreg r => cases r <;> exact .ok rfl rfl
  | jcc c => cases c <;> exact .byteMap (fun _ => rfl) fun _ => rfl
  | loop k => cases k <;> exact .byteMap (fun _ => rfl) fun _ => rfl
  | movReg8 r | intImm | jmpShort => exact .byteMap (fun _ => rfl) fun _ => rfl
  | movReg16 r | movAccMem x w | jmpNear => exact .wordMap (fun _ => rfl) fun _ => rfl
  | jmpFar => exact parseFar_reads t
  | aluAccImm a w =>
    exact parseAccImm_reads (op := 0#2 ++ a.sel ++ 2#2) (fun o => by cases a <;> rfl) fun o => by cases a <;> rfl
  | testAccImm w => exact parseAccImm_reads (op := 0x54) (fun _ => rfl) fun _ => rfl
  | aluRmReg a d w =>
    refine .withModRm fun m t => parseRmReg_reads (fun o rest h => ?_) fun o => ?_
    · rw [(parseRmReg_cases h).2.1 a d]; cases a <;> rfl
    · cases a <;> rfl
  | testRmReg w =>
    exact .withModRm fun m t => parseRmReg_reads (fun o rest h => (parseRmReg_cases h).1 0x42) fun _ => rfl
  | movRmReg w =>
    exact .withModRm fun m t => parseRmReg_reads (fun o rest h => (parseRmReg_cases h).1 0x44) fun _ => rfl
  | movRegRm w =>
    exact .withModRm fun m t => parseRmReg_reads (fun o rest h => (parseRmReg_cases h).1 0x45) fun _ => rfl
  | grpAlu s w => exact .withModRm (parseGrpAlu_reads s w)
  | movRmSreg => exact .withModRm parseMovRmSreg_reads
  | movSregRm => exact .withModRm parseMovSregRm_reads
  | grpPop =>
    refine .withModRm fun m t => ?_
    split
    · rename_i h
      exact parseRm16_reads (fun _ => rfl) (fun _ => rfl) h
    · exact .error
  | grpMov w =>
    refine .withModRm fun m t => ?_
    split
    · rename_i h
      exact parseRmImm_reads (op := 0x63) (fun _ => rfl) (fun _ => rfl) h
    · exact .error
  | grpUnary w => exact .withModRm (parseUnary_reads w)
  | grpFe => exact .withModRm parseFe_reads
  | grpFf => exact .withModRm parseFf_reads

/-! ## The whole decoder (R122) -/

theorem decodeOpcode_reads (admitX : Bool) (op : Byte) (t : List Byte) :
    ReadsEncoding seg rep (op :: t) (decodeOpcode admitX rep op t) := by
  intro i rest h
  obtain ⟨e, he, -, hrep, hp⟩ := decodeOpcode_cases h
  rcases Entry.opcode_of op e he with rfl | rfl
  · cases hp
  · cases rep with
    | false => exact Entry.parse_reads e t i rest hp
    | true =>
      cases e with
      | stos w => exact stos_reads w t i rest hp
      | _ => exact absurd (hrep rfl) Bool.false_ne_true

/-- R83, R84, R122: whatever the decoder reads after the prefixes `seg` and `rep`. -/
theorem decodeAfter_reads (admitX : Bool) (bytes : List Byte) (seg rep : Bool) :
    ReadsEncoding seg rep bytes (decodeAfter admitX seg rep bytes) := by
  induction bytes generalizing seg rep with
  | nil => exact .error
  | cons b t ih =>
    simp only [decodeAfter]
    split
    · rename_i r hr
      split
      · exact .error
      · rename_i hseg
        refine .map fun i rest h => ?_
        obtain ⟨hb, hwf⟩ := ih true rep i rest h
        rw [encode_segBefore, wellFormedAfter_segBefore, ← segOverride_cases hr, hb]
        exact ⟨rfl, by simpa [hwf] using hseg⟩
    · split
      · rename_i k hk
        split
        · exact .error
        · rename_i hrep
          refine .map fun i rest h => ?_
          obtain ⟨hb, hwf⟩ := ih seg true i rest h
          rw [encode_repBefore, wellFormedAfter_repBefore, ← repeatByte_cases hk, hb]
          exact ⟨rfl, by simpa [hwf] using hrep⟩
      · exact decodeOpcode_reads admitX b t

/-- Whatever the decoder reads is well formed, and its encoding is the bytes it consumed. -/
theorem decode_reads {admitX : Bool} {bytes rest : List Byte} {i : Instr} (h : decode admitX bytes = .ok (i, rest)) :
    i.wellFormed = true ∧ bytes = encode i ++ rest :=
  (decodeAfter_reads admitX bytes false false i rest h).symm

end Sys2Proof

namespace Sys2Proof.Machine

open Sys2Proof

/-- R95, R96: what a decode gives at an address of memory is a record of the invariant. -/
theorem decodeAt_ok {s : State} {p : Nat} {d : Record} (hp : p < Config.memSize) (h : decodeAt s p = .ok d) : d.ok := by
  obtain ⟨rest, hd, hsize, hoff⟩ := decodeAt_cases h
  obtain ⟨hwf, hbytes⟩ := decode_reads hd
  refine ⟨hwf, ?_, by rw [hoff]; exact hp⟩
  rw [hsize, hbytes, List.length_append, encode_length, Nat.add_sub_cancel]

end Sys2Proof.Machine
end

section
/-! PROOFS. O22, O23 (R34, R35, R50, R95, R390, R391): the invariant, at reset, after the loader and over every step. -/

namespace Sys2Proof.Machine

open Sys2Proof

/-- What no Execute stage changes is what the invariant speaks of, but for memory, whose form it keeps. -/
theorem Effect.inv {bits : List Nat} {cs : Bool} {s t : State} (h : Effect bits cs s t) (hs : s.Inv) : t.Inv where
  memWf := h.wf hs.memWf
  memBounded := h.bounded hs.memBounded
  originLe := by rw [h.origin, h.end_]; exact hs.originLe
  endLe := by rw [h.end_]; exact hs.endLe
  lastOk := by rw [h.last]; exact hs.lastOk
  dtableOk := by rw [h.dtable]; exact hs.dtableOk
  dtableNone := by rw [h.dtable, h.cfg]; exact hs.dtableNone

/-- R34: the dispatched record is the one that `last` holds. -/
theorem dispatched_inv {s : State} {d : Record} (hs : s.Inv) (hd : d.ok) (p : Nat) : (dispatched s p d).Inv :=
  { hs with lastOk := by rintro _ ⟨⟩; exact hd }

/-- R145: under `by_ip` a record may be retained. -/
theorem retain_inv {s : State} {d : Record} (hs : s.Inv) (hd : d.ok) (hc : s.cfg.decodeCache = .byIp) (ip : Word) :
    State.Inv { s with dtable := retain s.dtable ip d } :=
  { hs with
    dtableOk := retain_ok hs.dtableOk hd
    dtableNone := fun hn => by simp [hc] at hn }

/-- R144, R145: the record of a step, retained or fresh, is one a decode gave, and finding it keeps the invariant. -/
theorem recordAt_inv {s u : State} {p : Nat} {d : Record} (hp : p < Config.memSize) (hs : s.Inv)
    (h : recordAt s p = .ok (d, u)) : d.ok ∧ u.Inv := by
  rcases record_cases h with ⟨rfl, -, hret⟩ | ⟨hdec, ⟨rfl, -⟩ | ⟨rfl, hc, -⟩⟩
  · exact ⟨hs.dtableOk.2 _ (retained_mem hret), hs⟩
  · exact ⟨decodeAt_ok hp hdec, hs⟩
  · have hd := decodeAt_ok hp hdec
    exact ⟨hd, retain_inv hs hd hc s.ip⟩

theorem fetch_inv {s u : State} {d : Record} (hs : s.Inv) (h : fetch s = .ok (d, u)) : u.Inv := by
  obtain ⟨-, v, hrec, rfl⟩ := fetch_cases h
  obtain ⟨hd, hv⟩ := recordAt_inv s.p0_lt hs hrec
  exact dispatched_inv hv hd s.p0

/-- Settles O22: Fetch and Decode keep the invariant because what the decoder reads is well formed, and Execute because
of its effect. -/
theorem stepKeepsInvariant : Obligations.StepKeepsInvariant := by
  intro s t hs h
  obtain ⟨d, u, hfetch, hexec⟩ := step_cases h
  exact (exec_effect hexec).inv (fetch_inv hs hfetch)

theorem reset_inv : State.reset.Inv := by
  constructor <;> decide

/-- R392: an image that fits in memory gives a boot state with the invariant. -/
theorem bootState_inv (cfg : Config) {image : List Byte} {seg off : Word}
    (h : phys seg off + image.length ≤ Config.memSize) : (bootState cfg image seg off).Inv where
  memWf := Memory.writeBytes_wf State.reset_mem_wf _ _
  memBounded := Memory.writeBytes_bounded State.reset_mem_bounded h
  originLe := Nat.le_add_right _ _
  endLe := h
  lastOk := nofun
  dtableOk := reset_inv.dtableOk
  dtableNone _ := rfl

/-- What a load that succeeds can do. R390. -/
theorem load_cases {cfg : Config} {image : Option (List Byte)} {seg off : Word} {s : State}
    (h : load cfg image seg off = .ok s) :
    ∃ bytes, image = some bytes ∧ phys seg off + bytes.length ≤ Config.memSize ∧ s = bootState cfg bytes seg off := by
  cases image with
  | none => cases h
  | some bytes =>
    simp only [load] at h
    split at h
    · cases h
    · rename_i hfit
      exact ⟨bytes, rfl, Nat.le_of_not_lt hfit, by simpa using h.symm⟩

/-- Settles O23: the loader gives the boot state of an image that fits in memory. -/
theorem resetAndLoadMeetInvariant : Obligations.ResetAndLoadMeetInvariant := by
  refine ⟨reset_inv, fun cfg image seg off s h => ?_⟩
  obtain ⟨bytes, -, hfit, rfl⟩ := load_cases h
  exact bootState_inv cfg hfit

end Sys2Proof.Machine
end

section
/-! PROOFS. O10, O59 (R23, R35): the register file, and the reset state. -/

namespace Sys2Proof.Machine

open Sys2Proof

/-- R22, R23: AL and AH are the two bytes of AX. -/
theorem State.ax_toNat (s : State) : s.ax.toNat = (s.reg8 .ah).toNat * 256 + (s.reg8 .al).toNat := by
  rw [← wordOf_toNat]
  exact congrArg BitVec.toNat (wordOf_loByte_hiByte s.ax).symm

/-- Settles O10, by the laws of a register read after a register write. -/
theorem registerAliasing : Obligations.RegisterAliasing := by
  intro s r b q v x
  refine ⟨by simp, fun hb => ?_, fun r' hr => by simp [hr], by simp, fun b' hb => by simp [hb],
    fun r' hr => State.reg16_setReg8 s b x r' hr, ?_, by simp, fun q' hq => by simp [hq]⟩
  · rw [State.reg8_setReg16, if_pos hb]
    split
    · exact hiByte_toNat v
    · exact loByte_toNat v
  · rw [State.ax_toNat, State.reg8_setReg8, State.reg8_setReg8, if_pos rfl, if_neg (by decide)]

/-- R141: a step at or past the image's end halts. -/
theorem step_at_end {s : State} (h : s.imageEnd ≤ s.p0) : step s = .fault (.endOfImage s.p0) := by
  rw [step, fetch, if_pos h]

/-- Settles O59: every register and byte is 0, and the empty image ends where it begins. -/
theorem resetState : Obligations.ResetState :=
  ⟨fun r => by cases r <;> rfl, fun r => by cases r <;> rfl, rfl, rfl, fun _ => rfl, rfl, rfl, rfl,
    step_at_end (s := State.reset) (by decide)⟩

end Sys2Proof.Machine
end

section
/-! PROOFS. O25, O26 (R28, R30, R286): which instructions write CS and the bits of FLAGS, by mnemonic. -/

namespace Sys2Proof.Machine

open Sys2Proof

/-! ## CS -/

theorem Instr.mnemonic_of_mayMoveCs {w : Word} {i : Instr} (h : Instr.mayMoveCs w i = true) :
    Instr.mnemonic i = .INT ∨ (Instr.mnemonic i = .INTO ∧ getFlag .of w = true) ∨ Instr.mnemonic i = .IRET := by
  induction i with
  | prefixEs i ih | prefixCs i ih | prefixSs i ih | prefixDs i ih | prefixRep i ih | prefixRepne i ih => exact ih h
  | int3 | intImm n => exact .inl rfl
  | into => exact .inr (.inl ⟨rfl, h⟩)
  | iret => exact .inr (.inr rfl)
  | _ => exact absurd h Bool.false_ne_true

/-- Settles O25: an instruction that may not move CS has an effect that keeps it. -/
theorem onlyInterruptsChangeCs : Obligations.OnlyInterruptsChangeCs := by
  intro i s t h hcs
  apply Instr.mnemonic_of_mayMoveCs
  by_contra hno
  exact hcs ((exec_effect h).cs (Bool.eq_false_of_not_eq_true hno))

/-! ## FLAGS -/

/-- The bits of FLAGS that the instructions of a mnemonic may write. R30, R210. -/
def Mnemonic.flagBits : Mnemonic → List Nat
  | .ADD | .SUB | .CMP | .AND | .OR | .XOR | .TEST | .INC | .DEC | .MUL | .DIV => statusBits
  | .POPF | .IRET => List.range 16
  | .INT | .INTO => [8, 9]
  | _ => []

theorem Instr.writes_eq_flagBits (i : Instr) : Instr.writes i = (Instr.mnemonic i).flagBits := by
  induction i with
  | prefixEs i ih | prefixCs i ih | prefixSs i ih | prefixDs i ih | prefixRep i ih | prefixRepne i ih => exact ih
  | _ => rfl

theorem Flag.bit_mem_statusBits (f : Flag) : f.bit ∈ statusBits ↔ f ∈ statusFlags := by cases f <;> decide

theorem Flag.bit_mem_interruptBits (f : Flag) : f.bit ∈ [8, 9] ↔ f = .tf ∨ f = .ief := by cases f <;> decide

/-- R30: the bits an instruction may write are those of the flags of its row. -/
theorem Flag.bit_mem_writes_iff (f : Flag) (i : Instr) : f.bit ∈ Instr.writes i ↔ mayWriteFlag f i = true := by
  rw [Instr.writes_eq_flagBits, mayWriteFlag]
  cases Instr.mnemonic i with
  | ADD | SUB | CMP | AND | OR | XOR | TEST | INC | DEC | MUL | DIV =>
    exact f.bit_mem_statusBits.trans decide_eq_true_iff.symm
  | POPF | IRET => exact iff_of_true (List.mem_range.2 f.bit_lt) rfl
  | INT | INTO => exact f.bit_mem_interruptBits.trans decide_eq_true_iff.symm
  | _ => exact iff_of_false List.not_mem_nil Bool.false_ne_true

/-- R28: the reserved bits are written by POPF and IRET only. -/
theorem Instr.reserved_not_mem_writes {i : Instr} (hp : Instr.mnemonic i ≠ .POPF) (hi : Instr.mnemonic i ≠ .IRET) :
    ∀ k ∈ [1, 3, 5, 12, 13, 14, 15], k ∉ Instr.writes i := by
  rw [Instr.writes_eq_flagBits]
  cases hm : Instr.mnemonic i with
  | POPF => exact absurd hm hp
  | IRET => exact absurd hm hi
  | ADD | SUB | CMP | AND | OR | XOR | TEST | INC | DEC | MUL | DIV | INT | INTO => decide
  | _ => exact fun _ _ => List.not_mem_nil

/-- Settles O26: the instruction's effect keeps every bit it may not write. -/
theorem flagWriters : Obligations.FlagWriters := by
  intro i s t h
  constructor
  · intro f hf
    apply (exec_effect h).flags
    rw [f.bit_mem_writes_iff, hf]
    exact Bool.false_ne_true
  · intro k hk hp hi
    exact (exec_effect h).flags k (Instr.reserved_not_mem_writes hp hi k hk)

end Sys2Proof.Machine
end

section
/-! PROOFS. O47 (R299): POPF. -/

namespace Sys2Proof.Machine

open Sys2Proof

theorem exec_popf (g : Option SReg) (s : State) :
    exec (under g .popf) s = finish (ctxUnder g .popf) (popFlags s) := exec_under rfl g s

/-- FLAGS has sixteen bits: a frame that gives them all up leaves FLAGS free. -/
theorem Frame.setFlags {gp seg bytes d} {s t : State} (h : Frame gp seg [] bytes d s t) (w : Word) :
    Frame gp seg (List.range 16) bytes d s (t.setFlags w) where
  gp := by simpa using h.gp
  seg := by simpa using h.seg
  flags k hk := by
    have hge : 16 ≤ k := by simpa using hk
    rw [BitVec.getLsbD_of_ge _ _ hge, BitVec.getLsbD_of_ge _ _ hge]
  mem := h.mem
  bounds := h.bounds
  engine := h.engine
  cfg := h.cfg
  draws := h.draws

/-- Settles O47: POPF is a pop whose word is FLAGS, then Advance. -/
theorem popfLoadsAllFlags : Obligations.PopfLoadsAllFlags := by
  intro g s h
  refine ⟨_, by rw [exec_popf, popFlags_eq h, finish_ok], advanced_of (by simp), by simp, ?_, ?_⟩
  · exact Place.value_word _ s
  · exact (((Place.reg16 .sp).put_frame (s.sp + 2) s).setFlags _).setIp _

end Sys2Proof.Machine
end

section
/-! PROOFS. O27 (R31, R32): which flags an instruction reads. Each operation is run beside itself in a state that differs
in FLAGS: one that reads no flag commutes with writing FLAGS, and each flag routine writes the same bits over both words. -/

namespace Sys2Proof.Machine

open Sys2Proof

/-! ## FLAGS words that agree but for the bits not written -/

/-- Each bit of `x` and `x'` agrees, or is still the bit it was in `w` and `w'`. -/
def FlagsAlike (w w' x x' : Word) : Prop :=
  ∀ k, x.getLsbD k = x'.getLsbD k ∨ (x.getLsbD k = w.getLsbD k ∧ x'.getLsbD k = w'.getLsbD k)

section
variable {w w' x x' : Word}

theorem FlagsAlike.start : FlagsAlike w w' w w' := fun _ => .inr ⟨rfl, rfl⟩

theorem FlagsAlike.same : FlagsAlike w w' x x := fun _ => .inl rfl

theorem FlagsAlike.setFlag (h : FlagsAlike w w' x x') (f : Flag) (b : Bool) :
    FlagsAlike w w' (setFlag f b x) (setFlag f b x') := by
  intro k
  rw [getLsbD_setFlag, getLsbD_setFlag]
  split
  · exact .inl rfl
  · exact h k

theorem FlagsAlike.commonFlags {n : Nat} (h : FlagsAlike w w' x x') (p : ParityScope) (r : BitVec n) :
    FlagsAlike w w' (commonFlags p r x) (commonFlags p r x') :=
  ((h.setFlag _ _).setFlag _ _).setFlag _ _

theorem FlagsAlike.arithFlags {n : Nat} (h : FlagsAlike w w' x x') (p : ParityScope) (op : ArithOp) (a b : BitVec n) :
    FlagsAlike w w' (arithFlags p op a b x) (arithFlags p op a b x') :=
  (((h.commonFlags p _).setFlag _ _).setFlag _ _).setFlag _ _

theorem FlagsAlike.logicFlags {n : Nat} (h : FlagsAlike w w' x x') (p : ParityScope) (r : BitVec n) :
    FlagsAlike w w' (logicFlags p r x) (logicFlags p r x') :=
  (((h.setFlag _ _).setFlag _ _).setFlag _ _).commonFlags p r

theorem FlagsAlike.aluFlags {n : Nat} (h : FlagsAlike w w' x x') (p : ParityScope) (op : AluOp) (a b : BitVec n) :
    FlagsAlike w w' (aluFlags p op a b x) (aluFlags p op a b x') := by
  cases op with
  | add | sub | cmp => exact h.arithFlags p _ a b
  | or | and | xor => exact h.logicFlags p _

/-- R206: of the flags, INC and DEC read CF alone. -/
theorem FlagsAlike.incDecFlags {n : Nat} (h : FlagsAlike w w' x x') (hcf : getFlag .cf x = getFlag .cf x')
    (cfg : Config) (op : ArithOp) (a : BitVec n) :
    FlagsAlike w w' (incDecFlags cfg op a x) (incDecFlags cfg op a x') := by
  simp only [Machine.incDecFlags, hcf]
  cases cfg.incDecCf with
  | compute => exact h.arithFlags _ op a 1
  | preserve => exact (h.arithFlags _ op a 1).setFlag _ _

theorem FlagsAlike.drawFlags (h : FlagsAlike w w' x x') (fs : List Flag) (j : Nat) :
    FlagsAlike w w' (drawFlags fs j x) (drawFlags fs j x') := by
  induction fs generalizing j x x' with
  | nil => exact h
  | cons f fs ih => exact ih (h.setFlag f _) (j + 1)

theorem FlagsAlike.mulFlags (h : FlagsAlike w w' x x') (b : Bool) (j : Nat) :
    FlagsAlike w w' (mulFlags b j x) (mulFlags b j x') :=
  ((h.setFlag _ _).setFlag _ _).drawFlags mulDrawn j

end

/-! ## Operations that read no flag -/

theorem State.setReg16_setFlags (s : State) (r : Reg16) (v y : Word) :
    (s.setFlags y).setReg16 r v = (s.setReg16 r v).setFlags y := by cases r <;> rfl

theorem State.setReg8_setFlags (s : State) (r : Reg8) (v : Byte) (y : Word) :
    (s.setFlags y).setReg8 r v = (s.setReg8 r v).setFlags y := by
  simp only [State.setReg8, State.setFlags_reg16, State.setReg16_setFlags]

theorem State.setSReg_setFlags (s : State) (r : SRegDst) (v y : Word) :
    (s.setFlags y).setSReg r v = (s.setSReg r v).setFlags y := by cases r <;> rfl

theorem State.store8_setFlags (s : State) (a : Nat) (v : Byte) (y : Word) :
    (s.setFlags y).store8 a v = (s.store8 a v).map (·.setFlags y) := by
  simp only [State.store8]
  split <;> rfl

theorem State.store16_setFlags (s : State) (a : Nat) (v y : Word) :
    (s.setFlags y).store16 a v = (s.store16 a v).map (·.setFlags y) := by
  simp only [State.store16]
  split <;> rfl

@[simp] theorem Place.read_setFlags {n : Nat} (p : Place n) (s : State) (y : Word) : p.read (s.setFlags y) = p.read s := by
  cases p with
  | reg8 r => simp only [Place.read, State.setFlags_reg8]
  | reg16 r => simp only [Place.read, State.setFlags_reg16]
  | sreg r => simp only [Place.read, State.setFlags_sreg]
  | mem8 a | mem16 a => rfl

@[simp] theorem Opnd.read_setFlags {n : Nat} (x : Opnd n) (s : State) (y : Word) : x.read (s.setFlags y) = x.read s := by
  cases x with
  | place p => exact p.read_setFlags s y
  | imm v => rfl

theorem Place.write_setFlags {n : Nat} (p : Place n) (v : BitVec n) (s : State) (y : Word) :
    p.write v (s.setFlags y) = (p.write v s).map (·.setFlags y) := by
  cases p with
  | reg8 r => exact congrArg Except.ok (s.setReg8_setFlags r v y)
  | reg16 r => exact congrArg Except.ok (s.setReg16_setFlags r v y)
  | sreg r => exact congrArg Except.ok (s.setSReg_setFlags r v y)
  | mem8 a => exact s.store8_setFlags a v y
  | mem16 a => exact s.store16_setFlags a v y

@[simp] theorem rm8_setFlags (c : Ctx) (x : Rm Reg8) (s : State) (y : Word) : rm8 c (s.setFlags y) x = rm8 c s x := by
  cases x <;> rfl

@[simp] theorem rm16_setFlags (c : Ctx) (x : Rm Reg16) (s : State) (y : Word) : rm16 c (s.setFlags y) x = rm16 c s x := by
  cases x <;> rfl

theorem push_setFlags (v : Word) (s : State) (y : Word) : push v (s.setFlags y) = (push v s).map (·.setFlags y) :=
  State.store16_setFlags (s.setReg16 .sp (s.sp - 2)) _ v y

theorem pop_setFlags (s : State) (y : Word) :
    pop (s.setFlags y) = (pop s).map fun r => (r.1, r.2.setFlags y) := by
  have hload : (s.setFlags y).load16 (phys s.ss s.sp) = s.load16 (phys s.ss s.sp) := rfl
  simp only [pop, State.setFlags_ss, State.setFlags_sp, hload]
  cases s.load16 (phys s.ss s.sp) <;> rfl

theorem popTo_setFlags (d : Place 16) (s : State) (y : Word) :
    popTo d (s.setFlags y) = (popTo d s).map (·.setFlags y) := by
  rw [popTo, popTo, pop_setFlags]
  cases pop s with
  | error f => rfl
  | ok r => exact d.write_setFlags r.1 r.2 y

/-- R299: POPF leaves nothing of the FLAGS word it finds. -/
theorem popFlags_setFlags (s : State) (y : Word) : popFlags (s.setFlags y) = popFlags s := by
  rw [popFlags, popFlags, pop_setFlags]
  cases pop s <;> rfl

/-- R314: nor does IRET. -/
theorem interruptReturn_setFlags (s : State) (y : Word) : interruptReturn (s.setFlags y) = interruptReturn s := by
  by_cases h : phys s.ss s.sp = 0xFFFFF ∨ phys s.ss (s.sp + 2) = 0xFFFFF ∨ phys s.ss (s.sp + 4) = 0xFFFFF
  · rw [interruptReturn_top h, interruptReturn_top (s := s.setFlags y) h]
  · simp only [not_or] at h
    obtain ⟨h1, h2, h3⟩ := h
    rw [interruptReturn_eq h1 h2 h3, interruptReturn_eq (s := s.setFlags y) h1 h2 h3]
    rfl

/-! ## STOS reads DF alone (R331) -/

@[simp] theorem State.stosSeg_setFlags (s : State) (y : Word) : (s.setFlags y).stosSeg = s.stosSeg := rfl

theorem moveDi_setFlags (n : Word) {s : State} {y : Word} (h : getFlag .df y = getFlag .df s.flags) :
    moveDi n (s.setFlags y) = (moveDi n s).setFlags y := by
  rw [moveDi, moveDi, State.setFlags_flags, h]
  exact s.setReg16_setFlags .di _ y

theorem stosOnce_flags {wd : Width} {s t : State} (h : stosOnce wd s = .ok t) : t.flags = s.flags := by
  have heff := stosOnce_ans wd s
  rw [h] at heff
  exact BitVec.eq_of_getLsbD_eq fun k _ => heff.flags k List.not_mem_nil

theorem stosOnce_setFlags (wd : Width) {s : State} {y : Word} (h : getFlag .df y = getFlag .df s.flags) :
    stosOnce wd (s.setFlags y) = (stosOnce wd s).map (·.setFlags y) := by
  cases wd with
  | byte =>
    simp only [stosOnce, State.stosSeg_setFlags, State.setFlags_di, State.setFlags_reg8, State.store8_setFlags]
    cases hst : s.store8 (phys s.stosSeg s.di) (s.reg8 .al) with
    | error f => rfl
    | ok t =>
      obtain ⟨-, rfl⟩ := State.store8_cases hst
      exact congrArg Except.ok (moveDi_setFlags 1 h)
  | word =>
    simp only [stosOnce, State.stosSeg_setFlags, State.setFlags_di, State.setFlags_ax, State.store16_setFlags]
    cases hst : s.store16 (phys s.stosSeg s.di) s.ax with
    | error f => rfl
    | ok t =>
      obtain ⟨-, rfl⟩ := State.store16_cases hst
      exact congrArg Except.ok (moveDi_setFlags 2 h)

theorem stosRep_setFlags (wd : Width) (k : Nat) {s : State} {y : Word} (h : getFlag .df y = getFlag .df s.flags) :
    stosRep wd k (s.setFlags y) = (stosRep wd k s).map (·.setFlags y) := by
  induction k generalizing s with
  | zero => rfl
  | succ k ih =>
    rw [stosRep, stosRep, stosOnce_setFlags wd h]
    cases ho : stosOnce wd s with
    | error f => rfl
    | ok t => exact ih (s := t.setReg16 .cx (t.cx - 1)) (by rw [State.setReg16_flags, stosOnce_flags ho, h])

theorem stos_setFlags (c : Ctx) (wd : Width) {s : State} {y : Word} (h : getFlag .df y = getFlag .df s.flags) :
    stos c wd (s.setFlags y) = (stos c wd s).map (·.setFlags y) := by
  simp only [stos]
  split
  · rfl
  · exact stosRep_setFlags wd _ h
  · exact stosOnce_setFlags wd h

/-! ## Outcomes that agree but for FLAGS -/

/-- Two answers of a part of an Execute stage that agree as `SameButFlags` says of outcomes. -/
abbrev Alike (w w' : Word) (e e' : Exec State) : Prop := SameButFlags w w' (redirect e) (redirect e')

section
variable {w w' x x' : Word}

theorem Alike.setFlags (h : FlagsAlike w w' x x') (e : Exec State) :
    Alike w w' (e.map (·.setFlags x)) (e.map (·.setFlags x')) := by
  cases e with
  | ok t => exact ⟨rfl, h⟩
  | error f => rfl

theorem Alike.same (e : Exec State) : Alike w w' e e := by
  cases e with
  | ok t => exact ⟨rfl, FlagsAlike.same⟩
  | error f => rfl

theorem Alike.bind {α : Type} (e : Exec α) {k k' : α → Exec State} (h : ∀ a, Alike w w' (k a) (k' a)) :
    Alike w w' (e >>= k) (e >>= k') := by
  cases e with
  | ok a => exact h a
  | error f => rfl

theorem finish_sameButFlags (c : Ctx) {e e' : Exec State} (h : Alike w w' e e') :
    SameButFlags w w' (finish c e) (finish c e') := by
  cases e with
  | ok t =>
    cases e' with
    | ok t' =>
      obtain ⟨hst, hf⟩ := h
      exact ⟨congrArg (fun u => u.setIp (u.nextIp c.size)) hst, hf⟩
    | error f' => exact h
  | error f =>
    cases e' with
    | ok t' => exact h
    | error f' => exact h

/-- An operation that commutes with writing FLAGS reads no flag. -/
theorem Alike.of_setFlags {op : State → Exec State} {s : State}
    (hop : ∀ y, op (s.setFlags y) = (op s).map (·.setFlags y)) (h : FlagsAlike w w' x x') :
    Alike w w' (op (s.setFlags x)) (op (s.setFlags x')) := by
  rw [hop x, hop x']
  exact .setFlags h _

theorem Place.write_alike {n : Nat} (p : Place n) (v : BitVec n) (s : State) (h : FlagsAlike w w' x x') :
    Alike w w' (p.write v (s.setFlags x)) (p.write v (s.setFlags x')) :=
  .of_setFlags (p.write_setFlags v s) h

/-! ## The shared operations -/

theorem alu_alike {n : Nat} (op : AluOp) (d : Place n) (b : Opnd n) (s : State) :
    Alike w w' (alu op d b (s.setFlags w)) (alu op d b (s.setFlags w')) := by
  simp only [alu, Place.read_setFlags, Opnd.read_setFlags]
  refine .bind _ fun u => .bind _ fun v => ?_
  have hf := (FlagsAlike.start (w := w) (w' := w')).aluFlags s.cfg.parityScope op u v
  split
  · exact d.write_alike _ s hf
  · exact ⟨rfl, hf⟩

theorem aluAccImm_alike (op : AluOp) (o : AccImm) (s : State) :
    Alike w w' (aluAccImm op o (s.setFlags w)) (aluAccImm op o (s.setFlags w')) := by
  cases o with
  | byte v => exact alu_alike op (.reg8 .al) (.imm v) s
  | word v => exact alu_alike op (.reg16 .ax) (.imm v) s

theorem testOp_alike {n : Nat} (d : Place n) (b : Opnd n) (s : State) :
    Alike w w' (testOp d b (s.setFlags w)) (testOp d b (s.setFlags w')) := by
  simp only [testOp, Place.read_setFlags, Opnd.read_setFlags]
  exact .bind _ fun u => .bind _ fun v => ⟨rfl, FlagsAlike.start.logicFlags _ _⟩

theorem incDec_alike {n : Nat} (hcf : getFlag .cf w = getFlag .cf w') (op : ArithOp) (d : Place n) (s : State) :
    Alike w w' (incDec op d (s.setFlags w)) (incDec op d (s.setFlags w')) := by
  simp only [incDec, Place.read_setFlags]
  exact .bind _ fun u => d.write_alike _ s (FlagsAlike.start.incDecFlags hcf s.cfg op u)

theorem notOp_alike {n : Nat} (d : Place n) (s : State) :
    Alike w w' (notOp d (s.setFlags w)) (notOp d (s.setFlags w')) := by
  simp only [notOp, Place.read_setFlags]
  exact .bind _ fun u => d.write_alike _ s .start

theorem mov_alike {n : Nat} (d : Place n) (b : Opnd n) (s : State) :
    Alike w w' (mov d b (s.setFlags w)) (mov d b (s.setFlags w')) := by
  simp only [mov, Opnd.read_setFlags]
  exact .bind _ fun u => d.write_alike _ s .start

theorem mulRmOp_alike (c : Ctx) (o : RmOnly) (s : State) :
    Alike w w' (mulRmOp c o (s.setFlags w)) (mulRmOp c o (s.setFlags w')) := by
  cases o with
  | byte a =>
    simp only [mulRmOp, rm8_setFlags, Place.read_setFlags]
    exact .bind _ fun m => ⟨rfl, FlagsAlike.start.mulFlags _ _⟩
  | word a =>
    simp only [mulRmOp, rm16_setFlags, Place.read_setFlags]
    exact .bind _ fun m => ⟨rfl, FlagsAlike.start.mulFlags _ _⟩

/-- R210: DIV reads no flag, and draws the six it writes. -/
theorem div8_setFlags (v : Byte) (s : State) (y : Word) :
    div8 v (s.setFlags y) = (div8 v s).map (·.setFlags (divFlags s.draws y)) := by
  rw [div8, div8, apply_ite (Except.map _), apply_ite (Except.map _)]
  rfl

theorem div16_setFlags (v : Word) (s : State) (y : Word) :
    div16 v (s.setFlags y) = (div16 v s).map (·.setFlags (divFlags s.draws y)) := by
  rw [div16, div16, apply_ite (Except.map _), apply_ite (Except.map _)]
  rfl

theorem divRmOp_alike (c : Ctx) (o : RmOnly) (s : State) :
    Alike w w' (divRmOp c o (s.setFlags w)) (divRmOp c o (s.setFlags w')) := by
  cases o with
  | byte a =>
    simp only [divRmOp, rm8_setFlags, Place.read_setFlags, div8_setFlags]
    exact .bind _ fun v => .setFlags (FlagsAlike.start.drawFlags divDrawn _) _
  | word a =>
    simp only [divRmOp, rm16_setFlags, Place.read_setFlags, div16_setFlags]
    exact .bind _ fun v => .setFlags (FlagsAlike.start.drawFlags divDrawn _) _

theorem push_alike (v : Word) (s : State) : Alike w w' (push v (s.setFlags w)) (push v (s.setFlags w')) :=
  .of_setFlags (push_setFlags v s) .start

@[simp] theorem pushedReg_setFlags (r : Reg16) (s : State) (y : Word) : pushedReg r (s.setFlags y) = pushedReg r s := by
  cases r <;> rfl

theorem pushRmOp_alike (c : Ctx) (a : Rm Reg16) (s : State) :
    Alike w w' (pushRmOp c a (s.setFlags w)) (pushRmOp c a (s.setFlags w')) := by
  cases a with
  | reg r =>
    simp only [pushRmOp, pushedReg_setFlags]
    exact push_alike _ s
  | mem m => exact .bind (s.load16 (eaAddr c.segovr m s)) fun v => push_alike v s

theorem popTo_alike (d : Place 16) (s : State) : Alike w w' (popTo d (s.setFlags w)) (popTo d (s.setFlags w')) :=
  .of_setFlags (popTo_setFlags d s) .start

theorem stos_alike (hdf : getFlag .df w = getFlag .df w') (c : Ctx) (wd : Width) (s : State) :
    Alike w w' (stos c wd (s.setFlags w)) (stos c wd (s.setFlags w')) := by
  have hw := stos_setFlags c wd (s := s.setFlags w) (y := w) rfl
  have hw' := stos_setFlags c wd (s := s.setFlags w) (y := w') hdf.symm
  have h := Alike.setFlags FlagsAlike.start (stos c wd (s.setFlags w)) (w := w) (w' := w')
  rwa [← hw, ← hw'] at h

theorem popFlags_alike (s : State) : Alike w w' (popFlags (s.setFlags w)) (popFlags (s.setFlags w')) := by
  rw [popFlags_setFlags, popFlags_setFlags]
  exact .same _

theorem interruptReturn_alike (s : State) :
    Alike w w' (interruptReturn (s.setFlags w)) (interruptReturn (s.setFlags w')) := by
  rw [interruptReturn_setFlags, interruptReturn_setFlags]
  exact .same _

/-! ## Branches -/

theorem branch_alike (c : Ctx) (taken : Bool) (disp : Word) (s : State) :
    SameButFlags w w' (branch c taken disp (s.setFlags w)) (branch c taken disp (s.setFlags w')) := by
  rw [branch_eq, branch_eq]
  exact ⟨rfl, FlagsAlike.start⟩

/-- R31: the conditions read CF, ZF, SF, OF and PF. -/
theorem condHolds_congr (h : ∀ f ∈ readFlags, getFlag f w = getFlag f w') (k : Cond) : condHolds k w = condHolds k w' := by
  have hcf := h .cf (by decide)
  have hzf := h .zf (by decide)
  have hsf := h .sf (by decide)
  have hof := h .of (by decide)
  have hpf := h .pf (by decide)
  cases k <;> simp only [condHolds, hcf, hzf, hsf, hof, hpf]

theorem jcc_alike (h : ∀ f ∈ readFlags, getFlag f w = getFlag f w') (c : Ctx) (k : Cond) (d : Byte) (s : State) :
    SameButFlags w w' (jcc c k d (s.setFlags w)) (jcc c k d (s.setFlags w')) := by
  simp only [jcc, State.setFlags_flags, condHolds_congr h]
  exact branch_alike c _ _ s

/-- R280, R281: of the flags, the loops read ZF alone. -/
theorem loopFamily_alike (hzf : getFlag .zf w = getFlag .zf w') (c : Ctx) (k : LoopKind) (d : Byte) (s : State) :
    SameButFlags w w' (loopFamily c k d (s.setFlags w)) (loopFamily c k d (s.setFlags w')) := by
  cases k with
  | nz | z =>
    simp only [loopFamily, State.setFlags_flags, hzf]
    exact branch_alike c _ _ (decCx s)
  | always => exact branch_alike c _ _ (decCx s)
  | cxz => exact branch_alike c _ _ s

/-! ## Whole instructions -/

/-- R31, R32: the Execute stage of every instruction but PUSHF, INT and INTO reads the flags of R31 alone. -/
theorem execIn_sameButFlags (h : ∀ f ∈ readFlags, getFlag f w = getFlag f w') (c : Ctx) (i : Instr) (s : State)
    (hpushf : Instr.mnemonic i ≠ .PUSHF) (hint : Instr.mnemonic i ≠ .INT) (hinto : Instr.mnemonic i ≠ .INTO) :
    SameButFlags w w' (execIn c i (s.setFlags w)) (execIn c i (s.setFlags w')) := by
  have hcf := h .cf (by decide)
  have hzf := h .zf (by decide)
  have hdf := h .df (by decide)
  induction i with
  | prefixEs i ih | prefixCs i ih | prefixSs i ih | prefixDs i ih | prefixRep i ih | prefixRepne i ih =>
    exact ih hpushf hint hinto
  | pushf => exact absurd rfl hpushf
  | int3 | intImm n => exact absurd rfl hint
  | into => exact absurd rfl hinto
  | addRmReg d o | orRmReg d o | andRmReg d o | subRmReg d o | xorRmReg d o | cmpRmReg d o =>
    cases d <;> cases o <;> exact finish_sameButFlags c (alu_alike _ _ _ s)
  | addAccImm o | orAccImm o | andAccImm o | subAccImm o | xorAccImm o | cmpAccImm o =>
    exact finish_sameButFlags c (aluAccImm_alike _ o s)
  | addRmImm o | orRmImm o | andRmImm o | subRmImm o | xorRmImm o | cmpRmImm o =>
    cases o <;> exact finish_sameButFlags c (alu_alike _ _ _ s)
  | testRmReg o | testRmImm o => cases o <;> exact finish_sameButFlags c (testOp_alike _ _ s)
  | testAccImm o =>
    cases o with
    | byte v => exact finish_sameButFlags c (testOp_alike (.reg8 .al) (.imm v) s)
    | word v => exact finish_sameButFlags c (testOp_alike (.reg16 .ax) (.imm v) s)
  | incReg r | decReg r => exact finish_sameButFlags c (incDec_alike hcf _ (.reg16 r) s)
  | incRm o | decRm o => cases o <;> exact finish_sameButFlags c (incDec_alike hcf _ _ s)
  | mulRm o => exact finish_sameButFlags c (mulRmOp_alike c o s)
  | divRm o => exact finish_sameButFlags c (divRmOp_alike c o s)
  | notRm o => cases o <;> exact finish_sameButFlags c (notOp_alike _ s)
  | movRmReg o | movRegRm o | movRmImm o => cases o <;> exact finish_sameButFlags c (mov_alike _ _ s)
  | movRegImm o =>
    cases o with
    | byte r v => exact finish_sameButFlags c (mov_alike (.reg8 r) (.imm v) s)
    | word r v => exact finish_sameButFlags c (mov_alike (.reg16 r) (.imm v) s)
  | movAccMem x wd a => cases x <;> cases wd <;> exact finish_sameButFlags c (mov_alike _ _ s)
  | movRmSreg a r | movSregRm r a => exact finish_sameButFlags c (mov_alike _ _ s)
  | pushReg r => exact finish_sameButFlags c (pushRmOp_alike c (.reg r) s)
  | pushSreg r => exact finish_sameButFlags c (push_alike _ s)
  | pushRm a => exact finish_sameButFlags c (pushRmOp_alike c a s)
  | popReg r => exact finish_sameButFlags c (popTo_alike (.reg16 r) s)
  | popEs | popSs | popDs => exact finish_sameButFlags c (popTo_alike (.sreg _) s)
  | popRm a => exact finish_sameButFlags c (popTo_alike _ s)
  | popf => exact finish_sameButFlags c (popFlags_alike s)
  | iret => exact interruptReturn_alike s
  | jo d | jno d | jb d | jnb d | je d | jne d | jbe d | jnbe d | js d | jns d | jp d | jnp d | jl d | jnl d | jle d
  | jnle d => exact jcc_alike h c _ d s
  | loopnz d => exact loopFamily_alike hzf c .nz d s
  | loopz d => exact loopFamily_alike hzf c .z d s
  | loop d => exact loopFamily_alike hzf c .always d s
  | jcxz d => exact loopFamily_alike hzf c .cxz d s
  | jmpShort d | jmpNear d => exact branch_alike c true _ s
  | jmpFar off seg | jmpFarMem m => rfl
  | stosb | stosw => exact finish_sameButFlags c (stos_alike hdf c _ s)

end

/-- R83, R84: every arm of exec is the check of the instruction's prefixes, which a bare one passes, and its core. -/
theorem exec_eq_execPrefixed (i : Instr) (s : State) : exec i s = execPrefixed i s := by
  cases i <;> rfl

/-- Settles O27: the anomaly of ill-formed prefixes reads no flag, and the Execute stage those of R31 alone. -/
theorem unreadFlagsHaveNoEffect : Obligations.UnreadFlagsHaveNoEffect := by
  intro i s w w' h hpushf hint hinto
  rw [exec_eq_execPrefixed, exec_eq_execPrefixed, execPrefixed, execPrefixed]
  split
  · rfl
  · exact execIn_sameButFlags h (Ctx.of i) i s hpushf hint hinto

end Sys2Proof.Machine
end

section
/-! PROOFS. O11 (R52 to R54, R88, R89): the physical address of a memory operand. -/

namespace Sys2Proof.Machine

open Sys2Proof

/-- The segment register a memory operand is addressed through: the override's, else the implicit one. R53. -/
def eaSeg (g : Option SReg) (m : Ea) (s : State) : Word := s.sreg (g.getD (implicitSeg s.cfg (eaKind m)))

/-- R52: a segment and an offset taken mod 2^16. -/
theorem phys_ofNat (seg : Word) (n : Nat) : phys seg (BitVec.ofNat 16 n) = (seg.toNat * 16 + n % 2 ^ 16) % 2 ^ 20 := by
  simp [phys, Config.memSize]

/-- R54 where the offset wraps. -/
theorem eaAddr_wrap {s : State} (h : s.cfg.eaWrap16 = true) (g : Option SReg) (m : Ea) :
    eaAddr g m s =
      ((eaSeg g m s).toNat * 16 + (baseSum s (eaKind m) + (eaDisp m).toNat) % 2 ^ 16) % 2 ^ 20 := by
  rw [eaAddr, if_pos h, phys_ofNat, eaSeg]

/-- R54 where it does not. -/
theorem eaAddr_noWrap {s : State} (h : s.cfg.eaWrap16 = false) (g : Option SReg) (m : Ea) :
    (eaAddr g m s : Int) = ((eaSeg g m s).toNat * 16 + baseSum s (eaKind m) + eaDispExact m) % 2 ^ 20 := by
  rw [eaAddr, if_neg (by simp [h]), Int.toNat_of_nonneg (Int.emod_nonneg _ (by decide)), eaSeg]
  simp [Config.memSize]

/-- R53: the segment of a register combination. -/
theorem eaSeg_of_kind (g : Option SReg) {m : Ea} {k : EaBase} (hm : eaKind m = some k) (s : State) :
    eaSeg g m s =
      g.elim (if k ∈ [.bpSi, .bpDi, .bp] ∧ s.cfg.bpDefaultSegment = .ss then s.ss else s.ds) s.sreg := by
  cases g with
  | some r => rfl
  | none =>
    rw [eaSeg, hm]
    cases hb : s.cfg.bpDefaultSegment <;> cases k <;> simp [implicitSeg, hb, State.sreg]

/-- R53: the segment of the Direct kind. -/
theorem eaSeg_direct (g : Option SReg) (a : Word) (s : State) : eaSeg g (.direct a) s = g.elim s.ds s.sreg := by
  cases g <;> rfl

/-- R89: a signed word and its unsigned value give the same offset mod 2^16. -/
theorem add_toInt_emod (n : Nat) (d : Word) : ((n : Int) + d.toInt) % 2 ^ 16 = ((n + d.toNat) % 2 ^ 16 : Nat) := by
  rw [BitVec.toInt_eq_toNat_cond]
  split <;> omega

/-- R89: a displacement byte is sign-extended. -/
theorem eaDisp_disp8_toInt (k : EaBase) (d : Byte) : (eaDisp (.disp8 k d)).toInt = d.toInt :=
  BitVec.toInt_signExtend_of_le (by decide)

/-- R54, R88: the Direct kind's address does not depend on `EA_WRAP16`. -/
theorem eaAddr_direct (g : Option SReg) (a : Word) (s : State) :
    eaAddr g (.direct a) s = ((g.elim s.ds s.sreg).toNat * 16 + a.toNat) % 2 ^ 20 := by
  rw [← eaSeg_direct g a]
  cases h : s.cfg.eaWrap16 with
  | true =>
    have hlt : a.toNat % 2 ^ 16 = a.toNat := Nat.mod_eq_of_lt a.isLt
    rw [eaAddr_wrap h]
    simp only [eaKind, eaDisp, baseSum, Nat.zero_add, hlt]
  | false =>
    have e := eaAddr_noWrap h g (.direct a)
    simp only [eaKind, eaDisp, eaDispExact, baseSum] at e
    omega

/-- Settles O11: R54's two formulas, at each displacement's value. -/
theorem effectiveAddress : Obligations.EffectiveAddress := by
  intro g s k d8 d16 dflt seg segDirect base
  have hseg : ∀ m, eaKind m = some k → (eaSeg g m s).toNat = seg := fun m hm => by rw [eaSeg_of_kind g hm]
  have hbase : baseSum s (some k) = base := by cases k <;> rfl
  refine ⟨eaAddr_direct g d16 s, fun h => ⟨?_, ?_, ?_⟩, fun h => ⟨?_, ?_, ?_⟩⟩
  · rw [eaAddr_wrap h, hseg _ rfl, eaKind, hbase]; rfl
  · rw [eaAddr_wrap h, hseg _ rfl, eaKind, hbase, ← eaDisp_disp8_toInt k d8, add_toInt_emod]
    push_cast; rfl
  · rw [eaAddr_wrap h, hseg _ rfl, eaKind, hbase]; rfl
  · have e := eaAddr_noWrap h g (.base k)
    have h0 : eaDispExact (.base k) = 0 := rfl
    rw [hseg _ rfl, eaKind, hbase, h0] at e
    omega
  · rw [eaAddr_noWrap h, hseg _ rfl, eaKind, hbase]
    simp only [eaDispExact, eaKind, eaDisp_disp8_toInt]
  · rw [eaAddr_noWrap h, hseg _ rfl, eaKind, hbase]; rfl

end Sys2Proof.Machine
end

section
/-! PROOFS. O12 to O14 (R55 to R57, R59): one access, and a read after a write of another width. -/

namespace Sys2Proof.Machine

open Sys2Proof

/-- Settles O12, by what a write to a memory place leaves. -/
theorem storeWritesExactly : Obligations.StoreWritesExactly := by
  intro s a x v
  constructor
  · intro h
    exact ⟨_, s.store8_eq h x, (Place.mem8 a).put_stored x s, (Place.mem8 a).put_frame x s, rfl⟩
  · intro h
    obtain ⟨hlo, hhi⟩ := (Place.mem16 a).put_stored v s
    exact ⟨_, s.store16_eq h v, hlo, hhi, (Place.mem16 a).put_frame v s, rfl⟩

theorem loByte_eq_setWidth (v : Word) : loByte v = v.setWidth 8 :=
  BitVec.eq_of_toNat_eq (by rw [loByte_toNat, BitVec.toNat_setWidth])

theorem hiByte_eq_setWidth (v : Word) : hiByte v = (v >>> 8).setWidth 8 := by
  have hv := v.isLt
  apply BitVec.eq_of_toNat_eq
  rw [hiByte_toNat, BitVec.toNat_setWidth, BitVec.toNat_ushiftRight, Nat.shiftRight_eq_div_pow]
  omega

/-- R59: the bytes a word store leaves. -/
theorem Memory.read_word_stored (m : Memory) (a : Nat) (lo hi : Byte) :
    ((m.write a lo).write (a + 1) hi).read a = lo ∧ ((m.write a lo).write (a + 1) hi).read (a + 1) = hi := by
  simp

/-- Settles O13: either way the two bytes are in memory, low byte first. -/
theorem mixedWidthAccesses : Obligations.MixedWidthAccesses := by
  intro s a v lo hi h
  have ha : a < Config.memSize := Nat.lt_of_succ_lt h
  constructor
  · obtain ⟨hlo, hhi⟩ := s.mem.read_word_stored a (loByte v) (hiByte v)
    refine ⟨_, s.store16_eq h v, ?_, ?_, ?_⟩
    · rw [State.load16_eq _ h, hlo, hhi, wordOf_loByte_hiByte]
    · rw [State.load8_eq _ ha, hlo, loByte_eq_setWidth]
    · rw [State.load8_eq _ h, hhi, hiByte_eq_setWidth]
  · obtain ⟨hlo, hhi⟩ := s.mem.read_word_stored a lo hi
    refine ⟨_, _, _, s.store8_eq ha lo, State.store8_eq _ h hi, State.load16_eq _ h, ?_⟩
    rw [hlo, hhi, wordOf_toNat]

/-- R57: a byte access past the end of memory. -/
theorem State.load8_top (s : State) {a : Nat} (h : Config.memSize ≤ a) : s.load8 a = .error (.memoryOutOfBounds a 1) :=
  if_neg (by omega)

theorem State.store8_top (s : State) {a : Nat} (h : Config.memSize ≤ a) (v : Byte) :
    s.store8 a v = .error (.memoryOutOfBounds a 1) :=
  if_neg (by omega)

/-- Settles O14: an access is in bounds or has the one fault, and the only address of memory with no word is the last. -/
theorem onlyTheTopWordIsOutOfBounds : Obligations.OnlyTheTopWordIsOutOfBounds := by
  intro s a x v
  refine ⟨fun h => ⟨s.load8_top (Nat.le_of_lt_succ h), s.store8_top (Nat.le_of_lt_succ h) x⟩,
    fun h => ⟨s.load16_top (Nat.le_of_lt_succ h), s.store16_top (Nat.le_of_lt_succ h) v⟩,
    phys_lt, fun g m => eaAddr_lt g m s, fun ha => ⟨⟨_, s.load8_eq ha⟩, ?_⟩⟩
  constructor
  · rintro ⟨y, hy⟩ rfl
    rw [s.load16_top (by decide)] at hy
    cases hy
  · intro hne
    exact ⟨_, s.load16_eq (a := a) (by simp only [Config.memSize]; omega)⟩

end Sys2Proof.Machine
end

section
/-! PROOFS. O15 (R50, R61; log 13): the canonical form of memory. -/

namespace Sys2Proof.Machine

open Sys2Proof

/-- An unlisted address reads as 0x00. R35. -/
theorem Memory.read_eq_zero {m : Memory} {a : Nat} (h : ∀ c ∈ m, c.1 ≠ a) : m.read a = 0 := by
  induction m with
  | nil => rfl
  | cons c t ih =>
    rw [Memory.read, if_neg (Ne.symm (h c (.head _)))]
    exact ih fun d hd => h d (.tail _ hd)

/-- The entries of a canonical memory are the addresses that do not read as 0x00, with what they read as. -/
theorem Memory.mem_iff {m : Memory} (h : m.wf) (c : Host.Cell) : c ∈ m ↔ c.2 ≠ 0 ∧ m.read c.1 = c.2 := by
  obtain ⟨hsorted, hnonzero⟩ := h
  induction m with
  | nil => exact iff_of_false List.not_mem_nil fun ⟨h1, h2⟩ => h1 h2.symm
  | cons d t ih =>
    obtain ⟨k, x⟩ := d
    obtain ⟨hk, ht⟩ := List.pairwise_cons.1 hsorted
    have ih := ih ht fun c hc => hnonzero c (.tail _ hc)
    rw [List.mem_cons, ih, Memory.read]
    by_cases hc : c.1 = k
    · have h0 : Memory.read t c.1 = 0 := Memory.read_eq_zero fun e he => by rw [hc]; exact Nat.ne_of_gt (hk e he)
      have hx := hnonzero (k, x) (.head _)
      rw [if_pos hc, h0]
      constructor
      · rintro (rfl | ⟨h1, h2⟩)
        · exact ⟨hx, rfl⟩
        · exact absurd h2.symm h1
      · rintro ⟨-, h2⟩
        exact .inl (Prod.ext hc h2.symm)
    · rw [if_neg hc, or_iff_right fun e => hc (by rw [e])]

/-- Settles O15: memories that read alike list the same entries, and in the same order. -/
theorem equalReadsAreEqualMemories : Obligations.EqualReadsAreEqualMemories := by
  intro m m' h h' hread
  have hmem : ∀ c, c ∈ m ↔ c ∈ m' := fun c => by rw [Memory.mem_iff h, Memory.mem_iff h', hread]
  have : Std.Irrefl fun x y : Host.Cell => x.1 < y.1 := ⟨fun _ => Nat.lt_irrefl _⟩
  have : Std.Antisymm fun x y : Host.Cell => x.1 < y.1 := ⟨fun _ _ hxy hyx => absurd hxy (Nat.lt_asymm hyx)⟩
  exact h.1.eq_of_mem_iff h'.1 hmem

end Sys2Proof.Machine
end

section
/-! PROOFS. O24, O28 (R69, R146, R350, R391): what a step keeps, and what an Execute stage can end with. -/

namespace Sys2Proof.Machine

open Sys2Proof

/-- R142, R145: Fetch and Decode keep the image bounds and the parameters. -/
theorem fetch_keeps {s u : State} {d : Record} (h : fetch s = .ok (d, u)) :
    u.imageOrigin = s.imageOrigin ∧ u.imageEnd = s.imageEnd ∧ u.cfg = s.cfg := by
  obtain ⟨-, v, hrec, rfl⟩ := fetch_cases h
  rcases record_cases hrec with ⟨rfl, -⟩ | ⟨-, ⟨rfl, -⟩ | ⟨rfl, -⟩⟩ <;> exact ⟨rfl, rfl, rfl⟩

/-- Settles O24: Fetch and Decode keep the bounds and the parameters, and so does the effect of the instruction. -/
theorem imageBoundsNeverMove : Obligations.ImageBoundsNeverMove := by
  intro s t h
  obtain ⟨d, u, hfetch, hexec⟩ := step_cases h
  obtain ⟨horigin, hend, hcfg⟩ := fetch_keeps hfetch
  have E := exec_effect hexec
  exact ⟨E.origin.trans horigin, E.end_.trans hend, E.cfg.trans hcfg⟩

/-- R83, R84: a well-formed instruction is its core meaning in the context of its record. -/
theorem exec_wellFormed {i : Instr} (h : i.wellFormed = true) (s : State) : exec i s = execIn (Ctx.of i) i s := by
  rw [exec_eq_execPrefixed, execPrefixed, prefixFail_wellFormed h]

/-- R350: the faults of an Execute stage, each by its own instructions. -/
theorem Instr.faults_cases {c : Ctx} {s : State} {i : Instr} {f : Fault} (h : Instr.faults c s i f) :
    f = topWord ∨ (f = .divideByZero s.p0 ∧ Instr.mnemonic i = .DIV) ∨
    (f = .divideOverflow s.p0 ∧ Instr.mnemonic i = .DIV) ∨
    (f = .repNE s.p0 ∧ Instr.isStos i = true ∧ c.rep = some .repne) ∨
    (f = .farJump s.p0 ∧ Instr.recordFar i = true) := by
  induction i with
  | prefixEs i ih | prefixCs i ih | prefixSs i ih | prefixDs i ih | prefixRep i ih | prefixRepne i ih => exact ih h
  | divRm o =>
    rcases h with h | h | h
    · exact .inl h
    · exact .inr (.inl ⟨h, rfl⟩)
    · exact .inr (.inr (.inl ⟨h, rfl⟩))
  | stosb | stosw => exact h.imp_right fun ⟨hf, hrep⟩ => .inr (.inr (.inl ⟨hf, rfl, hrep⟩))
  | jmpFar off seg | jmpFarMem m => exact .inr (.inr (.inr (.inr ⟨h, rfl⟩)))
  | _ => exact .inl h

/-- Settles O28, by what the Execute stage of any instruction can answer. -/
theorem outcomesOfExecute : Obligations.OutcomesOfExecute := by
  intro i s hwf
  have hans := execIn_ans (Ctx.of i) i s
  rw [exec_wellFormed hwf s]
  cases hx : execIn (Ctx.of i) i s with
  | next t => exact .inl ⟨t, rfl⟩
  | refused r => rw [hx] at hans; exact hans.elim
  | fault f =>
    rw [hx] at hans
    right
    simp only [Host.Outcome.fault.injEq]
    exact Instr.faults_cases hans

end Sys2Proof.Machine
end

section
/-! PROOFS. O40, O48, O52 (R57): a word access at 0xFFFFF ends the instruction, whichever of its accesses it is. -/

namespace Sys2Proof.Machine

open Sys2Proof

theorem Single.incDec_top (op : ArithOp) (s : State) :
    (Single.word (.mem16 0xFFFFF)).incDec op s = .error topWord := Machine.incDec_top op s

/-- R118, R244: NOT of a word at the top of memory. -/
theorem exec_not_top {g : Option SReg} {x : Rm Reg16} {s : State} (h : rmWord g s x = .mem16 0xFFFFF) :
    exec (under g (.notRm (.word x))) s = .fault topWord := by
  rw [exec_not, rmSingle, h, Single.not, notOp_top, finish_error]

/-- Settles O40: an operand that is out of bounds is the word at the top, and each operation's first access to it
faults. -/
theorem operandAtTopWordIsFatal : Obligations.OperandAtTopWordIsFatal := by
  intro g s op a e m p o top
  refine ⟨fun h => ?_, fun h => ?_, fun h => ?_, fun h => ?_, fun h => ?_⟩
  · rw [exec_alu, Pair.alu_atTop (AluForm.atTop h), finish_error]
  · rw [exec_test, Pair.test_atTop (TestForm.atTop h), finish_error]
  · rw [exec_mov, Pair.mov_atTop (MovForm.atTop h), finish_error]
  · have htop := StepForm.atTop h
    constructor
    · rw [exec_inc, htop, Single.incDec_top, finish_error]
    · rw [exec_dec, htop, Single.incDec_top, finish_error]
  · obtain ⟨x, rfl, htop⟩ := rmSingle_atTop h
    exact ⟨exec_not_top htop, exec_mul_top htop, exec_div_top htop⟩

/-! ## The stack -/

/-- R293: only a memory source is ever out of bounds. -/
theorem PushForm.eq_mem_of_not_inBounds {f : PushForm} {g : Option SReg} {s : State} (h : ¬ f.inBounds g s) :
    ∃ m, f = .rm (.mem m) ∧ eaAddr g m s = 0xFFFFF := by
  cases f with
  | rm x =>
    cases x with
    | mem m => exact ⟨m, rfl, not_not.1 h⟩
    | reg r => exact absurd trivial h
  | _ => exact absurd trivial h

/-- R295, R297: only a memory destination is ever out of bounds. -/
theorem PopForm.dst_eq_top {f : PopForm} {g : Option SReg} {s : State} (h : ¬ (f.dst g s).inBounds) :
    f.dst g s = .mem16 0xFFFFF := by
  cases f with
  | rm x => exact eq_top_of_not_inBounds h
  | _ => exact absurd trivial h

/-- R57, R291: a pop whose stack word is at the top of memory, whatever its destination. -/
theorem popTo_stackTop {s : State} (h : phys s.ss s.sp = 0xFFFFF) (d : Place 16) : popTo d s = .error topWord := by
  simp only [popTo, pop_top h, bind, Except.bind]

/-- R57, R297: a pop to the top of memory. -/
theorem popTo_dstTop (s : State) : popTo (.mem16 0xFFFFF) s = .error topWord := by
  rcases pop_cases s with e | e <;> simp only [popTo, e, bind, Except.bind, Place.write_top]

theorem popFlags_top {s : State} (h : phys s.ss s.sp = 0xFFFFF) : popFlags s = .error topWord := by
  simp only [popFlags, pop_top h, bind, Except.bind]

/-- Settles O48: the source before the stack word for a push, the stack word before the destination for a pop. -/
theorem stackAtTopWordIsFatal : Obligations.StackAtTopWordIsFatal := by
  intro f h g s top
  refine ⟨fun hpush => ?_, fun hpop => ?_, fun hpop => ?_⟩
  · by_cases hsrc : f.inBounds g s
    · rw [exec_push hsrc, push_top (hpush.resolve_left (not_not.2 hsrc)), finish_error]
    · obtain ⟨m, rfl, htop⟩ := PushForm.eq_mem_of_not_inBounds hsrc
      exact exec_pushMem_top htop
  · rw [exec_pop]
    rcases hpop with hstack | hdst
    · rw [popTo_stackTop hstack, finish_error]
    · rw [PopForm.dst_eq_top hdst, popTo_dstTop, finish_error]
  · rw [exec_popf, popFlags_top hpop, finish_error]

/-! ## Interrupts -/

theorem exec_intImm (n : Byte) (g : Option SReg) (s : State) :
    exec (under g (.intImm n)) s = redirect (enter n (under g (.intImm n)).size s) := exec_under rfl g s

theorem exec_int3 (g : Option SReg) (s : State) :
    exec (under g .int3) s = redirect (enter 3 (under g .int3).size s) := exec_under rfl g s

/-- R313: INTO with OF = 1 is an interrupt through vector 4. -/
theorem exec_into_taken {s : State} (h : getFlag .of s.flags = true) (g : Option SReg) :
    exec (under g .into) s = redirect (enter 4 (under g .into).size s) := by
  rw [exec_under rfl, execIn, intoIn, if_pos h]

theorem exec_iret (g : Option SReg) (s : State) : exec (under g .iret) s = redirect (interruptReturn s) :=
  exec_under rfl g s

/-- Settles O52: each interrupt is an entry, and IRET the return. -/
theorem interruptAtTopWordIsFatal : Obligations.InterruptAtTopWordIsFatal := by
  intro n g s top
  refine ⟨fun h => ⟨?_, ?_, fun hof => ?_⟩, fun h => ?_⟩
  · rw [exec_intImm, enter_top h, redirect_error]
  · rw [exec_int3, enter_top h, redirect_error]
  · rw [exec_into_taken hof, enter_top h, redirect_error]
  · rw [exec_iret, interruptReturn_top h, redirect_error]

end Sys2Proof.Machine
end

section
/-! PROOFS. O55, O56 (R143, R330 to R333): STOS alone and under REP. -/

namespace Sys2Proof.Machine

open Sys2Proof

/-- STOSB and STOSW, by width. R121. -/
def stosInstr (w : Width) : Instr := if w = .byte then .stosb else .stosw

/-- R331 to R333: an unrepeated STOS, whatever its override. -/
theorem exec_stos (w : Width) (g : Option SReg) (s : State) :
    exec (under g (stosInstr w)) s = finish (ctxUnder g (stosInstr w)) (stosOnce w s) := by
  cases w with
  | byte => exact exec_under rfl g s
  | word => exact exec_under rfl g s

/-- R331: a STOS under REP, whatever its override and its place. -/
theorem exec_repStos (w : Width) (g : Option SReg) (inner : Bool) (s : State) :
    exec (repeated .rep g inner (stosInstr w)) s =
      finish { segovr := g, rep := some .rep, size := (repeated .rep g inner (stosInstr w)).size }
        (stosRep w s.cx.toNat s) := exec_repeated .rep g inner w s

theorem State.stosSeg_eq (s : State) : s.stosSeg = if s.cfg.stosSegment = .es then s.es else s.ds := by
  rw [State.stosSeg]
  cases s.cfg.stosSegment <;> rfl

/-- R331: what a completed unrepeated STOS leaves. -/
theorem exec_stos_stores {w : Width} {s : State} (h : stosOnce w s = .ok (stosPut w s)) (g : Option SReg) :
    ∃ t, exec (under g (stosInstr w)) s = .next t ∧ Advanced (under g (stosInstr w)) s t ∧
      stosHeld w s t.mem (stosCell w s 0) ∧ t.di = stosDi w s 1 ∧ Frame [.di] [] [] (stosBytes w s 0) 0 s t :=
  ⟨_, by rw [exec_stos, h, finish_ok], advanced_of (stosPut_ip w s), stosHeld_put w s, stosPut_di w s,
    (stosPut_frame w s).setIp _⟩

/-- Settles O55: one store, out of bounds only for a word at 0xFFFFF. -/
theorem stosStoresOnce : Obligations.StosStoresOnce := by
  intro g s a
  have ha : ∀ w, stosCell w s 0 = a := fun w => by rw [stosCell, stosDi_zero, State.stosSeg_eq]
  refine ⟨?_, fun h => ?_, fun h => ?_⟩
  · have hstore := exec_stos_stores (stosOnce_byte s) g
    simp only [ha, stosBytes] at hstore
    exact hstore
  · have hstore := exec_stos_stores (stosOnce_word (by rwa [ha])) g
    simp only [ha, stosBytes] at hstore
    exact hstore
  · have htop := stosOnce_top (s := s) (by rwa [ha])
    exact (exec_stos .word g s).trans (by rw [htop, finish_error])

/-- R331: what a completed STOS under REP leaves. -/
theorem exec_repStos_fills {w : Width} {s : State} (h : StosFits w s s.cx.toNat) (g : Option SReg) (inner : Bool) :
    ∃ t, exec (repeated .rep g inner (stosInstr w)) s = .next t ∧
      Advanced (repeated .rep g inner (stosInstr w)) s t ∧ t.cx = 0 ∧ t.di = stosDi w s s.cx.toNat ∧
      (∀ k, k < s.cx.toNat → stosHeld w s t.mem (stosCell w s k)) ∧
      Frame [.cx, .di] [] [] ((List.range s.cx.toNat).flatMap (stosBytes w s)) 0 s t := by
  obtain ⟨t, hrep, hip, hcx, hdi, hheld, F⟩ := stosRep_eq w s.cx.toNat h
  refine ⟨_, by rw [exec_repStos, hrep, finish_ok], advanced_of hip, ?_, hdi, hheld, F.setIp _⟩
  rw [State.setIp_cx, hcx, BitVec.ofNat_toNat, BitVec.setWidth_eq, BitVec.sub_self]
  rfl

/-- Settles O56, by the fill of CX iterations, or the first of them at the top of memory. -/
theorem repStosFills : Obligations.RepStosFills := by
  intro g inner s seg cell moved ib iw
  have hb : ∀ k, stosCell .byte s k = cell 1 k := fun k => by rw [stosCell, State.stosSeg_eq]; rfl
  have hw : ∀ k, stosCell .word s k = cell 2 k := fun k => by rw [stosCell, State.stosSeg_eq]; rfl
  refine ⟨?_, fun h => ?_, fun h => ?_⟩
  · obtain ⟨t, hexec, hip, hcx, hdi, hheld, F⟩ := exec_repStos_fills (w := .byte) (s := s) nofun g inner
    have hbytes : stosBytes .byte s = fun k => [cell 1 k] := funext fun k => by rw [stosBytes, hb]
    rw [hbytes, ← List.map_eq_flatMap] at F
    exact ⟨t, hexec, hip, hcx, hdi, fun k hk => hb k ▸ hheld k hk, F⟩
  · obtain ⟨t, hexec, hip, hcx, hdi, hheld, F⟩ :=
      exec_repStos_fills (w := .word) (s := s) (fun _ j hj => by rw [hw]; exact h j hj) g inner
    have hbytes : stosBytes .word s = fun k => [cell 2 k, cell 2 k + 1] := funext fun k => by rw [stosBytes, hw]
    rw [hbytes] at F
    exact ⟨t, hexec, hip, hcx, hdi, fun k hk => hw k ▸ hheld k hk, F⟩
  · have htop := stosRep_top s.cx.toNat (s := s) (by simpa only [hw] using h)
    exact (exec_repStos .word g inner s).trans (by rw [htop, finish_error])

end Sys2Proof.Machine
end

section
/-! PROOFS. O1 (R81, R95, R120, R122): what the decoder does at each prefix byte and at an opcode byte, and that it
reads back the encoding of every well-formed instruction. -/

namespace Sys2Proof

open Machine

/-! ## The prefix stage, byte by byte (R82, R83) -/

@[simp] theorem segOverride_segByte (r : SReg) : segOverride (segByte r) = some r := by cases r <;> rfl

@[simp] theorem repeatByte_repByte (k : Rep) : repeatByte (repByte k) = some k := by cases k <;> rfl

@[simp] theorem segOverride_repByte (k : Rep) : segOverride (repByte k) = none := by cases k <;> rfl

theorem segOverride_of_not_prefix {b : Byte} (h : b.toNat ∉ prefixBytes) : segOverride b = none := by
  revert b; decide

theorem repeatByte_of_not_prefix {b : Byte} (h : b.toNat ∉ prefixBytes) : repeatByte b = none := by
  revert b; decide

/-- R120: no byte of an entry is a prefix byte. -/
theorem Entry.of_not_prefix (b : Byte) : ∀ e ∈ Entry.of b, b.toNat ∉ prefixBytes := by revert b; decide

theorem decodeAfter_segByte (admitX seg rep : Bool) (r : SReg) (t : List Byte) :
    decodeAfter admitX seg rep (segByte r :: t) =
      if seg then .error (.duplicatePrefix (segByte r)) else (decodeAfter admitX true rep t).map r.before := by
  simp only [decodeAfter, segOverride_segByte]

theorem decodeAfter_repByte (admitX seg rep : Bool) (k : Rep) (t : List Byte) :
    decodeAfter admitX seg rep (repByte k :: t) =
      if rep then .error (.duplicatePrefix (repByte k)) else (decodeAfter admitX seg true t).map k.before := by
  simp only [decodeAfter, segOverride_repByte, repeatByte_repByte]

theorem decodeAfter_opcode {b : Byte} (h : b.toNat ∉ prefixBytes) (admitX seg rep : Bool) (t : List Byte) :
    decodeAfter admitX seg rep (b :: t) = decodeOpcode admitX rep b t := by
  simp only [decodeAfter, segOverride_of_not_prefix h, repeatByte_of_not_prefix h]

/-! ## The opcode stage (R122) -/

/-- R120: each entry is the one its opcode byte selects. -/
theorem Entry.of_opcode (e : Entry) : Entry.of e.opcode = some e := by
  cases e with
  | aluRmReg a d w => cases a <;> cases d <;> cases w <;> rfl
  | aluAccImm a w => cases a <;> cases w <;> rfl
  | pushSreg r | popSreg r | incReg r | decReg r | pushReg r | popReg r | movReg8 r | movReg16 r => cases r <;> rfl
  | jcc c => cases c <;> rfl
  | loop k => cases k <;> rfl
  | grpAlu s w => cases s <;> cases w <;> rfl
  | movAccMem x w => cases x <;> cases w <;> rfl
  | testRmReg w | movRmReg w | movRegRm w | testAccImm w | stos w | grpMov w | grpUnary w => cases w <;> rfl
  | _ => rfl

/-- R122: an admitted entry whose repeat prefix is no misuse reads its instruction. -/
theorem decodeOpcode_admitted {admitX rep : Bool} {op : Byte} {e : Entry} (he : Entry.of op = some e)
    (hX : e.tierX = true → admitX = true) (hrep : rep = true → e.isStos = true) (t : List Byte) :
    decodeOpcode admitX rep op t = e.parse op t := by
  simp only [decodeOpcode, he]
  rw [if_neg (by simpa using hX), if_neg (by simpa using hrep)]

/-- The entry reads the instruction from its encoding, and leaves the bytes `t` after it. -/
def Entry.ReadsBack (e : Entry) (i : Instr) (t : List Byte) : Prop :=
  ∃ tl, encode i ++ t = e.opcode :: tl ∧ e.parse e.opcode tl = .ok (i, t)

theorem Entry.ReadsBack.decodeAfter {e : Entry} {i : Instr} {t : List Byte} {admitX rep : Bool} (h : e.ReadsBack i t)
    (hX : e.tierX = true → admitX = true) (hrep : rep = true → e.isStos = true) (seg : Bool) :
    Sys2Proof.decodeAfter admitX seg rep (encode i ++ t) = .ok (i, t) := by
  obtain ⟨tl, henc, hparse⟩ := h
  have hof := Entry.of_opcode e
  rw [henc, decodeAfter_opcode (Entry.of_not_prefix _ e hof), decodeOpcode_admitted hof hX hrep, hparse]

/-! ## Operand forms read back -/

theorem parseRm_append {ρ : Type} {ofNum : BitVec 3 → ρ} {num : ρ → BitVec 3} (hn : ∀ r, ofNum (num r) = r)
    {x : Rm ρ} (h : x.ea.all Ea.wellFormed = true) (reg : BitVec 3) (t : List Byte) :
    ∃ m tl, x.encode num reg ++ t = m :: tl ∧ regOf m = reg ∧ parseRm ofNum m tl = .ok (x, t) := by
  obtain ⟨m, tl, henc, hreg, hparse⟩ := parseRm_encode hn h reg t
  exact ⟨m, tl ++ t, by rw [henc]; rfl, hreg, hparse⟩

theorem parseRmReg_encode {o : RmReg} (h : o.ea.all Ea.wellFormed = true) (t : List Byte) :
    ∃ m tl, (∀ a d, encodeAluRmReg a d o ++ t = (Entry.aluRmReg a d (RmReg.width o)).opcode :: m :: tl) ∧
      (∀ op : BitVec 7, encodeRmReg op o ++ t = (op ++ (RmReg.width o).bit) :: m :: tl) ∧
      parseRmReg (RmReg.width o) m tl = .ok (o, t) := by
  cases o with
  | byte x r =>
    obtain ⟨m, tl, henc, hreg, hparse⟩ := parseRm_append Reg8.ofNum_num h r.num t
    exact ⟨m, tl, fun _ _ => congrArg _ henc, fun _ => congrArg _ henc, by simp [RmReg.width, parseRmReg, hparse, hreg]⟩
  | word x r =>
    obtain ⟨m, tl, henc, hreg, hparse⟩ := parseRm_append Reg16.ofNum_num h r.num t
    exact ⟨m, tl, fun _ _ => congrArg _ henc, fun _ => congrArg _ henc, by simp [RmReg.width, parseRmReg, hparse, hreg]⟩

theorem parseRmOnly_encode {o : RmOnly} (h : o.ea.all Ea.wellFormed = true) (sel : BitVec 3) (t : List Byte) :
    ∃ w m tl, (∀ op : BitVec 7, encodeRmOnly op sel o ++ t = (op ++ Width.bit w) :: m :: tl) ∧ regOf m = sel ∧
      parseRmOnly w m tl = .ok (o, t) := by
  cases o with
  | byte x =>
    obtain ⟨m, tl, henc, hreg, hparse⟩ := parseRm_append Reg8.ofNum_num h sel t
    exact ⟨.byte, m, tl, fun _ => congrArg _ henc, hreg, by simp [parseRmOnly, hparse]⟩
  | word x =>
    obtain ⟨m, tl, henc, hreg, hparse⟩ := parseRm_append Reg16.ofNum_num h sel t
    exact ⟨.word, m, tl, fun _ => congrArg _ henc, hreg, by simp [parseRmOnly, hparse]⟩

theorem parseRmImm_encode {o : RmImm} (h : o.ea.all Ea.wellFormed = true) (sel : BitVec 3) (t : List Byte) :
    ∃ w m tl, (∀ op : BitVec 7, encodeRmImm op sel o ++ t = (op ++ Width.bit w) :: m :: tl) ∧ regOf m = sel ∧
      parseRmImm w m tl = .ok (o, t) := by
  cases o with
  | byte x v =>
    obtain ⟨m, tl, henc, hreg, hparse⟩ := parseRm_append Reg8.ofNum_num h sel (v :: t)
    exact ⟨.byte, m, tl, fun _ => by simp [encodeRmImm, henc, Width.bit], hreg, by simp [parseRmImm, hparse]⟩
  | word x v =>
    obtain ⟨m, tl, henc, hreg, hparse⟩ := parseRm_append Reg16.ofNum_num h sel (wordBytes v ++ t)
    exact ⟨.word, m, tl, fun _ => by simp [encodeRmImm, henc, Width.bit], hreg, by simp [parseRmImm, hparse]⟩

theorem parseGrpImm_encode {o : GrpImm} (h : o.ea.all Ea.wellFormed = true) (a : AluOp) (t : List Byte) :
    ∃ s w m tl, encodeGrpImm a o ++ t = (Entry.grpAlu s w).opcode :: m :: tl ∧ regOf m = a.sel ∧
      parseGrpImm s w m tl = .ok (o, t) := by
  cases o with
  | byte s x v =>
    obtain ⟨m, tl, henc, hreg, hparse⟩ := parseRm_append Reg8.ofNum_num h a.sel (v :: t)
    exact ⟨s, .byte, m, tl, by simp [encodeGrpImm, henc, Entry.opcode, Width.bit], hreg, by simp [parseGrpImm, hparse]⟩
  | word x v =>
    obtain ⟨m, tl, henc, hreg, hparse⟩ := parseRm_append Reg16.ofNum_num h a.sel (wordBytes v ++ t)
    refine ⟨false, .word, m, tl, ?_, hreg, by simp [parseGrpImm, hparse]⟩
    rw [encodeGrpImm, List.append_assoc, List.cons_append]
    exact congrArg _ henc
  | wordSx x v =>
    obtain ⟨m, tl, henc, hreg, hparse⟩ := parseRm_append Reg16.ofNum_num h a.sel (v :: t)
    refine ⟨true, .word, m, tl, ?_, hreg, by simp [parseGrpImm, hparse]⟩
    rw [encodeGrpImm, List.append_assoc, List.cons_append]
    exact congrArg _ henc

theorem parseAccImm_encode (o : AccImm) (t : List Byte) :
    ∃ w tl, (∀ op : BitVec 7, encodeAccImm op o ++ t = (op ++ Width.bit w) :: tl) ∧ parseAccImm w tl = .ok (o, t) := by
  cases o with
  | byte v => exact ⟨.byte, v :: t, fun _ => rfl, rfl⟩
  | word v => exact ⟨.word, wordBytes v ++ t, fun _ => rfl, by simp [parseAccImm]⟩

/-! ## Entries read back (R101 to R121) -/

section
variable {t : List Byte}

/-- An opcode byte alone. -/
theorem Entry.ReadsBack.alone {e : Entry} {i : Instr} (henc : encode i = [e.opcode])
    (hparse : e.parse e.opcode t = .ok (i, t)) : e.ReadsBack i t := ⟨t, by rw [henc]; rfl, hparse⟩

/-- An opcode byte and a byte. -/
theorem Entry.ReadsBack.byte {e : Entry} {f : Byte → Instr} {d : Byte} (henc : encode (f d) = [e.opcode, d])
    (hparse : e.parse e.opcode (d :: t) = (takeByte (d :: t)).map f) : e.ReadsBack (f d) t :=
  ⟨d :: t, by rw [henc]; rfl, hparse⟩

/-- An opcode byte and a word. -/
theorem Entry.ReadsBack.word {e : Entry} {f : Word → Instr} {v : Word} (henc : encode (f v) = e.opcode :: wordBytes v)
    (hparse : e.parse e.opcode (wordBytes v ++ t) = (takeWord (wordBytes v ++ t)).map f) : e.ReadsBack (f v) t :=
  ⟨wordBytes v ++ t, by rw [henc]; rfl, by rw [hparse]; simp⟩

theorem aluRmReg_readsBack (a : AluOp) (d : Dir) {o : RmReg} (h : o.ea.all Ea.wellFormed = true) :
    ∃ e : Entry, e.ReadsBack (a.rmReg d o) t := by
  obtain ⟨m, tl, henc, -, hparse⟩ := parseRmReg_encode h t
  have hi : encode (a.rmReg d o) = encodeAluRmReg a d o := by cases a <;> rfl
  exact ⟨.aluRmReg a d (RmReg.width o), m :: tl, by rw [hi, henc], by simp [Entry.parse, withModRm, hparse]⟩

theorem aluAccImm_readsBack (a : AluOp) (o : AccImm) : ∃ e : Entry, e.ReadsBack (a.accImm o) t := by
  obtain ⟨w, tl, henc, hparse⟩ := parseAccImm_encode o t
  have hi : encode (a.accImm o) = encodeAccImm (0#2 ++ a.sel ++ 2#2) o := by cases a <;> rfl
  exact ⟨.aluAccImm a w, tl, by rw [hi, henc]; rfl, by simp [Entry.parse, hparse]⟩

@[simp] theorem AluOp.ofSel_of_sel (a : AluOp) : AluOp.ofSel a.sel = some a := by cases a <;> rfl

theorem aluRmImm_readsBack (a : AluOp) {o : GrpImm} (h : o.ea.all Ea.wellFormed = true) :
    ∃ e : Entry, e.ReadsBack (a.rmImm o) t := by
  obtain ⟨s, w, m, tl, henc, hreg, hparse⟩ := parseGrpImm_encode h a t
  have hi : encode (a.rmImm o) = encodeGrpImm a o := by cases a <;> rfl
  exact ⟨.grpAlu s w, m :: tl, by rw [hi, henc], by simp [Entry.parse, withModRm, parseGrpAlu, hreg, hparse]⟩

theorem jcc_readsBack (c : Cond) (d : Byte) : ∃ e : Entry, e.ReadsBack (c.jump d) t :=
  ⟨.jcc c, .byte (by cases c <;> rfl) rfl⟩

theorem loop_readsBack (k : LoopKind) (d : Byte) : ∃ e : Entry, e.ReadsBack (k.instr d) t :=
  ⟨.loop k, .byte (by cases k <;> rfl) rfl⟩

/-- R87: the segment-register field of 8C and 8E holds the register's number. -/
theorem sreg_field_num (r : SReg) :
    (0#1 ++ r.num : BitVec 3).getLsbD 2 = false ∧ (0#1 ++ r.num : BitVec 3).extractLsb' 0 2 = r.num := by
  cases r <;> decide

theorem SReg.dst_of_sreg (r : SRegDst) : r.sreg.dst = some r := by cases r <;> rfl

/-- An opcode byte and a lone r/m operand under the ModRM field `sel`. -/
theorem Entry.ReadsBack.rm {ρ : Type} {ofNum : BitVec 3 → ρ} {num : ρ → BitVec 3} (hn : ∀ r, ofNum (num r) = r)
    {x : Rm ρ} (h : x.ea.all Ea.wellFormed = true) {e : Entry} {f : Rm ρ → Instr} {sel : BitVec 3}
    (henc : encode (f x) = e.opcode :: x.encode num sel)
    (hparse : ∀ m tl, regOf m = sel → e.parse e.opcode (m :: tl) = (parseRm ofNum m tl).map f) :
    e.ReadsBack (f x) t := by
  obtain ⟨m, tl, hbytes, hreg, hrm⟩ := parseRm_append hn h sel t
  exact ⟨m :: tl, by rw [henc, List.cons_append, hbytes], by rw [hparse m tl hreg, hrm, Parse.map_ok]⟩

theorem movRmSreg_readsBack {x : Rm Reg16} (h : x.ea.all Ea.wellFormed = true) (r : SReg) :
    Entry.movRmSreg.ReadsBack (.movRmSreg x r) t := by
  obtain ⟨hbit, hnum⟩ := sreg_field_num r
  refine .rm Reg16.ofNum_num h (f := fun x => .movRmSreg x r) rfl fun m tl hreg => ?_
  simp only [Entry.parse, withModRm, takeByte_cons, parseMovRmSreg, hreg, hbit, hnum, SReg.ofNum_num,
    Bool.false_eq_true, if_false]

theorem movSregRm_readsBack {x : Rm Reg16} (h : x.ea.all Ea.wellFormed = true) (r : SRegDst) :
    Entry.movSregRm.ReadsBack (.movSregRm r x) t := by
  obtain ⟨hbit, hnum⟩ := sreg_field_num r.sreg
  refine .rm Reg16.ofNum_num h rfl fun m tl hreg => ?_
  simp only [Entry.parse, withModRm, takeByte_cons, parseMovSregRm, hreg, hbit, hnum, SReg.ofNum_num,
    SReg.dst_of_sreg, Bool.false_eq_true, if_false]

theorem popRm_readsBack {x : Rm Reg16} (h : x.ea.all Ea.wellFormed = true) : Entry.grpPop.ReadsBack (.popRm x) t :=
  .rm Reg16.ofNum_num h rfl fun m tl hreg => by simp [Entry.parse, withModRm, hreg]

theorem pushRm_readsBack {x : Rm Reg16} (h : x.ea.all Ea.wellFormed = true) : Entry.grpFf.ReadsBack (.pushRm x) t :=
  .rm Reg16.ofNum_num h rfl fun m tl hreg => by simp [Entry.parse, withModRm, parseFf, hreg]

@[simp] theorem Parse.map_id {α : Type} (p : Parse α) : Parse.map id p = p := by cases p <;> rfl

theorem Parse.map_map {α β γ : Type} (f : α → β) (g : β → γ) (p : Parse α) :
    Parse.map g (Parse.map f p) = Parse.map (g ∘ f) p := by cases p <;> rfl

/-- R119: INC and DEC of an r/m operand: a byte in the group FE, a word in the group FF. -/
theorem incRm_readsBack {o : RmOnly} (h : o.ea.all Ea.wellFormed = true) : ∃ e : Entry, e.ReadsBack (.incRm o) t := by
  cases o with
  | byte x =>
    refine ⟨.grpFe, .rm Reg8.ofNum_num h (f := .incRm ∘ .byte) rfl fun m tl hreg => ?_⟩
    simp [Entry.parse, withModRm, parseFe, parseRmOnly, Parse.map_map, hreg]
  | word x =>
    refine ⟨.grpFf, .rm Reg16.ofNum_num h (f := .incRm ∘ .word) rfl fun m tl hreg => ?_⟩
    simp [Entry.parse, withModRm, parseFf, parseRmOnly, Parse.map_map, hreg]

theorem decRm_readsBack {o : RmOnly} (h : o.ea.all Ea.wellFormed = true) : ∃ e : Entry, e.ReadsBack (.decRm o) t := by
  cases o with
  | byte x =>
    refine ⟨.grpFe, .rm Reg8.ofNum_num h (f := .decRm ∘ .byte) rfl fun m tl hreg => ?_⟩
    simp [Entry.parse, withModRm, parseFe, parseRmOnly, Parse.map_map, hreg]
  | word x =>
    refine ⟨.grpFf, .rm Reg16.ofNum_num h (f := .decRm ∘ .word) rfl fun m tl hreg => ?_⟩
    simp [Entry.parse, withModRm, parseFf, parseRmOnly, Parse.map_map, hreg]

theorem jmpFarMem_readsBack {m : Ea} (h : m.wellFormed = true) : Entry.grpFf.ReadsBack (.jmpFarMem m) t := by
  obtain ⟨b, tl, henc, hreg, hmod, hparse⟩ := parseEa_encode h 5 t
  refine ⟨b :: (tl ++ t), by rw [encode, henc]; rfl, ?_⟩
  have hmod : ¬ modOf b = 3#2 := hmod
  simp [Entry.parse, withModRm, parseFf, hreg, hmod, hparse]

theorem jmpFar_readsBack (off seg : Word) : Entry.jmpFar.ReadsBack (.jmpFar off seg) t :=
  ⟨wordBytes off ++ (wordBytes seg ++ t), by simp [encode, Entry.opcode], by simp [Entry.parse, parseFar]⟩

theorem movRmImm_readsBack {o : RmImm} (h : o.ea.all Ea.wellFormed = true) :
    ∃ e : Entry, e.ReadsBack (.movRmImm o) t := by
  obtain ⟨w, m, tl, henc, hreg, hparse⟩ := parseRmImm_encode h 0 t
  exact ⟨.grpMov w, m :: tl, by rw [encode, henc]; rfl, by simp [Entry.parse, withModRm, hreg, hparse]⟩

theorem testRmImm_readsBack {o : RmImm} (h : o.ea.all Ea.wellFormed = true) :
    ∃ e : Entry, e.ReadsBack (.testRmImm o) t := by
  obtain ⟨w, m, tl, henc, hreg, hparse⟩ := parseRmImm_encode h 0 t
  exact ⟨.grpUnary w, m :: tl, by rw [encode, henc]; rfl, by simp [Entry.parse, withModRm, parseUnary, hreg, hparse]⟩

theorem testAccImm_readsBack (o : AccImm) : ∃ e : Entry, e.ReadsBack (.testAccImm o) t := by
  obtain ⟨w, tl, henc, hparse⟩ := parseAccImm_encode o t
  exact ⟨.testAccImm w, tl, by rw [encode, henc]; rfl, by simp [Entry.parse, hparse]⟩

/-- R104, R109: a form of one opcode byte of width bit 0, an r/m operand and a register. -/
theorem Entry.ReadsBack.rmReg {o : RmReg} (h : o.ea.all Ea.wellFormed = true) {e : Width → Entry} {f : RmReg → Instr}
    {op : BitVec 7} (hop : ∀ w, (e w).opcode = op ++ w.bit) (henc : encode (f o) = encodeRmReg op o)
    (hparse : ∀ w m tl, (e w).parse (e w).opcode (m :: tl) = (parseRmReg w m tl).map f) :
    (e (RmReg.width o)).ReadsBack (f o) t := by
  obtain ⟨m, tl, -, hbytes, hrm⟩ := parseRmReg_encode h t
  exact ⟨m :: tl, by rw [henc, hbytes, hop], by rw [hparse, hrm, Parse.map_ok]⟩

theorem movRegImm_readsBack (o : RegImm) : ∃ e : Entry, e.ReadsBack (.movRegImm o) t := by
  cases o with
  | byte r v => exact ⟨.movReg8 r, .byte (f := fun v => .movRegImm (.byte r v)) rfl rfl⟩
  | word r v => exact ⟨.movReg16 r, .word (f := fun v => .movRegImm (.word r v)) rfl rfl⟩

/-- R118: a member of the group F6, F7 with no immediate. -/
theorem grpUnary_readsBack {f : RmOnly → Instr} {sel : BitVec 3} {o : RmOnly} (h : o.ea.all Ea.wellFormed = true)
    (henc : encode (f o) = encodeRmOnly 0x7B sel o)
    (hf : ∀ op w m t, regOf m = sel → parseUnary op w m t = (parseRmOnly w m t).map f) :
    ∃ e : Entry, e.ReadsBack (f o) t := by
  obtain ⟨w, m, tl, hbytes, hreg, hparse⟩ := parseRmOnly_encode h sel t
  exact ⟨.grpUnary w, m :: tl, by rw [henc, hbytes]; rfl, by simp [Entry.parse, withModRm, hf _ _ _ _ hreg, hparse]⟩

end

/-- R101 to R121: every well-formed instruction without a prefix byte is read back by an entry. -/
theorem Instr.readsBack {seg : Bool} {i : Instr} (hbare : Instr.bare i = true)
    (hwf : i.wellFormedAfter seg false = true) (t : List Byte) : ∃ e : Entry, e.ReadsBack i t := by
  cases i with
  | prefixEs i | prefixCs i | prefixSs i | prefixDs i | prefixRep i | prefixRepne i => cases hbare
  | addRmReg d o => exact aluRmReg_readsBack .add d hwf
  | orRmReg d o => exact aluRmReg_readsBack .or d hwf
  | andRmReg d o => exact aluRmReg_readsBack .and d hwf
  | subRmReg d o => exact aluRmReg_readsBack .sub d hwf
  | xorRmReg d o => exact aluRmReg_readsBack .xor d hwf
  | cmpRmReg d o => exact aluRmReg_readsBack .cmp d hwf
  | addAccImm o => exact aluAccImm_readsBack .add o
  | orAccImm o => exact aluAccImm_readsBack .or o
  | andAccImm o => exact aluAccImm_readsBack .and o
  | subAccImm o => exact aluAccImm_readsBack .sub o
  | xorAccImm o => exact aluAccImm_readsBack .xor o
  | cmpAccImm o => exact aluAccImm_readsBack .cmp o
  | addRmImm o => exact aluRmImm_readsBack .add hwf
  | orRmImm o => exact aluRmImm_readsBack .or hwf
  | andRmImm o => exact aluRmImm_readsBack .and hwf
  | subRmImm o => exact aluRmImm_readsBack .sub hwf
  | xorRmImm o => exact aluRmImm_readsBack .xor hwf
  | cmpRmImm o => exact aluRmImm_readsBack .cmp hwf
  | incReg r => exact ⟨.incReg r, .alone rfl rfl⟩
  | decReg r => exact ⟨.decReg r, .alone rfl rfl⟩
  | pushReg r => exact ⟨.pushReg r, .alone rfl rfl⟩
  | popReg r => exact ⟨.popReg r, .alone rfl rfl⟩
  | pushSreg r => exact ⟨.pushSreg r, .alone rfl rfl⟩
  | popEs => exact ⟨.popSreg .es, .alone rfl rfl⟩
  | popSs => exact ⟨.popSreg .ss, .alone rfl rfl⟩
  | popDs => exact ⟨.popSreg .ds, .alone rfl rfl⟩
  | jo d => exact jcc_readsBack .o d
  | jno d => exact jcc_readsBack .no d
  | jb d => exact jcc_readsBack .b d
  | jnb d => exact jcc_readsBack .nb d
  | je d => exact jcc_readsBack .e d
  | jne d => exact jcc_readsBack .ne d
  | jbe d => exact jcc_readsBack .be d
  | jnbe d => exact jcc_readsBack .nbe d
  | js d => exact jcc_readsBack .s d
  | jns d => exact jcc_readsBack .ns d
  | jp d => exact jcc_readsBack .p d
  | jnp d => exact jcc_readsBack .np d
  | jl d => exact jcc_readsBack .l d
  | jnl d => exact jcc_readsBack .nl d
  | jle d => exact jcc_readsBack .le d
  | jnle d => exact jcc_readsBack .nle d
  | testRmReg o => exact ⟨_, .rmReg hwf (e := .testRmReg) (fun _ => rfl) rfl fun _ _ _ => rfl⟩
  | movRmReg o => exact ⟨_, .rmReg hwf (e := .movRmReg) (fun _ => rfl) rfl fun _ _ _ => rfl⟩
  | movRegRm o => exact ⟨_, .rmReg hwf (e := .movRegRm) (fun _ => rfl) rfl fun _ _ _ => rfl⟩
  | movRmSreg x r => exact ⟨_, movRmSreg_readsBack hwf r⟩
  | movSregRm r x => exact ⟨_, movSregRm_readsBack hwf r⟩
  | popRm x => exact ⟨_, popRm_readsBack hwf⟩
  | pushf => exact ⟨.pushf, .alone rfl rfl⟩
  | popf => exact ⟨.popf, .alone rfl rfl⟩
  | movAccMem x w a => exact ⟨.movAccMem x w, .word rfl rfl⟩
  | testAccImm o => exact testAccImm_readsBack o
  | stosb => exact ⟨.stos .byte, .alone rfl rfl⟩
  | stosw => exact ⟨.stos .word, .alone rfl rfl⟩
  | movRegImm o => exact movRegImm_readsBack o
  | movRmImm o => exact movRmImm_readsBack hwf
  | int3 => exact ⟨.int3, .alone rfl rfl⟩
  | intImm n => exact ⟨.intImm, .byte rfl rfl⟩
  | into => exact ⟨.into, .alone rfl rfl⟩
  | iret => exact ⟨.iret, .alone rfl rfl⟩
  | loopnz d => exact loop_readsBack .nz d
  | loopz d => exact loop_readsBack .z d
  | loop d => exact loop_readsBack .always d
  | jcxz d => exact loop_readsBack .cxz d
  | jmpNear d => exact ⟨.jmpNear, .word rfl rfl⟩
  | jmpFar off sg => exact ⟨.jmpFar, jmpFar_readsBack off sg⟩
  | jmpShort d => exact ⟨.jmpShort, .byte rfl rfl⟩
  | testRmImm o => exact testRmImm_readsBack hwf
  | notRm o => exact grpUnary_readsBack hwf rfl fun op w m t hreg => by simp [parseUnary, hreg]
  | mulRm o => exact grpUnary_readsBack hwf rfl fun op w m t hreg => by simp [parseUnary, hreg]
  | divRm o => exact grpUnary_readsBack hwf rfl fun op w m t hreg => by simp [parseUnary, hreg]
  | incRm o => exact incRm_readsBack hwf
  | decRm o => exact decRm_readsBack hwf
  | jmpFarMem m => exact ⟨_, jmpFarMem_readsBack hwf⟩
  | pushRm x => exact ⟨_, pushRm_readsBack hwf⟩

/-! ## The whole decoder (R122) -/

/-- R84: after a repeat prefix and no other prefix byte, only a STOS is well formed. -/
theorem Instr.stos_of_wellFormedAfter {seg : Bool} {i : Instr} (hbare : Instr.bare i = true)
    (hwf : i.wellFormedAfter seg true = true) : i = .stosb ∨ i = .stosw := by
  cases i with
  | prefixEs i | prefixCs i | prefixSs i | prefixDs i | prefixRep i | prefixRepne i => cases hbare
  | stosb => exact .inl rfl
  | stosw => exact .inr rfl
  | _ => cases hwf

/-- The decoder with tier X reads the instruction back after the prefixes `seg` and `rep`. -/
def ReadBack (seg rep : Bool) (i : Instr) : Prop := ∀ t, decodeAfter true seg rep (encode i ++ t) = .ok (i, t)

theorem ReadBack.of_bare {seg rep : Bool} {i : Instr} (hbare : Instr.bare i = true)
    (hwf : i.wellFormedAfter seg rep = true) : ReadBack seg rep i := by
  intro t
  cases rep with
  | false =>
    obtain ⟨e, he⟩ := Instr.readsBack hbare hwf t
    exact he.decodeAfter (rep := false) (fun _ => rfl) nofun seg
  | true =>
    rcases Instr.stos_of_wellFormedAfter hbare hwf with rfl | rfl
    · exact Entry.ReadsBack.decodeAfter (e := .stos .byte) (.alone rfl rfl) (fun _ => rfl) (fun _ => rfl) seg
    · exact Entry.ReadsBack.decodeAfter (e := .stos .word) (.alone rfl rfl) (fun _ => rfl) (fun _ => rfl) seg

theorem ReadBack.segBefore {seg rep : Bool} (r : SReg) {i : Instr}
    (ih : i.wellFormedAfter true rep = true → ReadBack true rep i)
    (hwf : (r.before i).wellFormedAfter seg rep = true) : ReadBack seg rep (r.before i) := by
  intro t
  rw [wellFormedAfter_segBefore, Bool.and_eq_true, Bool.not_eq_true'] at hwf
  obtain ⟨rfl, hi⟩ := hwf
  rw [encode_segBefore, List.cons_append, decodeAfter_segByte, ih hi]
  rfl

theorem ReadBack.repBefore {seg rep : Bool} (k : Rep) {i : Instr}
    (ih : i.wellFormedAfter seg true = true → ReadBack seg true i)
    (hwf : (k.before i).wellFormedAfter seg rep = true) : ReadBack seg rep (k.before i) := by
  intro t
  rw [wellFormedAfter_repBefore, Bool.and_eq_true, Bool.not_eq_true'] at hwf
  obtain ⟨rfl, hi⟩ := hwf
  rw [encode_repBefore, List.cons_append, decodeAfter_repByte, ih hi]
  rfl

/-- R83, R84, R122: what is well formed after the prefixes `seg` and `rep` is read back after them. -/
theorem readBack_of_wellFormedAfter {seg rep : Bool} {i : Instr} (hwf : i.wellFormedAfter seg rep = true) :
    ReadBack seg rep i := by
  induction i generalizing seg rep with
  | prefixEs i ih => exact .segBefore .es ih hwf
  | prefixCs i ih => exact .segBefore .cs ih hwf
  | prefixSs i ih => exact .segBefore .ss ih hwf
  | prefixDs i ih => exact .segBefore .ds ih hwf
  | prefixRep i ih => exact .repBefore .rep ih hwf
  | prefixRepne i ih => exact .repBefore .repne ih hwf
  | _ => exact .of_bare rfl hwf

/-- Settles O1: the prefixes are read back byte by byte, and what stands under them by the entry of its opcode. -/
theorem decodeOfEncode : Obligations.DecodeOfEncode :=
  fun _ rest hwf => readBack_of_wellFormedAfter hwf rest

end Sys2Proof
end

section
/-! PROOFS. O2, O3, O7, O8 (R80 to R84, R95, R96, R122): the bytes of a record, and the order of its prefixes. -/

namespace Sys2Proof.Machine

open Sys2Proof

/-- Settles O2, by what the whole decoder reads. -/
theorem encodeOfDecode : Obligations.EncodeOfDecode := fun _ _ _ _ h => decode_reads h

/-- R80: the first `n` bytes that may be read from `p` are those of memory. -/
theorem window_take {s : State} {p n : Nat} (h : n ≤ (window s p).length) :
    (window s p).take n = (List.range n).map fun k => s.mem.read (p + k) := by
  rw [window_length] at h
  rw [window, ← List.map_take, List.take_range]
  exact congrArg (fun m => (List.range m).map _) (Nat.min_eq_left h)

/-- Settles O3: the window a record was decoded from begins with the record's encoding. -/
theorem recordSizeIsConsumedBytes : Obligations.RecordSizeIsConsumedBytes := by
  intro s p d h
  obtain ⟨rest, hdec, hsize, hoff⟩ := decodeAt_cases h
  obtain ⟨-, hbytes⟩ := decode_reads hdec
  have hlen : (window s p).length = d.instr.size + rest.length := by
    rw [hbytes, List.length_append, encode_length]
  have hd : d.size = d.instr.size := by omega
  have hpos := d.instr.size_pos
  have hmin := window_length s p
  refine ⟨hoff, by omega, by omega, by omega, ?_⟩
  rw [← window_take (by omega), hbytes, hd, ← encode_length, List.take_left]

/-- R121: STOS decodes after any prefixes. -/
theorem decodeAfter_stos (admitX seg rep : Bool) (w : Width) (t : List Byte) :
    decodeAfter admitX seg rep ((if w = .byte then 0xAA else 0xAB) :: t) =
      .ok (if w = .byte then .stosb else .stosw, t) := by
  cases w with
  | byte => exact Entry.ReadsBack.decodeAfter (e := .stos .byte) (.alone rfl rfl) nofun (fun _ => rfl) seg
  | word => exact Entry.ReadsBack.decodeAfter (e := .stos .word) (.alone rfl rfl) nofun (fun _ => rfl) seg

/-- Settles O7, by the prefix stage at each byte. -/
theorem prefixCollection : Obligations.PrefixCollection := by
  intro admitX r r' k k' w rest stos op
  have hop : ∀ seg rep, decodeAfter admitX seg rep (op :: rest) = .ok (stos, rest) := fun seg rep =>
    decodeAfter_stos admitX seg rep w rest
  simp [decode, decodeAfter_segByte, decodeAfter_repByte, hop]

/-- R81, R122: an instruction's encoding alone. -/
theorem decode_encoding {i : Instr} {bytes : List Byte} (hwf : i.wellFormed = true) (h : encode i = bytes) :
    decode true bytes = .ok (i, []) := by
  rw [← h, ← List.append_nil (encode i), decodeOfEncode i [] hwf]

/-- Settles O8: the words are encodings. -/
theorem decodesWrittenOutWords : Obligations.DecodesWrittenOutWords :=
  ⟨decode_encoding rfl rfl, decode_encoding rfl rfl, decode_encoding rfl rfl, decode_encoding rfl rfl,
    decode_encoding rfl rfl, decode_encoding rfl rfl, decode_encoding rfl rfl, decode_encoding rfl rfl,
    decode_encoding rfl rfl, decode_encoding rfl rfl⟩

end Sys2Proof.Machine
end

section
/-! PROOFS. O5, O6 (R87, R97, R103, R105, R118 to R120, R353): what the opcode byte and the ModRM byte refuse. -/

namespace Sys2Proof.Machine

open Sys2Proof

/-! ## Prefix runs change nothing but the instruction read -/

theorem decodeAfter_segRun (admitX rep : Bool) (g : Option SReg) (l : List Byte) :
    ∃ f, decodeAfter admitX false rep (g.toList.map segByte ++ l) =
      (decodeAfter admitX g.isSome rep l).map f := by
  cases g with
  | none => exact ⟨id, (Parse.map_id _).symm⟩
  | some r => exact ⟨r.before, decodeAfter_segByte admitX false rep r l⟩

theorem decodeAfter_repRun (admitX seg : Bool) (k : Option Rep) (l : List Byte) :
    ∃ f, decodeAfter admitX seg false (k.toList.map repByte ++ l) =
      (decodeAfter admitX seg k.isSome l).map f := by
  cases k with
  | none => exact ⟨id, (Parse.map_id _).symm⟩
  | some r => exact ⟨r.before, decodeAfter_repByte admitX seg false r l⟩

/-- R83: at most one prefix of each class, in either order. -/
theorem decode_prefixRun (admitX : Bool) (g : Option SReg) (k : Option Rep) (segFirst : Bool) (l : List Byte) :
    ∃ f, decode admitX (prefixRun g k segFirst ++ l) = (decodeAfter admitX g.isSome k.isSome l).map f := by
  cases segFirst with
  | true =>
    obtain ⟨f, hf⟩ := decodeAfter_segRun admitX false g (k.toList.map repByte ++ l)
    obtain ⟨f', hf'⟩ := decodeAfter_repRun admitX g.isSome k l
    rw [prefixRun, if_pos rfl, List.append_assoc, decode, hf, hf', Parse.map_map]
    exact ⟨_, rfl⟩
  | false =>
    obtain ⟨f, hf⟩ := decodeAfter_repRun admitX false k (g.toList.map segByte ++ l)
    obtain ⟨f', hf'⟩ := decodeAfter_segRun admitX k.isSome g l
    rw [prefixRun, if_neg Bool.false_ne_true, List.append_assoc, decode, hf, hf', Parse.map_map]
    exact ⟨_, rfl⟩

/-! ## The opcode byte -/

/-- R120: of the bytes that are no prefix, those without an entry are the mismatch rows. -/
theorem Entry.of_eq_none_iff {b : Byte} (h : b.toNat ∉ prefixBytes) : Entry.of b = none ↔ b.toNat ∈ mismatchBytes := by
  revert b; decide

/-- R120: the rows marked (X), the two of STOS, and the anomaly rows. -/
theorem Entry.of_rows (b : Byte) : ∀ e ∈ Entry.of b,
    (e.tierX = true ↔ b.toNat ∈ tierXBytes) ∧ (e.isStos = true ↔ b.toNat = 0xAA ∨ b.toNat = 0xAB) ∧
      (e = .adcSbb ↔ b.toNat ∈ adcSbbBytes) := by
  revert b; decide

/-- R97: what the opcode stage does at a mismatch. -/
theorem decodeOpcode_mismatch {admitX : Bool} {b : Byte} (hb : b.toNat ∉ prefixBytes)
    (h : b.toNat ∈ mismatchBytes ∨ (admitX = false ∧ b.toNat ∈ tierXBytes)) (rep : Bool) (t : List Byte) :
    decodeOpcode admitX rep b t = .error (.noMatch b) := by
  cases he : Entry.of b with
  | none => simp only [decodeOpcode, he]
  | some e =>
    obtain ⟨hX, -, -⟩ := Entry.of_rows b e he
    rcases h with hmis | ⟨rfl, htier⟩
    · rw [(Entry.of_eq_none_iff hb).2 hmis] at he
      cases he
    · exact decodeOpcode_tierX_refused he (hX.2 htier)

/-- R120: a byte that is no mismatch has an admitted entry. -/
theorem Entry.of_admitted {admitX : Bool} {b : Byte} (hb : b.toNat ∉ prefixBytes)
    (h : ¬ (b.toNat ∈ mismatchBytes ∨ (admitX = false ∧ b.toNat ∈ tierXBytes))) :
    ∃ e, Entry.of b = some e ∧ (e.tierX = true → admitX = true) := by
  rw [not_or, ← Entry.of_eq_none_iff hb] at h
  obtain ⟨hsome, htier⟩ := h
  obtain ⟨e, he⟩ := Option.ne_none_iff_exists'.1 hsome
  obtain ⟨hX, -, -⟩ := Entry.of_rows b e he
  refine ⟨e, he, fun ht => ?_⟩
  by_contra hadm
  exact htier ⟨Bool.eq_false_of_not_eq_true hadm, hX.1 ht⟩

/-- R84: a repeat prefix before an admitted entry other than STOS. -/
theorem decodeOpcode_misuse {admitX : Bool} {b : Byte} {e : Entry} (he : Entry.of b = some e)
    (hX : e.tierX = true → admitX = true) (hstos : e.isStos = false) (t : List Byte) :
    decodeOpcode admitX true b t = .error (.prefixMisuse b) := by
  simp only [decodeOpcode, he, hstos]
  rw [if_neg (by simpa using hX)]
  rfl

/-! ## Past the opcode byte -/

/-- A parser that lacks bytes, or reads an instruction. -/
def LacksBytesOnly {α : Type} (p : Parse α) : Prop := ∀ f, p = .error f → f = .truncated

theorem LacksBytesOnly.ok {α : Type} {a : α} {t : List Byte} : LacksBytesOnly (.ok (a, t) : Parse α) := nofun

theorem LacksBytesOnly.map {α β : Type} {f : α → β} {p : Parse α} (h : LacksBytesOnly p) :
    LacksBytesOnly (Parse.map f p) := fun e he => h e (Parse.map_error_iff.1 he)

theorem LacksBytesOnly.cases {α : Type} {p : Parse α} (h : LacksBytesOnly p) :
    p = .error .truncated ∨ ∃ a t, p = .ok (a, t) := by
  cases p with
  | error f => exact .inl (congrArg _ (h f rfl))
  | ok r => exact .inr ⟨r.1, r.2, rfl⟩

theorem takeByte_lacks (t : List Byte) : LacksBytesOnly (takeByte t) := fun _ => takeByte_error

theorem takeWord_lacks (t : List Byte) : LacksBytesOnly (takeWord t) := fun _ => takeWord_error

theorem parseFar_lacks (t : List Byte) : LacksBytesOnly (parseFar t) := by
  simp only [parseFar]
  split
  · exact (takeWord_lacks _).map
  · rename_i h
    rintro _ ⟨⟩
    exact takeWord_error h

/-! ## The ModRM byte -/

theorem regOf_toNat (m : Byte) : (regOf m).toNat = m.toNat / 8 % 8 := by
  simp only [regOf, BitVec.extractLsb'_toNat, Nat.shiftRight_eq_div_pow]

theorem modOf_eq_iff (m : Byte) (n : BitVec 2) : modOf m = n ↔ m.toNat / 64 = n.toNat := by
  have hm := m.isLt
  rw [← BitVec.toNat_inj, modOf, BitVec.extractLsb'_toNat, Nat.shiftRight_eq_div_pow, Nat.mod_eq_of_lt (by omega)]

/-- Where the ModRM byte's selector is `admitted` the parser can only lack bytes, and elsewhere it fails with `f`. -/
def Selects (admitted : Prop) (f : DecodeFail) (p : Parse Instr) : Prop :=
  (admitted → LacksBytesOnly p) ∧ (¬ admitted → p = .error f)

theorem Selects.of_lacks {admitted : Prop} {f : DecodeFail} {p : Parse Instr} (ha : admitted) (h : LacksBytesOnly p) :
    Selects admitted f p := ⟨fun _ => h, fun hn => absurd ha hn⟩

theorem Selects.of_refused {admitted : Prop} {f : DecodeFail} (ha : ¬ admitted) : Selects admitted f (.error f) :=
  ⟨fun h => absurd h ha, fun _ => rfl⟩

theorem parseUnary_selects (op : Byte) (w : Width) (m : Byte) (t : List Byte) :
    Selects (m.toNat / 8 % 8 % 2 = 0) (.badSubSelector op m) (parseUnary op w m t) := by
  simp only [parseUnary, ← regOf_toNat]
  have hlt := (regOf m).isLt
  split
  · rename_i h
    exact .of_lacks (by rw [h]) (LacksBytesOnly.map fun _ => parseRmImm_error)
  · rename_i h
    exact .of_lacks (by rw [h]) (LacksBytesOnly.map fun _ => parseRmOnly_error)
  · rename_i h
    exact .of_lacks (by rw [h]) (LacksBytesOnly.map fun _ => parseRmOnly_error)
  · rename_i h
    exact .of_lacks (by rw [h]) (LacksBytesOnly.map fun _ => parseRmOnly_error)
  · simp only [imp_false] at *
    exact .of_refused (by omega)

theorem parseFe_selects (op m : Byte) (t : List Byte) :
    Selects (m.toNat / 8 % 8 < 2) (.badSubSelector op m) (parseFe op m t) := by
  simp only [parseFe, ← regOf_toNat]
  split
  · rename_i h
    exact .of_lacks (by omega) (LacksBytesOnly.map fun _ => parseRmOnly_error)
  · rename_i h
    exact .of_lacks (by omega) (LacksBytesOnly.map fun _ => parseRmOnly_error)
  · simp only [imp_false] at *
    exact .of_refused (by omega)

theorem parseFf_selects (op m : Byte) (t : List Byte) :
    Selects (m.toNat / 8 % 8 < 2 ∨ (m.toNat / 8 % 8 = 5 ∧ m.toNat / 64 ≠ 3) ∨ m.toNat / 8 % 8 = 6)
      (.badSubSelector op m) (parseFf op m t) := by
  have hmod : modOf m = 3 ↔ m.toNat / 64 = 3 := modOf_eq_iff m 3
  simp only [parseFf, ← regOf_toNat, hmod]
  split
  · rename_i h
    exact .of_lacks (by omega) (LacksBytesOnly.map fun _ => parseRmOnly_error)
  · rename_i h
    exact .of_lacks (by omega) (LacksBytesOnly.map fun _ => parseRmOnly_error)
  · split
    · exact .of_refused (by omega)
    · exact .of_lacks (by omega) (LacksBytesOnly.map fun _ => parseEa_error)
  · rename_i h
    exact .of_lacks (by omega) (LacksBytesOnly.map fun _ => parseRm_error)
  · simp only [imp_false] at *
    exact .of_refused (by omega)

/-- R87: bit 2 of a segment-register field. -/
theorem sreg_field_bit : ∀ n : BitVec 3, n.getLsbD 2 = true ↔ 4 ≤ n.toNat := by decide

/-- R87: of the segment-register fields below 4 only 1 names CS. -/
theorem sreg_field_dst : ∀ n : BitVec 3, n.toNat < 4 → ((SReg.ofNum (n.extractLsb' 0 2)).dst = none ↔ n.toNat = 1) := by
  decide

theorem parseMovRmSreg_selects (op m : Byte) (t : List Byte) :
    Selects (m.toNat / 8 % 8 < 4) (.badSegReg op m) (parseMovRmSreg op m t) := by
  simp only [parseMovRmSreg, sreg_field_bit, ← regOf_toNat]
  split
  · exact .of_refused (by omega)
  · exact .of_lacks (by omega) (LacksBytesOnly.map fun _ => parseRm_error)

theorem parseMovSregRm_selects (op m : Byte) (t : List Byte) :
    Selects (m.toNat / 8 % 8 < 4 ∧ m.toNat / 8 % 8 ≠ 1) (.badSegReg op m) (parseMovSregRm op m t) := by
  simp only [parseMovSregRm, sreg_field_bit, ← regOf_toNat]
  split
  · exact .of_refused (by omega)
  · rename_i hlt
    have hdst := sreg_field_dst (regOf m) (Nat.lt_of_not_le hlt)
    split
    · rename_i r hr
      rw [hr] at hdst
      exact .of_lacks ⟨Nat.lt_of_not_le hlt, fun h => nomatch hdst.2 h⟩ (LacksBytesOnly.map fun _ => parseRm_error)
    · rename_i hr
      exact .of_refused fun h => h.2 (hdst.1 hr)

/-- R100: the two selectors that are not admitted. -/
theorem AluOp.ofSel_eq_none_iff : ∀ n : BitVec 3, AluOp.ofSel n = none ↔ n.toNat = 2 ∨ n.toNat = 3 := by decide

theorem parseGrpAlu_selects (op : Byte) (s : Bool) (w : Width) (m : Byte) (t : List Byte) :
    Selects (¬ (m.toNat / 8 % 8 = 2 ∨ m.toNat / 8 % 8 = 3)) (.badArithSelector op (some m))
      (parseGrpAlu op s w m t) := by
  have hsel := AluOp.ofSel_eq_none_iff (regOf m)
  rw [← regOf_toNat]
  simp only [parseGrpAlu]
  split
  · rename_i a ha
    rw [ha] at hsel
    exact .of_lacks (fun h => nomatch hsel.2 h) (LacksBytesOnly.map fun _ => parseGrpImm_error)
  · rename_i ha
    exact .of_refused (not_not.2 (hsel.1 ha))

/-- R105, R119: a group whose only selector is 0. -/
theorem selectsZero {m : Byte} {f : DecodeFail} {p : Parse Instr} (h : LacksBytesOnly p) :
    Selects (m.toNat / 8 % 8 = 0) f (if regOf m = 0 then p else .error f) := by
  have hreg : regOf m = 0 ↔ m.toNat / 8 % 8 = 0 := by rw [← BitVec.toNat_inj, regOf_toNat]; rfl
  split
  · exact .of_lacks (hreg.1 ‹_›) h
  · exact .of_refused (mt hreg.2 ‹_›)

/-! ## Entries -/

/-- The failure of an entry's bytes after the opcode `op`: none of them is known before the ModRM byte. -/
def DecodeFail.AfterOpcode (op : Byte) (f : DecodeFail) : Prop :=
  f = .truncated ∨ ∃ m, f = .badArithSelector op (some m) ∨ f = .badSubSelector op m ∨ f = .badSegReg op m

/-- The parser's failures are all of that kind. -/
def FailsAfterOpcode (op : Byte) (p : Parse Instr) : Prop := ∀ f, p = .error f → DecodeFail.AfterOpcode op f

theorem LacksBytesOnly.failsAfterOpcode {op : Byte} {p : Parse Instr} (h : LacksBytesOnly p) : FailsAfterOpcode op p :=
  fun f hf => .inl (h f hf)

theorem FailsAfterOpcode.withModRm {op : Byte} {t : List Byte} {k : Byte → List Byte → Parse Instr}
    (h : ∀ m t, FailsAfterOpcode op (k m t)) : FailsAfterOpcode op (withModRm t k) := by
  cases t with
  | nil =>
    rintro _ ⟨⟩
    exact .inl rfl
  | cons m t => exact h m t

theorem Selects.failsAfterOpcode {op : Byte} {admitted : Prop} {f : DecodeFail} {p : Parse Instr}
    (h : Selects admitted f p) (hf : DecodeFail.AfterOpcode op f) : FailsAfterOpcode op p := by
  intro f' hf'
  by_cases ha : admitted
  · exact .inl (h.1 ha f' hf')
  · rw [h.2 ha] at hf'
    cases hf'
    exact hf

/-- R101 to R121: an entry other than ADC's and SBB's fails only for want of bytes or at its ModRM byte. -/
theorem Entry.parse_failsAfterOpcode {e : Entry} (he : e ≠ .adcSbb) (op : Byte) (t : List Byte) :
    FailsAfterOpcode op (e.parse op t) := by
  have hsub : ∀ m, DecodeFail.AfterOpcode op (.badSubSelector op m) := fun m => .inr ⟨m, .inr (.inl rfl)⟩
  have hseg : ∀ m, DecodeFail.AfterOpcode op (.badSegReg op m) := fun m => .inr ⟨m, .inr (.inr rfl)⟩
  cases e with
  | adcSbb => exact absurd rfl he
  | pushSreg r | popSreg r | incReg r | decReg r | pushReg r | popReg r => exact LacksBytesOnly.ok.failsAfterOpcode
  | pushf | popf | int3 | into | iret => exact LacksBytesOnly.ok.failsAfterOpcode
  | stos w => cases w <;> exact LacksBytesOnly.ok.failsAfterOpcode
  | jcc c | movReg8 r | intImm | loop k | jmpShort => exact (takeByte_lacks t).map.failsAfterOpcode
  | movAccMem x w | movReg16 r | jmpNear => exact (takeWord_lacks t).map.failsAfterOpcode
  | aluAccImm a w | testAccImm w =>
    exact LacksBytesOnly.failsAfterOpcode (.map fun _ => parseAccImm_error)
  | aluRmReg a d w | testRmReg w | movRmReg w | movRegRm w =>
    exact .withModRm fun m t => LacksBytesOnly.failsAfterOpcode (.map fun _ => parseRmReg_error)
  | grpAlu s w => exact .withModRm fun m t => (parseGrpAlu_selects op s w m t).failsAfterOpcode (.inr ⟨m, .inl rfl⟩)
  | movRmSreg => exact .withModRm fun m t => (parseMovRmSreg_selects op m t).failsAfterOpcode (hseg m)
  | movSregRm => exact .withModRm fun m t => (parseMovSregRm_selects op m t).failsAfterOpcode (hseg m)
  | grpPop => exact .withModRm fun m t => (selectsZero (.map fun _ => parseRm_error)).failsAfterOpcode (hsub m)
  | grpMov w => exact .withModRm fun m t => (selectsZero (.map fun _ => parseRmImm_error)).failsAfterOpcode (hsub m)
  | grpUnary w => exact .withModRm fun m t => (parseUnary_selects op w m t).failsAfterOpcode (hsub m)
  | grpFe => exact .withModRm fun m t => (parseFe_selects op m t).failsAfterOpcode (hsub m)
  | grpFf => exact .withModRm fun m t => (parseFf_selects op m t).failsAfterOpcode (hsub m)
  | jmpFar => exact (parseFar_lacks t).failsAfterOpcode

/-- Settles O5: an admissible run of prefixes leads to the opcode stage, whose checks stand in R353's order. -/
theorem opcodeStageOutcomes : Obligations.OpcodeStageOutcomes := by
  intro admitX g k segFirst b rest hb got mismatch misuse
  obtain ⟨f, hgot⟩ := decode_prefixRun admitX g k segFirst (b :: rest)
  rw [decodeAfter_opcode hb] at hgot
  refine ⟨fun hmis => ?_, fun hmis hmisuse => ?_, fun hmis hmisuse hadc => ?_, fun hmis hmisuse hadc c => ?_⟩
  · exact hgot.trans (by rw [decodeOpcode_mismatch hb hmis, Parse.map_error])
  all_goals
    obtain ⟨e, he, hX⟩ := Entry.of_admitted hb hmis
    obtain ⟨-, hstos, hadcSbb⟩ := Entry.of_rows b e he
  · obtain ⟨hk, hAA, hAB⟩ := hmisuse
    have hno : e.isStos = false := Bool.eq_false_of_not_eq_true fun h => (hstos.1 h).elim hAA hAB
    rw [Option.isSome_iff_ne_none.2 hk, decodeOpcode_misuse he hX hno] at hgot
    exact hgot
  all_goals
    have hrep : k.isSome = true → e.isStos = true := fun hk => by
      by_contra hno
      rw [hstos, not_or] at hno
      exact hmisuse ⟨Option.isSome_iff_ne_none.1 hk, hno⟩
    rw [decodeOpcode_admitted he hX hrep] at hgot
  · obtain rfl := hadcSbb.2 hadc
    exact hgot
  · have hfails := Entry.parse_failsAfterOpcode (fun h => hadc (hadcSbb.1 h)) b rest
    have hno : ∀ x, ¬ DecodeFail.AfterOpcode b x → got ≠ .error x := fun x hx h =>
      hx (hfails x (Parse.map_error_iff.1 (hgot.symm.trans h)))
    exact ⟨hno _ (by simp [DecodeFail.AfterOpcode]), hno _ (by simp [DecodeFail.AfterOpcode]),
      hno _ (by simp [DecodeFail.AfterOpcode])⟩

/-! ## The groups at their ModRM byte (R87, R93, R103, R105, R118, R119) -/

/-- What the ModRM byte `m` after the opcode byte `op` decides, where the rest is `p`. -/
def ModRmDecides (op m : Byte) (p : Parse Instr) : Prop :=
  let badArith := op.toNat < 0x84 ∧ (m.toNat / 8 % 8 = 2 ∨ m.toNat / 8 % 8 = 3)
  (badArith → p = .error (.badArithSelector op (some m))) ∧
    (badSubSelector op.toNat m.toNat → p = .error (.badSubSelector op m)) ∧
    (badSegReg op.toNat m.toNat → p = .error (.badSegReg op m)) ∧
    (¬ badArith → ¬ badSubSelector op.toNat m.toNat → ¬ badSegReg op.toNat m.toNat → LacksBytesOnly p)

section
variable {op m : Byte} {p : Parse Instr} {admitted : Prop}

/-- R103, log 5: an opcode of the immediate group. -/
theorem ModRmDecides.of_arith (hop : op.toNat < 0x84)
    (h : Selects (¬ (m.toNat / 8 % 8 = 2 ∨ m.toNat / 8 % 8 = 3)) (.badArithSelector op (some m)) p) :
    ModRmDecides op m p := by
  have hsub : ¬ badSubSelector op.toNat m.toNat := by
    simp only [badSubSelector, List.mem_cons, List.not_mem_nil, or_false]; omega
  have hseg : ¬ badSegReg op.toNat m.toNat := by
    simp only [badSegReg, List.mem_cons, List.not_mem_nil, or_false]; omega
  exact ⟨fun ha => h.2 (not_not.2 ha.2), fun hs => absurd hs hsub, fun hg => absurd hg hseg,
    fun ha _ _ => h.1 fun hbad => ha ⟨hop, hbad⟩⟩

/-- R93, R105, R118, R119: an opcode of a group of sub-selectors. -/
theorem ModRmDecides.of_sub (hop : 0x84 ≤ op.toNat) (hsub : badSubSelector op.toNat m.toNat ↔ ¬ admitted)
    (hseg : op.toNat ∉ [0x8C, 0x8E]) (h : Selects admitted (.badSubSelector op m) p) : ModRmDecides op m p := by
  have hseg : ¬ badSegReg op.toNat m.toNat := by
    simp only [badSegReg, List.mem_cons, List.not_mem_nil, or_false] at hseg ⊢; omega
  exact ⟨fun ha => absurd ha.1 (Nat.not_lt.2 hop), fun hs => h.2 (hsub.1 hs), fun hg => absurd hg hseg,
    fun _ hs _ => h.1 (by rwa [hsub, not_not] at hs)⟩

/-- R87: 8C and 8E. -/
theorem ModRmDecides.of_seg (hop : op.toNat ∈ [0x8C, 0x8E]) (hseg : badSegReg op.toNat m.toNat ↔ ¬ admitted)
    (h : Selects admitted (.badSegReg op m) p) : ModRmDecides op m p := by
  simp only [List.mem_cons, List.not_mem_nil, or_false] at hop
  have hsub : ¬ badSubSelector op.toNat m.toNat := by
    simp only [badSubSelector, List.mem_cons, List.not_mem_nil, or_false]; omega
  exact ⟨fun ha => by omega, fun hs => absurd hs hsub, fun hg => h.2 (hseg.1 hg),
    fun _ _ hg => h.1 (by rwa [hseg, not_not] at hg)⟩

end

/-- R120, R122: each of these opcodes selects an entry, and its ModRM byte decides as R87 to R119 say. -/
theorem groupOpcode_decides {op : Byte}
    (h : op.toNat ∈ List.range' 0x80 4 ++ [0x8C, 0x8E, 0x8F, 0xC6, 0xC7, 0xF6, 0xF7, 0xFE, 0xFF]) (m : Byte)
    (t : List Byte) : ∃ e, Entry.of op = some e ∧ ModRmDecides op m (e.parse op (m :: t)) := by
  have hm : m.toNat / 64 < 4 := by have := m.isLt; omega
  have hcases : ∀ op : Byte,
      op.toNat ∈ List.range' 0x80 4 ++ [0x8C, 0x8E, 0x8F, 0xC6, 0xC7, 0xF6, 0xF7, 0xFE, 0xFF] →
      op ∈ [0x80, 0x81, 0x82, 0x83, 0x8C, 0x8E, 0x8F, 0xC6, 0xC7, 0xF6, 0xF7, 0xFE, 0xFF] := by decide
  have hop := hcases op h
  simp only [List.mem_cons, List.not_mem_nil, or_false] at hop
  rcases hop with rfl | rfl | rfl | rfl | rfl | rfl | rfl | rfl | rfl | rfl | rfl | rfl | rfl
  · exact ⟨_, rfl, .of_arith (by decide) (parseGrpAlu_selects _ _ _ m t)⟩
  · exact ⟨_, rfl, .of_arith (by decide) (parseGrpAlu_selects _ _ _ m t)⟩
  · exact ⟨_, rfl, .of_arith (by decide) (parseGrpAlu_selects _ _ _ m t)⟩
  · exact ⟨_, rfl, .of_arith (by decide) (parseGrpAlu_selects _ _ _ m t)⟩
  · exact ⟨_, rfl, .of_seg (by decide) (by simp [badSegReg]) (parseMovRmSreg_selects _ m t)⟩
  · exact ⟨_, rfl, .of_seg (by decide) (by simp [badSegReg]; omega) (parseMovSregRm_selects _ m t)⟩
  · exact ⟨_, rfl, .of_sub (by decide) (by simp [badSubSelector]) (by decide)
      (selectsZero (.map fun _ => parseRm_error))⟩
  · exact ⟨_, rfl, .of_sub (by decide) (by simp [badSubSelector]) (by decide)
      (selectsZero (.map fun _ => parseRmImm_error))⟩
  · exact ⟨_, rfl, .of_sub (by decide) (by simp [badSubSelector]) (by decide)
      (selectsZero (.map fun _ => parseRmImm_error))⟩
  · exact ⟨_, rfl, .of_sub (by decide) (by simp [badSubSelector]) (by decide) (parseUnary_selects _ _ m t)⟩
  · exact ⟨_, rfl, .of_sub (by decide) (by simp [badSubSelector]) (by decide) (parseUnary_selects _ _ m t)⟩
  · exact ⟨_, rfl, .of_sub (by decide) (by simp [badSubSelector]; omega) (by decide) (parseFe_selects _ m t)⟩
  · exact ⟨_, rfl, .of_sub (by decide) (by simp [badSubSelector]; omega) (by decide) (parseFf_selects _ m t)⟩

theorem ModRmDecides.map {op m : Byte} {p : Parse Instr} (h : ModRmDecides op m p) (f : Instr → Instr) :
    ModRmDecides op m (Parse.map f p) := by
  obtain ⟨harith, hsub, hseg, hlacks⟩ := h
  exact ⟨fun h => Parse.map_error_iff.2 (harith h), fun h => Parse.map_error_iff.2 (hsub h),
    fun h => Parse.map_error_iff.2 (hseg h), fun h1 h2 h3 => (hlacks h1 h2 h3).map⟩

/-- Settles O6: the opcode stage hands the ModRM byte to the entry's parser. -/
theorem modRmStageAnomalies : Obligations.ModRmStageAnomalies := by
  intro g op m rest hop got badArith
  obtain ⟨e, he, hdec⟩ := groupOpcode_decides hop m rest
  obtain ⟨f, hgot⟩ := decode_prefixRun true g none true (op :: m :: rest)
  rw [decodeAfter_opcode (Entry.of_not_prefix op e he),
    decodeOpcode_admitted (rep := (none : Option Rep).isSome) he (fun _ => rfl) nofun] at hgot
  obtain ⟨harith, hsub, hseg, hlacks⟩ := hgot ▸ hdec.map f
  exact ⟨harith, hsub, hseg, fun h1 h2 h3 => (hlacks h1 h2 h3).cases⟩

end Sys2Proof.Machine
end

section
/-! PROOFS. O9, O44, O57 (R84, R92, R260, R285, R334): relative branches, far jumps and STOS under REPNE. -/

namespace Sys2Proof.Machine

open Sys2Proof

/-! ## An instruction with or without an override -/

/-- R82: an entry's instruction is read back under any override. -/
theorem decode_under {e : Entry} {i : Instr} {t : List Byte} {admitX : Bool} (h : e.ReadsBack i t)
    (hX : e.tierX = true → admitX = true) (g : Option SReg) :
    decode admitX (encode (under g i) ++ t) = .ok (under g i, t) := by
  cases g with
  | none => exact h.decodeAfter (rep := false) hX nofun false
  | some r =>
    rw [under, encode_segBefore, List.cons_append, decode, decodeAfter_segByte,
      h.decodeAfter (rep := false) hX nofun true]
    rfl

theorem size_under (g : Option SReg) (i : Instr) : (under g i).size = i.size + (if g = none then 0 else 1) := by
  cases g with
  | none => rfl
  | some r => rw [under, size_before, Nat.add_comm]; rfl

@[simp] theorem recordFar_under (g : Option SReg) (i : Instr) : Instr.recordFar (under g i) = Instr.recordFar i := by
  cases g with
  | none => rfl
  | some r => cases r <;> rfl

@[simp] theorem slotsUnder_under (seg g : Option SReg) (i : Instr) : slotsUnder seg (under g i) = slotsUnder seg i := by
  cases g with
  | none => rfl
  | some r => cases r <;> rfl

/-! ## Relative branches -/

/-- R92: the operand slot of a relative branch, whatever override is in force. -/
theorem BranchForm.slot (seg : Option SReg) (f : BranchForm) :
    slotsUnder seg f.instr = (.rel (f.disp + f.len), .none) := by
  cases f with
  | cond c d => cases c <;> rfl
  | loop k d => cases k <;> rfl
  | short d | near d => rfl

theorem BranchForm.size_instr (f : BranchForm) : f.instr.size = f.len := by
  cases f with
  | cond c d => cases c <;> rfl
  | loop k d => cases k <;> rfl
  | short d | near d => rfl

/-- Settles O9: the length the slot adds is the length the size counts. -/
theorem relativeOperandGivesTarget : Obligations.RelativeOperandGivesTarget := by
  intro g f s d
  refine ⟨?_, ?_, ?_⟩
  · exact (slotsUnder_under _ g _).trans (f.slot _)
  · rw [← f.size_instr]
    exact size_under g f.instr
  · exact congrArg (BitVec.ofInt 16) (by ring)

/-! ## Far jumps -/

/-- R93: FF /5 with mod 11. -/
theorem decode_farRegister {b : Byte} (hmod : b.toNat / 64 = 3) (hreg : b.toNat / 8 % 8 = 5) (admitX : Bool)
    (t : List Byte) : decode admitX (0xFF :: b :: t) = .error (.badSubSelector 0xFF b) := by
  have he : Entry.of 0xFF = some .grpFf := rfl
  rw [decode, decodeAfter_opcode (Entry.of_not_prefix _ _ he), decodeOpcode_admitted (rep := false) he nofun nofun]
  exact (parseFf_selects 0xFF b t).2 (by omega)

/-- Settles O44: both far jumps are read back by entries of tier S, and execute to the one fault. -/
theorem farJumpsStop : Obligations.FarJumpsStop := fun off seg _ g s admitX _ rest =>
  ⟨decode_under (jmpFar_readsBack off seg) nofun g, fun hm => decode_under (jmpFarMem_readsBack hm) nofun g,
    recordFar_under g _, recordFar_under g _, fun hmod hreg => decode_farRegister hmod hreg admitX rest,
    exec_under rfl g s, exec_under rfl g s⟩

/-! ## STOS under REPNE -/

/-- R334: in every state. -/
theorem exec_repneStos (g : Option SReg) (inner : Bool) (w : Width) (s : State) :
    exec (repeated .repne g inner (stosInstr w)) s = .fault (.repNE s.p0) := exec_repeated .repne g inner w s

/-- Settles O57: F2 is accepted before STOS alone. -/
theorem repneStosIsFatal : Obligations.RepneStosIsFatal := by
  intro g inner s k b rest
  refine ⟨?_, ?_, fun hb hmis hstos => ?_, exec_repneStos g inner .byte s, exec_repneStos g inner .word s⟩
  · exact congrArg (Parse.map _) (decodeAfter_stos true false true .byte rest)
  · exact congrArg (Parse.map _) (decodeAfter_stos true false true .word rest)
  · simp only [List.mem_cons, List.not_mem_nil, or_false, not_or] at hstos
    obtain ⟨-, hmisuse, -⟩ := opcodeStageOutcomes true none (some k) false b rest hb
    exact hmisuse (by simpa using hmis) ⟨nofun, hstos⟩

end Sys2Proof.Machine
end

section
/-! PROOFS. O18 (R80, R95, R99, R142, R350): a decode that gives no record. -/

namespace Sys2Proof.Machine

open Sys2Proof

/-! ## How many bytes a decode can need (R95) -/

/-- The parser lacks bytes only where it is given fewer than `n`. -/
def LacksBelow {α : Type} (n : Nat) (t : List Byte) (p : Parse α) : Prop := p = .error .truncated → t.length < n

section
variable {α β : Type} {n : Nat} {t : List Byte}

theorem LacksBelow.ok {a : α} {t' : List Byte} : LacksBelow n t (.ok (a, t') : Parse α) := nofun

theorem LacksBelow.error {f : DecodeFail} (h : f ≠ .truncated) : LacksBelow n t (.error f : Parse α) :=
  fun he => absurd (Except.error.inj he) h

theorem LacksBelow.map {f : α → β} {p : Parse α} (h : LacksBelow n t p) : LacksBelow n t (Parse.map f p) :=
  fun he => h (Parse.map_error_iff.1 he)

theorem LacksBelow.mono {p : Parse α} {k : Nat} (h : LacksBelow n t p) (hk : n ≤ k) : LacksBelow k t p :=
  fun he => Nat.lt_of_lt_of_le (h he) hk

theorem LacksBelow.withModRm {k : Byte → List Byte → Parse Instr} (h : ∀ m t, LacksBelow n t (k m t)) :
    LacksBelow (n + 1) t (withModRm t k) := by
  cases t with
  | nil => exact fun _ => Nat.succ_pos n
  | cons m t => exact fun he => Nat.succ_lt_succ (h m t he)

end

theorem takeByte_lacksBelow (t : List Byte) : LacksBelow 1 t (takeByte t) := by
  cases t with
  | nil => exact fun _ => Nat.one_pos
  | cons b t => exact .ok

theorem takeWord_lacksBelow (t : List Byte) : LacksBelow 2 t (takeWord t) := by
  rcases t with _ | ⟨b, _ | ⟨c, t⟩⟩
  · exact fun _ => Nat.two_pos
  · exact fun _ => Nat.one_lt_two
  · exact .ok

theorem parseEa_lacksBelow (m : Byte) (t : List Byte) : LacksBelow 2 t (parseEa m t) := by
  simp only [parseEa]
  split
  · split
    · exact (takeWord_lacksBelow t).map
    · exact .ok
  · exact (takeByte_lacksBelow t).map.mono (Nat.le_succ 1)
  · exact (takeWord_lacksBelow t).map

theorem parseRm_lacksBelow {ρ : Type} (ofNum : BitVec 3 → ρ) (m : Byte) (t : List Byte) :
    LacksBelow 2 t (parseRm ofNum m t) := by
  simp only [parseRm]
  split
  · exact .ok
  · exact (parseEa_lacksBelow m t).map

/-- R89: a memory operand has at most two displacement bytes. -/
theorem dispSize_le {ρ : Type} (x : Rm ρ) : x.dispSize ≤ 2 := by
  rcases x with r | ⟨a | k | ⟨k, d⟩ | ⟨k, d⟩⟩ <;> simp [Rm.dispSize, Ea.dispSize]

section
variable {α β : Type} {n : Nat} {t : List Byte}

/-- An immediate after an r/m operand. -/
theorem LacksBelow.afterRm {ρ : Type} {ofNum : BitVec 3 → ρ} {num : ρ → BitVec 3} (hn : ∀ n, num (ofNum n) = n)
    {m : Byte} {x : Rm ρ} {t' : List Byte} (hx : parseRm ofNum m t = .ok (x, t')) {p : Parse α}
    (h : LacksBelow n t' p) : LacksBelow (n + 2) t p := by
  intro he
  have hlen := congrArg List.length (parseRm_cases hn hx).1
  simp only [List.length_cons, List.length_append, Rm.encode_length] at hlen
  have hdisp := dispSize_le x
  have hlt := h he
  omega

theorem LacksBelow.passOn {p : Parse β} {f : DecodeFail} (hp : p = .error f) (h : LacksBelow n t p) :
    LacksBelow n t (.error f : Parse α) := by
  rintro ⟨⟩
  exact h hp

end

theorem parseRmReg_lacksBelow (w : Width) (m : Byte) (t : List Byte) : LacksBelow 2 t (parseRmReg w m t) := by
  cases w <;> exact (parseRm_lacksBelow _ m t).map

theorem parseRmOnly_lacksBelow (w : Width) (m : Byte) (t : List Byte) : LacksBelow 2 t (parseRmOnly w m t) := by
  cases w <;> exact (parseRm_lacksBelow _ m t).map

theorem parseRmImm_lacksBelow (w : Width) (m : Byte) (t : List Byte) : LacksBelow 4 t (parseRmImm w m t) := by
  have hrm8 := (parseRm_lacksBelow Reg8.ofNum m t).mono (k := 4) (by decide)
  have hrm16 := (parseRm_lacksBelow Reg16.ofNum m t).mono (k := 4) (by decide)
  cases w with
  | byte =>
    simp only [parseRmImm]
    split
    · rename_i hx
      exact ((takeByte_lacksBelow _).map.afterRm Reg8.num_ofNum hx).mono (by decide)
    · exact hrm8.passOn ‹_›
  | word =>
    simp only [parseRmImm]
    split
    · rename_i hx
      exact (takeWord_lacksBelow _).map.afterRm Reg16.num_ofNum hx
    · exact hrm16.passOn ‹_›

theorem parseGrpImm_lacksBelow (s : Bool) (w : Width) (m : Byte) (t : List Byte) :
    LacksBelow 4 t (parseGrpImm s w m t) := by
  have hrm8 := (parseRm_lacksBelow Reg8.ofNum m t).mono (k := 4) (by decide)
  have hrm16 := (parseRm_lacksBelow Reg16.ofNum m t).mono (k := 4) (by decide)
  cases w with
  | byte =>
    simp only [parseGrpImm]
    split
    · rename_i hx
      exact ((takeByte_lacksBelow _).map.afterRm Reg8.num_ofNum hx).mono (by decide)
    · exact hrm8.passOn ‹_›
  | word =>
    simp only [parseGrpImm]
    split
    · rename_i hx
      split
      · exact ((takeByte_lacksBelow _).map.afterRm Reg16.num_ofNum hx).mono (by decide)
      · exact (takeWord_lacksBelow _).map.afterRm Reg16.num_ofNum hx
    · exact hrm16.passOn ‹_›

theorem parseAccImm_lacksBelow (w : Width) (t : List Byte) : LacksBelow 2 t (parseAccImm w t) := by
  cases w with
  | byte => exact (takeByte_lacksBelow t).map.mono (by decide)
  | word => exact (takeWord_lacksBelow t).map

theorem parseFar_lacksBelow (t : List Byte) : LacksBelow 4 t (parseFar t) := by
  simp only [parseFar]
  split
  · rename_i off t' hoff
    intro he
    have hlt := (takeWord_lacksBelow t').map he
    rw [takeWord_cases hoff, List.length_append, wordBytes_length]
    omega
  · exact ((takeWord_lacksBelow t).mono (by decide)).passOn ‹_›

/-- A group's parser: where its selector is admitted it needs at most four bytes, and elsewhere none. -/
theorem parseUnary_lacksBelow (op : Byte) (w : Width) (m : Byte) (t : List Byte) :
    LacksBelow 4 t (parseUnary op w m t) := by
  have hrm := (parseRmOnly_lacksBelow w m t).mono (k := 4) (by decide)
  simp only [parseUnary]
  split
  · exact (parseRmImm_lacksBelow w m t).map
  · exact hrm.map
  · exact hrm.map
  · exact hrm.map
  · exact .error nofun

theorem parseFe_lacksBelow (op m : Byte) (t : List Byte) : LacksBelow 2 t (parseFe op m t) := by
  simp only [parseFe]
  split
  · exact (parseRmOnly_lacksBelow _ m t).map
  · exact (parseRmOnly_lacksBelow _ m t).map
  · exact .error nofun

theorem parseFf_lacksBelow (op m : Byte) (t : List Byte) : LacksBelow 2 t (parseFf op m t) := by
  simp only [parseFf]
  split
  · exact (parseRmOnly_lacksBelow _ m t).map
  · exact (parseRmOnly_lacksBelow _ m t).map
  · split
    · exact .error nofun
    · exact (parseEa_lacksBelow m t).map
  · exact (parseRm_lacksBelow _ m t).map
  · exact .error nofun

theorem parseMovRmSreg_lacksBelow (op m : Byte) (t : List Byte) : LacksBelow 2 t (parseMovRmSreg op m t) := by
  simp only [parseMovRmSreg]
  split
  · exact .error nofun
  · exact (parseRm_lacksBelow _ m t).map

theorem parseMovSregRm_lacksBelow (op m : Byte) (t : List Byte) : LacksBelow 2 t (parseMovSregRm op m t) := by
  simp only [parseMovSregRm]
  split
  · exact .error nofun
  · split
    · exact (parseRm_lacksBelow _ m t).map
    · exact .error nofun

theorem parseGrpAlu_lacksBelow (op : Byte) (s : Bool) (w : Width) (m : Byte) (t : List Byte) :
    LacksBelow 4 t (parseGrpAlu op s w m t) := by
  simp only [parseGrpAlu]
  split
  · exact (parseGrpImm_lacksBelow s w m t).map
  · exact .error nofun

/-- R95: after its opcode byte an instruction has at most five bytes. -/
theorem Entry.parse_lacksBelow (e : Entry) (op : Byte) (t : List Byte) : LacksBelow 5 t (e.parse op t) := by
  have hbyte : ∀ f : Byte → Instr, LacksBelow 5 t ((takeByte t).map f) := fun _ =>
    (takeByte_lacksBelow t).map.mono (by decide)
  have hword : ∀ f : Word → Instr, LacksBelow 5 t ((takeWord t).map f) := fun _ =>
    (takeWord_lacksBelow t).map.mono (by decide)
  have hmodRm2 : ∀ k, (∀ m t, LacksBelow 2 t (k m t)) → LacksBelow 5 t (withModRm t k) := fun _ hk =>
    (LacksBelow.withModRm hk).mono (by decide)
  cases e with
  | adcSbb => exact .error nofun
  | pushSreg r | popSreg r | incReg r | decReg r | pushReg r | popReg r => exact .ok
  | pushf | popf | int3 | into | iret => exact .ok
  | stos w => cases w <;> exact .ok
  | jcc c | movReg8 r | intImm | loop k | jmpShort => exact hbyte _
  | movAccMem x w | movReg16 r | jmpNear => exact hword _
  | aluAccImm a w | testAccImm w => exact (parseAccImm_lacksBelow w t).map.mono (by decide)
  | aluRmReg a d w | testRmReg w | movRmReg w | movRegRm w =>
    exact hmodRm2 _ fun m t => (parseRmReg_lacksBelow w m t).map
  | grpAlu s w => exact .withModRm (parseGrpAlu_lacksBelow op s w)
  | movRmSreg => exact hmodRm2 _ (parseMovRmSreg_lacksBelow op)
  | movSregRm => exact hmodRm2 _ (parseMovSregRm_lacksBelow op)
  | grpPop =>
    refine hmodRm2 _ fun m t => ?_
    split
    · exact (parseRm_lacksBelow _ m t).map
    · exact .error nofun
  | grpMov w =>
    refine .withModRm fun m t => ?_
    split
    · exact (parseRmImm_lacksBelow w m t).map
    · exact .error nofun
  | grpUnary w => exact .withModRm (parseUnary_lacksBelow op w)
  | grpFe => exact hmodRm2 _ (parseFe_lacksBelow op)
  | grpFf => exact hmodRm2 _ (parseFf_lacksBelow op)
  | jmpFar => exact (parseFar_lacksBelow t).mono (by decide)

/-- R84, R95: the bytes that a decode needs at most, after the prefixes `seg` and `rep`: a repeat prefix leads to a
STOS. -/
def bytesNeeded (seg rep : Bool) : Nat := (if seg then 0 else 1) + (if rep then 1 else 6)

theorem decodeOpcode_lacksBelow (admitX seg rep : Bool) (op : Byte) (t : List Byte) :
    LacksBelow (bytesNeeded seg rep) (op :: t) (decodeOpcode admitX rep op t) := by
  simp only [decodeOpcode]
  split
  · exact .error nofun
  · rename_i e _
    split
    · exact .error nofun
    · split
      · exact .error nofun
      · rename_i hrep
        cases rep with
        | false =>
          intro he
          have hlt := Entry.parse_lacksBelow e op t he
          simp only [bytesNeeded, List.length_cons, Bool.false_eq_true, if_false]
          omega
        | true =>
          cases e with
          | stos w => cases w <;> exact .ok
          | _ => exact absurd rfl hrep

theorem decodeAfter_lacksBelow (admitX seg rep : Bool) (bytes : List Byte) :
    LacksBelow (bytesNeeded seg rep) bytes (decodeAfter admitX seg rep bytes) := by
  induction bytes generalizing seg rep with
  | nil =>
    intro _
    cases seg <;> cases rep <;> decide
  | cons b t ih =>
    simp only [decodeAfter]
    split
    · split
      · exact .error nofun
      · rename_i hseg
        intro he
        have hlt := (ih true rep).map he
        rw [Bool.eq_false_of_not_eq_true hseg]
        simp only [bytesNeeded, List.length_cons, if_true, Bool.false_eq_true, if_false] at hlt ⊢
        omega
    · split
      · split
        · exact .error nofun
        · rename_i hrep
          intro he
          have hlt := (ih seg true).map he
          rw [Bool.eq_false_of_not_eq_true hrep]
          simp only [bytesNeeded, List.length_cons, if_true, Bool.false_eq_true, if_false] at hlt ⊢
          omega
      · exact decodeOpcode_lacksBelow admitX seg rep b t

/-- R95, R99: a decode of the bytes from `p` lacks a byte only where the image ends before the longest record would. -/
theorem window_of_truncated {s : State} {p : Nat}
    (h : decode s.cfg.admitTierX (window s p) = .error .truncated) : (window s p).length = s.imageEnd - p := by
  have hlt : (window s p).length < 7 := decodeAfter_lacksBelow _ false false _ h
  rw [window_length] at hlt ⊢
  omega

/-! ## The step -/

theorem decodeAt_failed {s : State} {p : Nat} {e : DecodeFail} (h : decode s.cfg.admitTierX (window s p) = .error e) :
    decodeAt s p = .error (failFault p (window s p).length e) := by
  simp only [decodeAt, h]

/-- R142: without retained decodes a failed decode ends the step. -/
theorem step_decodeAt_failed {s : State} {f : Fault} (hlt : s.p0 < s.imageEnd) (hc : s.cfg.decodeCache = .none)
    (h : decodeAt s s.p0 = .error f) : step s = .fault f := by
  simp only [step, fetch, recordAt, hc, h, if_neg (Nat.not_le.2 hlt)]

/-- Settles O18: a failure is reported as it is, and a truncation at the image's end. -/
theorem decodeFailureEndsTheStep : Obligations.DecodeFailureEndsTheStep := by
  intro s e hlt hc hdec
  refine ⟨_, step_decodeAt_failed hlt hc (decodeAt_failed hdec), ?_⟩
  cases e with
  | truncated =>
    have hlen := window_of_truncated hdec
    exact congrArg Fault.cursorOutOfBounds (by omega)
  | _ => rfl

end Sys2Proof.Machine
end

section
/-! PROOFS. O60 (R123): the decode pass. -/

namespace Sys2Proof.Machine

open Sys2Proof

/-- Records that lie end to end from `p`, each what decoding at its address gives. R123. -/
def Chained (s : State) : Nat → List Record → Prop
  | _, [] => True
  | p, d :: ds => decodeAt s p = .ok d ∧ Chained s (p + d.size) ds

theorem Chained.get {s : State} {ds : List Record} {p k : Nat} (h : Chained s p ds) (hk : k < ds.length) :
    decodeAt s (p + ((ds.take k).map Record.size).sum) = .ok ds[k] := by
  induction ds generalizing p k with
  | nil => cases hk
  | cons d ds ih =>
    obtain ⟨hd, hds⟩ := h
    cases k with
    | zero => exact hd
    | succ k =>
      have hget := ih hds (Nat.lt_of_succ_lt_succ hk)
      rw [Nat.add_assoc] at hget
      exact hget

theorem passFrom_atEnd {s : State} {p : Nat} (h : s.imageEnd ≤ p) (fuel : Nat) : passFrom s fuel p = ([], .atEnd) := by
  cases fuel with
  | zero => rfl
  | succ fuel => simp only [passFrom, if_pos h]

theorem passFrom_stopped {s : State} {p : Nat} {f : Fault} (h : p < s.imageEnd) (hd : decodeAt s p = .error f)
    (fuel : Nat) : passFrom s (fuel + 1) p = ([], .stopped f) := by
  simp only [passFrom, if_neg (Nat.not_le.2 h), hd]

theorem passFrom_record {s : State} {p : Nat} {d : Record} (h : p < s.imageEnd) (hd : decodeAt s p = .ok d)
    (fuel : Nat) :
    passFrom s (fuel + 1) p = (d :: (passFrom s fuel (p + d.size)).1, (passFrom s fuel (p + d.size)).2) := by
  simp only [passFrom, if_neg (Nat.not_le.2 h), hd]

theorem passFrom_chained (s : State) (fuel p : Nat) : Chained s p (passFrom s fuel p).1 := by
  induction fuel generalizing p with
  | zero => trivial
  | succ fuel ih =>
    by_cases h : p < s.imageEnd
    · cases hd : decodeAt s p with
      | error f =>
        rw [passFrom_stopped h hd]
        trivial
      | ok d =>
        rw [passFrom_record h hd]
        exact ⟨hd, ih (p + d.size)⟩
    · rw [passFrom_atEnd (Nat.le_of_not_lt h)]
      trivial

/-- R123: the address after a record, and after the records that follow it. -/
theorem sizes_cons (p : Nat) (d : Record) (ds : List Record) :
    p + ((d :: ds).map Record.size).sum = p + d.size + (ds.map Record.size).sum := by
  rw [List.map_cons, List.sum_cons, Nat.add_assoc]

/-- How a pass with enough fuel ends: past the image, or at a decode that gives no record. -/
theorem passFrom_end (s : State) (fuel p : Nat) (hfuel : s.imageEnd - p ≤ fuel) :
    let out := passFrom s fuel p
    let stop := p + (out.1.map Record.size).sum
    (out.2 = .atEnd ∧ s.imageEnd ≤ stop) ∨
      ∃ f, out.2 = .stopped f ∧ decodeAt s stop = .error f ∧ stop < s.imageEnd := by
  induction fuel generalizing p with
  | zero => exact .inl ⟨rfl, Nat.le_of_sub_eq_zero (Nat.le_zero.1 hfuel)⟩
  | succ fuel ih =>
    by_cases h : p < s.imageEnd
    · cases hd : decodeAt s p with
      | error f =>
        rw [passFrom_stopped h hd]
        exact .inr ⟨f, rfl, hd, h⟩
      | ok d =>
        obtain ⟨-, hpos, -⟩ := recordSizeIsConsumedBytes s p d hd
        rw [passFrom_record h hd]
        simp only [sizes_cons]
        exact ih (p + d.size) (by omega)
    · rw [passFrom_atEnd (Nat.le_of_not_lt h)]
      exact .inl ⟨rfl, Nat.le_of_not_lt h⟩

/-- R350: of the decoder's outcomes only a mismatch is clean. -/
theorem decodeAt_error_kind {s : State} {p : Nat} {f : Fault} (h : decodeAt s p = .error f) :
    f.kind = .halt ↔ ∃ p op, f = .noMatch p op := by
  simp only [decodeAt] at h
  split at h
  · cases h
  · rename_i e _
    obtain rfl := Except.error.inj h
    cases e <;> simp [failFault, Fault.kind]

/-- R110: a decode depends on memory, the image's end and the parameters. -/
theorem decodeAt_congr {s u : State} (hmem : u.mem = s.mem) (hend : u.imageEnd = s.imageEnd) (hcfg : u.cfg = s.cfg)
    (p : Nat) : decodeAt u p = decodeAt s p := by
  simp only [decodeAt, window, hmem, hend, hcfg]

theorem passFrom_congr {s u : State} (hmem : u.mem = s.mem) (hend : u.imageEnd = s.imageEnd) (hcfg : u.cfg = s.cfg)
    (fuel p : Nat) : passFrom u fuel p = passFrom s fuel p := by
  induction fuel generalizing p with
  | zero => rfl
  | succ fuel ih => simp only [passFrom, hend, decodeAt_congr hmem hend hcfg, ih]

/-- Settles O60: the pass is a chain of records, and its fuel is enough because each takes a byte at least. -/
theorem decodePassIsLinear : Obligations.DecodePassIsLinear := by
  intro s u out
  have hchain : Chained s s.imageOrigin out.1 := passFrom_chained s _ _
  have hend := passFrom_end s (s.imageEnd - s.imageOrigin) s.imageOrigin (Nat.le_refl _)
  refine ⟨fun k hk => ?_, ?_, fun f hf => ?_, fun hmem horigin hE hcfg => ?_⟩
  · have hget := hchain.get hk
    obtain ⟨-, -, -, hoff⟩ := decodeAt_cases hget
    exact ⟨hoff, by rw [hoff, hget]⟩
  · rcases hend with ⟨hat, hle⟩ | ⟨f, hstop, -, hlt⟩
    · exact iff_of_true hat hle
    · exact iff_of_false (fun h => nomatch hstop.symm.trans h) (Nat.not_le.2 hlt)
  · rcases hend with ⟨hat, -⟩ | ⟨f', hstop, hdec, -⟩
    · exact nomatch hf.symm.trans hat
    · obtain rfl := PassEnd.stopped.inj (hstop.symm.trans hf)
      exact ⟨hdec, decodeAt_error_kind hdec⟩
  · simp only [decodePass, horigin, hE, out, passFrom_congr hmem hE hcfg]

end Sys2Proof.Machine
end

section
/-! PROOFS. O29 (R84, R95): an instruction with no memory operand reads IP only as the offset of the next instruction,
which an override moves by one byte. -/

namespace Sys2Proof.Machine

open Sys2Proof

/-! ## Operations that commute with writing IP -/

theorem State.setReg16_setIp (s : State) (r : Reg16) (x y : Word) :
    (s.setIp y).setReg16 r x = (s.setReg16 r x).setIp y := by cases r <;> rfl

theorem State.setReg8_setIp (s : State) (r : Reg8) (x : Byte) (y : Word) :
    (s.setIp y).setReg8 r x = (s.setReg8 r x).setIp y := by
  simp only [State.setReg8, State.setIp_reg16, State.setReg16_setIp]

theorem State.setSReg_setIp (s : State) (r : SRegDst) (x y : Word) :
    (s.setIp y).setSReg r x = (s.setSReg r x).setIp y := by cases r <;> rfl

theorem State.store8_setIp (s : State) (a : Nat) (x : Byte) (y : Word) :
    (s.setIp y).store8 a x = (s.store8 a x).map (·.setIp y) := by
  simp only [State.store8]
  split <;> rfl

theorem State.store16_setIp (s : State) (a : Nat) (x y : Word) :
    (s.setIp y).store16 a x = (s.store16 a x).map (·.setIp y) := by
  simp only [State.store16]
  split <;> rfl

@[simp] theorem Place.read_setIp {n : Nat} (p : Place n) (s : State) (y : Word) : p.read (s.setIp y) = p.read s := by
  cases p with
  | reg8 r => simp only [Place.read, State.setIp_reg8]
  | reg16 r => simp only [Place.read, State.setIp_reg16]
  | sreg r => simp only [Place.read, State.setIp_sreg]
  | mem8 a | mem16 a => rfl

@[simp] theorem Opnd.read_setIp {n : Nat} (x : Opnd n) (s : State) (y : Word) : x.read (s.setIp y) = x.read s := by
  cases x with
  | place p => exact p.read_setIp s y
  | imm v => rfl

theorem Place.write_setIp {n : Nat} (p : Place n) (x : BitVec n) (s : State) (y : Word) :
    p.write x (s.setIp y) = (p.write x s).map (·.setIp y) := by
  cases p with
  | reg8 r => exact congrArg Except.ok (s.setReg8_setIp r x y)
  | reg16 r => exact congrArg Except.ok (s.setReg16_setIp r x y)
  | sreg r => exact congrArg Except.ok (s.setSReg_setIp r x y)
  | mem8 a => exact s.store8_setIp a x y
  | mem16 a => exact s.store16_setIp a x y

theorem push_setIp (x : Word) (s : State) (y : Word) : push x (s.setIp y) = (push x s).map (·.setIp y) :=
  State.store16_setIp (s.setReg16 .sp (s.sp - 2)) _ x y

theorem pop_setIp (s : State) (y : Word) : pop (s.setIp y) = (pop s).map fun r => (r.1, r.2.setIp y) := by
  have hload : (s.setIp y).load16 (phys s.ss s.sp) = s.load16 (phys s.ss s.sp) := rfl
  simp only [pop, State.setIp_ss, State.setIp_sp, hload]
  cases s.load16 (phys s.ss s.sp) <;> rfl

theorem popTo_setIp (d : Place 16) (s : State) (y : Word) : popTo d (s.setIp y) = (popTo d s).map (·.setIp y) := by
  rw [popTo, popTo, pop_setIp]
  cases pop s with
  | error f => rfl
  | ok r => exact d.write_setIp r.1 r.2 y

theorem popFlags_setIp (s : State) (y : Word) : popFlags (s.setIp y) = (popFlags s).map (·.setIp y) := by
  rw [popFlags, popFlags, pop_setIp]
  cases pop s <;> rfl

@[simp] theorem State.stosSeg_setIp (s : State) (y : Word) : (s.setIp y).stosSeg = s.stosSeg := rfl

theorem moveDi_setIp (n : Word) (s : State) (y : Word) : moveDi n (s.setIp y) = (moveDi n s).setIp y :=
  s.setReg16_setIp .di _ y

theorem stosOnce_setIp (wd : Width) (s : State) (y : Word) :
    stosOnce wd (s.setIp y) = (stosOnce wd s).map (·.setIp y) := by
  cases wd with
  | byte =>
    simp only [stosOnce, State.stosSeg_setIp, State.setIp_di, State.setIp_reg8, State.store8_setIp]
    cases s.store8 (phys s.stosSeg s.di) (s.reg8 .al) with
    | error f => rfl
    | ok t => exact congrArg Except.ok (moveDi_setIp 1 t y)
  | word =>
    simp only [stosOnce, State.stosSeg_setIp, State.setIp_di, State.setIp_ax, State.store16_setIp]
    cases s.store16 (phys s.stosSeg s.di) s.ax with
    | error f => rfl
    | ok t => exact congrArg Except.ok (moveDi_setIp 2 t y)

theorem stosRep_setIp (wd : Width) (k : Nat) (s : State) (y : Word) :
    stosRep wd k (s.setIp y) = (stosRep wd k s).map (·.setIp y) := by
  induction k generalizing s with
  | zero => rfl
  | succ k ih =>
    rw [stosRep, stosRep, stosOnce_setIp]
    cases stosOnce wd s with
    | error f => rfl
    | ok t => exact ih (t.setReg16 .cx (t.cx - 1))

/-! ## Outcomes that agree but for what a fault records -/

/-- Two outcomes with the same next state, or with a fault each. -/
def AgreeButFault : Host.Outcome State Fault Refusal → Host.Outcome State Fault Refusal → Prop
  | .next t, .next t' => t = t'
  | .fault _, .fault _ => True
  | _, _ => False

theorem AgreeButFault.iff {x y : Out} (h : AgreeButFault x y) :
    (∀ t, x = .next t ↔ y = .next t) ∧ ((∃ f, x = .fault f) ↔ ∃ f, y = .fault f) := by
  cases x with
  | next t =>
    cases y with
    | next t' =>
      obtain rfl : t = t' := h
      exact ⟨fun _ => Iff.rfl, Iff.rfl⟩
    | fault f => exact h.elim
    | refused q => exact h.elim
  | fault f =>
    cases y with
    | next t' => exact h.elim
    | fault f' => exact ⟨fun _ => iff_of_false nofun nofun, iff_of_true ⟨f, rfl⟩ ⟨f', rfl⟩⟩
    | refused q => exact h.elim
  | refused q => exact h.elim

/-- Two answers of a part of an Execute stage run with the IP values `w` and `v`: a fault each, or states that differ in
IP alone, which has kept its value. -/
def AlikeAtIp (w v : Word) : Exec State → Exec State → Prop
  | .ok t, .ok t' => ∃ u : State, t = u.setIp w ∧ t' = u.setIp v
  | .error _, .error _ => True
  | _, _ => False

section
variable {w v : Word} {s : State}

theorem AlikeAtIp.setIp (e : Exec State) : AlikeAtIp w v (e.map (·.setIp w)) (e.map (·.setIp v)) := by
  cases e with
  | ok u => exact ⟨u, rfl, rfl⟩
  | error f => trivial

theorem AlikeAtIp.bind {α : Type} (e : Exec α) {k k' : α → Exec State} (h : ∀ a, AlikeAtIp w v (k a) (k' a)) :
    AlikeAtIp w v (e >>= k) (e >>= k') := by
  cases e with
  | ok a => exact h a
  | error f => trivial

/-- An operation that commutes with writing IP does not read it. -/
theorem AlikeAtIp.of_setIp {op : State → Exec State} (hop : ∀ y, op (s.setIp y) = (op s).map (·.setIp y)) :
    AlikeAtIp w v (op (s.setIp w)) (op (s.setIp v)) := by
  rw [hop w, hop v]
  exact .setIp _

theorem Place.write_alikeAtIp {n : Nat} (p : Place n) (x : BitVec n) (s : State) :
    AlikeAtIp w v (p.write x (s.setIp w)) (p.write x (s.setIp v)) := .of_setIp (p.write_setIp x s)

/-- R143: Advance ends at one IP. -/
theorem finish_agree {c c' : Ctx} (hip : w + BitVec.ofNat 16 c.size = v + BitVec.ofNat 16 c'.size) {e e' : Exec State}
    (h : AlikeAtIp w v e e') : AgreeButFault (finish c e) (finish c' e') := by
  cases e with
  | ok t =>
    cases e' with
    | ok t' =>
      obtain ⟨u, rfl, rfl⟩ := h
      exact congrArg u.setIp hip
    | error f' => exact h
  | error f =>
    cases e' with
    | ok t' => exact h
    | error f' => exact h

/-! ## The shared operations -/

theorem alu_alikeAtIp {n : Nat} (op : AluOp) (d : Place n) (x : Opnd n) :
    AlikeAtIp w v (alu op d x (s.setIp w)) (alu op d x (s.setIp v)) := by
  simp only [alu, Place.read_setIp, Opnd.read_setIp]
  refine .bind _ fun a => .bind _ fun b => ?_
  split
  · exact d.write_alikeAtIp _ (s.setFlags _)
  · exact ⟨s.setFlags _, rfl, rfl⟩

theorem testOp_alikeAtIp {n : Nat} (d : Place n) (x : Opnd n) :
    AlikeAtIp w v (testOp d x (s.setIp w)) (testOp d x (s.setIp v)) := by
  simp only [testOp, Place.read_setIp, Opnd.read_setIp]
  exact .bind _ fun a => .bind _ fun b => ⟨s.setFlags _, rfl, rfl⟩

theorem incDec_alikeAtIp {n : Nat} (op : ArithOp) (d : Place n) :
    AlikeAtIp w v (incDec op d (s.setIp w)) (incDec op d (s.setIp v)) := by
  simp only [incDec, Place.read_setIp]
  exact .bind _ fun a => d.write_alikeAtIp _ (s.setFlags _)

theorem notOp_alikeAtIp {n : Nat} (d : Place n) : AlikeAtIp w v (notOp d (s.setIp w)) (notOp d (s.setIp v)) := by
  simp only [notOp, Place.read_setIp]
  exact .bind _ fun a => d.write_alikeAtIp _ s

theorem mov_alikeAtIp {n : Nat} (d : Place n) (x : Opnd n) :
    AlikeAtIp w v (mov d x (s.setIp w)) (mov d x (s.setIp v)) := by
  simp only [mov, Opnd.read_setIp]
  exact .bind _ fun a => d.write_alikeAtIp _ s

/-- A fault is a fault, whatever address it records. -/
theorem AlikeAtIp.fault_or {P : Prop} [Decidable P] {f f' : Fault} {e e' : Exec State} (h : AlikeAtIp w v e e') :
    AlikeAtIp w v (if P then .error f else e) (if P then .error f' else e') := by
  split
  · trivial
  · exact h

/-- R209: DIV reads IP only for the address its faults record. -/
theorem div8_alikeAtIp (b : Byte) : AlikeAtIp w v (div8 b (s.setIp w)) (div8 b (s.setIp v)) := by
  have hset : ∀ y q r, ((s.setIp y).setReg8 .al q).setReg8 .ah r = ((s.setReg8 .al q).setReg8 .ah r).setIp y :=
    fun y q r => by rw [State.setReg8_setIp, State.setReg8_setIp]
  unfold div8
  refine .fault_or (.fault_or ?_)
  rw [hset, hset]
  exact ⟨divDraw _, rfl, rfl⟩

theorem div16_alikeAtIp (b : Word) : AlikeAtIp w v (div16 b (s.setIp w)) (div16 b (s.setIp v)) := by
  have hset : ∀ y q r, ((s.setIp y).setReg16 .ax q).setReg16 .dx r = ((s.setReg16 .ax q).setReg16 .dx r).setIp y :=
    fun y q r => by rw [State.setReg16_setIp, State.setReg16_setIp]
  unfold div16
  refine .fault_or (.fault_or ?_)
  rw [hset, hset]
  exact ⟨divDraw _, rfl, rfl⟩

theorem stos_alikeAtIp {c c' : Ctx} (hrep : c.rep = c'.rep) (wd : Width) :
    AlikeAtIp w v (stos c wd (s.setIp w)) (stos c' wd (s.setIp v)) := by
  simp only [stos, hrep]
  split
  · trivial
  · exact .of_setIp (stosRep_setIp wd s.cx.toNat s)
  · exact .of_setIp (stosOnce_setIp wd s)

@[simp] theorem pushedReg_setIp (r : Reg16) (s : State) (y : Word) : pushedReg r (s.setIp y) = pushedReg r s := by
  cases r <;> rfl

theorem push_alikeAtIp (x : Word) : AlikeAtIp w v (push x (s.setIp w)) (push x (s.setIp v)) :=
  .of_setIp (push_setIp x s)

theorem popTo_alikeAtIp (d : Place 16) : AlikeAtIp w v (popTo d (s.setIp w)) (popTo d (s.setIp v)) :=
  .of_setIp (popTo_setIp d s)

end

/-! ## Redirects -/

/-- R310: what an interrupt writes after its pushes. -/
def State.vectored (n : Byte) (t : State) : State :=
  { t with
    flags := setFlag .ief false (setFlag .tf false t.flags)
    ip := (Place.mem16 (4 * n.toNat)).value t
    cs := (Place.mem16 (4 * n.toNat + 2)).value t }

theorem entered_eq_vectored (n : Byte) (k : Nat) (s : State) : s.entered n k = (s.stacked k).vectored n := rfl

theorem vectored_setIp (n : Byte) (t : State) (y : Word) : (t.setIp y).vectored n = t.vectored n := rfl

/-- R310: the pushes of an interrupt leave IP. -/
theorem stacked_setIp (s : State) (y : Word) (k : Nat) :
    (s.setIp y).stacked k = (((s.pushed s.flags).pushed s.cs).pushed ((s.setIp y).nextIp k)).setIp y := rfl

section
variable {w v : Word} {s : State} {c c' : Ctx} (hip : w + BitVec.ofNat 16 c.size = v + BitVec.ofNat 16 c'.size)
include hip

/-- R260: a branch reads IP as the offset of the next instruction. -/
theorem branch_agree (taken : Bool) (disp : Word) :
    AgreeButFault (branch c taken disp (s.setIp w)) (branch c' taken disp (s.setIp v)) := by
  have hnext : (s.setIp w).nextIp c.size = (s.setIp v).nextIp c'.size := hip
  rw [branch_eq, branch_eq, hnext]
  exact rfl

theorem loopFamily_agree (k : LoopKind) (d : Byte) :
    AgreeButFault (loopFamily c k d (s.setIp w)) (loopFamily c' k d (s.setIp v)) := by
  cases k with
  | nz | z | always => exact branch_agree (s := decCx s) hip _ _
  | cxz => exact branch_agree hip _ _

/-- R310: an interrupt stacks the offset of the next instruction, and leaves nothing of IP. -/
theorem enter_agree (n : Byte) :
    AgreeButFault (redirect (enter n c.size (s.setIp w))) (redirect (enter n c'.size (s.setIp v))) := by
  by_cases h : phys s.ss (s.sp - 2) = 0xFFFFF ∨ phys s.ss (s.sp - 4) = 0xFFFFF ∨ phys s.ss (s.sp - 6) = 0xFFFFF
  · rw [enter_top (s := s.setIp w) h, enter_top (s := s.setIp v) h]
    trivial
  · simp only [not_or] at h
    obtain ⟨h1, h2, h3⟩ := h
    have hnext : (s.setIp w).nextIp c.size = (s.setIp v).nextIp c'.size := hip
    rw [enter_eq (s := s.setIp w) h1 h2 h3, enter_eq (s := s.setIp v) h1 h2 h3]
    simp only [entered_eq_vectored, stacked_setIp, vectored_setIp, hnext]
    exact rfl

/-- R313: INTO is an interrupt where OF = 1, and else only advances. -/
theorem into_agree : AgreeButFault (intoIn c (s.setIp w)) (intoIn c' (s.setIp v)) := by
  by_cases h : getFlag .of s.flags = true
  · have htaken : ∀ k y, intoIn k (s.setIp y) = redirect (enter 4 k.size (s.setIp y)) := fun _ _ => if_pos h
    rw [htaken, htaken]
    exact enter_agree hip 4
  · have huntaken : ∀ k y, intoIn k (s.setIp y) = finish k (.ok (s.setIp y)) := fun _ _ => if_neg h
    rw [huntaken, huntaken]
    exact finish_agree hip ⟨s, rfl, rfl⟩

end

/-- R314: IRET leaves nothing of IP. -/
theorem interruptReturn_setIp (s : State) (y : Word) : interruptReturn (s.setIp y) = interruptReturn s := by
  by_cases h : phys s.ss s.sp = 0xFFFFF ∨ phys s.ss (s.sp + 2) = 0xFFFFF ∨ phys s.ss (s.sp + 4) = 0xFFFFF
  · rw [interruptReturn_top h, interruptReturn_top (s := s.setIp y) h]
  · simp only [not_or] at h
    obtain ⟨h1, h2, h3⟩ := h
    rw [interruptReturn_eq h1 h2 h3, interruptReturn_eq (s := s.setIp y) h1 h2 h3]
    rfl

/-! ## Operands in registers (R90) -/

section
variable {w v : Word} {s : State} (c c' : Ctx)

theorem aluRmReg_alikeAtIp (op : AluOp) (d : Dir) {o : RmReg} (h : o.ea = none) :
    AlikeAtIp w v (aluRmReg c op d o (s.setIp w)) (aluRmReg c' op d o (s.setIp v)) := by
  rcases o with ⟨x | m, r⟩ | ⟨x | m, r⟩
  · cases d with
    | toRm => exact alu_alikeAtIp op (.reg8 x) (.place (.reg8 r))
    | toReg => exact alu_alikeAtIp op (.reg8 r) (.place (.reg8 x))
  · cases h
  · cases d with
    | toRm => exact alu_alikeAtIp op (.reg16 x) (.place (.reg16 r))
    | toReg => exact alu_alikeAtIp op (.reg16 r) (.place (.reg16 x))
  · cases h

theorem aluAccImm_alikeAtIp (op : AluOp) (o : AccImm) :
    AlikeAtIp w v (aluAccImm op o (s.setIp w)) (aluAccImm op o (s.setIp v)) := by
  cases o with
  | byte x => exact alu_alikeAtIp op (.reg8 .al) (.imm x)
  | word x => exact alu_alikeAtIp op (.reg16 .ax) (.imm x)

theorem aluRmImm_alikeAtIp (op : AluOp) {o : GrpImm} (h : o.ea = none) :
    AlikeAtIp w v (aluRmImm c op o (s.setIp w)) (aluRmImm c' op o (s.setIp v)) := by
  rcases o with ⟨sx, x | m, k⟩ | ⟨x | m, k⟩ | ⟨x | m, k⟩
  · exact alu_alikeAtIp op (.reg8 x) (.imm k)
  · cases h
  · exact alu_alikeAtIp op (.reg16 x) (.imm k)
  · cases h
  · exact alu_alikeAtIp op (.reg16 x) (.imm (k.signExtend 16))
  · cases h

theorem testRmRegOp_alikeAtIp {o : RmReg} (h : o.ea = none) :
    AlikeAtIp w v (testRmRegOp c o (s.setIp w)) (testRmRegOp c' o (s.setIp v)) := by
  rcases o with ⟨x | m, r⟩ | ⟨x | m, r⟩
  · exact testOp_alikeAtIp (.reg8 x) (.place (.reg8 r))
  · cases h
  · exact testOp_alikeAtIp (.reg16 x) (.place (.reg16 r))
  · cases h

theorem testAccImmOp_alikeAtIp (o : AccImm) :
    AlikeAtIp w v (testAccImmOp o (s.setIp w)) (testAccImmOp o (s.setIp v)) := by
  cases o with
  | byte x => exact testOp_alikeAtIp (.reg8 .al) (.imm x)
  | word x => exact testOp_alikeAtIp (.reg16 .ax) (.imm x)

theorem testRmImmOp_alikeAtIp {o : RmImm} (h : o.ea = none) :
    AlikeAtIp w v (testRmImmOp c o (s.setIp w)) (testRmImmOp c' o (s.setIp v)) := by
  rcases o with ⟨x | m, k⟩ | ⟨x | m, k⟩
  · exact testOp_alikeAtIp (.reg8 x) (.imm k)
  · cases h
  · exact testOp_alikeAtIp (.reg16 x) (.imm k)
  · cases h

theorem movRmRegOp_alikeAtIp {o : RmReg} (h : o.ea = none) :
    AlikeAtIp w v (movRmRegOp c o (s.setIp w)) (movRmRegOp c' o (s.setIp v)) := by
  rcases o with ⟨x | m, r⟩ | ⟨x | m, r⟩
  · exact mov_alikeAtIp (.reg8 x) (.place (.reg8 r))
  · cases h
  · exact mov_alikeAtIp (.reg16 x) (.place (.reg16 r))
  · cases h

theorem movRegRmOp_alikeAtIp {o : RmReg} (h : o.ea = none) :
    AlikeAtIp w v (movRegRmOp c o (s.setIp w)) (movRegRmOp c' o (s.setIp v)) := by
  rcases o with ⟨x | m, r⟩ | ⟨x | m, r⟩
  · exact mov_alikeAtIp (.reg8 r) (.place (.reg8 x))
  · cases h
  · exact mov_alikeAtIp (.reg16 r) (.place (.reg16 x))
  · cases h

theorem movRmImmOp_alikeAtIp {o : RmImm} (h : o.ea = none) :
    AlikeAtIp w v (movRmImmOp c o (s.setIp w)) (movRmImmOp c' o (s.setIp v)) := by
  rcases o with ⟨x | m, k⟩ | ⟨x | m, k⟩
  · exact mov_alikeAtIp (.reg8 x) (.imm k)
  · cases h
  · exact mov_alikeAtIp (.reg16 x) (.imm k)
  · cases h

theorem movRegImmOp_alikeAtIp (o : RegImm) :
    AlikeAtIp w v (movRegImmOp o (s.setIp w)) (movRegImmOp o (s.setIp v)) := by
  cases o with
  | byte r k => exact mov_alikeAtIp (.reg8 r) (.imm k)
  | word r k => exact mov_alikeAtIp (.reg16 r) (.imm k)

theorem incDecRm_alikeAtIp (op : ArithOp) {o : RmOnly} (h : o.ea = none) :
    AlikeAtIp w v (incDecRm c op o (s.setIp w)) (incDecRm c' op o (s.setIp v)) := by
  rcases o with (x | m) | (x | m)
  · exact incDec_alikeAtIp op (.reg8 x)
  · cases h
  · exact incDec_alikeAtIp op (.reg16 x)
  · cases h

theorem notRmOp_alikeAtIp {o : RmOnly} (h : o.ea = none) :
    AlikeAtIp w v (notRmOp c o (s.setIp w)) (notRmOp c' o (s.setIp v)) := by
  rcases o with (x | m) | (x | m)
  · exact notOp_alikeAtIp (.reg8 x)
  · cases h
  · exact notOp_alikeAtIp (.reg16 x)
  · cases h

theorem mulRmOp_alikeAtIp {o : RmOnly} (h : o.ea = none) :
    AlikeAtIp w v (mulRmOp c o (s.setIp w)) (mulRmOp c' o (s.setIp v)) := by
  rcases o with (x | m) | (x | m)
  · simp only [mulRmOp, rm8, Place.read_setIp]
    exact .bind _ fun b => ⟨mul8 b s, rfl, rfl⟩
  · cases h
  · simp only [mulRmOp, rm16, Place.read_setIp]
    exact .bind _ fun b => ⟨mul16 b s, rfl, rfl⟩
  · cases h

theorem divRmOp_alikeAtIp {o : RmOnly} (h : o.ea = none) :
    AlikeAtIp w v (divRmOp c o (s.setIp w)) (divRmOp c' o (s.setIp v)) := by
  rcases o with (x | m) | (x | m)
  · simp only [divRmOp, rm8, Place.read_setIp]
    exact .bind _ div8_alikeAtIp
  · cases h
  · simp only [divRmOp, rm16, Place.read_setIp]
    exact .bind _ div16_alikeAtIp
  · cases h

theorem pushReg_alikeAtIp (r : Reg16) :
    AlikeAtIp w v (push (pushedReg r (s.setIp w)) (s.setIp w)) (push (pushedReg r (s.setIp v)) (s.setIp v)) := by
  simp only [pushedReg_setIp]
  exact push_alikeAtIp _

end

/-! ## Whole instructions -/

/-- R84: the Execute stage of an instruction with no memory operand, in two contexts that differ in the override and, by
what IP makes up for, in the size. -/
theorem execIn_agree {w v : Word} {c c' : Ctx} (hrep : c.rep = c'.rep)
    (hip : w + BitVec.ofNat 16 c.size = v + BitVec.ofNat 16 c'.size) {i : Instr} (hea : i.ea = none) (s : State) :
    AgreeButFault (execIn c i (s.setIp w)) (execIn c' i (s.setIp v)) := by
  induction i with
  | prefixEs i ih | prefixCs i ih | prefixSs i ih | prefixDs i ih | prefixRep i ih | prefixRepne i ih => exact ih hea
  | addRmReg d o | orRmReg d o | andRmReg d o | subRmReg d o | xorRmReg d o | cmpRmReg d o =>
    exact finish_agree hip (aluRmReg_alikeAtIp c c' _ d hea)
  | addAccImm o | orAccImm o | andAccImm o | subAccImm o | xorAccImm o | cmpAccImm o =>
    exact finish_agree hip (aluAccImm_alikeAtIp _ o)
  | addRmImm o | orRmImm o | andRmImm o | subRmImm o | xorRmImm o | cmpRmImm o =>
    exact finish_agree hip (aluRmImm_alikeAtIp c c' _ hea)
  | testRmReg o => exact finish_agree hip (testRmRegOp_alikeAtIp c c' hea)
  | testAccImm o => exact finish_agree hip (testAccImmOp_alikeAtIp o)
  | testRmImm o => exact finish_agree hip (testRmImmOp_alikeAtIp c c' hea)
  | movRmReg o => exact finish_agree hip (movRmRegOp_alikeAtIp c c' hea)
  | movRegRm o => exact finish_agree hip (movRegRmOp_alikeAtIp c c' hea)
  | movRmImm o => exact finish_agree hip (movRmImmOp_alikeAtIp c c' hea)
  | movRegImm o => exact finish_agree hip (movRegImmOp_alikeAtIp o)
  | movAccMem x wd a | jmpFarMem m => cases hea
  | movRmSreg x r =>
    cases x with
    | reg a => exact finish_agree hip (mov_alikeAtIp (.reg16 a) (.imm (s.sreg r)))
    | mem m => cases hea
  | movSregRm r x =>
    cases x with
    | reg a => exact finish_agree hip (mov_alikeAtIp (.sreg r) (.place (.reg16 a)))
    | mem m => cases hea
  | incReg r | decReg r => exact finish_agree hip (incDec_alikeAtIp _ (.reg16 r))
  | incRm o | decRm o => exact finish_agree hip (incDecRm_alikeAtIp c c' _ hea)
  | notRm o => exact finish_agree hip (notRmOp_alikeAtIp c c' hea)
  | mulRm o => exact finish_agree hip (mulRmOp_alikeAtIp c c' hea)
  | divRm o => exact finish_agree hip (divRmOp_alikeAtIp c c' hea)
  | pushReg r => exact finish_agree hip (pushReg_alikeAtIp r)
  | pushRm x =>
    cases x with
    | reg r => exact finish_agree hip (pushReg_alikeAtIp r)
    | mem m => cases hea
  | pushSreg r => exact finish_agree hip (push_alikeAtIp (s.sreg r))
  | pushf => exact finish_agree hip (push_alikeAtIp s.flags)
  | popReg r => exact finish_agree hip (popTo_alikeAtIp (.reg16 r))
  | popEs | popSs | popDs => exact finish_agree hip (popTo_alikeAtIp (.sreg _))
  | popRm x =>
    cases x with
    | reg r => exact finish_agree hip (popTo_alikeAtIp (.reg16 r))
    | mem m => cases hea
  | popf => exact finish_agree hip (.of_setIp (popFlags_setIp s))
  | stosb | stosw => exact finish_agree hip (stos_alikeAtIp hrep _)
  | jo d | jno d | jb d | jnb d | je d | jne d | jbe d | jnbe d | js d | jns d | jp d | jnp d | jl d | jnl d | jle d
  | jnle d => exact branch_agree hip _ _
  | loopnz d => exact loopFamily_agree hip .nz d
  | loopz d => exact loopFamily_agree hip .z d
  | loop d => exact loopFamily_agree hip .always d
  | jcxz d => exact loopFamily_agree hip .cxz d
  | jmpShort d | jmpNear d => exact branch_agree hip true _
  | jmpFar off seg => trivial
  | int3 => exact enter_agree hip 3
  | intImm n => exact enter_agree hip n
  | into => exact into_agree hip
  | iret =>
    simp only [execIn, iretIn, interruptReturn_setIp]
    cases interruptReturn s with
    | ok t => exact rfl
    | error f => trivial

/-- R83: an instruction that is well formed under an override is well formed alone. -/
theorem wellFormedAfter_of_seg {seg rep : Bool} {i : Instr} (h : i.wellFormedAfter true rep = true) :
    i.wellFormedAfter seg rep = true := by
  induction i generalizing rep with
  | prefixEs i ih | prefixCs i ih | prefixSs i ih | prefixDs i ih => cases h
  | prefixRep i ih | prefixRepne i ih =>
    simp only [Instr.wellFormedAfter, Bool.and_eq_true] at h ⊢
    exact ⟨h.1, ih h.2⟩
  | _ => exact h

/-- Settles O29: the override's record differs in the override, which only a memory operand uses, and in the size, which
the next IP makes up for. -/
theorem overrideWithoutMemoryOperand : Obligations.OverrideWithoutMemoryOperand := by
  intro r i s hwf hea
  have hi : i.wellFormed = true := by
    rw [Instr.wellFormed, wellFormedAfter_segBefore, Bool.and_eq_true] at hwf
    exact wellFormedAfter_of_seg hwf.2
  have hip : s.ip + BitVec.ofNat 16 (1 + i.size) = s.ip + 1 + BitVec.ofNat 16 i.size := by
    rw [BitVec.ofNat_add, BitVec.add_assoc]
    rfl
  have hagree := execIn_agree (c := Ctx.of (r.before i)) (c' := Ctx.of i) (by rw [Ctx.of_before]; rfl)
    (by rw [Ctx.of_before]; exact hip) hea s
  rw [exec_wellFormed hwf, execIn_before]
  exact (show AgreeButFault _ (exec i (s.setIp (s.ip + 1))) by rw [exec_wellFormed hi]; exact hagree).iff

end Sys2Proof.Machine
end

section
/-! PROOFS. O16, O17, O20 (R140 to R145): the end-of-image test, the record of a step, and what a step runs. -/

namespace Sys2Proof.Machine

open Sys2Proof

/-! ## The end-of-image test alone answers EndOfImage (R141) -/

theorem failFault_ne_endOfImage (p n q : Nat) (e : DecodeFail) : failFault p n e ≠ .endOfImage q := by
  cases e <;> exact nofun

theorem decodeAt_ne_endOfImage (s : State) (p q : Nat) : decodeAt s p ≠ .error (.endOfImage q) := by
  intro h
  simp only [decodeAt] at h
  split at h
  · cases h
  · exact failFault_ne_endOfImage _ _ _ _ (Except.error.inj h)

/-- R350: no Execute stage ends at the image's end. -/
theorem exec_ne_endOfImage (i : Instr) (s : State) (q : Nat) : exec i s ≠ .fault (.endOfImage q) := by
  intro h
  rcases exec_cases i s with hcore | ⟨e, -, hfail⟩
  · have hans := execIn_ans (Ctx.of i) i s
    rw [← hcore, h] at hans
    rcases Instr.faults_cases hans with hf | ⟨hf, -⟩ | ⟨hf, -⟩ | ⟨hf, -⟩ | ⟨hf, -⟩ <;> cases hf
  · exact failFault_ne_endOfImage _ _ _ _ (Host.Outcome.fault.inj (hfail.symm.trans h))

/-- R144, R145: finding the record of a step fails only as its decode does. -/
theorem recordAt_error {s : State} {p : Nat} {f : Fault} (h : recordAt s p = .error f) : decodeAt s p = .error f := by
  simp only [recordAt] at h
  split at h
  · split at h
    · cases h
    · obtain rfl := Except.error.inj h
      assumption
  · split at h
    · cases h
    · split at h
      · cases h
      · obtain rfl := Except.error.inj h
        assumption

theorem step_endOfImage {s : State} (h : s.imageEnd ≤ s.p0) : step s = .fault (.endOfImage s.p0) := by
  simp only [step, fetch, if_pos h]

theorem step_recordAt_error {s : State} {f : Fault} (hlt : s.p0 < s.imageEnd) (h : recordAt s s.p0 = .error f) :
    step s = .fault f := by
  simp only [step, fetch, if_neg (Nat.not_le.2 hlt), h]

/-- R142, R144: below the image's end a step executes the record that it finds. -/
theorem step_recordAt {s u : State} {d : Record} (hlt : s.p0 < s.imageEnd) (h : recordAt s s.p0 = .ok (d, u)) :
    step s = exec d.instr (dispatched u s.p0 d) := by
  simp only [step, fetch, if_neg (Nat.not_le.2 hlt), h]

/-- R141: below the image's end no step halts there. -/
theorem step_ne_endOfImage {s : State} (hlt : s.p0 < s.imageEnd) (q : Nat) : step s ≠ .fault (.endOfImage q) := by
  cases hrec : recordAt s s.p0 with
  | ok r =>
    obtain ⟨d, u⟩ := r
    rw [step_recordAt hlt hrec]
    exact exec_ne_endOfImage _ _ q
  | error f =>
    rw [step_recordAt_error hlt hrec]
    exact fun h => decodeAt_ne_endOfImage s s.p0 q (Host.Outcome.fault.inj h ▸ recordAt_error hrec)

/-- Settles O16: the test is the first of a step, and nothing after it gives its outcome. -/
theorem haltsExactlyAtImageEnd : Obligations.HaltsExactlyAtImageEnd := by
  intro s p
  change step s = .fault (.endOfImage p) ↔ s.imageEnd ≤ s.p0 ∧ p = s.p0
  rcases Nat.lt_or_ge s.p0 s.imageEnd with hlt | hge
  · exact iff_of_false (step_ne_endOfImage hlt p) fun h => Nat.not_le.2 hlt h.1
  · simp [step_endOfImage hge, hge, eq_comm]

/-! ## The record of a step (R144, R145) -/

section
variable {s : State} {p : Nat} {d : Record}

theorem recordAt_noCache (hc : s.cfg.decodeCache = .none) (h : decodeAt s p = .ok d) : recordAt s p = .ok (d, s) := by
  simp only [recordAt, hc, h]

theorem recordAt_retained (hc : s.cfg.decodeCache = .byIp) (h : retainedAt s.dtable s.ip = some d) :
    recordAt s p = .ok (d, s) := by
  simp only [recordAt, hc, h]

theorem recordAt_fresh (hc : s.cfg.decodeCache = .byIp) (hn : retainedAt s.dtable s.ip = none)
    (h : decodeAt s p = .ok d) : recordAt s p = .ok (d, { s with dtable := retain s.dtable s.ip d }) := by
  simp only [recordAt, hc, hn, h]

end

/-- R95, R96: the record of the bytes that decode. -/
theorem decodeAt_of_decode {s : State} {p : Nat} {i : Instr} {rest : List Byte}
    (h : decode s.cfg.admitTierX (window s p) = .ok (i, rest)) :
    decodeAt s p = .ok { instr := i, size := i.size, offset := p } := by
  have hlen : (window s p).length - rest.length = i.size := by
    rw [(decode_reads h).2, List.length_append, encode_length, Nat.add_sub_cancel]
  simp only [decodeAt, h, hlen]

/-- Settles O17: the record of the step is the one the bytes decode to. -/
theorem stepRunsTheDecodedInstruction : Obligations.StepRunsTheDecodedInstruction := by
  intro s i rest hlt hdec d
  have hd := decodeAt_of_decode hdec
  exact ⟨fun hc => step_recordAt hlt (recordAt_noCache hc hd),
    fun hc hn => step_recordAt hlt (recordAt_fresh hc hn hd)⟩

/-- R34, R145: a step that goes on leaves `last` and the retained decodes as finding its record left them. -/
theorem step_record_cases {s t : State} (h : step s = .next t) :
    ∃ d u, recordAt s s.p0 = .ok (d, u) ∧ t.last = some d ∧ t.dtable = u.dtable := by
  obtain ⟨d, v, hfetch, hexec⟩ := step_cases h
  obtain ⟨-, u, hrec, rfl⟩ := fetch_cases hfetch
  have heff := exec_effect hexec
  exact ⟨d, u, hrec, heff.last, heff.dtable⟩

/-- Settles O20, by the three ways a step can find its record. -/
theorem retainedDecodeIsRedispatched : Obligations.RetainedDecodeIsRedispatched := by
  intro s
  refine ⟨step_endOfImage, fun hc hlt => ⟨fun d hret => ?_, fun hn t hstep => ?_⟩, fun hc t hstep => ?_⟩
  · exact step_recordAt hlt (recordAt_retained hc hret)
  · obtain ⟨d, u, hrec, -, htable⟩ := step_record_cases hstep
    rcases record_cases hrec with ⟨-, -, hret⟩ | ⟨hdec, ⟨-, hnone⟩ | ⟨rfl, -, -⟩⟩
    · exact nomatch hn.symm.trans hret
    · exact nomatch hc.symm.trans hnone
    · refine ⟨d, hdec, ?_, fun ip hip => ?_⟩ <;> rw [htable, retainedAt_retain]
      · exact if_pos rfl
      · exact if_neg hip
  · obtain ⟨d, u, hrec, hlast, htable⟩ := step_record_cases hstep
    rcases record_cases hrec with ⟨-, hbyIp, -⟩ | ⟨hdec, ⟨rfl, -⟩ | ⟨-, hbyIp, -⟩⟩
    · exact nomatch hc.symm.trans hbyIp
    · exact ⟨htable, d, hdec, hlast⟩
    · exact nomatch hc.symm.trans hbyIp

end Sys2Proof.Machine
end

section
/-! PROOFS. O21 (R145, R402): the retained decodes and `DECODE_CACHE` are read by Fetch and Decode alone, so an Execute
stage does the same in `s.uncached`. -/

namespace Sys2Proof.Machine

open Sys2Proof

/-! ## Reads and writes of an uncached state -/

theorem State.setReg16_uncached (s : State) (r : Reg16) (v : Word) :
    s.uncached.setReg16 r v = (s.setReg16 r v).uncached := by cases r <;> rfl

theorem State.reg16_uncached (s : State) (r : Reg16) : s.uncached.reg16 r = s.reg16 r := by cases r <;> rfl

theorem State.setReg8_uncached (s : State) (r : Reg8) (v : Byte) :
    s.uncached.setReg8 r v = (s.setReg8 r v).uncached := by
  simp only [State.setReg8, State.reg16_uncached, State.setReg16_uncached]

theorem State.setSReg_uncached (s : State) (r : SRegDst) (v : Word) :
    s.uncached.setSReg r v = (s.setSReg r v).uncached := by cases r <;> rfl

theorem State.store8_uncached (s : State) (a : Nat) (v : Byte) :
    s.uncached.store8 a v = (s.store8 a v).map State.uncached := by
  simp only [State.store8]
  split <;> rfl

theorem State.store16_uncached (s : State) (a : Nat) (v : Word) :
    s.uncached.store16 a v = (s.store16 a v).map State.uncached := by
  simp only [State.store16]
  split <;> rfl

@[simp] theorem Place.read_uncached {n : Nat} (p : Place n) (s : State) : p.read s.uncached = p.read s := by
  cases p with
  | reg8 r => cases r <;> rfl
  | reg16 r | sreg r => cases r <;> rfl
  | mem8 a | mem16 a => rfl

@[simp] theorem Opnd.read_uncached {n : Nat} (x : Opnd n) (s : State) : x.read s.uncached = x.read s := by
  cases x with
  | place p => exact p.read_uncached s
  | imm v => rfl

theorem Place.write_uncached {n : Nat} (p : Place n) (v : BitVec n) (s : State) :
    p.write v s.uncached = (p.write v s).map State.uncached := by
  cases p with
  | reg8 r => exact congrArg Except.ok (s.setReg8_uncached r v)
  | reg16 r => exact congrArg Except.ok (s.setReg16_uncached r v)
  | sreg r => exact congrArg Except.ok (s.setSReg_uncached r v)
  | mem8 a => exact s.store8_uncached a v
  | mem16 a => exact s.store16_uncached a v

@[simp] theorem rm8_uncached (c : Ctx) (x : Rm Reg8) (s : State) : rm8 c s.uncached x = rm8 c s x := by cases x <;> rfl

@[simp] theorem rm16_uncached (c : Ctx) (x : Rm Reg16) (s : State) : rm16 c s.uncached x = rm16 c s x := by
  cases x <;> rfl

/-! ## The shared operations -/

theorem bind_uncached {α : Type} (e : Exec α) {k k' : α → Exec State} (h : ∀ a, k' a = (k a).map State.uncached) :
    (e >>= k') = (e >>= k).map State.uncached := by
  cases e with
  | ok a => exact h a
  | error f => rfl

/-- One part of an Execute stage after another. -/
theorem then_uncached {e e' : Exec State} (he : e' = e.map State.uncached) {k k' : State → Exec State}
    (h : ∀ t, k' t.uncached = (k t).map State.uncached) : (e' >>= k') = (e >>= k).map State.uncached := by
  subst he
  cases e with
  | ok t => exact h t
  | error f => rfl

section
variable (s : State)

theorem alu_uncached {n : Nat} (op : AluOp) (d : Place n) (x : Opnd n) :
    alu op d x s.uncached = (alu op d x s).map State.uncached := by
  simp only [alu, Place.read_uncached, Opnd.read_uncached]
  refine bind_uncached _ fun a => bind_uncached _ fun b => ?_
  split
  · exact d.write_uncached _ (s.setFlags _)
  · rfl

theorem testOp_uncached {n : Nat} (d : Place n) (x : Opnd n) :
    testOp d x s.uncached = (testOp d x s).map State.uncached := by
  simp only [testOp, Place.read_uncached, Opnd.read_uncached]
  exact bind_uncached _ fun a => bind_uncached _ fun b => rfl

theorem incDec_uncached {n : Nat} (op : ArithOp) (d : Place n) :
    incDec op d s.uncached = (incDec op d s).map State.uncached := by
  simp only [incDec, Place.read_uncached]
  exact bind_uncached _ fun a => d.write_uncached _ (s.setFlags _)

theorem notOp_uncached {n : Nat} (d : Place n) : notOp d s.uncached = (notOp d s).map State.uncached := by
  simp only [notOp, Place.read_uncached]
  exact bind_uncached _ fun a => d.write_uncached _ s

theorem mov_uncached {n : Nat} (d : Place n) (x : Opnd n) : mov d x s.uncached = (mov d x s).map State.uncached := by
  simp only [mov, Opnd.read_uncached]
  exact bind_uncached _ fun a => d.write_uncached _ s

theorem aluAccImm_uncached (op : AluOp) (o : AccImm) :
    aluAccImm op o s.uncached = (aluAccImm op o s).map State.uncached := by
  cases o with
  | byte v => exact alu_uncached s op (.reg8 .al) (.imm v)
  | word v => exact alu_uncached s op (.reg16 .ax) (.imm v)

theorem testAccImmOp_uncached (o : AccImm) : testAccImmOp o s.uncached = (testAccImmOp o s).map State.uncached := by
  cases o with
  | byte v => exact testOp_uncached s (.reg8 .al) (.imm v)
  | word v => exact testOp_uncached s (.reg16 .ax) (.imm v)

theorem movRegImmOp_uncached (o : RegImm) : movRegImmOp o s.uncached = (movRegImmOp o s).map State.uncached := by
  cases o with
  | byte r v => exact mov_uncached s (.reg8 r) (.imm v)
  | word r v => exact mov_uncached s (.reg16 r) (.imm v)

theorem mulRmOp_uncached (c : Ctx) (o : RmOnly) : mulRmOp c o s.uncached = (mulRmOp c o s).map State.uncached := by
  cases o with
  | byte x =>
    simp only [mulRmOp, rm8_uncached, Place.read_uncached]
    exact bind_uncached _ fun m => rfl
  | word x =>
    simp only [mulRmOp, rm16_uncached, Place.read_uncached]
    exact bind_uncached _ fun m => rfl

theorem div8_uncached (v : Byte) : div8 v s.uncached = (div8 v s).map State.uncached := by
  rw [div8, div8, apply_ite (Except.map _), apply_ite (Except.map _)]
  rfl

theorem div16_uncached (v : Word) : div16 v s.uncached = (div16 v s).map State.uncached := by
  rw [div16, div16, apply_ite (Except.map _), apply_ite (Except.map _)]
  rfl

theorem divRmOp_uncached (c : Ctx) (o : RmOnly) : divRmOp c o s.uncached = (divRmOp c o s).map State.uncached := by
  cases o with
  | byte x =>
    simp only [divRmOp, rm8_uncached, Place.read_uncached]
    exact bind_uncached _ (div8_uncached s)
  | word x =>
    simp only [divRmOp, rm16_uncached, Place.read_uncached]
    exact bind_uncached _ (div16_uncached s)

/-! ## The stack and interrupts -/

theorem push_uncached (v : Word) : push v s.uncached = (push v s).map State.uncached :=
  State.store16_uncached (s.setReg16 .sp (s.sp - 2)) _ v

theorem pushReg_uncached (r : Reg16) :
    push (pushedReg r s.uncached) s.uncached = (push (pushedReg r s) s).map State.uncached := by
  have hr : pushedReg r s.uncached = pushedReg r s := by cases r <;> rfl
  rw [hr]
  exact push_uncached s _

theorem pushRmOp_uncached (c : Ctx) (x : Rm Reg16) : pushRmOp c x s.uncached = (pushRmOp c x s).map State.uncached := by
  cases x with
  | reg r => exact pushReg_uncached s r
  | mem m => exact bind_uncached (s.load16 (eaAddr c.segovr m s)) (push_uncached s)

/-- R291: what a pop does with its word is the same where what follows it is. -/
theorem pop_bind_uncached {k : Word × State → Exec State}
    (h : ∀ v t, k (v, t.uncached) = (k (v, t)).map State.uncached) :
    (pop s.uncached >>= k) = (pop s >>= k).map State.uncached := by
  by_cases htop : phys s.ss s.sp = 0xFFFFF
  · rw [pop_top htop, pop_top (s := s.uncached) htop]
    rfl
  · rw [pop_eq htop, pop_eq (s := s.uncached) htop]
    exact h _ (s.setReg16 .sp (s.sp + 2))

theorem popTo_uncached (d : Place 16) : popTo d s.uncached = (popTo d s).map State.uncached :=
  pop_bind_uncached s d.write_uncached

theorem popFlags_uncached : popFlags s.uncached = (popFlags s).map State.uncached :=
  pop_bind_uncached s fun _ _ => rfl

theorem interruptReturn_uncached : interruptReturn s.uncached = (interruptReturn s).map State.uncached :=
  pop_bind_uncached s fun v t => pop_bind_uncached { t with ip := v } fun w u =>
    pop_bind_uncached { u with cs := w } fun _ _ => rfl

theorem enter_uncached (n : Byte) (size : Nat) : enter n size s.uncached = (enter n size s).map State.uncached :=
  then_uncached (push_uncached s s.flags) fun t => then_uncached (push_uncached t s.cs) fun u =>
    then_uncached (push_uncached u (s.nextIp size)) fun x =>
      bind_uncached (x.load16 (4 * n.toNat)) fun _ => bind_uncached (x.load16 (4 * n.toNat + 2)) fun _ => rfl

/-! ## STOS -/

theorem moveDi_uncached (n : Word) : moveDi n s.uncached = (moveDi n s).uncached := s.setReg16_uncached .di _

theorem stosOnce_uncached (w : Width) : stosOnce w s.uncached = (stosOnce w s).map State.uncached := by
  cases w with
  | byte => exact then_uncached (s.store8_uncached _ _) fun t => congrArg Except.ok (moveDi_uncached t 1)
  | word => exact then_uncached (s.store16_uncached _ _) fun t => congrArg Except.ok (moveDi_uncached t 2)

theorem stosRep_uncached (w : Width) (k : Nat) (s : State) :
    stosRep w k s.uncached = (stosRep w k s).map State.uncached := by
  induction k generalizing s with
  | zero => rfl
  | succ k ih =>
    exact then_uncached (stosOnce_uncached s w) fun t => ih (t.setReg16 .cx (t.cx - 1))

theorem stos_uncached (c : Ctx) (w : Width) : stos c w s.uncached = (stos c w s).map State.uncached := by
  simp only [stos]
  split
  · rfl
  · exact stosRep_uncached w s.cx.toNat s
  · exact stosOnce_uncached s w

/-! ## The ends of an Execute stage -/

theorem finish_uncached (c : Ctx) {e e' : Exec State} (h : e' = e.map State.uncached) :
    finish c e' = Out.mapNext State.uncached (finish c e) := by
  subst h
  cases e <;> rfl

theorem redirect_uncached {e e' : Exec State} (h : e' = e.map State.uncached) :
    redirect e' = Out.mapNext State.uncached (redirect e) := by
  subst h
  cases e <;> rfl

theorem branch_uncached (c : Ctx) (taken : Bool) (d : Word) :
    branch c taken d s.uncached = Out.mapNext State.uncached (branch c taken d s) := by
  cases taken <;> rfl

theorem loopFamily_uncached (c : Ctx) (k : LoopKind) (d : Byte) :
    loopFamily c k d s.uncached = Out.mapNext State.uncached (loopFamily c k d s) := by
  cases k with
  | nz | z | always => exact branch_uncached (decCx s) c _ _
  | cxz => exact branch_uncached s c _ _

theorem into_uncached (c : Ctx) : intoIn c s.uncached = Out.mapNext State.uncached (intoIn c s) := by
  by_cases h : getFlag .of s.flags = true
  · rw [intoIn, intoIn, if_pos h, if_pos (show getFlag .of s.uncached.flags = true from h)]
    exact redirect_uncached (enter_uncached s 4 c.size)
  · rw [intoIn, intoIn, if_neg h, if_neg (show ¬ getFlag .of s.uncached.flags = true from h)]
    rfl

end

/-! ## Whole instructions -/

/-- R145: no Execute stage reads the retained decodes or `DECODE_CACHE`. -/
theorem execIn_uncached (c : Ctx) (i : Instr) (s : State) :
    execIn c i s.uncached = Out.mapNext State.uncached (execIn c i s) := by
  induction i with
  | prefixEs i ih | prefixCs i ih | prefixSs i ih | prefixDs i ih | prefixRep i ih | prefixRepne i ih => exact ih
  | addRmReg d o | orRmReg d o | andRmReg d o | subRmReg d o | xorRmReg d o | cmpRmReg d o =>
    cases d <;> cases o <;> exact finish_uncached c (alu_uncached s _ _ _)
  | addAccImm o | orAccImm o | andAccImm o | subAccImm o | xorAccImm o | cmpAccImm o =>
    exact finish_uncached c (aluAccImm_uncached s _ o)
  | addRmImm o | orRmImm o | andRmImm o | subRmImm o | xorRmImm o | cmpRmImm o =>
    cases o <;> exact finish_uncached c (alu_uncached s _ _ _)
  | testAccImm o => exact finish_uncached c (testAccImmOp_uncached s o)
  | testRmReg o | testRmImm o => cases o <;> exact finish_uncached c (testOp_uncached s _ _)
  | incReg r | decReg r => exact finish_uncached c (incDec_uncached s _ (.reg16 r))
  | incRm o | decRm o => cases o <;> exact finish_uncached c (incDec_uncached s _ _)
  | mulRm o => exact finish_uncached c (mulRmOp_uncached s c o)
  | divRm o => exact finish_uncached c (divRmOp_uncached s c o)
  | notRm o => cases o <;> exact finish_uncached c (notOp_uncached s _)
  | movRegImm o => exact finish_uncached c (movRegImmOp_uncached s o)
  | movRmReg o | movRegRm o | movRmImm o => cases o <;> exact finish_uncached c (mov_uncached s _ _)
  | movAccMem x w a => cases x <;> cases w <;> exact finish_uncached c (mov_uncached s _ _)
  | movRmSreg x r | movSregRm r x => exact finish_uncached c (mov_uncached s _ _)
  | pushReg r => exact finish_uncached c (pushReg_uncached s r)
  | pushRm x => exact finish_uncached c (pushRmOp_uncached s c x)
  | pushSreg r => exact finish_uncached c (push_uncached s (s.sreg r))
  | pushf => exact finish_uncached c (push_uncached s s.flags)
  | popReg r | popEs | popSs | popDs | popRm x => exact finish_uncached c (popTo_uncached s _)
  | popf => exact finish_uncached c (popFlags_uncached s)
  | stosb | stosw => exact finish_uncached c (stos_uncached s c _)
  | jo d | jno d | jb d | jnb d | je d | jne d | jbe d | jnbe d | js d | jns d | jp d | jnp d | jl d | jnl d | jle d
  | jnle d => exact branch_uncached s c _ _
  | loopnz d => exact loopFamily_uncached s c .nz d
  | loopz d => exact loopFamily_uncached s c .z d
  | loop d => exact loopFamily_uncached s c .always d
  | jcxz d => exact loopFamily_uncached s c .cxz d
  | jmpShort d | jmpNear d => exact branch_uncached s c true _
  | jmpFar off seg | jmpFarMem m => rfl
  | int3 => exact redirect_uncached (enter_uncached s 3 c.size)
  | intImm n => exact redirect_uncached (enter_uncached s n c.size)
  | into => exact into_uncached s c
  | iret => exact redirect_uncached (interruptReturn_uncached s)

theorem exec_uncached (i : Instr) (s : State) : exec i s.uncached = Out.mapNext State.uncached (exec i s) := by
  rw [exec_eq_execPrefixed, exec_eq_execPrefixed, execPrefixed, execPrefixed]
  split
  · rfl
  · exact execIn_uncached (Ctx.of i) i s

/-! ## The step -/

theorem decodeAt_uncached (s : State) (p : Nat) : decodeAt s.uncached p = decodeAt s p := rfl

/-- R145: where a retained record is a fresh decode, a step finds what decoding gives. -/
theorem recordAt_of_decodeAt {s : State} {p : Nat} {d : Record}
    (hfresh : ∀ d, retainedAt s.dtable s.ip = some d → decodeAt s p = .ok d) (h : decodeAt s p = .ok d) :
    ∃ u, recordAt s p = .ok (d, u) ∧ u.uncached = s.uncached := by
  cases hc : s.cfg.decodeCache with
  | none => exact ⟨s, recordAt_noCache hc h, rfl⟩
  | byIp =>
    cases hret : retainedAt s.dtable s.ip with
    | none => exact ⟨_, recordAt_fresh hc hret h, rfl⟩
    | some d' =>
      obtain rfl := Except.ok.inj ((hfresh d' hret).symm.trans h)
      exact ⟨s, recordAt_retained hc hret, rfl⟩

theorem recordAt_of_decodeAt_error {s : State} {p : Nat} {f : Fault}
    (hfresh : ∀ d, retainedAt s.dtable s.ip = some d → decodeAt s p = .ok d) (h : decodeAt s p = .error f) :
    recordAt s p = .error f := by
  have hret : retainedAt s.dtable s.ip = none :=
    Option.eq_none_iff_forall_ne_some.2 fun d hd => nomatch (hfresh d hd).symm.trans h
  cases hc : s.cfg.decodeCache <;> simp only [recordAt, hc, hret, h]

/-- Settles O21: the two steps execute the same record, in states that are the same uncached. -/
theorem cacheAgreesWhenRecordsAreFresh : Obligations.CacheAgreesWhenRecordsAreFresh := by
  intro s hfresh
  rcases Nat.lt_or_ge s.p0 s.imageEnd with hlt | hge
  · cases hd : decodeAt s s.p0 with
    | ok d =>
      obtain ⟨u, hrec, hu⟩ := recordAt_of_decodeAt hfresh hd
      have hnone : recordAt s.uncached s.p0 = .ok (d, s.uncached) :=
        recordAt_noCache rfl ((decodeAt_uncached s s.p0).trans hd)
      calc Out.mapNext State.uncached (step s)
        _ = Out.mapNext State.uncached (exec d.instr (dispatched u s.p0 d)) := by rw [step_recordAt hlt hrec]
        _ = exec d.instr (dispatched u s.p0 d).uncached := (exec_uncached _ _).symm
        _ = exec d.instr (dispatched s.uncached s.p0 d) := by rw [← hu]; rfl
        _ = step s.uncached := (step_recordAt (s := s.uncached) hlt hnone).symm
    | error f =>
      rw [step_recordAt_error hlt (recordAt_of_decodeAt_error hfresh hd)]
      exact (step_decodeAt_failed (s := s.uncached) hlt rfl ((decodeAt_uncached s s.p0).trans hd)).symm
  · rw [step_endOfImage hge, step_endOfImage (s := s.uncached) hge]
    rfl

end Sys2Proof.Machine
end

section
/-! PROOFS. O30 to O34, O36 to O39 (R143, R160 to R165, R180 to R187, R200 to R212, R240 to R245): the instructions that
compute or copy, each from what its shared operation leaves at the width of its operands. -/

namespace Sys2Proof.Machine

open Sys2Proof

/-! ## A property at the width of the operands -/

/-- A width is 8 or 16, so wide enough for AF. R152, R163. -/
theorem Pair.Holds.imp {P Q : ∀ n, Place n → Opnd n → Prop} {a : Pair} (h : a.Holds P)
    (hPQ : ∀ n d x, 4 < n → P n d x → Q n d x) : a.Holds Q := by
  cases a with
  | byte d x => exact hPQ 8 d x (by decide) h
  | word d x => exact hPQ 16 d x (by decide) h

theorem Single.Holds.imp {P Q : ∀ n, Place n → Prop} {a : Single} (h : a.Holds P)
    (hPQ : ∀ n p, 4 < n → P n p → Q n p) : a.Holds Q := by
  cases a with
  | byte p => exact hPQ 8 p (by decide) h
  | word p => exact hPQ 16 p (by decide) h

/-! ## What a completed instruction leaves -/

/-- A place written and a FLAGS word; nothing else but the bits `bits` and IP is changed. -/
structure Leaves {n : Nat} (d : Place n) (v : BitVec n) (w : Word) (bits : List Nat) (s t : State) : Prop where
  stored : d.Stored v s t
  flags : t.flags = w
  frame : Frame d.gp d.seg bits d.bytes 0 s t

section
variable {i : Instr} {g : Option SReg} {s : State} {e : Exec State}
  (hx : exec (under g i) s = finish (ctxUnder g i) e)
include hx

/-- R143: an instruction that returns normally leaves IP past itself. -/
theorem completes_setIp {t : State} (he : e = .ok t) (hip : t.ip = s.ip) :
    ∃ y, exec (under g i) s = .next (t.setIp y) ∧ Advanced (under g i) s (t.setIp y) :=
  ⟨_, by rw [hx, he, finish_ok], advanced_of hip⟩

/-- An instruction that writes FLAGS, then a place. -/
theorem completes_put {n : Nat} {d : Place n} {v : BitVec n} {w : Word} {bits : List Nat}
    (he : e = .ok (d.put v (s.setFlags w))) (hw : ∀ k, k ∉ bits → w.getLsbD k = s.flags.getLsbD k) :
    ∃ t, exec (under g i) s = .next t ∧ Advanced (under g i) s t ∧ Leaves d v w bits s t := by
  obtain ⟨y, hexec, hadv⟩ := completes_setIp hx he (d.put_ip v _)
  exact ⟨_, hexec, hadv, (d.put_stored v _).ofFlags.setIp y, d.put_flags v _, ((d.put_frame v _).ofFlags hw).setIp y⟩

/-- An instruction that writes FLAGS alone. -/
theorem completes_setFlags {w : Word} {bits : List Nat} (he : e = .ok (s.setFlags w))
    (hw : ∀ k, k ∉ bits → w.getLsbD k = s.flags.getLsbD k) :
    ∃ t, exec (under g i) s = .next t ∧ Advanced (under g i) s t ∧ Frame [] [] bits [] 0 s t ∧ t.flags = w := by
  obtain ⟨y, hexec, hadv⟩ := completes_setIp hx he rfl
  exact ⟨_, hexec, hadv, ((Frame.refl _).ofFlags hw).setIp y, rfl⟩

end

/-! ## The two-operand operations that store a result (R200, R201, R240 to R242) -/

theorem alu_stores {op : AluOp} (hop : aluStores op = true) {n : Nat} {d : Place n} {x : Opnd n} (hd : d.InMemory)
    (hx : x.InMemory) (s : State) :
    alu op d x s = .ok (d.put (aluResult op (d.value s) (x.value s))
      (s.setFlags (aluFlags s.cfg.parityScope op (d.value s) (x.value s) s.flags))) := by
  rw [alu_eq op hd hx, if_pos hop]

theorem exec_alu_stores {op : AluOp} (hop : aluStores op = true) {f : AluForm} {g : Option SReg} {s : State}
    (h : (f.operands g s).inBounds) :
    ∃ t, exec (under g (f.instr op)) s = .next t ∧ Advanced (under g (f.instr op)) s t ∧
      (f.operands g s).Holds fun _ d x =>
        Leaves d (aluResult op (d.value s) (x.value s))
          (aluFlags s.cfg.parityScope op (d.value s) (x.value s) s.flags) statusBits s t := by
  have hm := AluForm.inMemory h
  have hexec := exec_alu op f g s
  generalize f.operands g s = a at hm hexec ⊢
  cases a with
  | byte d x => exact completes_put hexec (alu_stores hop hm.1 hm.2 s) fun _ hk => aluFlags_other _ _ _ _ _ hk
  | word d x => exact completes_put hexec (alu_stores hop hm.1 hm.2 s) fun _ hk => aluFlags_other _ _ _ _ _ hk

/-- Settles O30: the stored result is the sum or the difference, and the flags are the arithmetic routine's. -/
theorem addAndSubtract : Obligations.AddAndSubtract := by
  intro f g s h
  obtain ⟨t, hadd, hadv, hH⟩ := exec_alu_stores (op := .add) rfl h
  obtain ⟨t', hsub, hadv', hH'⟩ := exec_alu_stores (op := .sub) rfl h
  refine ⟨⟨t, hadd, hadv, hH.imp fun n d x hn L => ⟨?_, ?_, L.frame⟩⟩,
    ⟨t', hsub, hadv', hH'.imp fun n d x hn L => ⟨?_, ?_, L.frame⟩⟩⟩
  · rw [← ArithOp.result_add]
    exact L.stored
  · rw [L.flags]
    exact arithFlags_add_spec _ _ _ _ hn
  · rw [← ArithOp.result_sub]
    exact L.stored
  · rw [L.flags]
    exact arithFlags_sub_spec _ _ _ _ hn

/-- Settles O36: the stored result is bitwise, and the flags are the logical routine's. -/
theorem bitwiseOperations : Obligations.BitwiseOperations := by
  intro op f g s hop h
  simp only [List.mem_cons, List.not_mem_nil, or_false] at hop
  have hstores : aluStores op = true := by rcases hop with rfl | rfl | rfl <;> rfl
  obtain ⟨t, hexec, hadv, hH⟩ := exec_alu_stores hstores h
  refine ⟨t, hexec, hadv, hH.imp fun n d x _ L => ⟨_, fun k => ?_, L.stored, ?_, L.frame⟩⟩
  · rcases hop with rfl | rfl | rfl
    · exact BitVec.getLsbD_and
    · exact BitVec.getLsbD_or
    · exact BitVec.getLsbD_xor
  · rw [L.flags]
    rcases hop with rfl | rfl | rfl <;> exact logicFlags_spec _ _ _

/-! ## The two-operand operations that write flags alone (R202, R243) -/

/-- CMP at either width. -/
theorem Pair.cmp_eq {a : Pair} (h : a.InMemory) (s : State) :
    ∃ w, a.alu .cmp s = .ok (s.setFlags w) ∧ (∀ k, k ∉ statusBits → w.getLsbD k = s.flags.getLsbD k) ∧
      a.Holds fun _ d x => w = arithFlags s.cfg.parityScope .sub (d.value s) (x.value s) s.flags := by
  cases a with
  | byte d x => exact ⟨_, alu_eq .cmp h.1 h.2 s, fun _ hk => aluFlags_other _ _ _ _ _ hk, rfl⟩
  | word d x => exact ⟨_, alu_eq .cmp h.1 h.2 s, fun _ hk => aluFlags_other _ _ _ _ _ hk, rfl⟩

/-- TEST at either width. -/
theorem Pair.test_eq {a : Pair} (h : a.InMemory) (s : State) :
    ∃ w, a.test s = .ok (s.setFlags w) ∧ (∀ k, k ∉ statusBits → w.getLsbD k = s.flags.getLsbD k) ∧
      a.Holds fun _ d x => w = logicFlags s.cfg.parityScope (d.value s &&& x.value s) s.flags := by
  cases a with
  | byte d x => exact ⟨_, testOp_eq h.1 h.2 s, fun _ hk => logicFlags_other _ _ _ hk, rfl⟩
  | word d x => exact ⟨_, testOp_eq h.1 h.2 s, fun _ hk => logicFlags_other _ _ _ hk, rfl⟩

/-- Settles O31: CMP leaves the flags of a subtraction, and nothing else. -/
theorem compareStoresNothing : Obligations.CompareStoresNothing := by
  intro f g s h
  obtain ⟨w, hcmp, hw, hH⟩ := Pair.cmp_eq (AluForm.inMemory h) s
  obtain ⟨t, hexec, hadv, F, rfl⟩ := completes_setFlags (exec_alu .cmp f g s) hcmp hw
  refine ⟨t, hexec, hadv, F, hH.imp fun n d x hn hfl => ?_⟩
  rw [hfl]
  exact arithFlags_sub_spec _ _ _ _ hn

/-- Settles O37: TEST leaves the flags of a bitwise and, and nothing else. -/
theorem testStoresNothing : Obligations.TestStoresNothing := by
  intro f g s h
  obtain ⟨w, htest, hw, hH⟩ := Pair.test_eq (TestForm.inMemory h) s
  obtain ⟨t, hexec, hadv, F, rfl⟩ := completes_setFlags (exec_test f g s) htest hw
  refine ⟨t, hexec, hadv, F, hH.imp fun n d x _ hfl => ?_⟩
  rw [hfl]
  exact logicFlags_spec _ _ _

/-! ## INC and DEC (R203 to R206) -/

/-- INC (`.add`) and DEC (`.sub`) at either width. -/
theorem incDec_completes {op : ArithOp} {i : Instr} {g : Option SReg} {s : State} {a : Single}
    (hexec : exec (under g i) s = finish (ctxUnder g i) (a.incDec op s)) (hm : a.InMemory) :
    ∃ t, exec (under g i) s = .next t ∧ Advanced (under g i) s t ∧ a.Holds fun _ d =>
      Leaves d (op.result (d.value s) 1) (incDecFlags s.cfg op (d.value s) s.flags) statusBits s t := by
  cases a with
  | byte d => exact completes_put hexec (incDec_eq op hm s) fun _ hk => incDecFlags_other _ _ _ _ hk
  | word d => exact completes_put hexec (incDec_eq op hm s) fun _ hk => incDecFlags_other _ _ _ _ hk

/-- Settles O32: INC and DEC store the sum or the difference with 1, and keep or compute CF. -/
theorem incrementAndDecrement : Obligations.IncrementAndDecrement := by
  intro f g s h
  obtain ⟨t, hinc, hadv, hH⟩ := incDec_completes (exec_inc f g s) (StepForm.inMemory h)
  obtain ⟨t', hdec, hadv', hH'⟩ := incDec_completes (exec_dec f g s) (StepForm.inMemory h)
  refine ⟨⟨t, hinc, hadv, hH.imp fun n p hn L => ⟨?_, L.frame, _, arithFlags_add_spec _ _ _ s.flags hn, ?_⟩⟩,
    ⟨t', hdec, hadv', hH'.imp fun n p hn L => ⟨?_, L.frame, _, arithFlags_sub_spec _ _ _ s.flags hn, ?_⟩⟩⟩
  · rw [← ArithOp.result_add]
    exact L.stored
  · rw [L.flags]
    exact incDecFlags_spec s.cfg .add (p.value s) s.flags
  · rw [← ArithOp.result_sub]
    exact L.stored
  · rw [L.flags]
    exact incDecFlags_spec s.cfg .sub (p.value s) s.flags

/-! ## NOT and MOV (R180, R244) -/

section
variable {i : Instr} {g : Option SReg} {s : State} {n : Nat} {d : Place n}

theorem notOp_completes (hexec : exec (under g i) s = finish (ctxUnder g i) (notOp d s)) (hd : d.InMemory) :
    ∃ t, exec (under g i) s = .next t ∧ Advanced (under g i) s t ∧
      d.Stored (BitVec.ofNat n (2 ^ n - 1 - (d.value s).toNat)) s t ∧ Frame d.gp d.seg [] d.bytes 0 s t := by
  obtain ⟨t, hnot, hadv, L⟩ := completes_put hexec (notOp_eq hd s) fun _ _ => rfl
  rw [← not_eq_ofNat]
  exact ⟨t, hnot, hadv, L.stored, L.frame⟩

theorem mov_completes {x : Opnd n} (hexec : exec (under g i) s = finish (ctxUnder g i) (mov d x s)) (hd : d.InMemory)
    (hx : x.InMemory) :
    ∃ t, exec (under g i) s = .next t ∧ Advanced (under g i) s t ∧
      d.Stored (x.value s) s t ∧ Frame d.gp d.seg [] d.bytes 0 s t := by
  obtain ⟨t, hmov, hadv, L⟩ := completes_put hexec (mov_eq hd hx s) fun _ _ => rfl
  exact ⟨t, hmov, hadv, L.stored, L.frame⟩

end

/-- Settles O38: NOT of the operand at its width. -/
theorem notComplements : Obligations.NotComplements := by
  intro o g s h
  have hm := rmSingle_inMemory h
  have hexec := exec_not o g s
  generalize rmSingle g s o = a at hm hexec ⊢
  cases a with
  | byte d => exact notOp_completes hexec hm
  | word d => exact notOp_completes hexec hm

/-- Settles O39: MOV of the operands at their width. -/
theorem moveCopies : Obligations.MoveCopies := by
  intro f g s h
  have hm := MovForm.inMemory h
  have hexec := exec_mov f g s
  generalize f.operands g s = a at hm hexec ⊢
  cases a with
  | byte d x => exact mov_completes hexec hm.1 hm.2
  | word d x => exact mov_completes hexec hm.1 hm.2

/-! ## MUL and DIV (R207 to R212) -/

/-- Settles O33: MUL leaves the exact product, and CF and OF say whether its high half is zero. -/
theorem multiplyExactly : Obligations.MultiplyExactly := by
  intro g s
  refine ⟨fun rm => ?_, fun rm h => ?_⟩
  · refine ⟨_, exec_mul_byte g rm s, nextIp_toNat s _, mul8_ax _ s, ?_, ?_, (mul8_frame _ s).setIp _⟩
    · exact (congrArg (getFlag .cf) (mul8_flags _ s)).trans (getFlag_mulFlags_cf _ _ _)
    · exact (congrArg (getFlag .of) (mul8_flags _ s)).trans (getFlag_mulFlags_of _ _ _)
  · refine ⟨_, exec_mul_word h, nextIp_toNat s _, mul16_value _ s, ?_, ?_, (mul16_frame _ s).setIp _⟩
    · exact (congrArg (getFlag .cf) (mul16_flags _ s)).trans (getFlag_mulFlags_cf _ _ _)
    · exact (congrArg (getFlag .of) (mul16_flags _ s)).trans (getFlag_mulFlags_of _ _ _)

/-- Settles O34: DIV with a quotient that fits answers the quotient and the remainder. -/
theorem divideWithRemainder : Obligations.DivideWithRemainder := by
  intro g s
  constructor
  · intro rm v hfit
    obtain ⟨t, hdiv, hip, hqr, hlt, F⟩ := div8_eq hfit
    obtain ⟨y, hexec, hadv⟩ := completes_setIp (exec_div_byte g rm s) hdiv hip
    exact ⟨_, hexec, hadv, hqr, hlt, F.setIp y⟩
  · intro rm v h hfit
    obtain ⟨t, hdiv, hip, hqr, hlt, F⟩ := div16_eq hfit
    obtain ⟨y, hexec, hadv⟩ := completes_setIp (exec_div_word h) hdiv hip
    exact ⟨_, hexec, hadv, hqr, hlt, F.setIp y⟩

end Sys2Proof.Machine
end

section
/-! PROOFS. O45, O46, O51 (R143, R290 to R298, R313): the pushes, the pops to an operand, and INTO with OF = 0. -/

namespace Sys2Proof.Machine

open Sys2Proof

/-- Settles O45: a push of the form's word, then Advance. -/
theorem pushStoresWord : Obligations.PushStoresWord := by
  intro f g s hsrc hstack
  obtain ⟨y, hexec, hadv⟩ := completes_setIp (exec_push hsrc) (push_eq hstack _) (s.pushed_ip _)
  exact ⟨_, hexec, hadv, s.pushed_sp (f.value g s), s.pushed_word (f.value g s), (s.pushed_frame _).setIp y⟩

/-- What a word destination holds does not speak of the state before the write. -/
theorem Place.Stored.of_start {d : Place 16} {v : Word} {s s' t : State} (h : d.Stored v s t) : d.Stored v s' t := by
  cases d <;> exact h

/-- R296, R297: a destination other than SP is not part of SP. -/
theorem PopForm.sp_not_mem_gp {f : PopForm} (h : f.isSp = false) (g : Option SReg) (s : State) :
    .sp ∉ (f.dst g s).gp := by
  have hne : ∀ r, r ≠ Reg16.sp → .sp ∉ [r] := fun r hr hmem => hr (List.mem_singleton.1 hmem).symm
  cases f with
  | reg r => exact hne r (by rintro rfl; exact absurd h (by decide))
  | rm x =>
    cases x with
    | reg r => exact hne r (by rintro rfl; exact absurd h (by decide))
    | mem m => exact List.not_mem_nil
  | sreg r => exact List.not_mem_nil

/-- Settles O46: SP is raised, then the word is written to the destination. -/
theorem popLoadsWord : Obligations.PopLoadsWord := by
  intro f g s hstack hdst
  obtain ⟨y, hexec, hadv⟩ := completes_setIp (exec_pop f g s) (popTo_eq hstack (PopForm.inMemory hdst)) (by simp)
  have F := (f.dst g s).put_frame ((Place.mem16 (phys s.ss s.sp)).value s) (s.setReg16 .sp (s.sp + 2))
  refine ⟨_, hexec, hadv, ((f.dst g s).put_stored _ _).of_start.setIp y, fun hsp => ?_,
    (((Place.reg16 .sp).put_frame (s.sp + 2) s).trans F).setIp y⟩
  exact (F.gp .sp (PopForm.sp_not_mem_gp hsp g s)).trans (by simp)

/-- Settles O51: an untaken INTO is Advance alone. -/
theorem intoNotTaken : Obligations.IntoNotTaken := by
  intro g s hof
  have huntaken : exec (under g .into) s = finish (ctxUnder g .into) (.ok s) := by
    rw [exec_under rfl, execIn, intoIn, hof]
    rfl
  obtain ⟨y, hexec, hadv⟩ := completes_setIp huntaken rfl rfl
  exact ⟨_, hexec, hadv, (Frame.refl s).setIp y⟩

end Sys2Proof.Machine
end

section
/-! PROOFS. O35 (R209, R211): the faults of DIV. -/

namespace Sys2Proof.Machine

open Sys2Proof

section
variable {g : Option SReg} {s : State}

/-- R209: DIV of AX by a byte operand that is 0. -/
theorem exec_div_byte_zero {x : Rm Reg8} (hv : ((rmByte g s x).value s).toNat = 0) :
    exec (under g (.divRm (.byte x))) s = .fault (.divideByZero s.p0) := by
  rw [exec_div_byte, BitVec.eq_of_toNat_eq (y := 0#8) hv]
  exact congrArg (finish _) (div8_zero s)

/-- R209: DIV of DX:AX by a word operand that is 0. -/
theorem exec_div_word_zero {x : Rm Reg16} (h : (rmWord g s x).inBounds) (hv : ((rmWord g s x).value s).toNat = 0) :
    exec (under g (.divRm (.word x))) s = .fault (.divideByZero s.p0) := by
  rw [exec_div_word h, BitVec.eq_of_toNat_eq (y := 0#16) hv]
  exact congrArg (finish _) (div16_zero s)

/-- R211: DIV of AX by a byte operand whose quotient does not fit in AL. -/
theorem exec_div_byte_overflow {x : Rm Reg8} (hv : ((rmByte g s x).value s).toNat ≠ 0)
    (hq : 256 * ((rmByte g s x).value s).toNat ≤ s.ax.toNat) :
    exec (under g (.divRm (.byte x))) s = .fault (.divideOverflow s.p0) := by
  rw [exec_div_byte, div8_overflow (fun e => hv (congrArg BitVec.toNat e)) hq, finish_error]

/-- R211: DIV of DX:AX by a word operand whose quotient does not fit in AX. -/
theorem exec_div_word_overflow {x : Rm Reg16} (h : (rmWord g s x).inBounds)
    (hv : ((rmWord g s x).value s).toNat ≠ 0)
    (hq : 65536 * ((rmWord g s x).value s).toNat ≤ s.dx.toNat * 65536 + s.ax.toNat) :
    exec (under g (.divRm (.word x))) s = .fault (.divideOverflow s.p0) := by
  rw [exec_div_word h, div16_overflow (fun e => hv (congrArg BitVec.toNat e)) hq, finish_error]

/-- R209, R211: the high half of the dividend divided by itself is 0 by 0, or a quotient of 2^16 or more. -/
theorem exec_div_dx (g : Option SReg) (s : State) :
    exec (under g (.divRm (.word (.reg .dx)))) s =
      .fault (if s.dx.toNat = 0 then .divideByZero s.p0 else .divideOverflow s.p0) := by
  have hbounds : (rmWord g s (.reg .dx)).inBounds := trivial
  split
  next hzero => exact exec_div_word_zero hbounds hzero
  next hzero =>
    have hquot : 65536 * s.dx.toNat ≤ s.dx.toNat * 65536 + s.ax.toNat := by omega
    exact exec_div_word_overflow hbounds hzero hquot

end

/-- Settles O35: a zero divisor or a quotient too large at each width; DX as the divisor is always one of the two. -/
theorem divideFaults : Obligations.DivideFaults := by
  intro g s
  refine ⟨fun rm => ⟨exec_div_byte_zero, exec_div_byte_overflow⟩,
    fun rm h => ⟨exec_div_word_zero h, exec_div_word_overflow h⟩, fun t hnext => ?_⟩
  rw [exec_div_dx] at hnext
  cases hnext

end Sys2Proof.Machine
end

section
/-! PROOFS. O41 to O43 (R260, R262, R279 to R284): the relative branches, each one `branch` on its own condition. -/

namespace Sys2Proof.Machine

open Sys2Proof

/-- R260: a branch out of a state `u` that differs from `s` in CX at most, in the words of `Jumped`: `w` is the
displacement `disp` as a word, and `P` what the model tests. -/
theorem branch_jumped {i : Instr} {c : Ctx} {s u : State} {cx : Word} {disp : Int} {w : Word} {b : Bool} {P : Prop}
    (hsize : c.size = i.size) (hip : u.ip = s.ip) (hjump : ∀ v, Jumped v cx s (u.setIp v))
    (hdisp : branchTarget i disp s = s.nextIp i.size + w) (hb : b = true ↔ P) :
    ∃ t, branch c b w u = .next t ∧ (P → Jumped (branchTarget i disp s) cx s t) ∧
      (¬ P → Jumped (fallThrough i s) cx s t) := by
  have hnext : u.nextIp c.size = s.nextIp i.size := by rw [State.nextIp, hip, hsize, State.nextIp]
  refine ⟨_, branch_eq c b w u, fun hp => ?_, fun hp => ?_⟩
  · rw [if_pos (hb.2 hp), hnext, ← hdisp]
    exact hjump _
  · rw [if_neg (mt hb.1 hp), hnext, ← fallThrough_eq]
    exact hjump _

/-! ## Conditional jumps (R262) -/

/-- R262: `cond(cccc XOR 1) = NOT cond(cccc)`, for the model's test: by double negation or by De Morgan. -/
theorem condHolds_xor_one (c : Cond) (w : Word) : condHolds (Cond.ofNum (c.num ^^^ 1)) w = !condHolds c w := by
  cases c with
  | o | b | e | s | p | nl => rfl
  | no | nb | ne | ns | np | l => exact (Bool.not_not _).symm
  | be | nbe | le | nle =>
    simp only [condHolds, bne, Bool.not_or, Bool.not_and, Bool.not_not]
    rfl

/-- Settles O41: a branch on the model's test, which is the table's condition. -/
theorem conditionalJumps : Obligations.ConditionalJumps := by
  intro c d g s
  refine ⟨?_, ?_⟩
  · rw [exec_jcc]
    exact branch_jumped rfl rfl (jumped_setIp s) (branchTarget_byte _ d s) (condHolds_iff c s.flags)
  · rw [← condHolds_iff, ← condHolds_iff, condHolds_xor_one, Bool.not_eq_true', Bool.not_eq_true]

/-! ## The loop family (R280 to R283) -/

theorem decCx_cx (s : State) : (decCx s).cx = BitVec.ofInt 16 (s.cx.toNat - 1) := (cx_sub_one s).symm

theorem jumped_decCx (s : State) (v : Word) : Jumped v (BitVec.ofInt 16 (s.cx.toNat - 1)) s ((decCx s).setIp v) := by
  rw [cx_sub_one]
  exact jumped_setCx s v _

/-- Settles O42: a branch out of the state with CX decremented, except for JCXZ, which branches out of `s` itself. -/
theorem loopFamily_jumps : Obligations.LoopFamily := by
  intro k d g s
  dsimp only
  rw [exec_loop]
  have htarget := branchTarget_byte (under g (k.instr d)) d s
  cases k with
  | nz | z | always => exact branch_jumped rfl rfl (jumped_decCx s) htarget (by simp [decCx_cx])
  | cxz => exact branch_jumped rfl rfl (jumped_setIp s) htarget (by simp)

/-! ## Unconditional jumps (R284) -/

/-- R284: a branch that is always taken. -/
theorem branch_true_jumped {i : Instr} {c : Ctx} {s : State} {disp : Int} {w : Word} (hsize : c.size = i.size)
    (hdisp : branchTarget i disp s = s.nextIp i.size + w) :
    ∃ t, branch c true w s = .next t ∧ Jumped (branchTarget i disp s) s.cx s t := by
  obtain ⟨t, hexec, htaken, -⟩ := branch_jumped hsize rfl (jumped_setIp s) hdisp (iff_of_true rfl trivial)
  exact ⟨t, hexec, htaken trivial⟩

/-- Settles O43: both are branches that are always taken. -/
theorem unconditionalJumps : Obligations.UnconditionalJumps := by
  intro d w g s
  rw [exec_under rfl, exec_under rfl]
  exact ⟨branch_true_jumped rfl (branchTarget_byte _ d s), branch_true_jumped rfl (branchTarget_word _ w s)⟩

end Sys2Proof.Machine
end

section
/-! PROOFS. O49, O53 (R291, R300, R314): a push undone by a pop, and the return from an interrupt. -/

namespace Sys2Proof.Machine

open Sys2Proof

/-! ## A push, then a pop (R300) -/

/-- R296, R297: a destination that is SP. -/
theorem PopForm.dst_eq_sp {f : PopForm} (h : f.isSp = true) (g : Option SReg) (s : State) : f.dst g s = .reg16 .sp := by
  cases f with
  | reg r =>
    obtain rfl : r = .sp := eq_of_beq h
    rfl
  | rm x =>
    obtain rfl : x = .reg .sp := eq_of_beq h
    rfl
  | sreg r => exact absurd h Bool.false_ne_true

/-- Settles O49: the pop reads the word the push stored, its stack word being at the same address, and raises SP by the
2 the push lowered it by; a pop into SP writes SP last. -/
theorem pushPopRoundTrip : Obligations.PushPopRoundTrip := by
  intro f h g g' s hsrc hstack
  obtain ⟨t, hpush, -, hsp, hword, hframe⟩ := pushStoresWord f g s hsrc hstack
  have haddr : phys t.ss t.sp = pushAddr s := by
    have hss : t.ss = s.ss := hframe.seg .ss List.not_mem_nil
    rw [hss, hsp, pushAddr]
  have hpop : phys t.ss t.sp ≠ 0xFFFFF := haddr ▸ hstack
  have hback : t.sp + 2 = s.sp := by rw [hsp, BitVec.sub_add_cancel]
  refine ⟨t, hpush, fun hdst => ?_, ?_⟩
  · obtain ⟨u, hexec, -, hstored, hraised, -⟩ := popLoadsWord h g' t hpop hdst
    have hvalue : (Place.mem16 (phys t.ss t.sp)).value t = f.value g s :=
      BitVec.eq_of_toNat_eq (by rw [Place.value_word, haddr, hword])
    rw [hvalue] at hstored
    refine ⟨u, hexec, hstored, ?_⟩
    split
    next hinto =>
      rw [PopForm.dst_eq_sp hinto] at hstored
      exact hstored
    next hother => exact (hraised (Bool.eq_false_iff.2 hother)).trans hback
  · obtain ⟨u, hexec, -, hraised, hflags, -⟩ := popfLoadsAllFlags g' t hpop
    exact ⟨u, hexec, BitVec.eq_of_toNat_eq (by rw [hflags, haddr, hword]), hraised.trans hback⟩

/-! ## The return from an interrupt (R314) -/

/-- A write of CS adds CS alone to what is changed. -/
theorem Frame.setCs {gp seg bits bytes d} {s t : State} (h : Frame gp seg bits bytes d s t) (v : Word) :
    Frame gp (.cs :: seg) bits bytes d s { t with cs := v } where
  gp r hr := by
    rw [← h.gp r hr]
    cases r <;> rfl
  seg r hr := by
    rw [List.mem_cons, not_or] at hr
    rw [← h.seg r hr.2]
    cases r with
    | cs => exact absurd rfl hr.1
    | es | ss | ds => rfl
  flags := h.flags
  mem := h.mem
  bounds := h.bounds
  engine := h.engine
  cfg := h.cfg
  draws := h.draws

/-- R314: an IRET changes SP, CS, FLAGS and IP alone. -/
theorem State.returned_frame (s : State) : Frame [.sp] [.cs] (List.range 16) [] 0 s s.returned :=
  ((((Place.reg16 .sp).put_frame (s.sp + 6) s).setCs _).setFlags _).setIp _

/-- Settles O53: the return read field by field, each popped word being a word of memory. -/
theorem interruptReturn_loads : Obligations.InterruptReturn := by
  intro g s a1 a2 a3 h1 h2 h3
  exact ⟨s.returned, by rw [exec_iret, interruptReturn_eq h1 h2 h3, redirect_ok], Place.value_word a1 s,
    Place.value_word a2 s, Place.value_word a3 s, rfl, s.returned_frame⟩

end Sys2Proof.Machine
end

section
/-! PROOFS. O50, O54 (R310 to R315): entering an interrupt, and the IRET that returns from it. -/

namespace Sys2Proof.Machine

open Sys2Proof

/-! ## The entry (R310 to R313) -/

/-- R311 to R313: INT n, INT 3 and an INTO with OF = 1 are each `Enter` of their vector. -/
theorem exec_interrupt {n : Byte} {i : Instr} {s : State}
    (h : i = .intImm n ∨ (i = .int3 ∧ n = 3) ∨ (i = .into ∧ n = 4 ∧ getFlag .of s.flags = true)) (g : Option SReg) :
    exec (under g i) s = redirect (enter n (under g i).size s) := by
  obtain rfl | ⟨rfl, rfl⟩ | ⟨rfl, rfl, hof⟩ := h
  · exact exec_intImm n g s
  · exact exec_int3 g s
  · exact exec_into_taken hof g

/-- R310: clearing TF and then IF leaves the other fourteen bits of FLAGS. -/
theorem clearTfIf_other (w : Word) {k : Nat} (h : k ∉ [8, 9]) :
    (setFlag .ief false (setFlag .tf false w)).getLsbD k = w.getLsbD k := by
  obtain ⟨htf, hief⟩ : k ≠ Flag.tf.bit ∧ k ≠ Flag.ief.bit := by simpa [Flag.bit] using h
  rw [getLsbD_setFlag, if_neg hief, getLsbD_setFlag, if_neg htf]

/-- R310: after its pushes an interrupt writes TF, IF, CS and IP alone. -/
theorem State.vectored_frame (n : Byte) (t : State) : Frame [] [.cs] [8, 9] [] 0 t (t.vectored n) :=
  (((Frame.refl (t.setFlags _)).ofFlags fun _ => clearTfIf_other t.flags).setCs _).setIp _

/-- R310: what an interrupt changes, its six stacked bytes included. -/
theorem State.entered_frame (n : Byte) (size : Nat) (s : State) :
    Frame [.sp] [.cs] [8, 9]
      [phys s.ss (s.sp - 2), phys s.ss (s.sp - 2) + 1, phys s.ss (s.sp - 4), phys s.ss (s.sp - 4) + 1,
        phys s.ss (s.sp - 6), phys s.ss (s.sp - 6) + 1] 0 s (s.entered n size) :=
  (s.stacked_frame size).trans (State.vectored_frame n _)

/-- Settles O50: an interrupt leaves its three words on the stack, then the vector is read from the memory with those
words in it. -/
theorem interruptEntry : Obligations.InterruptEntry := by
  intro n g s i hi a1 a2 a3 h1 h2 h3
  obtain ⟨hflags, hcs, hip⟩ := s.stacked_words (under g i).size
  have hsp := s.stacked_sp (under g i).size
  have hvector a := Place.value_word a (s.stacked (under g i).size)
  refine ⟨s.entered n (under g i).size, ?_, hsp, hflags, hcs, hip.trans (nextIp_toNat s _), hvector _, hvector _,
    ?_, ?_, s.entered_frame n (under g i).size⟩
  · rw [exec_interrupt hi, enter_eq h1 h2 h3, redirect_ok]
  · simp [State.entered]
  · simp [State.entered]

/-! ## The round trip (R315) -/

/-- R57, R310: an INT n that completes had room for its three words. -/
theorem stack_inBounds_of_intImm {n : Byte} {g : Option SReg} {s t : State}
    (h : exec (under g (.intImm n)) s = .next t) :
    phys s.ss (s.sp - 2) ≠ 0xFFFFF ∧ phys s.ss (s.sp - 4) ≠ 0xFFFFF ∧ phys s.ss (s.sp - 6) ≠ 0xFFFFF := by
  simp only [ne_eq, ← not_or]
  intro htop
  rw [exec_intImm, enter_top htop, redirect_error] at h
  cases h

/-- Settles O54: the addresses IRET pops from are those INT n pushed to, so it reads back the very words INT stacked. -/
theorem interruptRoundTrip : Obligations.InterruptRoundTrip := by
  intro n g g' s t u hint hss hsp hkept
  obtain ⟨h1, h2, h3⟩ := stack_inBounds_of_intImm hint
  obtain ⟨t', hint', htsp, hflags, hcs, hip, -, -, -, -, hframe⟩ := interruptEntry n g s _ (.inl rfl) h1 h2 h3
  obtain rfl : t = t' := by
    rw [hint] at hint'
    exact Host.Outcome.next.inj hint'
  have hseg : u.ss = s.ss := hss.trans (hframe.seg .ss (by decide))
  have hipAddr : phys u.ss u.sp = phys s.ss (s.sp - 6) := by rw [hseg, hsp, htsp]
  have hcsAddr : phys u.ss (u.sp + 2) = phys s.ss (s.sp - 4) := by rw [hseg, hsp, htsp]; congr 1; bv_omega
  have hflagsAddr : phys u.ss (u.sp + 4) = phys s.ss (s.sp - 2) := by rw [hseg, hsp, htsp]; congr 1; bv_omega
  obtain ⟨v, hiret, hvip, hvcs, hvflags, hvsp, -⟩ :=
    interruptReturn_loads g' u (hipAddr ▸ h3) (hcsAddr ▸ h2) (hflagsAddr ▸ h1)
  refine ⟨v, hiret, BitVec.eq_of_toNat_eq ?_, BitVec.eq_of_toNat_eq ?_, ?_, ?_⟩
  · rw [hvcs, hcsAddr, hkept _ (by simp), hcs]
  · rw [hvflags, hflagsAddr, hkept _ (by simp), hflags]
  · rw [hvsp, hsp, htsp, BitVec.sub_add_cancel]
  · rw [hvip, hipAddr, hkept _ (by simp), hip, size_under, ← Nat.add_assoc]
    rfl

end Sys2Proof.Machine
end

section
/-! PROOFS. O19 (R80, R99, R142, R404): an instruction that the image's end cuts off. -/

namespace Sys2Proof.Machine

open Sys2Proof

/-! ## A failure that more bytes do not mend (R99) -/

/-- Every failure of `p` but the want of bytes is `q`'s too. -/
def KeepsFailures {α : Type} (p q : Parse α) : Prop := ∀ f, p = .error f → f = .truncated ∨ q = .error f

theorem KeepsFailures.refl {α : Type} (p : Parse α) : KeepsFailures p p := fun _ => .inr

theorem LacksBytesOnly.keepsFailures {α : Type} {p q : Parse α} (h : LacksBytesOnly p) : KeepsFailures p q :=
  fun f hf => .inl (h f hf)

theorem KeepsFailures.map {α β : Type} {p q : Parse α} (h : KeepsFailures p q) (f : α → β) :
    KeepsFailures (Parse.map f p) (Parse.map f q) :=
  fun e he => (h e (Parse.map_error_iff.1 he)).imp_right Parse.map_error_iff.2

/-- A selector that is refused is refused whatever follows its ModRM byte. R87, R103, R105, R118, R119. -/
theorem Selects.keepsFailures {admitted : Prop} {f : DecodeFail} {p q : Parse Instr} (hp : Selects admitted f p)
    (hq : Selects admitted f q) : KeepsFailures p q := by
  by_cases ha : admitted
  · exact (hp.1 ha).keepsFailures
  · rw [hp.2 ha, hq.2 ha]
    exact .refl _

theorem KeepsFailures.withModRm {t u : List Byte} {k : Byte → List Byte → Parse Instr}
    (h : ∀ m t, KeepsFailures (k m t) (k m (t ++ u))) : KeepsFailures (withModRm t k) (withModRm (t ++ u) k) := by
  cases t with
  | nil =>
    rintro _ ⟨⟩
    exact .inl rfl
  | cons m t => exact h m t

/-- R101 to R121: the bytes `u` after those an entry was given change no failure but the want of bytes. -/
theorem Entry.parse_keepsFailures (e : Entry) (op : Byte) (t u : List Byte) :
    KeepsFailures (e.parse op t) (e.parse op (t ++ u)) := by
  cases e with
  | adcSbb => exact .refl _
  | pushSreg r | popSreg r | incReg r | decReg r | pushReg r | popReg r => exact LacksBytesOnly.ok.keepsFailures
  | pushf | popf | int3 | into | iret => exact LacksBytesOnly.ok.keepsFailures
  | stos w => cases w <;> exact LacksBytesOnly.ok.keepsFailures
  | jcc c | movReg8 r | intImm | loop k | jmpShort => exact (takeByte_lacks t).map.keepsFailures
  | movAccMem x w | movReg16 r | jmpNear => exact (takeWord_lacks t).map.keepsFailures
  | aluAccImm a w | testAccImm w => exact LacksBytesOnly.keepsFailures (.map fun _ => parseAccImm_error)
  | aluRmReg a d w | testRmReg w | movRmReg w | movRegRm w =>
    exact .withModRm fun m t => LacksBytesOnly.keepsFailures (.map fun _ => parseRmReg_error)
  | grpAlu s w => exact .withModRm fun m t => (parseGrpAlu_selects op s w m t).keepsFailures (parseGrpAlu_selects ..)
  | movRmSreg => exact .withModRm fun m t => (parseMovRmSreg_selects op m t).keepsFailures (parseMovRmSreg_selects ..)
  | movSregRm => exact .withModRm fun m t => (parseMovSregRm_selects op m t).keepsFailures (parseMovSregRm_selects ..)
  | grpPop =>
    exact .withModRm fun m t =>
      (selectsZero (.map fun _ => parseRm_error)).keepsFailures (selectsZero (.map fun _ => parseRm_error))
  | grpMov w =>
    exact .withModRm fun m t =>
      (selectsZero (.map fun _ => parseRmImm_error)).keepsFailures (selectsZero (.map fun _ => parseRmImm_error))
  | grpUnary w => exact .withModRm fun m t => (parseUnary_selects op w m t).keepsFailures (parseUnary_selects ..)
  | grpFe => exact .withModRm fun m t => (parseFe_selects op m t).keepsFailures (parseFe_selects ..)
  | grpFf => exact .withModRm fun m t => (parseFf_selects op m t).keepsFailures (parseFf_selects ..)
  | jmpFar => exact (parseFar_lacks t).keepsFailures

theorem decodeOpcode_keepsFailures (admitX rep : Bool) (op : Byte) (t u : List Byte) :
    KeepsFailures (decodeOpcode admitX rep op t) (decodeOpcode admitX rep op (t ++ u)) := by
  simp only [decodeOpcode]
  split
  · exact .refl _
  · rename_i e _
    split
    · exact .refl _
    · split
      · exact .refl _
      · exact Entry.parse_keepsFailures e op t u

theorem decodeAfter_keepsFailures (admitX seg rep : Bool) (w u : List Byte) :
    KeepsFailures (decodeAfter admitX seg rep w) (decodeAfter admitX seg rep (w ++ u)) := by
  induction w generalizing seg rep with
  | nil =>
    rintro _ ⟨⟩
    exact .inl rfl
  | cons b t ih =>
    simp only [decodeAfter, List.cons_append]
    split
    · split
      · exact .refl _
      · exact (ih true rep).map _
    · split
      · split
        · exact .refl _
        · exact (ih seg true).map _
      · exact decodeOpcode_keepsFailures admitX rep b t u

/-! ## An encoding cut short -/

/-- R81: what is read with or without tier X is read with it, however many bytes follow. -/
theorem decode_append {admitX : Bool} {w rest : List Byte} {i : Instr} (h : decode admitX w = .ok (i, rest))
    (u : List Byte) : decode true (w ++ u) = .ok (i, rest ++ u) := by
  obtain ⟨hwf, rfl⟩ := decode_reads h
  rw [List.append_assoc, decodeOfEncode i (rest ++ u) hwf]

/-- R99: of bytes that are an instruction with none left over, a proper prefix is neither an instruction, which would
be read from all of them too, nor an anomaly, which would stay one. -/
theorem decode_truncated {admitX : Bool} {w u : List Byte} {i : Instr} (h : decode admitX (w ++ u) = .ok (i, []))
    (hu : u ≠ []) : decode admitX w = .error .truncated := by
  cases hw : decode admitX w with
  | ok r =>
    obtain ⟨j, rest⟩ := r
    have hwhole := decode_append h []
    rw [List.append_nil, decode_append hw u] at hwhole
    simp only [Except.ok.injEq, Prod.mk.injEq, List.append_nil, List.append_eq_nil_iff] at hwhole
    exact absurd hwhole.2.2 hu
  | error f =>
    rcases decodeAfter_keepsFailures admitX false false w u f hw with rfl | hf
    · rfl
    · exact nomatch h.symm.trans hf

/-- R11, R81: an admitted instruction is read from its encoding. -/
theorem decode_admitted {admitX : Bool} {i : Instr} (hwf : i.wellFormed = true)
    (hX : admitX = true ∨ Instr.tierX i = false) : decode admitX (encode i) = .ok (i, []) := by
  have htrue : decode true (encode i) = .ok (i, []) := decode_encoding hwf rfl
  cases admitX with
  | true => exact htrue
  | false => exact (tierXOnlyWhenAdmitted _ i [] htrue).1 (hX.resolve_left Bool.false_ne_true)

/-! ## The step -/

/-- R80, R99: the byte that a truncated decode lacks is the one at E. -/
theorem decodeAt_truncated {s : State} {p : Nat} (hp : p ≤ s.imageEnd)
    (h : decode s.cfg.admitTierX (window s p) = .error .truncated) :
    decodeAt s p = .error (.cursorOutOfBounds s.imageEnd) := by
  rw [decodeAt_failed h, window_of_truncated h, failFault, Nat.add_sub_cancel' hp]

/-- R142, R145: with no retained record to dispatch, a failed decode ends the step. -/
theorem step_decodeAt_error {s : State} {f : Fault} (hlt : s.p0 < s.imageEnd)
    (hfresh : s.cfg.decodeCache = .none ∨ retainedAt s.dtable s.ip = none) (h : decodeAt s s.p0 = .error f) :
    step s = .fault f := by
  rcases hfresh with hc | hn
  · exact step_decodeAt_failed hlt hc h
  · exact step_recordAt_error hlt (recordAt_of_decodeAt_error (fun _ hd => nomatch hn.symm.trans hd) h)

/-- Settles O19: the bytes below E are a proper prefix of the encoding, so their decode lacks the byte at E. -/
theorem straddlingInstructionIsFatal : Obligations.StraddlingInstructionIsFatal := by
  intro s i hwf hX hfresh hlt hcut hwindow
  refine step_decodeAt_error hlt hfresh (decodeAt_truncated hlt.le ?_)
  rw [hwindow]
  refine decode_truncated (u := (encode i).drop (s.imageEnd - s.p0)) (i := i) ?_ ?_
  · rw [List.take_append_drop, decode_admitted hwf hX]
  · rw [ne_eq, List.drop_eq_nil_iff, encode_length]
    omega

end Sys2Proof.Machine
end

section
/-! PROOFS. O58 (R35, R390 to R392): the loader. -/

namespace Sys2Proof.Machine

open Sys2Proof

/-- R390: an image that ends past the last address. -/
theorem load_tooLarge {image : List Byte} {seg off : Word} (h : Config.memSize < phys seg off + image.length)
    (cfg : Config) : load cfg (some image) seg off = .error .loaderCapacity := by
  rw [load, if_pos h]

/-- R390, R392. -/
theorem load_fits {image : List Byte} {seg off : Word} (h : phys seg off + image.length ≤ Config.memSize)
    (cfg : Config) : load cfg (some image) seg off = .ok (bootState cfg image seg off) := by
  rw [load, if_neg (Nat.not_lt.2 h)]

/-- R390: the image's bytes lie from O on. -/
theorem bootState_read_image (cfg : Config) {image : List Byte} (seg off : Word) {k : Nat} (h : k < image.length) :
    (bootState cfg image seg off).mem.read (phys seg off + k) = image[k] := by
  simp [bootState, Memory.read_writeBytes, h]

/-- R35, R390: memory outside the image is 0. -/
theorem bootState_read_outside (cfg : Config) {image : List Byte} {seg off : Word} {a : Nat}
    (h : a < phys seg off ∨ phys seg off + image.length ≤ a) : (bootState cfg image seg off).mem.read a = 0 := by
  rw [bootState, Memory.read_writeBytes, dif_neg (by omega), Memory.read_nil]

/-- R391: E of an empty image is O, where the first step fetches. -/
theorem step_bootState_nil (cfg : Config) (seg off : Word) :
    step (bootState cfg [] seg off) = .fault (.endOfImage (phys seg off)) :=
  step_endOfImage (s := bootState cfg [] seg off) (Nat.le_refl _)

/-- Settles O58: the loader answers the boot state of an image that fits. -/
theorem loaderGivesBootState : Obligations.LoaderGivesBootState := by
  intro cfg image seg off o
  refine ⟨rfl, fun h => load_tooLarge h cfg, fun h => ⟨bootState cfg image seg off, load_fits h cfg, ?_⟩⟩
  refine ⟨fun r => by cases r <;> rfl, rfl, rfl, rfl, rfl, rfl, rfl, fun k hk => bootState_read_image cfg seg off hk,
    fun a ha => bootState_read_outside cfg ha, rfl, rfl, rfl, rfl, rfl, rfl, rfl, ?_⟩
  rintro rfl
  exact step_bootState_nil cfg seg off

end Sys2Proof.Machine
end
